-- ==== Sys2Proof/Word.lean ====
section
/-! DEFINITION. The word types of the block (spec/00_scope.md R9, R11): a byte and a 4-bit count. -/

namespace Sys2Proof

/-- A byte: the width `SR_WIDTH` = `TIMER_WIDTH` = 8 of R9, and the element width of every buffer (R10). -/
abbrev Byte := BitVec 8

/-- A count: the width `CNT_WIDTH` = 4 of the bit counter (R9, R22). -/
abbrev Count := BitVec 4

end Sys2Proof
end

