-- ==== Sys2Proof/Config.lean ====
section
/-! DEFINITION. The implementation parameters of spec/00_scope.md R9 and the free values of the model.
An `opaque` constant is a parameter that the spec leaves OPEN: nothing in Lean can prove a value of it, so what is
proved holds whatever it is. The parameters that the spec fixes are plain definitions. -/

namespace Sys2Proof.Config

/-- `P_T_LOW`, the I2C low-phase delay, a duration (R9, R131): OPEN. -/
opaque pTLow : Nat

/-- `P_T_HIGH`, the I2C high-phase delay, a duration (R9, R131): OPEN. -/
opaque pTHigh : Nat

/-- `P_F_CLK`, the clock frequency (R9): OPEN. -/
opaque pFClk : Nat

/-- `P_TIMER_PRESCALE` (R9): OPEN. -/
opaque pTimerPrescale : Nat

/-- One less than `P_TCMP`: R9 bounds the parameter by 1..255, and this type has exactly those 255 values. -/
opaque pTcmpPred : Fin 255

/-- `P_TCMP`, the timer compare threshold, 1..255 (R9): OPEN inside that range. -/
def pTcmp : Byte := BitVec.ofNat 8 (pTcmpPred.val + 1)

/-- `P_BAUD` = `P_F_CLK / P_TIMER_PRESCALE / P_TCMP` (R9). R9 gives only the quotient. DESIGN CHOICE
(notes/assumptions/18.md): the two quotients are those of natural numbers, rounded down where a division leaves a rest,
and 0 where `P_TIMER_PRESCALE` is 0. No rule and no step reads it. Unsafe: a chip can round another way. -/
def pBaud : Nat := pFClk / pTimerPrescale / pTcmp.toNat

/-- `P_UART_PRELOAD`: 8, so that a frame's overflow comes after 8 compare events (R92, 90_conflicts.md C2). -/
def pUartPreload : Count := 8

/-- `P_UART_FILL`: the bit shifted into `SR[0]` by the k-th timer-clocked shift, a fresh draw each time (R161, D19).
A FREE VALUE: no body. -/
opaque uartFill : Nat → Bool

/-- How many instants the timer that runs on for ever (R160) lets pass before it ticks again. A FREE VALUE: no body. It
is a natural number, so the timer ticks again at some time: the weak fairness of R160. -/
opaque tickGap : Nat → Nat

/-- How often the timer that runs on for ever (R160) ticks in one instant, after the first time. A FREE VALUE: no
body. -/
opaque tickBurst : Nat → Nat

/-- `P_ACK_FRAME` (R9, R84). -/
def pAckFrame : Byte := 0x00

/-- `P_NACK_FRAME` (R9, R84). -/
def pNackFrame : Byte := 0xFF

/-- `P_PIN_SCL`, `P_PIN_SDA`, `P_PIN_TXD` (R9, D34): OPEN; no rule reads them. -/
opaque pPinScl : Nat
/-- See `pPinScl`. -/
opaque pPinSda : Nat
/-- See `pPinScl`. -/
opaque pPinTxd : Nat

/-- `P_LINE_TERMINATOR`: the bytes `uart_send_line` appends, possibly none (R9, R173, D29): OPEN. -/
opaque pLineTerminator : List Byte

/-- `P_REG_BASE` (R9, R64, D38): OPEN; the model addresses every register by name. -/
opaque pRegBase : Nat

/-- The offset of the k-th register of R42's table from `P_REG_BASE` (R9, D38): OPEN. -/
opaque pRegOffset : Nat → Nat

/-- The vector of the overflow interrupt (R64, R195): OPEN. -/
opaque pIrqVector : Nat

/-- The bit that stands for the k-th bus or wire value observed while the two engines overlap: spec/93 U3 says of them
that 'all bus and wire values are then any value'. A FREE VALUE: no body. -/
opaque overlapBit : Nat → Bool

end Sys2Proof.Config
end

