-- ==== Sys2Proof/Syntax.lean ====
section
/-! DEFINITION. The operations of the block, one constructor per row of spec/opcode_table.json (R3, R94). -/

namespace Sys2Proof

/-- The operations, micro-operations and hardware events of R94's opcode map. -/
inductive Instr where
  /-- `I2C_WRITE`, 0x10: the slave address and the bytes to send (R144). -/
  | i2cWrite (address : Byte) (data : List Byte)
  /-- `I2C_READ`, 0x11: the slave address and the length of the output buffer (R145). -/
  | i2cRead (address : Byte) (len : Nat)
  /-- `UART_SEND`, 0x20 (R166). -/
  | uartSend (b : Byte)
  /-- `UART_SEND_STR`, 0x21 (R172). -/
  | uartSendStr (bytes : List Byte)
  /-- `UART_SEND_LINE`, 0x22 (R173). -/
  | uartSendLine (bytes : List Byte)
  /-- `CS_ENTER`, 0x30 (R112). -/
  | csEnter
  /-- `CS_EXIT`, 0x31 (R113). -/
  | csExit
  /-- `I2C_START`, 0x40 (R125). -/
  | i2cStart
  /-- `I2C_STOP`, 0x41 (R126). -/
  | i2cStop
  /-- `I2C_XFER`, 0x42: the number of bits, 1 or 8 (R124). -/
  | i2cXfer (n : Nat)
  /-- `I2C_BIT_CLOCK`, 0x43 (R123). -/
  | i2cBitClock
  /-- `I2C_WAIT_SCL_HIGH`, 0x44 (R122). -/
  | i2cWaitSclHigh
  /-- `I2C_BYTE_OUT`, 0x45 (R127). -/
  | i2cByteOut (b : Byte)
  /-- `I2C_BYTE_IN`, 0x46 (R128). -/
  | i2cByteIn
  /-- `I2C_ACK_CHECK`, 0x47 (R129). -/
  | i2cAckCheck
  /-- `I2C_MASTER_ACK`, 0x48: `false` is ACK (0), `true` is NACK (1) (R130). -/
  | i2cMasterAck (nack : Bool)
  /-- `I2C_OPEN`, 0x49 (R140). -/
  | i2cOpen
  /-- `I2C_CLOSE`, 0x4A (R141). -/
  | i2cClose
  /-- `I2C_ADDRESS`, 0x4B: `false` is write (0), `true` is read (1) (R143). -/
  | i2cAddress (rw : Bool)
  /-- `UART_FRAMES`, 0x50 (R165). -/
  | uartFrames (b : Byte)
  /-- `UART_WAIT_IDLE`, 0x51 (R167). -/
  | uartWaitIdle
  /-- `TIMER_COMPARE`, 0x60 (R161). -/
  | timerCompare
  /-- `USI_OVF_IRQ`, 0x61 (R168, R169, R170, R195, R196). -/
  | usiOvfIrq
  deriving DecidableEq, Repr

/-- The three formats of R94. -/
inductive Format where
  /-- Invoked by the caller. -/
  | cmd
  /-- An internal step of a `CMD`, never invoked by a caller. -/
  | uop
  /-- Taken by `HW` or `ISR`, never invoked. -/
  | evt
  deriving DecidableEq, Repr

/-- The format column of R94's map. -/
def Instr.format : Instr → Format
  | .i2cWrite _ _ | .i2cRead _ _ | .uartSend _ | .uartSendStr _ | .uartSendLine _ | .csEnter | .csExit => .cmd
  | .i2cStart | .i2cStop | .i2cXfer _ | .i2cBitClock | .i2cWaitSclHigh | .i2cByteOut _ | .i2cByteIn | .i2cAckCheck
  | .i2cMasterAck _ | .i2cOpen | .i2cClose | .i2cAddress _ | .uartFrames _ | .uartWaitIdle => .uop
  | .timerCompare | .usiOvfIrq => .evt

/-- Why a byte string is no command descriptor of R93, R94. -/
inductive DecodeError where
  /-- The first byte is not in R94's map (R96 (a)). Safe: the spec refuses it. -/
  | unknownOpcode
  /-- The byte string ends before the descriptor's operands do (R93). Safe: it is no descriptor. -/
  | truncated
  /-- A one-bit operand byte holds neither 0 nor 1 (R94's operand column). Safe: it is no descriptor. -/
  | operandNotBit
  deriving DecidableEq, Repr

end Sys2Proof
end

