-- ==== Sys2Proof/Machine/State.lean ====
section
/-! DEFINITION. The state of the block: every variable of spec/10_state.md, the environment's inputs, the two
observations, and the reasons a step can stop. -/

namespace Sys2Proof.Machine

/-- `CLKSRC`, the shift-clock select (R25). -/
inductive ClkSrc where
  /-- Nothing advances `CNT` or shifts `SR`. -/
  | off
  /-- The I2C engine's software bit clock does. -/
  | strobe
  /-- Each timer compare event does. -/
  | timer
  deriving DecidableEq, Repr

/-- `SCL_OUT`, the master's drive of the clock line (R27). -/
inductive SclDrive where
  | low
  | released
  deriving DecidableEq, Repr

/-- `SDA_OUT`, the master's drive of the data line (R28). -/
inductive SdaDrive where
  | low
  | released
  | fromSr
  deriving DecidableEq, Repr

/-- `TXD_SRC`, the source of the UART output pin (R29). -/
inductive TxdSrc where
  | idleHigh
  | fromSr
  deriving DecidableEq, Repr

/-- `TMODE`, the timer's mode (R30). -/
inductive TimerMode where
  | stopped
  | freeRunCompare
  deriving DecidableEq, Repr

/-- `UART_STATE`, the UartTxState: exactly three values (R35, R96 (d)). -/
inductive UartTxState where
  | idle
  | pendingByte (frame : Byte)
  | awaitingStop
  deriving DecidableEq, Repr

/-- `I2C_TXN`: whether an I2cTransaction exists (R36). -/
inductive I2cTxn where
  | none
  | opened
  deriving DecidableEq, Repr

/-- `I2C_RESULT` (R37, R95). -/
inductive I2cResult where
  | ok
  | errNoAck
  deriving DecidableEq, Repr

/-- Where a byte that `uart_send` is invoked for comes from: a byte of the caller's memory, read when the invocation's
turn comes (R69 (c)), or a value that is no part of a buffer (R166, R173). -/
inductive ByteSource where
  | buffer (address : Nat)
  | value (b : Byte)
  deriving DecidableEq, Repr

/-- What the last operation that returns a value has returned to whoever invoked it (R95, R124, R128, R165). The
operations that return nothing leave it. -/
inductive Ret where
  | none
  | byte (v : Byte)
  | frames (f1 f2 : Byte)
  | result (r : I2cResult)
  deriving DecidableEq, Repr

/-- A region of pseudocode that a line can leave: the loop of `I2C_XFER` (R124), the I2cTransaction that `raise NoAck`
leaves (R141), the branch of a failed `Idle` check (R166, R167), the error path of a lone `I2C_ADDRESS` (R143). -/
inductive Scope where
  | xfer
  | txn
  | busy
  | raised
  deriving DecidableEq, Repr

/-- The lines of the pseudocode, a line that writes two registers being two of them (R63): what `FG` does in one step. A
list of them is a position of `FG` inside an operation (R41 (a)): what it has still to do. -/
inductive Line where
  /-- `delay(P_T_LOW)` (R131). -/
  | delayLow
  /-- `delay(P_T_HIGH)` (R131). -/
  | delayHigh
  /-- `SCL_OUT <- Low`. -/
  | sclLow
  /-- `SCL_OUT <- Released`. -/
  | sclRelease
  /-- `SDA_OUT <- Low`. -/
  | sdaLow
  /-- `SDA_OUT <- Released`. -/
  | sdaRelease
  /-- `SDA_OUT <- FromSR`. -/
  | sdaFromSr
  /-- `I2C_WAIT_SCL_HIGH`: spin until `SCL_line = 1` (R122). -/
  | waitScl
  /-- Lines 3 and 4 of R123: spin until `SCL_line = 1`, and in the step that sees it sample and count. -/
  | riseSample
  /-- Line 7 of R123: shift and count. -/
  | fallShift
  /-- `CNT <- 16 - 2n ; OVF <- 0` (R124). -/
  | preload (n : Nat)
  /-- `until OVF = 1` (R124): leaves the loop when it holds. -/
  | untilOvf
  /-- `repeat` (R124): back to the next bit-clock. -/
  | strobeBack
  /-- `SR <- b` (R127, R130). -/
  | loadSr (b : Byte)
  /-- `I2C_ACKBIT <- v[0]` (R129). -/
  | ackLatch
  /-- The end of a region. -/
  | scopeEnd (m : Scope)
  /-- `OVIE <- 0` (R140). -/
  | usiMask
  /-- `CLKSRC <- Strobe` (R140). -/
  | usiStrobe
  /-- `I2C_TXN <- Open` (R140). -/
  | txnOpen
  /-- `I2C_TXN <- None` (R141). -/
  | txnClose
  /-- `CLKSRC <- Off` (R141). -/
  | giveUsi
  /-- `I2C_RW <- … ; I2C_ADDR <- … ; I2C_BUF <- … ; I2C_LEN <- …` (R144, R145). -/
  | invoke (rw : Bool) (address : Byte) (len : Nat)
  /-- `SR <- trunc_8((I2C_ADDR << 1) | rw)` (R143). -/
  | loadAddress (rw : Bool)
  /-- `if I2C_ACKBIT = 1: raise NoAck` (R143, R144). -/
  | raiseIfNack
  /-- The end of a lone `I2C_ADDRESS` that has raised nothing. -/
  | notRaised
  /-- The head of `for I2C_IDX in 0 .. I2C_LEN-1`. -/
  | loopStart
  /-- `SR <- buf[I2C_IDX]` (R144). -/
  | loadBuf
  /-- `buf[I2C_IDX] <- v` (R145). -/
  | storeBuf
  /-- `SR <-` the ACK frame while more bytes are wanted, the NACK frame after the final one (R145). -/
  | loadMasterAck
  /-- The next `I2C_IDX`. -/
  | idxNext
  /-- `I2C_RESULT <- Ok` (R141). -/
  | okReturn
  /-- `CS_ENTER` inside an operation (R112). -/
  | csEnter
  /-- `CS_EXIT` inside an operation (R113). -/
  | csExit
  /-- `return SR` (R124, R128). -/
  | returnSr
  /-- `return Ok` or `return Err(NoAck)` (R141). -/
  | returnResult
  /-- `if UART_STATE = Idle` (R166, R167). -/
  | uartTest
  /-- `loop` (R166, R167): back to the next check. -/
  | spinBack
  /-- `uart_send` is invoked for a byte: its operand is sampled (R69 (b), (c)). -/
  | uartInvoke (src : ByteSource)
  /-- `uart_send` has returned to `uart_send_str`, which goes on to the next byte (R172). -/
  | uartNext (src : ByteSource)
  /-- `SR <- f1` (R166). -/
  | uartLoad
  /-- `CNT <- P_UART_PRELOAD ; OVF <- 0` (R166). -/
  | uartArm
  /-- `UART_STATE <- PendingByte(f2)` (R166). -/
  | uartPend
  /-- `OVIE <- 1` (R166). -/
  | uartEnable
  /-- `TXD_SRC <- FromSR` (R166). -/
  | uartPin
  /-- `CLKSRC <- Timer` (R166). -/
  | uartClock
  /-- Line 1 of R222. -/
  | bootHandle
  /-- `SCL_OUT <- Released`, line 2 of R222. -/
  | bootScl
  /-- `SDA_OUT <- Released`, line 2 of R222. -/
  | bootSda
  /-- Line 3 of R222. -/
  | bootTxd
  /-- `CLKSRC <- Off`, line 4 of R222. -/
  | bootClock
  /-- `OVIE <- 0`, line 4 of R222. -/
  | bootMask
  /-- `OVF <- 0`, line 4 of R222. -/
  | bootFlag
  /-- `TCMP <- P_TCMP`, line 5 of R222. -/
  | bootThreshold
  /-- `TMODE <- FreeRunCompare`, line 5 of R222. -/
  | bootTimer
  /-- Line 6 of R222. -/
  | bootUart
  /-- Line 7 of R222. -/
  | bootGie
  deriving DecidableEq, Repr

/-- What the agents other than `FG` and `ISR` can do between two of their steps (R66 (O5), (O6)). -/
inductive EnvMove where
  /-- `PEER` sets `PEER_SDA_LOW` (R32, R120). -/
  | peerSda (low : Bool)
  /-- `PEER` sets `PEER_SCL_LOW` (R32, R120). -/
  | peerScl (low : Bool)
  /-- One tick of the timer, with its compare event when the count reaches the threshold (R30). -/
  | tick
  /-- The timer that runs on for ever (R160): it ticks in this instant, and lists itself again for a later one. How often
  it ticks now and how many instants lie between are free values (notes/assumptions/5.md). -/
  | freeRun
  deriving DecidableEq, Repr

/-- Who invokes an operation (R13, R94). -/
inductive Origin where
  /-- The caller: the code outside the block that invokes its operations (R6). -/
  | caller
  /-- The engines, which alone perform micro-operations. -/
  | engine
  /-- `HW` and the interrupt, which alone take events. -/
  | hardware
  deriving DecidableEq, Repr

/-- The format whose operations an origin may present (R94, R96 (a)). -/
def Origin.presents : Origin → Format
  | .caller => .cmd
  | .engine => .uop
  | .hardware => .evt

/-- How an operation is invoked (R93, R98; notes/assumptions/28.md). -/
inductive Invocation where
  /-- A call of the operation with its operands (R98), a buffer of any length among them (R10, R148 (f)). -/
  | call (i : Instr)
  /-- The bytes of its command descriptor, whose buffers have at most 255 bytes (R93). -/
  | descriptor (bytes : List Byte)
  deriving DecidableEq, Repr

/-- An operation that waits to be performed: who invokes it and how, and where in the caller's memory the buffer it
names lies (R60 (b); notes/assumptions/4.md). -/
structure Request where
  origin : Origin
  invocation : Invocation
  buf : Nat := 0
  deriving DecidableEq, Repr

/-- The bus events of R121. -/
inductive BusEvent where
  | start
  | stop
  | bit (v : Bool)
  deriving DecidableEq, Repr

/-- Why the machine stops with a fault. -/
inductive Fault where
  /-- The overflow interrupt was entered with `UART_STATE = Idle`: `USI_OVF_IRQ` raises it (R170, spec/93 U4). Safe:
  the spec defines no transition there and asks for a fault. -/
  | handlerInIdle
  deriving DecidableEq, Repr

/-- Why an operation is refused. -/
inductive Refusal where
  /-- The instruction has no meaning yet: an arm of `exec` raises it. Safe: nothing is claimed of it. -/
  | notModelled (mnemonic : String)
  /-- An I2C or UART command was invoked before boot, `PERIPH_INIT = 0`: the commands of R144, R145, R166, R172 and
  R173 raise it (spec/93 U8). Safe: the spec refuses the call. -/
  | notInitialised
  /-- `CS_EXIT` with no critical section open: `CS_EXIT` raises it (R113, spec/93 U2). Safe: the spec refuses it. -/
  | noOpenSection
  /-- `I2C_XFER` of a number of bits other than 1 and 8: `I2C_XFER` raises it (R96 (c), spec/93 U10). Safe: the spec
  refuses it. -/
  | transferLength (n : Nat)
  /-- An operation invoked by an origin whose format it is not, such as a micro-operation presented as a caller
  command: the fetch raises it (R96 (a), spec/93 U10). Safe: the spec refuses it. -/
  | wrongOrigin (origin : Origin) (format : Format)
  /-- Bytes that are no command descriptor: the fetch raises it (R96 (a)). Safe: the spec refuses them. -/
  | badDescriptor (e : DecodeError)
  deriving DecidableEq, Repr

/-- The machine's state: plain data. -/
structure State where
  -- the Shared Hardware Resource (R20 to R31)
  /-- `SR`, the shift register (R21). -/
  sr : Byte
  /-- `CNT`, the bit counter (R22). -/
  cnt : Count
  /-- `OVF`, the counter overflow flag (R23). -/
  ovf : Bool
  /-- `OVIE`, the overflow interrupt enable (R24). -/
  ovie : Bool
  /-- `CLKSRC` (R25). -/
  clksrc : ClkSrc
  /-- `DIN`, the data-in sample latch (R26). -/
  din : Bool
  /-- `SCL_OUT` (R27). -/
  sclOut : SclDrive
  /-- `SDA_OUT` (R28). -/
  sdaOut : SdaDrive
  /-- `TXD_SRC` (R29). -/
  txdSrc : TxdSrc
  /-- `TCNT` (R30). -/
  tcnt : Byte
  /-- `TCMP` (R30). -/
  tcmp : Byte
  /-- `TMODE` (R30). -/
  tmode : TimerMode
  /-- `GIE`, the global interrupt enable (R31). -/
  gie : Bool
  -- bookkeeping (R33 to R38)
  /-- `PERIPH_INIT` (R33). -/
  periphInit : Bool
  /-- `CS_SAVED`, the innermost saved state first (R34). -/
  csSaved : List Bool
  /-- `UART_STATE` (R35). -/
  uartState : UartTxState
  /-- `I2C_TXN` (R36). -/
  i2cTxn : I2cTxn
  /-- `I2C_RW` (R37). -/
  i2cRw : Bool
  /-- `I2C_ADDR` (R37). -/
  i2cAddr : Byte
  /-- `I2C_BUF` (R37): where the buffer operand lies in the caller's memory. -/
  i2cBuf : Nat
  /-- `I2C_LEN` (R37). -/
  i2cLen : Nat
  /-- `I2C_IDX` (R37). -/
  i2cIdx : Nat
  /-- `I2C_ACKBIT` (R37). -/
  i2cAckbit : Bool
  /-- `I2C_RESULT` (R37). -/
  i2cResult : I2cResult
  /-- `IN_ISR` (R38). -/
  inIsr : Bool
  /-- `b`, the operand of the `uart_send` that `FG` is inside (R166), read once (R69 (b)). -/
  uartByte : Byte
  -- memory: the caller's buffers (R60 (b))
  /-- The caller's memory, in canonical form: byte `i` of the buffer `buf` lies at `buf + i` (R12, R71). -/
  mem : List Host.Cell
  /-- The model's own: where the buffer of the operation being invoked lies. -/
  operandAt : Nat
  /-- The model's own: what the caller stores into its memory at its coming turns, one list a turn (R69 (c)). -/
  callerStores : List (List Host.Cell)
  -- control
  /-- `FG`'s position (R41 (a)): the lines it has still to perform of the operation it is inside, none when outside. -/
  fg : List Line
  /-- The model's own: the value last returned to an invoker. -/
  ret : Ret
  -- the environment
  /-- `PEER_SDA_LOW` (R32). -/
  peerSdaLow : Bool
  /-- `PEER_SCL_LOW` (R32). -/
  peerSclLow : Bool
  /-- The model's own: what the other agents do at the coming instants between two steps, one list an instant. An entry
  `freeRun` is the weak fairness of the timer (R160). -/
  env : List (List EnvMove)
  /-- The model's own: the operations that wait to be performed, in the order in which they are taken. -/
  requests : List Request
  -- free values
  /-- The model's own: how many free values have been drawn. -/
  draws : Nat
  /-- The model's own: an I2C transaction has been opened while `UART_STATE` was not `Idle` (spec/93 U3), so bus and
  wire values are any value. -/
  overlap : Bool
  -- the observations (R121, R162)
  /-- The bus trace so far, oldest event first (R121). -/
  busTrace : List BusEvent
  /-- The value of `SDA_line` at a rise of `SCL_line` that no later edge or framing event has settled (R121). -/
  busRise : Option Bool
  /-- The UART wire trace so far, oldest slot first (R162). -/
  wireTrace : List Bool
  /-- A compare event has begun a bit slot (R162). -/
  slotOpen : Bool
  deriving DecidableEq, Repr

/-- The boot sequence of R222, access by access: where `FG` stands when the process lifetime begins. -/
def bootLines : List Line :=
  [.bootHandle, .bootScl, .bootSda, .bootTxd, .bootClock, .bootMask, .bootFlag, .bootThreshold, .bootTimer, .bootUart,
    .bootGie]

/-- The machine right after reset (R220, R221 and the reset column of R42). The variables that the spec calls
unspecified hold zero, a DESIGN CHOICE of notes/assumptions/1.md. -/
def State.reset : State where
  sr := 0
  cnt := 0
  ovf := false
  ovie := false
  clksrc := .off
  din := false
  sclOut := .released
  sdaOut := .released
  txdSrc := .idleHigh
  tcnt := 0
  tcmp := 0
  tmode := .stopped
  gie := false
  periphInit := false
  csSaved := []
  uartState := .idle
  i2cTxn := .none
  i2cRw := false
  i2cAddr := 0
  i2cBuf := 0
  i2cLen := 0
  i2cIdx := 0
  i2cAckbit := false
  i2cResult := .ok
  inIsr := false
  uartByte := 0
  mem := []
  operandAt := 0
  callerStores := []
  fg := bootLines
  ret := .none
  peerSdaLow := false
  peerSclLow := false
  env := []
  requests := []
  draws := 0
  overlap := false
  busTrace := []
  busRise := none
  wireTrace := []
  slotOpen := false

end Sys2Proof.Machine
end

