-- ==== Sys2Proof/Machine/Operands.lean ====
section
/-! DEFINITION. The values the operations compute from their operands (spec/30_encoding.md R81 to R99). -/

namespace Sys2Proof.Machine

/-- A bit as a byte. -/
def bitValue (b : Bool) : Byte := if b then 1 else 0

/-- `ADDR_BYTE = trunc_8((address << 1) | rw_bit)`: `address[7]` is shifted out (R81). -/
def addressByte (address : Byte) (rw : Bool) : Byte := (address <<< 1) ||| bitValue rw

/-- `rev8(v)[i] = v[7-i]` (R11). -/
def rev8 (v : Byte) : Byte :=
  BitVec.ofBoolListLE
    [v.getLsbD 7, v.getLsbD 6, v.getLsbD 5, v.getLsbD 4, v.getLsbD 3, v.getLsbD 2, v.getLsbD 1, v.getLsbD 0]

/-- `L9(B) = zext_9(B) << 1`: the start bit and the data bits (R88). -/
def logicalFrame9 (b : Byte) : BitVec 9 := b.setWidth 9 <<< 1

/-- `LF1(B) = trunc_8((B << 2) | 1)` (R89). -/
def logicalFrame1 (b : Byte) : Byte := (b <<< 2) ||| 0x01

/-- `LF2(B) = (B >> 6) | 0xFC` (R90). -/
def logicalFrame2 (b : Byte) : Byte := (b >>> 6) ||| 0xFC

/-- `F1(B) = rev8(LF1(B))` (R91, R165). -/
def frame1 (b : Byte) : Byte := rev8 (logicalFrame1 b)

/-- `F2(B) = rev8(LF2(B))` (R91, R165). -/
def frame2 (b : Byte) : Byte := rev8 (logicalFrame2 b)

/-- The frame the master loads to acknowledge: `P_ACK_FRAME` for 0, `P_NACK_FRAME` for 1 (R84, R130). -/
def masterAckFrame (nack : Bool) : Byte := if nack then Config.pNackFrame else Config.pAckFrame

/-- The result byte of R95: 0x00 = `Ok`, 0x01 = `Err(NoAck)`. -/
def resultByte : I2cResult → Byte
  | .ok => 0x00
  | .errNoAck => 0x01

/-- `{v[6:0], b}`: the shift towards bit 7 (R21). -/
def shiftIn (v : Byte) (b : Bool) : Byte := (v <<< 1) ||| bitValue b

/-- The bits of a byte in the order in which they cross the bus, bit 7 first (R61 (b)). -/
def bitsMsbFirst (v : Byte) : List Bool :=
  [v.getLsbD 7, v.getLsbD 6, v.getLsbD 5, v.getLsbD 4, v.getLsbD 3, v.getLsbD 2, v.getLsbD 1, v.getLsbD 0]

/-- The ten slots of a framed character: `0, B[0], …, B[7], 1` (R87). -/
def framedCharacter (b : Byte) : List Bool :=
  [false, b.getLsbD 0, b.getLsbD 1, b.getLsbD 2, b.getLsbD 3, b.getLsbD 4, b.getLsbD 5, b.getLsbD 6, b.getLsbD 7, true]

end Sys2Proof.Machine
end

