-- ==== Sys2Proof/Machine/Flags.lean ====
section
/-! DEFINITION. The conditions of the block: the counter and its overflow flag, the interrupt condition
(spec/10_state.md R22, R23, R40; spec/60_exceptions.md R193). -/

namespace Sys2Proof.Machine

/-- One advance of `CNT`, modulo 16: the advance from 15 to 0 is the overflow and sets `OVF`; nothing here clears it
(R22, R23, R99). -/
@[simps] def advance (s : State) : State :=
  { s with cnt := s.cnt + 1, ovf := s.ovf || s.cnt + 1 == 0 }

/-- A counter preload, which also clears `OVF` (R23, R63). -/
@[simps] def preloadCounter (v : Count) (s : State) : State :=
  { s with cnt := v, ovf := false }

/-- `PRELOAD(n) = 16 - 2n`, the preload of an `n`-bit I2C transfer (R83). -/
def i2cPreload (n : Nat) : Count := BitVec.ofNat 4 (16 - 2 * n)

/-- An edge of the strobed clock: it advances the counter when the strobe is the shift clock, and only then (R22,
R25). -/
def countEdge (s : State) : State :=
  if s.clksrc = .strobe then advance s else s

/-- The interrupt condition: `OVF = 1 and OVIE = 1 and GIE = 1 and IN_ISR = 0` (R193). -/
def irqPending (s : State) : Bool := s.ovf && s.ovie && s.gie && !s.inIsr

/-- `FG` takes no step now: the handler is executing, or is due before `FG`'s next step (R38, R194). -/
def fgHeld (s : State) : Bool := s.inIsr || irqPending s

end Sys2Proof.Machine
end

