-- ==== Sys2Proof/Machine/Ops.lean ====
section
/-! DEFINITION. The shared operations: the caller's memory, the lines and their observation, the timer, what the
other agents do between two steps, the caller's turn, the lines of pseudocode, the sequencer, and interrupt entry and
return. -/

namespace Sys2Proof.Machine

/-! ### The caller's memory (R60 (b), R71) -/

/-- What a byte of the caller's memory that nothing has written reads as: a DESIGN CHOICE (notes/assumptions/3.md). -/
def Memory.blank : Byte := 0

/-- `MemRead(buf + i, 1)` (R71). -/
def Memory.read : List Host.Cell → Nat → Byte
  | [], _ => Memory.blank
  | (k, b) :: m, i => if i = k then b else Memory.read m i

/-- `MemWrite(buf + i, 1, v)` (R71), in canonical form: a cell that holds the blank value is not listed. -/
def Memory.write : List Host.Cell → Nat → Byte → List Host.Cell
  | [], i, v => if v = Memory.blank then [] else [(i, v)]
  | (k, b) :: m, i, v =>
    if i < k then (if v = Memory.blank then (k, b) :: m else (i, v) :: (k, b) :: m)
    else if i = k then (if v = Memory.blank then m else (i, v) :: m)
    else (k, b) :: Memory.write m i v

/-- Every cell lies at `lo` or above, addresses strictly rise, no cell holds the blank value. -/
def Memory.wfFrom : Nat → List Host.Cell → Bool
  | _, [] => true
  | lo, (k, b) :: m => decide (lo ≤ k) && b != Memory.blank && Memory.wfFrom (k + 1) m

/-- The canonical form of a memory. -/
def Memory.wf (m : List Host.Cell) : Bool := Memory.wfFrom 0 m

/-- Several stores, in order. -/
def Memory.store (m : List Host.Cell) (cells : List Host.Cell) : List Host.Cell :=
  cells.foldl (fun m c => Memory.write m c.1 c.2) m

/-- The cells of a buffer that lies at `a` and holds `d`. -/
def bufferCells : Nat → List Byte → List Host.Cell
  | _, [] => []
  | a, b :: d => (a, b) :: bufferCells (a + 1) d

/-- The input buffer that a command names, with the bytes that its invocation lists, lies in the caller's memory when
the command is invoked (R60 (b), R93; notes/assumptions/4.md). -/
@[simps] def layOperand (d : List Byte) (s : State) : State :=
  { s with mem := Memory.store s.mem (bufferCells s.operandAt d) }

/-- The byte that `uart_send` is invoked for (R69). -/
def sourceByte (s : State) : ByteSource → Byte
  | .buffer a => Memory.read s.mem a
  | .value b => b

/-- `uart_send` is invoked for a byte, and samples it (R69 (b), (c)). -/
@[simps] def sampleByte (src : ByteSource) (s : State) : State := { s with uartByte := sourceByte s src }

/-! ### The lines and their observation (R32, R121, R162) -/

/-- `SCL_line` (R32). -/
def sclLine (s : State) : Bool := !(s.sclOut == .low || s.peerSclLow)

/-- `SDA_line` (R32). -/
def sdaLine (s : State) : Bool :=
  !(s.sdaOut == .low || (s.sdaOut == .fromSr && !s.sr.getLsbD 7) || s.peerSdaLow)

/-- `TXD_line` (R32). -/
def txdLine (s : State) : Bool :=
  match s.txdSrc with
  | .idleHigh => true
  | .fromSr => s.sr.getLsbD 7

/-- The value that stands for a bus or wire value `v`: `v` itself, and any value while the engines overlap (spec/93
U3). -/
def seenBit (s : State) (v : Bool) : Bool := if s.overlap then Config.overlapBit s.draws else v

/-- One free value has been drawn, if the engines overlap. -/
def drawSeen (s : State) : State := if s.overlap then { s with draws := s.draws + 1 } else s

/-- The observation of one step from `s` to `t` on the bus: `START` and `STOP` are changes of `SDA_line` while
`SCL_line` is 1 before and after, `BIT(v)` is a rise of `SCL_line` whose next edge or framing event is its fall
(R121). -/
def observe (s t : State) : State :=
  match sclLine s, sclLine t with
  | false, true => drawSeen { t with busRise := some (seenBit t (sdaLine t)) }
  | true, false =>
    match t.busRise with
    | some v => { t with busTrace := t.busTrace ++ [.bit v], busRise := none }
    | none => t
  | true, true =>
    match sdaLine s, sdaLine t with
    | true, false => { t with busTrace := t.busTrace ++ [.start], busRise := none }
    | false, true => { t with busTrace := t.busTrace ++ [.stop], busRise := none }
    | _, _ => t
  | false, false => t

/-- A compare event ends the bit slot that the one before it began, and begins the next: the slot's value is that of
`TXD_line` at its end (R162). After a handler run that came late (spec/93 U7, R175) the slots that end with a fill bit
in `SR[7]` are free, and those from the late load of frame 2 on have its bits, by the letter of R161 and R168, where U7
admits any value in that character's slots: DESIGN CHOICE (notes/assumptions/29.md), unsafe for a claim about them. -/
def closeSlot (s : State) : State :=
  if s.slotOpen then drawSeen { s with wireTrace := s.wireTrace ++ [seenBit s (txdLine s)] }
  else { s with slotOpen := true }

/-! ### The timer and the shift register under it (R30, R161) -/

/-- What a compare event does to the shift register when the timer is its clock: one shift with a drawn fill bit, one
advance of the counter (R161). -/
def timerShift (s : State) : State :=
  if s.clksrc = .timer then
    advance { s with sr := shiftIn s.sr (Config.uartFill s.draws), draws := s.draws + 1 }
  else s

/-- One compare event (R161). -/
def compareEvent (s : State) : State := timerShift (closeSlot s)

/-- One timer tick: in `FreeRunCompare` the count advances, and when it reaches `TCMP` a compare event is emitted and
the count returns to 0 (R30). -/
def timerTick (s : State) : State :=
  if s.tmode = .freeRunCompare then
    if s.tcnt + 1 = s.tcmp then compareEvent { s with tcnt := 0 } else { s with tcnt := s.tcnt + 1 }
  else s

/-! ### What the other agents do between two steps (R66 (O5), (O6)) -/

/-- One timer tick, observed. -/
def tickSeen (s : State) : State := observe s (timerTick s)

/-- Timer ticks in a row, each observed. -/
def tickRun : Nat → State → State
  | 0, s => s
  | n + 1, s => tickRun n (tickSeen s)

/-- The timer that runs on for ever lists itself for a later instant, behind every instant already listed (R160). The
number of instants between is a free value, so no proof can choose it, and it is finite, which is the weak fairness of
R160. -/
@[simps] def listAgain (s : State) : State :=
  { s with env := s.env ++ List.replicate (Config.tickGap s.draws) [] ++ [[.freeRun]], draws := s.draws + 1 }

/-- One move of `PEER` or `HW`, observed. -/
def envMove (s : State) : EnvMove → State
  | .peerSda low => observe s { s with peerSdaLow := low }
  | .peerScl low => observe s { s with peerSclLow := low }
  | .tick => tickSeen s
  | .freeRun => tickRun (Config.tickBurst s.draws + 1) (listAgain s)

/-- The instant between two steps: the other agents make the moves listed for it. Beyond the list's end the inputs keep
their levels and the timer does not tick; a list that holds `freeRun` has no end. -/
def slot (s : State) : State :=
  match s.env with
  | [] => s
  | ms :: rest => ms.foldl envMove { s with env := rest }

/-! ### The caller's turn (R69) -/

/-- The caller can touch its buffers between two steps where nothing holds it off. The caller is `FG` code (R6, R13):
it takes no step while the handler executes or is due before `FG`'s next step (R38, R194, R196), nor inside a critical
section of a running operation (R69 (a)). -/
def callerFree (s : State) : Bool := !fgHeld s && (s.fg.isEmpty || s.csSaved.isEmpty)

/-- The caller's turn between two steps: it makes the stores listed for it (notes/assumptions/26.md). -/
def callerTurn (s : State) : State :=
  match s.callerStores with
  | [] => s
  | cells :: rest => if callerFree s then { s with mem := Memory.store s.mem cells, callerStores := rest } else s

/-! ### Critical sections (R112, R113) -/

/-- `push GIE onto CS_SAVED ; GIE <- 0`, one indivisible step (R112). -/
@[simps] def enterSection (s : State) : State := { s with csSaved := s.gie :: s.csSaved, gie := false }

/-- `GIE <- pop CS_SAVED` (R113). With nothing saved it does nothing; the operation `CS_EXIT` refuses that case before
it comes here. -/
def exitSection (s : State) : State :=
  match s.csSaved with
  | [] => s
  | g :: rest => { s with gie := g, csSaved := rest }

/-! ### Boot (R222) -/

/-- Line 1: the PeripheralHandle is taken. -/
@[simps] def bootTakeHandle (s : State) : State := { s with periphInit := true }
/-- Line 2, its first write. -/
@[simps] def bootReleaseScl (s : State) : State := { s with sclOut := .released }
/-- Line 2, its second write: the bus is idle. -/
@[simps] def bootReleaseSda (s : State) : State := { s with sdaOut := .released }
/-- Line 3: the UART line is idle-high. -/
@[simps] def bootIdleTxd (s : State) : State := { s with txdSrc := .idleHigh }
/-- Line 4, its first write. -/
@[simps] def bootStopClock (s : State) : State := { s with clksrc := .off }
/-- Line 4, its second write. -/
@[simps] def bootMaskOverflow (s : State) : State := { s with ovie := false }
/-- Line 4, its third write. -/
@[simps] def bootClearFlag (s : State) : State := { s with ovf := false }
/-- Line 5, its first write. -/
@[simps] def bootSetThreshold (s : State) : State := { s with tcmp := Config.pTcmp }
/-- Line 5, its second write: the bit clock runs from here on. -/
@[simps] def bootStartTimer (s : State) : State := { s with tmode := .freeRunCompare }
/-- Line 6. -/
@[simps] def bootIdleUart (s : State) : State := { s with uartState := .idle }
/-- Line 7: interrupts are enabled last. -/
@[simps] def bootEnable (s : State) : State := { s with gie := true }

/-- What the seven lines leave with no instant between them. -/
def booted (s : State) : State :=
  { s with
    periphInit := true, sclOut := .released, sdaOut := .released, txdSrc := .idleHigh, clksrc := .off, ovie := false,
    ovf := false, tcmp := Config.pTcmp, tmode := .freeRunCompare, uartState := .idle, gie := true }

/-! ### The lines of pseudocode -/

/-- How a line ends: `FG` goes on to the next line, goes on but leaves a region, passes a mark, or comes back to the
lines `again` before it goes on (a spin, a loop's back edge), and yields. -/
inductive LineOut where
  | go (s : State)
  | leave (m : Scope) (s : State)
  | pass
  | again (ls : List Line) (s : State)

/-- The lines of `I2C_BIT_CLOCK` (R123). -/
def bitClockLines : List Line := [.delayLow, .sclRelease, .riseSample, .delayHigh, .sclLow, .fallShift]

/-- The lines of a failed check of `UART_STATE = Idle`, up to the loop's back edge (R166, R167). -/
def failedCheckLines : List Line := [.csEnter, .uartTest, .csExit, .spinBack]

/-- What `FG` does at one line. The docstrings of `Line` give each line's rule. -/
def doLine (l : Line) (s : State) : LineOut :=
  match l with
  | .delayLow => .go s
  | .delayHigh => .go s
  | .sclLow => .go { s with sclOut := .low }
  | .sclRelease => .go { s with sclOut := .released }
  | .sdaLow => .go { s with sdaOut := .low }
  | .sdaRelease => .go { s with sdaOut := .released }
  | .sdaFromSr => .go { s with sdaOut := .fromSr }
  | .waitScl => if sclLine s then .go s else .again [.waitScl] s
  | .riseSample =>
    if sclLine s then .go (countEdge (drawSeen { s with din := seenBit s (sdaLine s) })) else .again [.riseSample] s
  | .fallShift => .go (if s.clksrc = .strobe then advance { s with sr := shiftIn s.sr s.din } else s)
  | .preload n => .go (preloadCounter (i2cPreload n) s)
  | .untilOvf => if s.ovf then .leave .xfer s else .go s
  | .strobeBack => .again (bitClockLines ++ [.untilOvf, .strobeBack]) s
  | .loadSr b => .go { s with sr := b }
  | .ackLatch => .go { s with i2cAckbit := s.sr.getLsbD 0 }
  | .scopeEnd _ => .pass
  | .usiMask => .go { s with ovie := false, overlap := s.overlap || s.uartState != .idle }
  | .usiStrobe => .go { s with clksrc := .strobe }
  | .txnOpen => .go { s with i2cTxn := .opened }
  | .txnClose => .go { s with i2cTxn := .none }
  | .giveUsi => .go { s with clksrc := .off }
  | .invoke rw a n => .go { s with i2cRw := rw, i2cAddr := a, i2cBuf := s.operandAt, i2cLen := n }
  | .loadAddress rw => .go { s with sr := addressByte s.i2cAddr rw }
  | .raiseIfNack => if s.i2cAckbit then .leave .txn { s with i2cResult := .errNoAck } else .go s
  | .notRaised => .leave .raised s
  | .loopStart => .go { s with i2cIdx := 0 }
  | .loadBuf => .go { s with sr := Memory.read s.mem (s.i2cBuf + s.i2cIdx) }
  | .storeBuf => .go { s with mem := Memory.write s.mem (s.i2cBuf + s.i2cIdx) s.sr }
  | .loadMasterAck => .go { s with sr := masterAckFrame (!decide (s.i2cIdx + 1 < s.i2cLen)) }
  | .idxNext => .go { s with i2cIdx := s.i2cIdx + 1 }
  | .okReturn => .go { s with i2cResult := .ok }
  | .csEnter => .go (enterSection s)
  | .csExit => .go (exitSection s)
  | .returnSr => .go { s with ret := .byte s.sr }
  | .returnResult => .go { s with ret := .result s.i2cResult }
  | .uartTest => if s.uartState = .idle then .leave .busy s else .go s
  | .spinBack => .again failedCheckLines s
  | .uartInvoke src => .go (sampleByte src s)
  | .uartNext src => .again [.uartInvoke src] s
  | .uartLoad => .go { s with sr := frame1 s.uartByte }
  | .uartArm => .go (preloadCounter Config.pUartPreload s)
  | .uartPend => .go { s with uartState := .pendingByte (frame2 s.uartByte) }
  | .uartEnable => .go { s with ovie := true }
  | .uartPin => .go { s with txdSrc := .fromSr }
  | .uartClock => .go { s with clksrc := .timer }
  | .bootHandle => .go (bootTakeHandle s)
  | .bootScl => .go (bootReleaseScl s)
  | .bootSda => .go (bootReleaseSda s)
  | .bootTxd => .go (bootIdleTxd s)
  | .bootClock => .go (bootStopClock s)
  | .bootMask => .go (bootMaskOverflow s)
  | .bootFlag => .go (bootClearFlag s)
  | .bootThreshold => .go (bootSetThreshold s)
  | .bootTimer => .go (bootStartTimer s)
  | .bootUart => .go (bootIdleUart s)
  | .bootGie => .go (bootEnable s)

/-! ### The sequencer (R12, R41, R66) -/

/-- Where a run of `FG` through a list of lines has come: the region it is leaving, the state, the lines left over
when it has yielded. -/
structure RunOut where
  mode : Option Scope
  st : State
  rest : List Line

/-- `FG` performs lines in order (R66 (O1)); after each of them the other agents make the moves of one instant. It
yields where the handler is executing or due (R38, R194) and at a spin or a loop's back edge; a yield leaves the lines
not yet performed. While it leaves a region it passes lines unperformed up to the region's end. -/
def run : Option Scope → List Line → State → RunOut
  | m, [], s => ⟨m, s, []⟩
  | some m, l :: ls, s => run (if l = .scopeEnd m then none else some m) ls s
  | none, l :: ls, s =>
    if fgHeld s then ⟨none, s, l :: ls⟩
    else
      match doLine l s with
      | .go t => run none ls (slot (observe s t))
      | .leave m t => run (some m) ls (slot (observe s t))
      | .pass => run none ls s
      | .again ks t => ⟨none, observe s t, ks ++ ls⟩

/-- `FG` performs an operation given by its lines: when the run has ended the operation has returned, and when it has
yielded the operation's remaining lines are `FG`'s position. -/
def performLines (ls : List Line) (s : State) : State :=
  let r := run none ls s
  { r.st with fg := r.rest ++ r.st.fg }

/-- `FG` performs an operation. -/
def perform (ls : List Line) (s : State) : Host.Outcome State Fault Refusal := .next (performLines ls s)

/-- `FG` goes on inside the operation whose remaining lines are its position. -/
def resume (s : State) : State := performLines s.fg { s with fg := [] }

/-- A caller command, refused before boot (R33, spec/93 U8). The other preconditions of the commands' rules are not
checked: with `I2C_TXN = Open`, which a lone `I2C_OPEN` leaves, a command runs by its rule's letter, and R166 gives no
outcome there. DESIGN CHOICE (notes/assumptions/27.md), unsafe there. -/
def command (ls : List Line) (s : State) : Host.Outcome State Fault Refusal :=
  if s.periphInit then perform ls s else .refused .notInitialised

/-! ### Interrupt entry and return (R195, R196) -/

/-- Interrupt entry: `IN_ISR <- 1 ; GIE <- 0`. Nothing else is written: `FG`'s position and private registers stay
(R195). -/
@[simps] def interruptEntry (s : State) : State := { s with inIsr := true, gie := false }

/-- Interrupt return: `IN_ISR <- 0 ; GIE <- 1` (R196). -/
@[simps] def interruptReturn (s : State) : State := { s with inIsr := false, gie := true }

/-- One step of `ISR`, observed, and the instant after it (R66 (O2), (O5)). -/
def isrStep (f : State → State) (s : State) : State := slot (observe s (f s))

/-- `SR <- f2` (R168). -/
@[simps] def isrLoad (f2 : Byte) (s : State) : State := { s with sr := f2 }
/-- `UART_STATE <- AwaitingStop` (R168). -/
@[simps] def isrAwait (s : State) : State := { s with uartState := .awaitingStop }
/-- `CLKSRC <- Off` (R169). -/
@[simps] def isrStopClock (s : State) : State := { s with clksrc := .off }
/-- `OVIE <- 0` (R169). -/
@[simps] def isrMask (s : State) : State := { s with ovie := false }
/-- `TXD_SRC <- IdleHigh` (R169). -/
@[simps] def isrIdleTxd (s : State) : State := { s with txdSrc := .idleHigh }
/-- `OVF <- 0` (R169). -/
@[simps] def isrClearFlag (s : State) : State := { s with ovf := false }
/-- `UART_STATE <- Idle` (R169). -/
@[simps] def isrIdle (s : State) : State := { s with uartState := .idle }

/-- The handler run in state `PendingByte(f2)`, from entry to return (R168, R195, R196). -/
def handlerPending (f2 : Byte) (s : State) : State :=
  isrStep interruptReturn
    (isrStep isrAwait
      (isrStep (preloadCounter Config.pUartPreload) (isrStep (isrLoad f2) (isrStep interruptEntry s))))

/-- The handler run in state `AwaitingStop`, from entry to return (R169, R195, R196). -/
def handlerAwaiting (s : State) : State :=
  isrStep interruptReturn
    (isrStep isrIdle
      (isrStep isrClearFlag (isrStep isrIdleTxd (isrStep isrMask (isrStep isrStopClock (isrStep interruptEntry s))))))

/-- Taking the overflow interrupt: where the condition of R193 holds, the handler run that `UART_STATE` selects; where
it does not hold, nothing (R194). -/
def takeInterrupt (s : State) : Host.Outcome State Fault Refusal :=
  if irqPending s then
    match s.uartState with
    | .pendingByte f2 => .next (handlerPending f2 s)
    | .awaitingStop => .next (handlerAwaiting s)
    | .idle => .fault .handlerInIdle
  else .next s

end Sys2Proof.Machine
end

