-- ==== Sys2Proof/Machine/Arbiter.lean ====
section
/-! DEFINITION. The Peripheral Access Arbiter (spec/40_arbiter.md). -/

namespace Sys2Proof.Machine

/-- `CS_ENTER` (R112). -/
def execCsEnter (s : State) : Host.Outcome State Fault Refusal := .next (enterSection s)

/-- `CS_EXIT` (R113); with no section open it is refused (spec/93 U2). -/
def execCsExit (s : State) : Host.Outcome State Fault Refusal :=
  match s.csSaved with
  | [] => .refused .noOpenSection
  | _ :: _ => .next (exitSection s)

end Sys2Proof.Machine
end

