-- ==== Sys2Proof/Machine/Events.lean ====
section
/-! DEFINITION. The hardware events (spec/43_uart_tx.md R161, R168 to R170; spec/60_exceptions.md R195, R196). -/

namespace Sys2Proof.Machine

/-- `TIMER_COMPARE` (R161). -/
def execTimerCompare (s : State) : Host.Outcome State Fault Refusal := .next (observe s (compareEvent s))

/-- `USI_OVF_IRQ` (R168, R169, R170). -/
def execUsiOvfIrq (s : State) : Host.Outcome State Fault Refusal := takeInterrupt s

end Sys2Proof.Machine
end

