-- ==== Sys2Proof/Machine/I2cPrimitives.lean ====
section
/-! DEFINITION. The I2C micro-operations (spec/41_i2c_primitives.md): their lines, then their meanings. -/

namespace Sys2Proof.Machine

/-! ### Lines -/

/-- One turn of the loop of `I2C_XFER`: a bit-clock and the test of `OVF` (R124). -/
def strobeLines : List Line := bitClockLines ++ [.untilOvf]

/-- `I2C_XFER(n)`: the preload, then bit-clocks until `OVF = 1` (R124). The loop is written out for the `n` turns that
R124 derives; should `OVF` not be 1 after them, `strobeBack` goes on turning. -/
def xferLines (n : Nat) : List Line :=
  .preload n :: (List.replicate n strobeLines).flatten ++ [.strobeBack, .scopeEnd .xfer]

/-- `I2C_START` (R125). -/
def startLines : List Line := [.sclRelease, .waitScl, .delayLow, .sdaLow, .delayHigh, .sclLow]

/-- `I2C_STOP` (R126). -/
def stopLines : List Line := [.sdaLow, .delayLow, .sclRelease, .waitScl, .delayHigh, .sdaRelease, .delayLow]

/-- `I2C_BYTE_OUT` after `SR` has been loaded (R127). -/
def shiftOutLines : List Line := .sdaFromSr :: xferLines 8

/-- `I2C_BYTE_OUT(b)` (R127). -/
def byteOutLines (b : Byte) : List Line := .loadSr b :: shiftOutLines

/-- `I2C_BYTE_IN` (R128). -/
def byteInLines : List Line := .sdaRelease :: xferLines 8

/-- `I2C_ACK_CHECK` (R129). -/
def ackCheckLines : List Line := .sdaRelease :: xferLines 1 ++ [.ackLatch]

/-- `I2C_MASTER_ACK` after `SR` has been loaded (R130). -/
def masterAckTail : List Line := .sdaFromSr :: xferLines 1

/-- `I2C_MASTER_ACK(bit)` (R130). -/
def masterAckLines (nack : Bool) : List Line := .loadSr (masterAckFrame nack) :: masterAckTail

/-! ### Meanings -/

/-- `I2C_WAIT_SCL_HIGH` (R122). -/
def execI2cWaitSclHigh (s : State) : Host.Outcome State Fault Refusal := perform [.waitScl] s

/-- `I2C_BIT_CLOCK` (R123). -/
def execI2cBitClock (s : State) : Host.Outcome State Fault Refusal := perform bitClockLines s

/-- `I2C_XFER(n)` (R124); it returns `SR`. A length other than 1 and 8 is refused (R96 (c)). -/
def execI2cXfer (n : Nat) (s : State) : Host.Outcome State Fault Refusal :=
  if n = 1 ∨ n = 8 then perform (xferLines n ++ [.returnSr]) s else .refused (.transferLength n)

/-- `I2C_START` (R125). -/
def execI2cStart (s : State) : Host.Outcome State Fault Refusal := perform startLines s

/-- `I2C_STOP` (R126). -/
def execI2cStop (s : State) : Host.Outcome State Fault Refusal := perform stopLines s

/-- `I2C_BYTE_OUT(b)` (R127). -/
def execI2cByteOut (b : Byte) (s : State) : Host.Outcome State Fault Refusal := perform (byteOutLines b) s

/-- `I2C_BYTE_IN` (R128); it returns the byte received. -/
def execI2cByteIn (s : State) : Host.Outcome State Fault Refusal := perform (byteInLines ++ [.returnSr]) s

/-- `I2C_ACK_CHECK` (R129); its result is in `I2C_ACKBIT`. -/
def execI2cAckCheck (s : State) : Host.Outcome State Fault Refusal := perform ackCheckLines s

/-- `I2C_MASTER_ACK(bit)` (R130). -/
def execI2cMasterAck (nack : Bool) (s : State) : Host.Outcome State Fault Refusal := perform (masterAckLines nack) s

end Sys2Proof.Machine
end

