-- ==== Sys2Proof/Machine/I2cTransactions.lean ====
section
/-! DEFINITION. The I2C transactions (spec/42_i2c_transactions.md): their lines, then their meanings. -/

namespace Sys2Proof.Machine

/-! ### Lines -/

/-- `I2C_OPEN` (R140). -/
def openLines : List Line := .usiMask :: .usiStrobe :: startLines ++ [.txnOpen]

/-- `I2C_CLOSE` (R141). -/
def closeLines : List Line := stopLines ++ [.txnClose, .giveUsi]

/-- The address phase up to its ACK check (R143). -/
def addressLines (rw : Bool) : List Line := .loadAddress rw :: shiftOutLines ++ ackCheckLines

/-- What every exit path of a transaction ends with: close, leave the critical section, return the result (R141). -/
def leaveLines : List Line := .scopeEnd .txn :: closeLines ++ [.csExit, .returnResult]

/-- One data byte of `i2c_write`: send, check, next (R144). -/
def writeByteLines : List Line := .loadBuf :: shiftOutLines ++ ackCheckLines ++ [.raiseIfNack, .idxNext]

/-- One data byte of `i2c_read`: receive, store, acknowledge, next (R145). -/
def readByteLines : List Line := byteInLines ++ [.storeBuf, .loadMasterAck] ++ masterAckTail ++ [.idxNext]

/-- The data phase: one turn a byte (R144, R145). -/
def dataLines (turn : List Line) (n : Nat) : List Line := (List.replicate n turn).flatten

/-- A transaction: one critical section for everything (R144, R145). -/
def transactionLines (rw : Bool) (a : Byte) (n : Nat) (turn : List Line) : List Line :=
  [.csEnter, .invoke rw a n] ++ openLines ++ addressLines rw ++ [.raiseIfNack, .loopStart] ++ dataLines turn n
    ++ [.okReturn] ++ leaveLines

/-- `i2c_write(address, buf)` with `len(buf) = n` (R144). -/
def writeLines (a : Byte) (n : Nat) : List Line := transactionLines false a n writeByteLines

/-- `i2c_read(address, buf)` with `len(buf) = n` (R145). -/
def readLines (a : Byte) (n : Nat) : List Line := transactionLines true a n readByteLines

/-- `I2C_ADDRESS(rw)` on its own: when the byte is refused, `raise NoAck` closes the transaction, leaves the critical
section and returns `Err(NoAck)` (R141, R143). -/
def addressAloneLines (rw : Bool) : List Line :=
  addressLines rw ++ [.raiseIfNack, .notRaised] ++ leaveLines ++ [.scopeEnd .raised]

/-! ### Meanings -/

/-- `I2C_OPEN` (R140). -/
def execI2cOpen (s : State) : Host.Outcome State Fault Refusal := perform openLines s

/-- `I2C_CLOSE` (R141). -/
def execI2cClose (s : State) : Host.Outcome State Fault Refusal := perform closeLines s

/-- `I2C_ADDRESS(rw)` (R143). -/
def execI2cAddress (rw : Bool) (s : State) : Host.Outcome State Fault Refusal := perform (addressAloneLines rw) s

/-- `I2C_WRITE` (R144); its invocation lists the buffer's bytes. -/
def execI2cWrite (a : Byte) (d : List Byte) (s : State) : Host.Outcome State Fault Refusal :=
  command (writeLines a d.length) (layOperand d s)

/-- `I2C_READ` (R145). -/
def execI2cRead (a : Byte) (n : Nat) (s : State) : Host.Outcome State Fault Refusal := command (readLines a n) s

end Sys2Proof.Machine
end

