-- ==== Sys2Proof/Machine/UartTx.lean ====
section
/-! DEFINITION. The UART transmitter's foreground operations (spec/43_uart_tx.md): their lines, then their meanings. -/

namespace Sys2Proof.Machine

/-! ### Lines -/

/-- The checks of `UART_STATE = Idle`, each in a critical section of its own; the check that succeeds leaves its
section open (R166, R167). -/
def pollLines : List Line := failedCheckLines ++ [.scopeEnd .busy]

/-- The writes that start a transmission, in their order (R166). -/
def startWrites : List Line := [.uartLoad, .uartArm, .uartPend, .uartEnable, .uartPin, .uartClock]

/-- `uart_send(b)`, its operand sampled (R166). -/
def sendLines : List Line := pollLines ++ startWrites ++ [.csExit]

/-- `UART_WAIT_IDLE` (R167). -/
def drainLines : List Line := pollLines ++ [.csExit]

/-- What `uart_send_str` has still to do when one of its `uart_send` returns (R172). -/
def nextBytes : List ByteSource → List Line
  | [] => drainLines
  | src :: rest => .uartNext src :: sendLines ++ nextBytes rest

/-- `uart_send_str(bytes)` (R172). -/
def sendStrLines : List ByteSource → List Line
  | [] => drainLines
  | src :: rest => .uartInvoke src :: sendLines ++ nextBytes rest

/-- The bytes of a buffer of `n` bytes that lies at `a`, in increasing index (R61 (d)). -/
def bufferBytes (a n : Nat) : List ByteSource := (List.range n).map (fun i => .buffer (a + i))

/-- The bytes of the line terminator (R173). -/
def lineTerminator : List ByteSource := Config.pLineTerminator.map .value

/-! ### Meanings -/

/-- `UART_FRAMES(b)` (R165): pure; it returns both frames. -/
def execUartFrames (b : Byte) (s : State) : Host.Outcome State Fault Refusal :=
  .next { s with ret := .frames (frame1 b) (frame2 b) }

/-- `UART_WAIT_IDLE` (R167). -/
def execUartWaitIdle (s : State) : Host.Outcome State Fault Refusal := perform drainLines s

/-- `UART_SEND` (R166). -/
def execUartSend (b : Byte) (s : State) : Host.Outcome State Fault Refusal :=
  command sendLines (sampleByte (.value b) s)

/-- `UART_SEND_STR` (R172). -/
def execUartSendStr (d : List Byte) (s : State) : Host.Outcome State Fault Refusal :=
  command (sendStrLines (bufferBytes s.operandAt d.length)) (layOperand d s)

/-- `UART_SEND_LINE` (R173): the bytes, then the line terminator. -/
def execUartSendLine (d : List Byte) (s : State) : Host.Outcome State Fault Refusal :=
  command (sendStrLines (bufferBytes s.operandAt d.length ++ lineTerminator)) (layOperand d s)

end Sys2Proof.Machine
end

