-- ==== Sys2Proof/Machine/Dispatch.lean ====
section
/-! DEFINITION. The dispatch of an operation to its meaning: one arm per row of spec/opcode_table.json. -/

namespace Sys2Proof.Machine

def exec (i : Instr) (s : State) : Host.Outcome State Fault Refusal :=
  match i with
  | .i2cWrite a d => Sys2Proof.Machine.execI2cWrite a d s
  | .i2cRead a n => Sys2Proof.Machine.execI2cRead a n s
  | .uartSend b => Sys2Proof.Machine.execUartSend b s
  | .uartSendStr d => Sys2Proof.Machine.execUartSendStr d s
  | .uartSendLine d => Sys2Proof.Machine.execUartSendLine d s
  | .csEnter => Sys2Proof.Machine.execCsEnter s
  | .csExit => Sys2Proof.Machine.execCsExit s
  | .i2cStart => Sys2Proof.Machine.execI2cStart s
  | .i2cStop => Sys2Proof.Machine.execI2cStop s
  | .i2cXfer n => Sys2Proof.Machine.execI2cXfer n s
  | .i2cBitClock => Sys2Proof.Machine.execI2cBitClock s
  | .i2cWaitSclHigh => Sys2Proof.Machine.execI2cWaitSclHigh s
  | .i2cByteOut b => Sys2Proof.Machine.execI2cByteOut b s
  | .i2cByteIn => Sys2Proof.Machine.execI2cByteIn s
  | .i2cAckCheck => Sys2Proof.Machine.execI2cAckCheck s
  | .i2cMasterAck k => Sys2Proof.Machine.execI2cMasterAck k s
  | .i2cOpen => Sys2Proof.Machine.execI2cOpen s
  | .i2cClose => Sys2Proof.Machine.execI2cClose s
  | .i2cAddress rw => Sys2Proof.Machine.execI2cAddress rw s
  | .uartFrames b => Sys2Proof.Machine.execUartFrames b s
  | .uartWaitIdle => Sys2Proof.Machine.execUartWaitIdle s
  | .timerCompare => Sys2Proof.Machine.execTimerCompare s
  | .usiOvfIrq => Sys2Proof.Machine.execUsiOvfIrq s

end Sys2Proof.Machine
end

