-- ==== Sys2Proof/WellFormed.lean ====
section
/-! DEFINITION. Which operations have a command descriptor (spec/30_encoding.md R93, R96). -/

namespace Sys2Proof

/-- The operand ranges of R93, R94 and R96: a buffer's length fits the descriptor's length byte, and `I2C_XFER` moves
1 or 8 bits. The operations themselves take longer buffers (R148 (f)); a call invokes them (`Invocation.call`). -/
def Instr.wellFormed : Instr → Bool
  | .i2cWrite _ d => d.length ≤ 255
  | .i2cRead _ n => n ≤ 255
  | .uartSendStr d => d.length ≤ 255
  | .uartSendLine d => d.length ≤ 255
  | .i2cXfer n => n = 1 || n = 8
  | .uartSend _ | .csEnter | .csExit | .i2cStart | .i2cStop | .i2cBitClock | .i2cWaitSclHigh | .i2cByteOut _
  | .i2cByteIn | .i2cAckCheck | .i2cMasterAck _ | .i2cOpen | .i2cClose | .i2cAddress _ | .uartFrames _
  | .uartWaitIdle | .timerCompare | .usiOvfIrq => true

end Sys2Proof
end

