-- ==== Sys2Proof/Decode.lean ====
section
/-! DEFINITION. Command descriptors: the decoder, and after it the encoder (spec/30_encoding.md R93 to R97). -/

namespace Sys2Proof

/-- One operand byte, handed to `mk`, and the bytes after it. -/
def takeByte (mk : Byte → Instr) : List Byte → Except DecodeError (Instr × List Byte)
  | [] => .error .truncated
  | b :: rest => .ok (mk b, rest)

/-- One operand byte that stands for a bit (R94: `bit`, `rw`): 0 or 1, anything else is refused by name. -/
def takeBit (mk : Bool → Instr) : List Byte → Except DecodeError (Instr × List Byte)
  | [] => .error .truncated
  | b :: rest =>
    if b = 0 then .ok (mk false, rest) else if b = 1 then .ok (mk true, rest) else .error .operandNotBit

/-- An input buffer operand: one length byte N, then N bytes (R93). -/
def takeBuffer (mk : List Byte → Instr) : List Byte → Except DecodeError (Instr × List Byte)
  | [] => .error .truncated
  | n :: rest =>
    if n.toNat ≤ rest.length then .ok (mk (rest.take n.toNat), rest.drop n.toNat) else .error .truncated

/-- The operands of the opcode `op` (R94's map), read from the bytes after it. -/
def decodeOperands (op : Nat) (bs : List Byte) : Except DecodeError (Instr × List Byte) :=
  match op with
  | 0x10 =>
    match bs with
    | [] => .error .truncated
    | a :: bs => takeBuffer (.i2cWrite a) bs
  | 0x11 =>
    match bs with
    | [] => .error .truncated
    | a :: bs => takeByte (fun n => .i2cRead a n.toNat) bs
  | 0x20 => takeByte .uartSend bs
  | 0x21 => takeBuffer .uartSendStr bs
  | 0x22 => takeBuffer .uartSendLine bs
  | 0x30 => .ok (.csEnter, bs)
  | 0x31 => .ok (.csExit, bs)
  | 0x40 => .ok (.i2cStart, bs)
  | 0x41 => .ok (.i2cStop, bs)
  | 0x42 => takeByte (fun n => .i2cXfer n.toNat) bs
  | 0x43 => .ok (.i2cBitClock, bs)
  | 0x44 => .ok (.i2cWaitSclHigh, bs)
  | 0x45 => takeByte .i2cByteOut bs
  | 0x46 => .ok (.i2cByteIn, bs)
  | 0x47 => .ok (.i2cAckCheck, bs)
  | 0x48 => takeBit .i2cMasterAck bs
  | 0x49 => .ok (.i2cOpen, bs)
  | 0x4A => .ok (.i2cClose, bs)
  | 0x4B => takeBit .i2cAddress bs
  | 0x50 => takeByte .uartFrames bs
  | 0x51 => .ok (.uartWaitIdle, bs)
  | 0x60 => .ok (.timerCompare, bs)
  | 0x61 => .ok (.usiOvfIrq, bs)
  | _ => .error .unknownOpcode

/-- The operation a byte string begins with, and the bytes after its descriptor. All eight bits of byte 0 select the
operation (R93). `I2C_XFER` is read with any length byte: the lengths other than 1 and 8 are refused by its meaning,
by name (R96 (c)). -/
def decode : List Byte → Except DecodeError (Instr × List Byte)
  | [] => .error .truncated
  | op :: bs => decodeOperands op.toNat bs

/-- The opcode column of R94's map. -/
def opcode : Instr → Byte
  | .i2cWrite _ _ => 0x10
  | .i2cRead _ _ => 0x11
  | .uartSend _ => 0x20
  | .uartSendStr _ => 0x21
  | .uartSendLine _ => 0x22
  | .csEnter => 0x30
  | .csExit => 0x31
  | .i2cStart => 0x40
  | .i2cStop => 0x41
  | .i2cXfer _ => 0x42
  | .i2cBitClock => 0x43
  | .i2cWaitSclHigh => 0x44
  | .i2cByteOut _ => 0x45
  | .i2cByteIn => 0x46
  | .i2cAckCheck => 0x47
  | .i2cMasterAck _ => 0x48
  | .i2cOpen => 0x49
  | .i2cClose => 0x4A
  | .i2cAddress _ => 0x4B
  | .uartFrames _ => 0x50
  | .uartWaitIdle => 0x51
  | .timerCompare => 0x60
  | .usiOvfIrq => 0x61

/-- The byte of a one-bit operand. -/
def bitByte (b : Bool) : Byte := if b then 1 else 0

/-- A buffer operand: its length byte, then its bytes (R93). -/
def bufferBytes (d : List Byte) : List Byte := BitVec.ofNat 8 d.length :: d

/-- The operand bytes, in the order of R94's operand column. -/
def operandBytes : Instr → List Byte
  | .i2cWrite a d => a :: bufferBytes d
  | .i2cRead a n => [a, BitVec.ofNat 8 n]
  | .uartSend b => [b]
  | .uartSendStr d => bufferBytes d
  | .uartSendLine d => bufferBytes d
  | .i2cXfer n => [BitVec.ofNat 8 n]
  | .i2cByteOut b => [b]
  | .i2cMasterAck k => [bitByte k]
  | .i2cAddress r => [bitByte r]
  | .uartFrames b => [b]
  | .csEnter | .csExit | .i2cStart | .i2cStop | .i2cBitClock | .i2cWaitSclHigh | .i2cByteIn | .i2cAckCheck | .i2cOpen
  | .i2cClose | .uartWaitIdle | .timerCompare | .usiOvfIrq => []

/-- The command descriptor of an operation: the opcode, then the operand bytes (R93). -/
def encode (i : Instr) : List Byte := opcode i :: operandBytes i

/-- How long the longest descriptor is: `I2C_WRITE` with a buffer of 255 bytes. -/
def longestDescriptor : Nat := 258

/-- The bytes of a table word: byte k is bits 8k+7..8k of `w`, `nbits` bits of them, and zeros up to the longest
descriptor. -/
def wordBytes (nbits w : Nat) : List Byte :=
  (List.range (nbits / 8)).map (fun k => BitVec.ofNat 8 (w / 2 ^ (8 * k)))
    ++ List.replicate (longestDescriptor - nbits / 8) 0

/-- The operation the decoder reads from the word `w` of spec/opcode_table.json. -/
def decodeTableWord (nbits w : Nat) : Option Instr :=
  match decode (wordBytes nbits w) with
  | .ok (i, _) => some i
  | .error _ => none

end Sys2Proof
end

