-- ==== Sys2Proof/Machine/Fetch.lean ====
section
/-! DEFINITION. Whose move is next, and how an operation is fetched (spec/20_memory.md R66; spec/30_encoding.md R94,
R96; spec/60_exceptions.md R194). -/

namespace Sys2Proof.Machine

/-- What the next step is. -/
inductive Move where
  /-- The next waiting request is performed. -/
  | request (r : Request) (rest : List Request)
  /-- The overflow interrupt is taken. -/
  | interrupt
  /-- `FG` goes on inside its operation. -/
  | resume
  /-- `FG` takes no step: the handler is executing (R38), or no request waits. -/
  | idle

/-- `FG`'s next move when it is not a hardware event's turn: none while the handler is executing (R38), the handler
first where it is due (R194), then the operation `FG` is inside, then the move `m`. -/
def fgMove (s : State) (m : Move) : Move :=
  if s.inIsr then .idle
  else if irqPending s then .interrupt
  else if s.fg = [] then m
  else .resume

/-- Whose move is next. A hardware event that heads the waiting requests does not wait for `FG` or the handler
(R66 (O5), R175); `FG` is one thread and takes the next request only outside every operation (R229 (e)). -/
def nextMove (s : State) : Move :=
  match s.requests with
  | [] => fgMove s .idle
  | r :: rest => if r.origin = .hardware then .request r rest else fgMove s (.request r rest)

/-- The operation an invocation stands for: the one called, whatever the length of its buffer (R10, R98), or the one
that the descriptor's bytes begin with (R93). Bytes that are no descriptor are refused (R96 (a)). -/
def operation : Invocation → Except Refusal Instr
  | .call i => .ok i
  | .descriptor bs =>
    match decode bs with
    | .error e => .error (.badDescriptor e)
    | .ok (i, _) => .ok i

/-- The operation of a waiting request, refused where its origin may not invoke it (R94, R96 (a)). -/
def fetch (r : Request) : Except Refusal Instr :=
  match operation r.invocation with
  | .error e => .error e
  | .ok i => if i.format = r.origin.presents then .ok i else .error (.wrongOrigin r.origin i.format)

/-- The request `r` is taken from those that wait, of which `rest` are left: its operation is performed next, on the
buffer it names. -/
@[simps] def take (r : Request) (rest : List Request) (s : State) : State :=
  { s with requests := rest, operandAt := r.buf }

/-- What follows a step: the caller's turn, and the instant in which the other agents make their moves. -/
def settle : Host.Outcome State Fault Refusal → Host.Outcome State Fault Refusal
  | .next s => .next (slot (callerTurn s))
  | .fault f => .fault f
  | .refused r => .refused r

/-- The origin that may present the operation a byte string begins with. -/
def originFor (bs : List Byte) : Origin :=
  match decode bs with
  | .ok (i, _) =>
    match i.format with
    | .cmd => .caller
    | .uop => .engine
    | .evt => .hardware
  | .error _ => .caller

/-- `s` with the descriptor `bs` first among those that wait, presented by the origin that may present it, and `FG`
outside every operation, boot done. -/
def presentFirst (s : State) (bs : List Byte) : State :=
  let t := if s.periphInit then s else booted s
  { t with fg := [], requests := { origin := originFor bs, invocation := .descriptor bs } :: t.requests }

end Sys2Proof.Machine
end

