-- ==== Sys2Proof/Machine/Step.lean ====
section
/-! DEFINITION. One step of the block, and a table word placed where the step fetches. -/

namespace Sys2Proof.Machine

/-- One step: the move that is next, and the instant after it (R66). -/
def step (s : State) : Host.Outcome State Fault Refusal :=
  match nextMove s with
  | .request r rest =>
    match fetch r with
    | .ok i => settle (exec i (take r rest s))
    | .error e => .refused e
  | .interrupt => settle (exec .usiOvfIrq s)
  | .resume => settle (.next (resume s))
  | .idle => settle (.next s)

/-- `s` with the instruction whose bits are `w` stored where `step` takes its next request: at the head of the
waiting ones (notes/assumptions/2.md). -/
def State.withFetchWord (s : State) (nbits w : Nat) : State := presentFirst s (wordBytes nbits w)

end Sys2Proof.Machine
end

