-- ==== Sys2Proof/Machine/Timing.lean ====
section
/-! DEFINITION. The durations of spec/70_reset_and_hazards.md R233, R234: formulas in the open parameters. No rule and
no step of the model reads them (R9, R131). -/

namespace Sys2Proof.Machine

/-- The duration of a line: a delay lasts its parameter, every other line is untimed (R131). -/
def lineDuration : Line → Nat
  | .delayLow => Config.pTLow
  | .delayHigh => Config.pTHigh
  | _ => 0

/-- The delays of an operation whose lines are each performed once: its duration without clock stretching (R149,
R233). -/
def duration (ls : List Line) : Nat := (ls.map lineDuration).sum

/-- Whether a line is the counted rise of a bit-clock (R123 line 4). -/
def isBitClock : Line → Bool
  | .riseSample => true
  | _ => false

/-- How many bit-clocks an operation has whose lines are each performed once (R144, R145). -/
def bitClocks (ls : List Line) : Nat := ls.countP isBitClock

/-- `P_T_LOW + P_T_HIGH`, one bit-clock (R233). -/
def bitClockDuration : Nat := Config.pTLow + Config.pTHigh

/-- `9 * (N + 1)` bit-clocks and the two delays of the start, the three of the stop (R233). -/
def i2cDuration (n : Nat) : Nat :=
  9 * (n + 1) * bitClockDuration + (Config.pTLow + Config.pTHigh) + (2 * Config.pTLow + Config.pTHigh)

/-- Timer ticks of one bit slot, `P_TCMP` (R234). -/
def bitSlotTicks : Nat := Config.pTcmp.toNat

/-- Bit slots of one character, from the first compare event after `uart_send` to the return to `Idle` (R234). -/
def characterSlots : Nat := 16

/-- Timer ticks of one character (R234). -/
def characterTicks : Nat := characterSlots * bitSlotTicks

end Sys2Proof.Machine
end

