-- ==== Sys2Proof/Safety.lean ====
section
/-! DEFINITION. What claims say of a state: the token, the observable and quiescent states, the invariants of
spec/10_state.md R45, the caller's duties, the behaviours of `PEER` that the spec names, and the model's own
invariant. -/

namespace Sys2Proof.Machine

/-! ### Token, observable, quiescent -/

/-- `FG` holds a CriticalSectionToken (R34, R110). -/
def fgHoldsToken (s : State) : Prop := s.csSaved ≠ []

/-- `ISR` holds one for as long as it executes (R34, R195). -/
def isrHoldsToken (s : State) : Prop := s.inIsr = true

/-- A state is observable when no handler runs and no critical section is open (R45). -/
def Observable (s : State) : Prop := s.inIsr = false ∧ s.csSaved = []

/-- Quiescence (R224). -/
def Quiescent (s : State) : Prop := s.fg = [] ∧ s.inIsr = false ∧ s.uartState = .idle ∧ s.i2cTxn = .none

/-- I3 of R45. -/
def OpenTransactionExcludesUart (s : State) : Prop :=
  s.i2cTxn = .opened → s.gie = false ∧ s.inIsr = false ∧ s.uartState = .idle ∧ s.clksrc = .strobe

/-- I4 of R45. -/
def UartOwnsWhileBusy (s : State) : Prop :=
  (s.uartState ≠ .idle → s.ovie = true ∧ s.clksrc = .timer ∧ s.txdSrc = .fromSr ∧ s.i2cTxn = .none) ∧
  (s.uartState = .idle → s.txdSrc = .idleHigh ∧ s.clksrc ≠ .timer)

/-! ### Duties (R226 to R229) -/

/-- Duty D-MUTEX: an I2C command only in `UART_STATE = Idle` (R226). -/
def KeepsMutex (i : Instr) (s : State) : Prop :=
  match i with
  | .i2cWrite _ _ | .i2cRead _ _ => s.uartState = .idle
  | _ => True

/-- The caller keeps its duties at the coming step: engines present nothing of their own, since a micro-operation is an
internal step of a command (R96 (a)), and the command that the step takes keeps D-MUTEX (R226). -/
def KeepsDuties (s : State) : Prop :=
  ∀ r rest i, nextMove s = .request r rest → fetch r = .ok i → r.origin ≠ .engine ∧ KeepsMutex i s

/-- The premise `UartLatencyOK` at a compare event: the handler run of every overflow before it is complete, so none is
under way and no overflow still waits for its own (R175, R227). -/
def LatencyOk (s : State) : Prop := s.inIsr = false ∧ (s.clksrc = .timer → s.ovf = false)

/-- The handler cannot interrupt: it is not executing, and `GIE` or `OVIE` is 0. Inside an I2C transaction both are
(R140). -/
def Uninterrupted (s : State) : Prop := s.inIsr = false ∧ (s.gie = false ∨ s.ovie = false)

/-! ### `PEER` (R120) -/

/-- `PEER` does not stretch the clock: it never holds `SCL` low, now or at any coming instant. -/
def NoStretch (s : State) : Prop := s.peerSclLow = false ∧ ∀ ms ∈ s.env, EnvMove.peerScl true ∉ ms

/-- `PEER` holds `SCL` low for ever. -/
def SclHeldForever (s : State) : Prop := s.peerSclLow = true ∧ ∀ ms ∈ s.env, EnvMove.peerScl false ∉ ms

/-- The bus is idle and the engines do not overlap: the lines are released by the master and by `PEER`. -/
def IdleBus (s : State) : Prop :=
  s.sclOut = .released ∧ s.sdaOut = .released ∧ s.peerSclLow = false ∧ s.peerSdaLow = false ∧ s.overlap = false

/-- The instants after the seven lines of one bit-clock and its loop test: `PEER` sets `SDA` at the first, while `SCL`
is low. -/
def bitSlots (low : Bool) : List (List EnvMove) := [.peerSda low] :: List.replicate 6 []

/-- The instants of an `I2C_XFER` in which `PEER` presents the levels `lows`. -/
def xferSlots (lows : List Bool) : List (List EnvMove) := [] :: lows.flatMap bitSlots

/-- The instants of an `I2C_BYTE_OUT`: `PEER` leaves `SDA` released. -/
def byteOutSlots : List (List EnvMove) := [] :: [] :: xferSlots (List.replicate 8 false)

/-- The instants of an `I2C_ACK_CHECK`: `PEER` pulls `SDA` low to acknowledge. -/
def ackSlots (ack : Bool) : List (List EnvMove) := [] :: xferSlots [ack] ++ [[]]

/-- The instants of a received byte: `PEER` presents `v`, bit 7 first. -/
def byteInSlots (v : Byte) : List (List EnvMove) := [] :: xferSlots ((bitsMsbFirst v).map (!·))

/-- The instants of one data byte of a read: `PEER` presents `v` and releases `SDA` for the master's bit. -/
def readTurnSlots (v : Byte) : List (List EnvMove) :=
  byteInSlots v ++ [[], [], []] ++ xferSlots [false] ++ [[]]

/-- The instants of a transaction's end: `PEER` releases `SDA` while `SCL` is low. -/
def leaveSlots : List (List EnvMove) := [.peerSda false] :: List.replicate 10 []

/-- The instants of a transaction up to its address byte. -/
def headSlots : List (List EnvMove) := List.replicate 11 []

/-- The data phase of a write in which `PEER` answers each byte as the list says, up to the first refusal. -/
def writeDataSlots : List Bool → List (List EnvMove)
  | [] => [[]]
  | true :: acks => byteOutSlots ++ ackSlots true ++ [[], []] ++ writeDataSlots acks
  | false :: _ => byteOutSlots ++ ackSlots false ++ [[]]

/-- A `PEER` for `i2c_write` that answers the address byte with `ack` and the data bytes with `acks`. -/
def writeSlots (ack : Bool) (acks : List Bool) : List (List EnvMove) :=
  headSlots ++ byteOutSlots ++ ackSlots ack
    ++ (if ack then [[], []] ++ writeDataSlots acks else [[]]) ++ leaveSlots

/-- A `PEER` for `i2c_read` that refuses the address byte. -/
def refusedSlots : List (List EnvMove) := headSlots ++ byteOutSlots ++ ackSlots false ++ [[]] ++ leaveSlots

/-- The always-acknowledging `PEER` for `i2c_read` that presents the bytes `vs` (R120). -/
def readSlots (vs : List Byte) : List (List EnvMove) :=
  headSlots ++ byteOutSlots ++ ackSlots true ++ [[], []] ++ vs.flatMap readTurnSlots ++ [[]] ++ leaveSlots

/-- The bits of a byte as bus events (R121). -/
def byteEvents (v : Byte) : List BusEvent := (bitsMsbFirst v).map .bit

/-- The data phase of a write on the bus: each byte and its answer, cut at the first refusal (R85). -/
def writeDataEvents : List (Byte × Bool) → List BusEvent
  | [] => []
  | (b, true) :: rest => byteEvents b ++ .bit false :: writeDataEvents rest
  | (b, false) :: _ => byteEvents b ++ [.bit true]

/-- The wire format of a write (R85). -/
def writeEvents (a : Byte) (ack : Bool) (data : List (Byte × Bool)) : List BusEvent :=
  .start :: byteEvents (addressByte a false)
    ++ (if ack then .bit false :: writeDataEvents data else [.bit true]) ++ [.stop]

/-- Every byte of a write is acknowledged. -/
def allAcked (ack : Bool) (data : List (Byte × Bool)) : Bool := ack && data.all (·.2)

/-- The data phase of a read on the bus: the master drives 0 after every byte but the last, 1 after the last (R86). -/
def readDataEvents : List Byte → List BusEvent
  | [] => []
  | [v] => byteEvents v ++ [.bit true]
  | v :: vs => byteEvents v ++ .bit false :: readDataEvents vs

/-- The wire format of a read whose address is acknowledged (R86). -/
def readEvents (a : Byte) (vs : List Byte) : List BusEvent :=
  .start :: byteEvents (addressByte a true) ++ .bit false :: readDataEvents vs ++ [.stop]

/-- The wire format of a read whose address is refused (R86, R142). -/
def refusedEvents (a : Byte) : List BusEvent := .start :: byteEvents (addressByte a true) ++ [.bit true, .stop]

/-- How many bits a bus trace has. -/
def busBits (tr : List BusEvent) : Nat := tr.countP fun
  | .bit _ => true
  | .start | .stop => false

/-- In an `I2C_XFER(n)` that waits for nothing `PEER` moves `SDA` only while `SCL` is low: not at the three instants of
a bit-clock that lie between the rise of `SCL` and its fall. -/
def SdaSteadyWhileHigh (n : Nat) (s : State) : Prop :=
  ∀ i low, i ≤ 7 * n → (i % 7 = 2 ∨ i % 7 = 3 ∨ i % 7 = 4) → EnvMove.peerSda low ∉ s.env.getD i []

/-! ### The timer as an agent (R30, R160) -/

/-- Weak fairness of `HW` (R160), a premise on the schedule: the timer is listed to run on for ever, so it ticks
infinitely often, at instants that no proof can choose. -/
def TimerRunsOn (s : State) : Prop := ∃ ms ∈ s.env, EnvMove.freeRun ∈ ms

/-- After boot the timer runs (R30, R160), with the threshold that boot writes, and its ticks do not end. -/
def TimerFair (s : State) : Prop := s.tmode = .freeRunCompare ∧ s.tcmp = Config.pTcmp ∧ TimerRunsOn s

/-- How many compare events there have been: each ends a bit slot but the first, which only begins one (R162). -/
def compareCount (s : State) : Nat := s.wireTrace.length + s.slotOpen.toNat

/-- `n` steps lead from one state to the other. -/
def Steps : Nat → State → State → Prop
  | 0, s, t => t = s
  | n + 1, s, t => ∃ u, step s = .next u ∧ Steps n u t

/-! ### Compare events in a row -/

/-- The state after `n` compare events with no step between them (R161). -/
def compareEvents : Nat → State → State
  | 0, s => s
  | n + 1, s => compareEvents n (observe s (compareEvent s))

/-- The state in which `uart_send` for `b` leaves the Shared Hardware Resource, with nobody else moving (R166). -/
def started (b : Byte) (s : State) : State :=
  { s with
    uartByte := b, sr := frame1 b, cnt := 8, ovf := false, uartState := .pendingByte (frame2 b), ovie := true,
    txdSrc := .fromSr, clksrc := .timer }

/-! ### Frames -/

/-- What no I2C micro-operation of 41_i2c_primitives.md and no other agent writes. -/
def KeptByPrimitives (s t : State) : Prop :=
  t.ovie = s.ovie ∧ t.clksrc = s.clksrc ∧ t.txdSrc = s.txdSrc ∧ t.tcmp = s.tcmp ∧ t.tmode = s.tmode ∧ t.gie = s.gie ∧
  t.periphInit = s.periphInit ∧ t.csSaved = s.csSaved ∧ t.uartState = s.uartState ∧ t.i2cTxn = s.i2cTxn ∧
  t.i2cRw = s.i2cRw ∧ t.i2cAddr = s.i2cAddr ∧ t.i2cBuf = s.i2cBuf ∧ t.i2cLen = s.i2cLen ∧ t.i2cIdx = s.i2cIdx ∧
  t.i2cResult = s.i2cResult ∧ t.inIsr = s.inIsr ∧ t.uartByte = s.uartByte ∧ t.mem = s.mem ∧
  t.operandAt = s.operandAt ∧ t.callerStores = s.callerStores ∧ t.requests = s.requests ∧ t.overlap = s.overlap

/-- What no UART foreground operation and no other agent writes, once the operation's sections are closed again. -/
def KeptByUart (s t : State) : Prop :=
  t.din = s.din ∧ t.sclOut = s.sclOut ∧ t.sdaOut = s.sdaOut ∧ t.tcmp = s.tcmp ∧ t.tmode = s.tmode ∧ t.gie = s.gie ∧
  t.periphInit = s.periphInit ∧ t.csSaved = s.csSaved ∧ t.i2cTxn = s.i2cTxn ∧ t.i2cRw = s.i2cRw ∧
  t.i2cAddr = s.i2cAddr ∧ t.i2cBuf = s.i2cBuf ∧ t.i2cLen = s.i2cLen ∧ t.i2cIdx = s.i2cIdx ∧
  t.i2cAckbit = s.i2cAckbit ∧ t.i2cResult = s.i2cResult ∧ t.inIsr = s.inIsr ∧ t.mem = s.mem ∧
  t.operandAt = s.operandAt ∧ t.callerStores = s.callerStores ∧ t.ret = s.ret ∧ t.requests = s.requests ∧
  t.overlap = s.overlap

/-- What a check of `Idle` that starts nothing leaves as it was, whatever the other agents do meanwhile: every register
that they do not write, the sections and the memory (R166, R167). -/
def CheckedFrom (s t : State) : Prop :=
  KeptByUart s t ∧ t.uartState = s.uartState ∧ t.uartByte = s.uartByte ∧ t.ovie = s.ovie ∧ t.txdSrc = s.txdSrc ∧
  t.clksrc = s.clksrc

/-- What neither `I2C_OPEN`, nor `I2C_CLOSE`, nor another agent writes. -/
def KeptByScope (s t : State) : Prop :=
  t.din = s.din ∧ t.txdSrc = s.txdSrc ∧ t.tcmp = s.tcmp ∧ t.tmode = s.tmode ∧ t.gie = s.gie ∧
  t.periphInit = s.periphInit ∧ t.csSaved = s.csSaved ∧ t.uartState = s.uartState ∧ t.i2cRw = s.i2cRw ∧
  t.i2cAddr = s.i2cAddr ∧ t.i2cBuf = s.i2cBuf ∧ t.i2cLen = s.i2cLen ∧ t.i2cIdx = s.i2cIdx ∧
  t.i2cAckbit = s.i2cAckbit ∧ t.i2cResult = s.i2cResult ∧ t.inIsr = s.inIsr ∧ t.uartByte = s.uartByte ∧
  t.mem = s.mem ∧ t.operandAt = s.operandAt ∧ t.callerStores = s.callerStores ∧ t.ret = s.ret ∧
  t.requests = s.requests ∧ t.fg = s.fg

/-- What no handler run and no other agent writes: `FG`'s position and private registers among it (R195). -/
def KeptByHandler (s t : State) : Prop :=
  t.din = s.din ∧ t.sclOut = s.sclOut ∧ t.sdaOut = s.sdaOut ∧ t.tcmp = s.tcmp ∧ t.tmode = s.tmode ∧
  t.periphInit = s.periphInit ∧ t.csSaved = s.csSaved ∧ t.i2cTxn = s.i2cTxn ∧ t.i2cRw = s.i2cRw ∧
  t.i2cAddr = s.i2cAddr ∧ t.i2cBuf = s.i2cBuf ∧ t.i2cLen = s.i2cLen ∧ t.i2cIdx = s.i2cIdx ∧
  t.i2cAckbit = s.i2cAckbit ∧ t.i2cResult = s.i2cResult ∧ t.uartByte = s.uartByte ∧ t.mem = s.mem ∧
  t.operandAt = s.operandAt ∧ t.callerStores = s.callerStores ∧ t.fg = s.fg ∧ t.ret = s.ret ∧
  t.requests = s.requests ∧ t.overlap = s.overlap

/-- What no transaction and no other agent writes, once the transaction has returned. -/
def KeptByTransactions (s t : State) : Prop :=
  t.txdSrc = s.txdSrc ∧ t.tcmp = s.tcmp ∧ t.tmode = s.tmode ∧ t.gie = s.gie ∧ t.periphInit = s.periphInit ∧
  t.csSaved = s.csSaved ∧ t.uartState = s.uartState ∧ t.inIsr = s.inIsr ∧ t.uartByte = s.uartByte ∧
  t.operandAt = s.operandAt ∧ t.callerStores = s.callerStores ∧ t.requests = s.requests ∧ t.fg = s.fg

/-! ### The model's own invariant -/

/-- The lines that neither take the resource, nor start a transmission, nor boot, nor test `UART_STATE`. -/
def harmless : Line → Bool
  | .usiMask | .uartTest | .spinBack | .uartPend | .uartEnable | .uartPin | .uartClock | .scopeEnd .busy | .bootHandle
  | .bootScl | .bootSda | .bootTxd | .bootClock | .bootMask | .bootFlag | .bootThreshold | .bootTimer | .bootUart
  | .bootGie => false
  | _ => true

/-- The positions `FG` can have outside boot: harmless lines, the two writes that take the resource for the I2C engine,
and whole checks of `UART_STATE`, held at their head or at their back edge, each with the writes it guards. -/
inductive Position : List Line → Prop where
  | done : Position []
  | line (l : Line) (ls : List Line) (h : harmless l = true) (rest : Position ls) : Position (l :: ls)
  | take (ls : List Line) (rest : Position ls) : Position (.usiMask :: .usiStrobe :: ls)
  | drain (ls : List Line) (rest : Position ls) : Position (pollLines ++ ls)
  | drainBack (ls : List Line) (rest : Position ls) : Position (.spinBack :: .scopeEnd .busy :: ls)
  | send (ls : List Line) (rest : Position ls) : Position (sendLines ++ ls)
  | sendBack (ls : List Line) (rest : Position ls) :
      Position (.spinBack :: .scopeEnd .busy :: startWrites ++ .csExit :: ls)

/-- `FG` has not begun to boot: interrupts are off, nothing is open, nothing transmits. -/
def BeforeBoot (s : State) : Prop :=
  s.fg = bootLines ∧ s.gie = false ∧ s.csSaved = [] ∧ s.ovie = false ∧ s.clksrc ≠ .timer ∧ s.uartState = .idle

/-- An open section means that interrupts are off, and every section but the outermost found them off (R34, R111). -/
def SectionsNest (s : State) : Prop := s.csSaved ≠ [] → s.gie = false ∧ ∀ g ∈ s.csSaved.dropLast, g = false

/-- The model's invariant: the memory is canonical, no handler is left half run, sections nest, the overflow interrupt
is enabled only while a transmission is under way, the timer clocks the register only then and with the pin
connected, a pending frame is a second frame, and `FG` stands where an operation can stand. -/
structure Inv (s : State) : Prop where
  memory : Memory.wf s.mem = true
  noHalfHandler : s.inIsr = false
  sections : SectionsNest s
  enabledOnlyBusy : s.ovie = true → s.uartState ≠ .idle
  clockedOnlyBusy : s.clksrc = .timer → s.ovie = true ∧ s.txdSrc = .fromSr
  pendingIsSecondFrame : ∀ f, s.uartState = .pendingByte f → ∃ b, f = frame2 b
  position : BeforeBoot s ∨ Position s.fg

/-! ### The two engines exclude each other (R45) -/

/-- The lines of a transaction between its start condition and its end: they write no control bit, no section, no
`UART_STATE` and no `I2C_TXN`. -/
def neutral : Line → Bool
  | .delayLow | .delayHigh | .sclLow | .sclRelease | .sdaLow | .sdaRelease | .sdaFromSr | .waitScl | .riseSample
  | .fallShift | .preload _ | .untilOvf | .strobeBack | .loadSr _ | .ackLatch | .loadAddress _ | .raiseIfNack
  | .loopStart | .loadBuf | .storeBuf | .loadMasterAck | .idxNext | .okReturn | .scopeEnd .xfer | .scopeEnd .txn => true
  | _ => false

/-- The region that a line of a transaction can leave, or come back to the inside of. -/
def regionOf : Line → Option Scope
  | .untilOvf | .strobeBack => some .xfer
  | .raiseIfNack => some .txn
  | _ => none

/-- What a transaction has still to do before its end: neutral lines, each region that one of them can leave ending
among those after it. -/
def transactionBody : List Line → Bool
  | [] => true
  | l :: ls =>
    neutral l && (match regionOf l with | some m => ls.contains (.scopeEnd m) | none => true) && transactionBody ls

/-- The end of a transaction after its stop condition (R141). -/
def endLines : List Line := [.txnClose, .giveUsi, .csExit, .returnResult]

/-- What `FG` can have still to do of a UART command: whole invocations of `uart_send` and drain waits, each held at the
head of a check or at its back edge. -/
inductive UartPlace : List Line → Prop where
  | done : UartPlace []
  | invoke (src : ByteSource) (ls : List Line) (rest : UartPlace ls) : UartPlace (.uartInvoke src :: ls)
  | next (src : ByteSource) (ls : List Line) (rest : UartPlace ls) : UartPlace (.uartNext src :: ls)
  | drain (ls : List Line) (rest : UartPlace ls) : UartPlace (drainLines ++ ls)
  | drainBack (ls : List Line) (rest : UartPlace ls) : UartPlace (.spinBack :: .scopeEnd .busy :: .csExit :: ls)
  | send (ls : List Line) (rest : UartPlace ls) : UartPlace (sendLines ++ ls)
  | sendBack (ls : List Line) (rest : UartPlace ls) :
      UartPlace (.spinBack :: .scopeEnd .busy :: startWrites ++ .csExit :: ls)

/-- The I2C engine has the Shared Hardware Resource: interrupts and the overflow interrupt are off, the clock is the
strobed one, and the UART is idle. -/
def EngineHolds (s : State) : Prop :=
  s.gie = false ∧ s.ovie = false ∧ s.clksrc = .strobe ∧ s.uartState = .idle

/-- Where `FG` can stand while the caller keeps its duties: outside every operation or in a UART command, at the start
condition of a transaction, inside one, or before boot. -/
def PlaceOk (s : State) : Prop :=
  (UartPlace s.fg ∧ s.i2cTxn = .none) ∨
  (EngineHolds s ∧ s.i2cTxn = .none ∧
    ∃ body, transactionBody body = true ∧ s.fg = startLines.tail ++ .txnOpen :: body ++ endLines) ∨
  (EngineHolds s ∧ s.i2cTxn = .opened ∧ ∃ body, transactionBody body = true ∧ s.fg = body ++ endLines) ∨
  (BeforeBoot s ∧ s.i2cTxn = .none)

/-- I3 and I4 of R45, with where `FG` can stand. -/
structure Exclusive (s : State) : Prop where
  noHalfHandler : s.inIsr = false
  transaction : OpenTransactionExcludesUart s
  uart : UartOwnsWhileBusy s
  place : PlaceOk s

/-! ### Hangs (R231, R232) -/

/-- `FG` is held at a wait for `SCL`, which `PEER` never releases, with interrupts off (R231). -/
def HungOnScl (s : State) : Prop :=
  (∃ ls, s.fg = .waitScl :: ls ∨ s.fg = .riseSample :: ls) ∧ SclHeldForever s ∧ s.gie = false ∧ s.inIsr = false

/-- `FG` is held at a check of `UART_STATE = Idle` with interrupts off while the state is another (R232). -/
def HungOnIdle (s : State) : Prop :=
  (∃ ls, s.fg = failedCheckLines ++ ls) ∧ s.uartState ≠ .idle ∧ s.gie = false ∧ s.inIsr = false

end Sys2Proof.Machine
end

