-- ==== Sys2Proof/Certificates/Slice0/Obligations.lean ====
section
/-! DEFINITION. The statements for the provers, from the numbered rules of spec/. -/

open Sys2Proof Sys2Proof.Machine

/-! ### Descriptors (30_encoding.md §4 to §6) -/

/-- R93, R94, R97: the descriptor of every operation that has one is read back as that operation, every operand at
every value it admits, and the bytes after it are left. -/
def Obligations.DecodeReadsBackEncode : Prop :=
  ∀ (i : Instr) (rest : List Byte), i.wellFormed = true → decode (encode i ++ rest) = .ok (i, rest)

/-- R93, R94: what the decoder reads is the operation's descriptor and nothing else, so no two byte strings stand for
one operation and no byte of a descriptor is dropped. That a bit operand other than 0 and 1 (`0x48 0x02`, `0x4B 0x02`)
is not read, without which this would be false, is the model's choice (notes/assumptions/12.md): R94 lists the values
0 and 1 and does not say what another byte is. -/
def Obligations.DecodeReadsOnlyDescriptors : Prop :=
  ∀ (bs rest : List Byte) (i : Instr), decode bs = .ok (i, rest) → bs = encode i ++ rest

/-- The descriptors that 95_test_vectors.md writes out for P1, P2, P3 and P5, and one micro-operation and one event of
R94's map, stand for their operations. -/
def Obligations.SampleDescriptorsDecode : Prop :=
  decode [0x10, 0x77, 0x02, 0xF2, 0x01] = .ok (.i2cWrite 0x77 [0xF2, 0x01], []) ∧
  decode [0x11, 0x77, 0x06] = .ok (.i2cRead 0x77 6, []) ∧
  decode [0x20, 0x41] = .ok (.uartSend 0x41, []) ∧
  decode [0x21, 0x02, 0x41, 0x42] = .ok (.uartSendStr [0x41, 0x42], []) ∧
  decode [0x4B, 0x01] = .ok (.i2cAddress true, []) ∧
  decode [0x61] = .ok (.usiOvfIrq, [])

/-- R96 (a): with `FG` free to take a request, a caller's bytes that are no descriptor, and a micro-operation or an
event that a caller invokes, by its descriptor or by a call, are refused. The list of waiting requests and its two
ways of invoking are the model's (notes/assumptions/11.md, notes/assumptions/28.md). -/
def Obligations.CallerPresentsCommandsOnly : Prop :=
  ∀ (s : State) (inv : Invocation) (buf : Nat) (waiting : List Request),
    s.requests = ⟨.caller, inv, buf⟩ :: waiting → fgHeld s = false → s.fg = [] →
    (∀ bs e, inv = .descriptor bs → decode bs = .error e → step s = .refused (.badDescriptor e)) ∧
    (∀ bs i rest, inv = .descriptor bs → decode bs = .ok (i, rest) → i.format ≠ .cmd →
      step s = .refused (.wrongOrigin .caller i.format)) ∧
    (∀ i, inv = .call i → i.format ≠ .cmd → step s = .refused (.wrongOrigin .caller i.format))

/-! ### Steps (20_memory.md §7; 60_exceptions.md §2) -/

/-- A step runs the decoded operation: when the first waiting request's bytes begin with the descriptor of a
well-formed operation, or it is a call of an operation, with a buffer of any length (R10, R98, R148 (f)), and its
origin may invoke that operation, and it is a hardware event or `FG` is free, the step is that operation's meaning on
the buffer the request names, then the caller's turn, then the instant in which the other agents move; and with no
stores listed for the caller, that turn changes nothing. The list of waiting requests and its two ways of invoking,
that a hardware event in it does not wait for `FG`, and the caller's turn are the model's choice
(notes/assumptions/11.md, notes/assumptions/28.md, notes/assumptions/4.md, notes/assumptions/26.md). -/
def Obligations.StepPerformsTheDecodedOperation : Prop :=
  ∀ (s : State) (o : Origin) (inv : Invocation) (i : Instr) (buf : Nat) (waiting : List Request),
    s.requests = ⟨o, inv, buf⟩ :: waiting →
    inv = .call i ∨ (i.wellFormed = true ∧ ∃ rest, inv = .descriptor (encode i ++ rest)) →
    i.format = o.presents → (o = .hardware ∨ (fgHeld s = false ∧ s.fg = [])) →
    step s = settle (exec i { s with requests := waiting, operandAt := buf }) ∧
    (∀ t, settle (.next t) = .next (slot (callerTurn t))) ∧ (∀ t : State, t.callerStores = [] → callerTurn t = t)

/-- R193, R194, R196: where no hardware event heads the waiting requests and no handler is executing, the step is
the handler run when the interrupt condition holds, and otherwise `FG` goes on inside the operation it is in. And
where a step, `CS_EXIT` or an interrupt return among them, leaves the handler due, the caller, which is `FG` code, has
no turn before it: it stores nothing. That a waiting hardware event comes first, and the caller's turn after a step,
are the model's choice (notes/assumptions/11.md, notes/assumptions/26.md). -/
def Obligations.HandlerRunsBeforeForeground : Prop :=
  (∀ s : State, s.inIsr = false → (∀ r ∈ s.requests.head?, r.origin ≠ .hardware) →
    (s.ovf = true ∧ s.ovie = true ∧ s.gie = true → step s = settle (exec .usiOvfIrq s)) ∧
    (¬(s.ovf = true ∧ s.ovie = true ∧ s.gie = true) → s.fg ≠ [] →
      step s = .next (slot (callerTurn (resume s))))) ∧
  (∀ s : State, s.inIsr = true ∨ (s.ovf = true ∧ s.ovie = true ∧ s.gie = true) →
    callerTurn s = s ∧ settle (.next s) = .next (slot s))

/-! ### Values (30_encoding.md §2, §3) -/

/-- R81: bit by bit, the address byte is the low seven bits of the address and the read/write bit; bit 7 of the
address has no effect. -/
def Obligations.AddressByteLayout : Prop :=
  ∀ (a : Byte) (rw : Bool),
    (addressByte a rw).getLsbD 0 = rw ∧
    (∀ k : Fin 7, (addressByte a rw).getLsbD (k + 1) = a.getLsbD k) ∧
    addressByte (a ||| 0x80) rw = addressByte a rw

/-- R88: the 9-bit logical frame is the byte, widened with a zero and shifted left one place: bit 0 is the start bit,
bits 8 to 1 are the byte, and read from bit 0 upward it is the start bit and the data bits in wire order. -/
def Obligations.NineBitLogicalFrame : Prop :=
  ∀ b : Byte,
    (logicalFrame9 b).toNat = 2 * b.toNat ∧ (logicalFrame9 b).getLsbD 0 = false ∧
    (logicalFrame9 b).extractLsb 8 1 = b ∧
    (List.range 9).map (logicalFrame9 b).getLsbD =
      [false, b.getLsbD 0, b.getLsbD 1, b.getLsbD 2, b.getLsbD 3, b.getLsbD 4, b.getLsbD 5, b.getLsbD 6, b.getLsbD 7]

/-- R88 to R91, which the spec derives and decides (92_eei_decisions.md D16): the 9-bit logical frame, the two logical
frames shifted out of it, and the two hardware frames, their reversals, bit by bit from bit 7, the first out; shifted
out one after the other they are one idle slot, the framed character and five more stop-level slots; and the worked
example of R91. -/
def Obligations.HardwareFrameBits : Prop :=
  (∀ b : Byte,
    ((logicalFrame9 b).getLsbD 0 = false ∧ (logicalFrame9 b).extractLsb 8 1 = b) ∧
    (logicalFrame1 b = ((logicalFrame9 b <<< 1) ||| 1).setWidth 8 ∧ logicalFrame1 b = (b <<< 2) ||| 1 ∧
      (logicalFrame1 b).getLsbD 0 = true ∧ (logicalFrame1 b).getLsbD 1 = false ∧
      (logicalFrame1 b).extractLsb 7 2 = b.extractLsb 5 0) ∧
    (logicalFrame2 b = ((logicalFrame9 b >>> 7) ||| 0xFC).setWidth 8 ∧ logicalFrame2 b = (b >>> 6) ||| 0xFC ∧
      (logicalFrame2 b).extractLsb 1 0 = b.extractLsb 7 6 ∧ (logicalFrame2 b).extractLsb 7 2 = 0b111111) ∧
    (∀ k : Fin 8, (frame1 b).getLsbD k = (logicalFrame1 b).getLsbD (7 - k)) ∧
    (∀ k : Fin 8, (frame2 b).getLsbD k = (logicalFrame2 b).getLsbD (7 - k)) ∧
    bitsMsbFirst (frame1 b) =
      [true, false, b.getLsbD 0, b.getLsbD 1, b.getLsbD 2, b.getLsbD 3, b.getLsbD 4, b.getLsbD 5] ∧
    bitsMsbFirst (frame2 b) = [b.getLsbD 6, b.getLsbD 7, true, true, true, true, true, true] ∧
    bitsMsbFirst (frame1 b) ++ bitsMsbFirst (frame2 b) = true :: framedCharacter b ++ List.replicate 5 true) ∧
  logicalFrame1 0x41 = 0x05 ∧ logicalFrame2 0x41 = 0xFD ∧ frame1 0x41 = 0xA0 ∧ frame2 0x41 = 0xBF

/-- R83, R123, R124: the preload of an `n`-bit transfer is `16 - 2n` in the 4 bits of `CNT`, so 0 for 8 bits and 14
for 1, and a transfer begins by writing it; the `2n`-th advance after it is the one from 15 to 0, which sets `OVF`,
and no earlier one sets it; a bit-clock, unstretched, advances the counter twice, so the overflow comes after exactly
`n` bit-clocks; other `n` would give 12, 10, 8, 6, 4, 2; an acknowledge is a transfer of 1 bit, a data byte one of 8,
no transaction preloads for another length, and `I2C_XFER` refuses every other, 0 and those above 8 among them (R96
(c); that its meaning refuses them and not the decoder is the model's, notes/assumptions/13.md). -/
def Obligations.PreloadOverflowsAfterTwoEdgesPerBit : Prop :=
  (∀ n, n = 1 ∨ n = 8 → (i2cPreload n).toNat = (16 - 2 * n) % 16) ∧ i2cPreload 8 = 0 ∧ i2cPreload 1 = 14 ∧
  (∀ (s : State) (n : Nat), n = 1 ∨ n = 8 →
    (advance^[2 * n - 1] (preloadCounter (i2cPreload n) s)).cnt = 15 ∧
    (advance^[2 * n] (preloadCounter (i2cPreload n) s)).cnt = 0 ∧
    (advance^[2 * n] (preloadCounter (i2cPreload n) s)).ovf = true ∧
    ∀ k < 2 * n, (advance^[k] (preloadCounter (i2cPreload n) s)).ovf = false) ∧
  (∀ n, (xferLines n).head? = some (.preload n)) ∧
  (∀ (s : State) (n : Nat), doLine (.preload n) s = .go { s with cnt := i2cPreload n, ovf := false }) ∧
  (∀ s : State, Uninterrupted s → NoStretch s → s.clksrc = .strobe →
    ∃ t, exec .i2cBitClock s = .next t ∧ t.cnt = (advance^[2] s).cnt ∧ t.ovf = (advance^[2] s).ovf) ∧
  [2, 3, 4, 5, 6, 7].map i2cPreload = [12, 10, 8, 6, 4, 2] ∧
  (∀ m, Line.preload m ∈ ackCheckLines ++ masterAckTail → m = 1) ∧
  (∀ m, Line.preload m ∈ shiftOutLines ++ byteInLines → m = 8) ∧
  (∀ a n m, Line.preload m ∈ writeLines a n ++ readLines a n → m = 1 ∨ m = 8) ∧
  (∀ (s : State) (n : Nat), n ≠ 1 → n ≠ 8 → exec (.i2cXfer n) s = .refused (.transferLength n))

/-- R32: the three lines as functions of what the agents drive. -/
def Obligations.LinesAreWiredAnd : Prop :=
  ∀ s : State,
    (sclLine s = false ↔ s.sclOut = .low ∨ s.peerSclLow = true) ∧
    (sdaLine s = false ↔
      s.sdaOut = .low ∨ (s.sdaOut = .fromSr ∧ s.sr.getLsbD 7 = false) ∨ s.peerSdaLow = true) ∧
    (txdLine s = true ↔ s.txdSrc = .idleHigh ∨ s.sr.getLsbD 7 = true)

/-! ### The caller's buffers (20_memory.md §12) -/

/-- R71: in a canonical memory a store is read back, and every other byte reads as before. That the caller's memory is
keyed by a natural address and the canonical form are the model's choice (notes/assumptions/3.md,
notes/assumptions/4.md). -/
def Obligations.StoredByteReadsBack : Prop :=
  ∀ (m : List Host.Cell) (i j : Nat) (v : Byte), Memory.wf m = true →
    Memory.read (Memory.write m i v) j = if j = i then v else Memory.read m j

/-- Two canonical memories that read alike everywhere are equal data. The canonical form is the model's choice
(notes/assumptions/3.md). -/
def Obligations.CanonicalMemoriesAreExtensional : Prop :=
  ∀ m m' : List Host.Cell, Memory.wf m = true → Memory.wf m' = true →
    (∀ i, Memory.read m i = Memory.read m' i) → m = m'

/-! ### Reset and boot (70_reset_and_hazards.md §1, §2) -/

/-- R221: the reset values that the spec gives, whatever level `PEER` drives; and the lines: `TXD` reads 1, `SCL` and
`SDA` read 1 unless `PEER` pulls them low. That `PEER` pulls neither in `State.reset` itself is the model's choice
(notes/assumptions/5.md). -/
def Obligations.ResetIsIdleAndSilent : Prop :=
  ∀ sda scl : Bool,
    let s := { State.reset with peerSdaLow := sda, peerSclLow := scl }
    s.gie = false ∧ s.inIsr = false ∧ s.csSaved = [] ∧ s.ovf = false ∧ s.ovie = false ∧ s.clksrc = .off ∧
    s.sclOut = .released ∧ s.sdaOut = .released ∧ s.txdSrc = .idleHigh ∧ s.tmode = .stopped ∧ s.uartState = .idle ∧
    s.i2cTxn = .none ∧ s.periphInit = false ∧ txdLine s = true ∧ sclLine s = !scl ∧ sdaLine s = !sda

/-- R222: whatever the other agents do meanwhile, the first step from reset boots: it leaves the seven lines' values
and `FG` outside every operation. That it is one step, taken before the first command, is the model's choice
(notes/assumptions/2.md). -/
def Obligations.BootEstablishesItsSevenLines : Prop :=
  ∀ env : List (List EnvMove), ∃ t, step { State.reset with env := env } = .next t ∧
    t.periphInit = true ∧ t.sclOut = .released ∧ t.sdaOut = .released ∧ t.txdSrc = .idleHigh ∧ t.clksrc = .off ∧
    t.ovie = false ∧ t.ovf = false ∧ t.tcmp = Config.pTcmp ∧ t.tmode = .freeRunCompare ∧ t.uartState = .idle ∧
    t.gie = true ∧ t.fg = [] ∧ t.csSaved = [] ∧ t.inIsr = false ∧ t.i2cTxn = .none ∧ t.mem = []

/-- R33, 93_implementation_defined.md U8: before boot every I2C and UART command is refused, with no effect. -/
def Obligations.CommandsRefusedBeforeBoot : Prop :=
  ∀ s : State, s.periphInit = false →
    (∀ a d, exec (.i2cWrite a d) s = .refused .notInitialised) ∧
    (∀ a n, exec (.i2cRead a n) s = .refused .notInitialised) ∧
    (∀ b, exec (.uartSend b) s = .refused .notInitialised) ∧
    (∀ d, exec (.uartSendStr d) s = .refused .notInitialised) ∧
    (∀ d, exec (.uartSendLine d) s = .refused .notInitialised)

/-- R33: `PERIPH_INIT` is never cleared. -/
def Obligations.PeripheralHandleIsNeverDestroyed : Prop :=
  ∀ s t : State, step s = .next t → s.periphInit = true → t.periphInit = true

/-! ### Arbiter (40_arbiter.md) -/

/-- R112: `CS_ENTER` pushes `GIE` and clears it, in every state, and writes nothing else. That the two are one step is
the spec's own decision (92_eei_decisions.md D26). -/
def Obligations.CsEnterSavesAndDisables : Prop :=
  encode .csEnter = [0x30] ∧
  ∀ s : State, exec .csEnter s = .next { s with csSaved := s.gie :: s.csSaved, gie := false }

/-- R113: `CS_EXIT` pops into `GIE` and writes nothing else; if the interrupt condition then holds, the handler is the
next move unless a hardware event comes first; with nothing saved it is refused. That a waiting hardware event comes
first is the model's choice (notes/assumptions/11.md). -/
def Obligations.CsExitRestoresOrIsRefused : Prop :=
  encode .csExit = [0x31] ∧
  ∀ s : State,
    (s.csSaved = [] → exec .csExit s = .refused .noOpenSection) ∧
    (∀ g saved, s.csSaved = g :: saved →
      exec .csExit s = .next { s with gie := g, csSaved := saved } ∧
      (g = true → s.ovf = true → s.ovie = true → s.inIsr = false → (∀ r ∈ s.requests.head?, r.origin ≠ .hardware) →
        step { s with gie := g, csSaved := saved } = settle (exec .usiOvfIrq { s with gie := g, csSaved := saved })))

/-- R114: a critical section does not stop `HW`: what a compare event does depends on neither `GIE` nor `CS_SAVED`,
and it changes neither. -/
def Obligations.SectionDoesNotStopTheTimer : Prop :=
  ∀ (s t : State) (g : Bool) (saved : List Bool), exec .timerCompare s = .next t →
    exec .timerCompare { s with gie := g, csSaved := saved } = .next { t with gie := g, csSaved := saved }

/-! ### I2C micro-operations (41_i2c_primitives.md) -/

/-- R122: with `SCL` high the wait returns at its first observation and writes nothing; with `SCL` low `FG` stays at
the wait, and nothing else changes. And of a wait already under way, in whatever operation: with `SCL` still low `FG`
stays at it and nothing changes; at the first observation that finds `SCL` high `FG` goes on with the operation's next
lines, the wait having written nothing. The wait inside a bit-clock (R123, lines 3 and 4) does the same, but the step
that sees `SCL` high samples `SDA` and counts its edge. That one step is one observation is the model's choice
(notes/assumptions/16.md). -/
def Obligations.WaitSclHighSpins : Prop :=
  ∀ s : State, fgHeld s = false →
    (sclLine s = true → exec .i2cWaitSclHigh s = .next (slot s)) ∧
    (sclLine s = false → exec .i2cWaitSclHigh s = .next { s with fg := .waitScl :: s.fg }) ∧
    (∀ ls, s.fg = .waitScl :: ls →
      (sclLine s = true → resume s = performLines ls (slot { s with fg := [] })) ∧
      (sclLine s = false → resume s = s)) ∧
    (∀ ls, s.fg = .riseSample :: ls →
      (sclLine s = true → s.clksrc = .strobe → s.overlap = false →
        resume s = performLines ls
          (slot { s with fg := [], din := sdaLine s, cnt := s.cnt + 1, ovf := s.ovf || s.cnt == 15 })) ∧
      (sclLine s = false → resume s = s))

/-- R125: from the idle bus the start condition puts `START` on the bus trace and leaves both lines driven low; a
`PEER` that holds `SDA` low makes it silent. Nothing else changes. -/
def Obligations.StartConditionFromIdleBus : Prop :=
  ∀ s : State, fgHeld s = false → s.env = [] → s.sclOut = .released → s.sdaOut = .released → s.peerSclLow = false →
    (s.peerSdaLow = false →
      exec .i2cStart s =
        .next { s with sclOut := .low, sdaOut := .low, busTrace := s.busTrace ++ [.start], busRise := none }) ∧
    (s.peerSdaLow = true → s.busRise = none →
      exec .i2cStart s = .next { s with sclOut := .low, sdaOut := .low })

/-- R126: with `SCL` low the stop condition releases both lines and puts `STOP`, and no bit, on the bus trace; a
`PEER` that holds `SDA` low makes it silent. Nothing else changes. -/
def Obligations.StopConditionReleasesTheBus : Prop :=
  ∀ s : State, fgHeld s = false → s.env = [] → s.sclOut = .low → s.peerSclLow = false → s.overlap = false →
    (s.peerSdaLow = false →
      exec .i2cStop s =
        .next { s with sclOut := .released, sdaOut := .released, busTrace := s.busTrace ++ [.stop], busRise := none }) ∧
    (s.peerSdaLow = true →
      exec .i2cStop s = .next { s with sclOut := .released, sdaOut := .released, busRise := some false })

/-- R123: one bit-clock, with no other agent moving: the sampled bit is that of `SDA_line`, it crosses the bus, it is
shifted in, and the counter advances twice. Nothing else changes. -/
def Obligations.BitClockSamplesAndShifts : Prop :=
  ∀ s : State, Uninterrupted s → s.env = [] → s.clksrc = .strobe → s.sclOut = .low → s.peerSclLow = false →
    s.overlap = false →
    exec .i2cBitClock s =
      .next { s with
        din := sdaLine s, cnt := s.cnt + 2, ovf := s.ovf || s.cnt + 1 == 0 || s.cnt + 2 == 0,
        sr := shiftIn s.sr (sdaLine s), busTrace := s.busTrace ++ [.bit (sdaLine s)], busRise := none }

/-- R124: without clock stretching, whatever else `PEER` and the timer do, an `n`-bit transfer returns, `n` 1 or 8,
with `CNT = 0`, `OVF = 1`, `SCL` driven low, and `SR` the old `SR` shifted left `n` places with the last sample in bit
0; and where `SCL` was driven low and `PEER` moves `SDA` only while it is low, `n` bits cross the bus, and `SR[n-1:0]`
holds them, the oldest highest. That bus values are free while the engines overlap is the model's
(notes/assumptions/6.md). -/
def Obligations.TransferRunsUntilOverflow : Prop :=
  ∀ (s : State) (n : Nat), n = 1 ∨ n = 8 → Uninterrupted s → NoStretch s → s.clksrc = .strobe →
    ∃ t, exec (.i2cXfer n) s = .next t ∧ t.fg = s.fg ∧ t.cnt = 0 ∧ t.ovf = true ∧ t.sclOut = .low ∧
      t.sdaOut = s.sdaOut ∧ t.ret = .byte t.sr ∧ t.sr.getLsbD 0 = t.din ∧
      (∀ k, n ≤ k → k < 8 → t.sr.getLsbD k = s.sr.getLsbD (k - n)) ∧
      (s.sclOut = .low → s.overlap = false → SdaSteadyWhileHigh n s →
        ∃ bs : List Bool, bs.length = n ∧ t.busTrace = s.busTrace ++ bs.map .bit ∧
          ∀ k < n, bs[k]? = some (t.sr.getLsbD (n - 1 - k)))

/-- R127: with `PEER` off `SDA` the byte crosses the bus bit 7 first, and `SR` holds it again. Nothing else changes.
-/
def Obligations.ByteOutCrossesTheBus : Prop :=
  ∀ (s : State) (b : Byte), Uninterrupted s → s.env = [] → s.clksrc = .strobe → s.sclOut = .low →
    s.peerSclLow = false → s.peerSdaLow = false → s.overlap = false →
    exec (.i2cByteOut b) s =
      .next { s with
        sr := b, sdaOut := .fromSr, cnt := 0, ovf := true, din := b.getLsbD 0,
        busTrace := s.busTrace ++ byteEvents b, busRise := none }

/-- R128: a byte that `PEER` presents bit 7 first while `SCL` is low is received and returned. Nothing else changes
but `PEER`'s own level and the instants gone by. The instants are the model's (notes/assumptions/5.md). -/
def Obligations.ByteInReceivesWhatPeerPresents : Prop :=
  ∀ (s : State) (v : Byte), Uninterrupted s → s.env = byteInSlots v → s.clksrc = .strobe → s.sclOut = .low →
    s.peerSclLow = false → s.overlap = false →
    exec .i2cByteIn s =
      .next { s with
        sr := v, sdaOut := .released, cnt := 0, ovf := true, din := v.getLsbD 0, ret := .byte v,
        busTrace := s.busTrace ++ byteEvents v, busRise := none, env := [], peerSdaLow := !v.getLsbD 0 }

/-- R129: the acknowledge slot: `I2C_ACKBIT` is 0 if `PEER` pulls `SDA` low and 1 if nobody does. Nothing else changes
but what the transfer writes. -/
def Obligations.AckCheckReadsTheAnswer : Prop :=
  ∀ (s : State), Uninterrupted s → s.env = [] → s.clksrc = .strobe → s.sclOut = .low → s.peerSclLow = false →
    s.overlap = false →
    exec .i2cAckCheck s =
      .next { s with
        sdaOut := .released, sr := shiftIn s.sr (!s.peerSdaLow), cnt := 0, ovf := true, din := !s.peerSdaLow,
        i2cAckbit := !s.peerSdaLow, busTrace := s.busTrace ++ [.bit (!s.peerSdaLow)], busRise := none }

/-- R130: the master's acknowledgment: bit 7 of the loaded frame crosses the bus unless `PEER` pulls `SDA` low, and
the sample is shifted in and ignored. Nothing else changes. -/
def Obligations.MasterAckDrivesItsBit : Prop :=
  ∀ (s : State) (nack : Bool), Uninterrupted s → s.env = [] → s.clksrc = .strobe → s.sclOut = .low →
    s.peerSclLow = false → s.overlap = false →
    exec (.i2cMasterAck nack) s =
      .next { s with
        sr := shiftIn (if nack then 0xFF else 0x00) (nack && !s.peerSdaLow), sdaOut := .fromSr, cnt := 0, ovf := true,
        din := nack && !s.peerSdaLow, busTrace := s.busTrace ++ [.bit (nack && !s.peerSdaLow)], busRise := none }

/-- Whatever the other agents do, short of stretching the clock, the framing and byte micro-operations return, with
`SCL` driven low after all of them but the stop condition, which releases it. -/
def Obligations.PrimitivesReturnWithoutStretching : Prop :=
  ∀ s : State, Uninterrupted s → NoStretch s →
    (∃ t, exec .i2cStart s = .next t ∧ t.fg = s.fg ∧ t.sclOut = .low ∧ t.sdaOut = .low) ∧
    (∃ t, exec .i2cStop s = .next t ∧ t.fg = s.fg ∧ t.sclOut = .released ∧ t.sdaOut = .released) ∧
    (∃ t, exec .i2cBitClock s = .next t ∧ t.fg = s.fg ∧ t.sclOut = .low ∧ t.sdaOut = s.sdaOut) ∧
    (s.clksrc = .strobe →
      (∀ b, ∃ t, exec (.i2cByteOut b) s = .next t ∧ t.fg = s.fg ∧ t.sclOut = .low ∧ t.sdaOut = .fromSr) ∧
      (∃ t, exec .i2cByteIn s = .next t ∧ t.fg = s.fg ∧ t.sclOut = .low ∧ t.sdaOut = .released ∧ t.ret = .byte t.sr) ∧
      (∃ t, exec .i2cAckCheck s = .next t ∧ t.fg = s.fg ∧ t.sclOut = .low ∧ t.sdaOut = .released ∧
        t.i2cAckbit = t.sr.getLsbD 0) ∧
      (∀ k, ∃ t, exec (.i2cMasterAck k) s = .next t ∧ t.fg = s.fg ∧ t.sclOut = .low ∧ t.sdaOut = .fromSr))

/-- The frame of the micro-operations of 41_i2c_primitives.md, in every state and whether they have returned or wait:
none of them writes a control bit, the UART's state, a section, a transaction register or a byte of memory; only
`I2C_ACK_CHECK` writes `I2C_ACKBIT`; and the clock edges of the start and the stop condition neither count nor shift
(R125, R126). -/
def Obligations.PrimitivesFrame : Prop :=
  ∀ (s t : State) (i : Instr),
    (i = .i2cStart ∨ i = .i2cStop ∨ i = .i2cBitClock ∨ i = .i2cWaitSclHigh ∨ (∃ n, i = .i2cXfer n) ∨
      (∃ b, i = .i2cByteOut b) ∨ i = .i2cByteIn ∨ i = .i2cAckCheck ∨ (∃ k, i = .i2cMasterAck k)) →
    exec i s = .next t →
    KeptByPrimitives s t ∧ (i ≠ .i2cAckCheck → t.i2cAckbit = s.i2cAckbit) ∧
    (i = .i2cStart ∨ i = .i2cStop → s.clksrc ≠ .timer → t.sr = s.sr ∧ t.cnt = s.cnt ∧ t.ovf = s.ovf ∧ t.din = s.din)

/-! ### I2C transactions (42_i2c_transactions.md) -/

/-- R140: opening takes the Shared Hardware Resource for the strobed clock, starts and opens the transaction, whatever
the other agents do short of stretching the clock. Nothing else changes, but that a timer which is still the shift
clock at entry can shift and count once more before the second write; the mark that the engines overlap is the model's
(notes/assumptions/6.md). -/
def Obligations.OpenTakesTheSharedResource : Prop :=
  ∀ s : State, fgHeld s = false → NoStretch s →
    ∃ t, exec .i2cOpen s = .next t ∧ KeptByScope s t ∧ t.ovie = false ∧ t.clksrc = .strobe ∧ t.i2cTxn = .opened ∧
      t.sclOut = .low ∧ t.sdaOut = .low ∧ t.overlap = (s.overlap || s.uartState != .idle) ∧
      (s.clksrc ≠ .timer → t.sr = s.sr ∧ t.cnt = s.cnt ∧ t.ovf = s.ovf)

/-- R141: closing stops, ends the transaction and gives the Shared Hardware Resource back, whatever the other agents
do short of stretching the clock. Nothing else changes. -/
def Obligations.CloseGivesTheResourceBack : Prop :=
  ∀ s : State, Uninterrupted s → NoStretch s → s.clksrc ≠ .timer →
    ∃ t, exec .i2cClose s = .next t ∧ KeptByScope s t ∧ t.clksrc = .off ∧ t.i2cTxn = .none ∧
      t.sclOut = .released ∧ t.sdaOut = .released ∧ t.ovie = s.ovie ∧ t.overlap = s.overlap ∧
      t.sr = s.sr ∧ t.cnt = s.cnt ∧ t.ovf = s.ovf

/-- R143, R141: inside an open transaction, the address byte crosses the bus; acknowledged, `FG` goes on with
`I2C_ACKBIT = 0` and the transaction open; not acknowledged, `raise NoAck` closes the transaction, leaves the critical
section and returns `Err(NoAck)`. That a lone `I2C_ADDRESS` closes so is the model's reading
(notes/assumptions/21.md); the instants are the model's (notes/assumptions/5.md). -/
def Obligations.AddressPhaseAcknowledgedOrAborts : Prop :=
  ∀ (s : State) (rw : Bool), s.inIsr = false → s.ovie = false → s.clksrc = .strobe → s.sclOut = .low →
    s.peerSclLow = false → s.peerSdaLow = false → s.overlap = false →
    (s.env = byteOutSlots ++ ackSlots true →
      ∃ t, exec (.i2cAddress rw) s = .next t ∧ t.fg = s.fg ∧ t.i2cAckbit = false ∧ t.i2cTxn = s.i2cTxn ∧
        t.clksrc = .strobe ∧ t.ret = s.ret ∧ t.gie = s.gie ∧ t.csSaved = s.csSaved ∧ t.mem = s.mem ∧
        t.i2cResult = s.i2cResult ∧ t.uartState = s.uartState ∧ t.txdSrc = s.txdSrc ∧
        t.busTrace = s.busTrace ++ byteEvents (addressByte s.i2cAddr rw) ++ [.bit false]) ∧
    (s.env = [] →
      ∀ g saved, s.csSaved = g :: saved →
      ∃ t, exec (.i2cAddress rw) s = .next t ∧ t.fg = s.fg ∧ t.i2cAckbit = true ∧ t.i2cTxn = .none ∧
        t.clksrc = .off ∧ t.i2cResult = .errNoAck ∧ t.ret = .result .errNoAck ∧ t.gie = g ∧ t.csSaved = saved ∧
        t.sclOut = .released ∧ t.sdaOut = .released ∧ t.mem = s.mem ∧ t.uartState = s.uartState ∧ t.txdSrc = s.txdSrc ∧
        t.busTrace = s.busTrace ++ byteEvents (addressByte s.i2cAddr rw) ++ [.bit true, .stop])

/-- R144, R147: a write returns, whatever the other agents do short of stretching the clock: the bus is released, the
resource given back, `GIE` and `CS_SAVED` are as before, memory holds the caller's buffer and is otherwise unchanged,
and the result is `Ok` exactly when the last acknowledge bit was 0. The model's choices: that the buffer's bytes come
with the invocation (notes/assumptions/4.md), that `I2C_IDX` then holds the length (notes/assumptions/24.md), and that
the operation runs in a state whose `UART_STATE` is not `Idle` too (notes/assumptions/6.md). -/
def Obligations.WriteReturns : Prop :=
  ∀ (s : State) (a : Byte) (d : List Byte), s.periphInit = true → fgHeld s = false → NoStretch s →
    ∃ t r, exec (.i2cWrite a d) s = .next t ∧ KeptByTransactions s t ∧ t.mem = (layOperand d s).mem ∧
      t.i2cTxn = .none ∧ t.clksrc = .off ∧ t.ovie = false ∧ t.cnt = 0 ∧ t.ovf = true ∧ t.sclOut = .released ∧
      t.sdaOut = .released ∧ t.i2cRw = false ∧ t.i2cAddr = a ∧ t.i2cBuf = s.operandAt ∧ t.i2cLen = d.length ∧
      t.i2cResult = r ∧ t.ret = .result r ∧ (r = .ok ↔ t.i2cAckbit = false) ∧ (r = .ok → t.i2cIdx = d.length)

/-- R145, R146, R147: a read returns, whatever the other agents do short of stretching the clock; it is refused only
by the address phase, and then has stored nothing; and it stores to no byte outside its buffer. The model's choices:
where the buffer lies (notes/assumptions/4.md), that `I2C_IDX` then holds the length (notes/assumptions/24.md), and
that the operation runs in a state whose `UART_STATE` is not `Idle` too (notes/assumptions/6.md). -/
def Obligations.ReadReturns : Prop :=
  ∀ (s : State) (a : Byte) (n : Nat), s.periphInit = true → fgHeld s = false → NoStretch s →
    ∃ t r, exec (.i2cRead a n) s = .next t ∧ KeptByTransactions s t ∧ t.i2cTxn = .none ∧
      t.clksrc = .off ∧ t.ovie = false ∧ t.cnt = 0 ∧ t.ovf = true ∧ t.sclOut = .released ∧ t.sdaOut = .released ∧
      t.i2cRw = true ∧ t.i2cAddr = a ∧ t.i2cBuf = s.operandAt ∧ t.i2cLen = n ∧
      t.i2cResult = r ∧ t.ret = .result r ∧ (r = .ok ↔ t.i2cAckbit = false) ∧ (r = .ok → t.i2cIdx = n) ∧
      (r = .errNoAck → t.mem = s.mem) ∧
      (∀ x, x < s.operandAt ∨ s.operandAt + n ≤ x → Memory.read t.mem x = Memory.read s.mem x)

/-- R60, R69, R71, R146: in every state, and whether the operation has returned or waits: a write finds its buffer's
bytes in the caller's memory and stores nothing, a read stores nowhere outside its buffer; so neither changes another
buffer. And while an operation waits inside its critical section the caller stores nothing. The place of a buffer and
the caller's turn are the model's (notes/assumptions/4.md, notes/assumptions/26.md). -/
def Obligations.TransactionsStoreOnlyInTheBuffer : Prop :=
  (∀ (s t : State) (a : Byte) (d : List Byte), exec (.i2cWrite a d) s = .next t →
    (Memory.wf s.mem = true → ∀ i (h : i < d.length), Memory.read t.mem (s.operandAt + i) = d[i]) ∧
    (∀ x, x < s.operandAt ∨ s.operandAt + d.length ≤ x → Memory.read t.mem x = Memory.read s.mem x)) ∧
  (∀ (s t : State) (a : Byte) (n : Nat), exec (.i2cRead a n) s = .next t →
    ∀ x, x < s.operandAt ∨ s.operandAt + n ≤ x → Memory.read t.mem x = Memory.read s.mem x) ∧
  (∀ s : State, s.fg ≠ [] → s.csSaved ≠ [] → settle (.next s) = .next (slot s))

/-- R85, R142, R144, R191: the wire format of a write, for every address, every data and every pattern of answers: one
`START`, the address byte, each byte and its acknowledge bit up to the first refusal, one `STOP`; and `Ok` exactly
when no byte was refused. The instants in which `PEER` answers are the model's (notes/assumptions/5.md), and that the
bytes come with the invocation (notes/assumptions/4.md). -/
def Obligations.WriteOnTheWire : Prop :=
  ∀ (s : State) (a : Byte) (ack : Bool) (data : List (Byte × Bool)),
    s.periphInit = true → fgHeld s = false → IdleBus s → s.uartState = .idle → Memory.wf s.mem = true →
    s.env = writeSlots ack (data.map (·.2)) →
    ∃ t, exec (.i2cWrite a (data.map (·.1))) s = .next t ∧ t.fg = s.fg ∧
      t.busTrace = s.busTrace ++ writeEvents a ack data ∧
      t.ret = .result (if allAcked ack data then .ok else .errNoAck)

/-- R86, R142, R145: the wire format of a read, for every address and every list of bytes. From an
always-acknowledging `PEER` the master drives ACK after every byte but the last and NACK after the last, and the
buffer then holds the bytes; a refused address byte is followed by its bit 1 and `STOP`, the result is `Err(NoAck)`
and memory is unchanged. The instants in which `PEER` presents its levels are the model's (notes/assumptions/5.md),
and where the buffer lies (notes/assumptions/4.md). -/
def Obligations.ReadOnTheWire : Prop :=
  ∀ (s : State) (a : Byte),
    s.periphInit = true → fgHeld s = false → IdleBus s → s.uartState = .idle →
    (∀ vs : List Byte, Memory.wf s.mem = true → s.env = readSlots vs →
      ∃ t, exec (.i2cRead a vs.length) s = .next t ∧ t.fg = s.fg ∧ t.busTrace = s.busTrace ++ readEvents a vs ∧
        t.ret = .result .ok ∧ (∀ i (h : i < vs.length), Memory.read t.mem (s.operandAt + i) = vs[i]) ∧
        (∀ x, x < s.operandAt ∨ s.operandAt + vs.length ≤ x → Memory.read t.mem x = Memory.read s.mem x)) ∧
    (∀ n : Nat, s.env = refusedSlots →
      ∃ t, exec (.i2cRead a n) s = .next t ∧ t.fg = s.fg ∧ t.busTrace = s.busTrace ++ refusedEvents a ∧
        t.ret = .result .errNoAck ∧ t.mem = s.mem)

/-- R144, R145, R233: a transaction of `N` bytes lists `9 * (N + 1)` bit-clocks, and its delays sum to R233's formula;
and run with the answers of `WriteOnTheWire` and `ReadOnTheWire` it puts that many bits on the bus when nothing is
refused, and `9 * (k + 1)` when acknowledge slot `k` is the first refused (slot 0 is the address byte's). The
durations are formulas beside the machine (notes/assumptions/22.md), the instants and the buffer's place the model's
(notes/assumptions/5.md, notes/assumptions/4.md). -/
def Obligations.TransactionBitClocksAndDuration : Prop :=
  (∀ (a : Byte) (n : Nat),
    bitClocks (writeLines a n) = 9 * (n + 1) ∧ duration (writeLines a n) = i2cDuration n ∧
    bitClocks (readLines a n) = 9 * (n + 1) ∧ duration (readLines a n) = i2cDuration n) ∧
  (∀ (s : State) (a : Byte), s.periphInit = true → fgHeld s = false → IdleBus s → s.uartState = .idle →
    Memory.wf s.mem = true →
    (∀ (ack : Bool) (data : List (Byte × Bool)), s.env = writeSlots ack (data.map (·.2)) →
      ∃ t, exec (.i2cWrite a (data.map (·.1))) s = .next t ∧
        (allAcked ack data = true → busBits t.busTrace = busBits s.busTrace + 9 * (data.length + 1)) ∧
        (∀ k, (ack :: data.map (·.2))[k]? = some false →
          (∀ j < k, (ack :: data.map (·.2))[j]? = some true) →
          busBits t.busTrace = busBits s.busTrace + 9 * (k + 1))) ∧
    (∀ vs : List Byte, s.env = readSlots vs →
      ∃ t, exec (.i2cRead a vs.length) s = .next t ∧
        busBits t.busTrace = busBits s.busTrace + 9 * (vs.length + 1)) ∧
    (∀ n : Nat, s.env = refusedSlots →
      ∃ t, exec (.i2cRead a n) s = .next t ∧ busBits t.busTrace = busBits s.busTrace + 9))

/-! ### UART (43_uart_tx.md) -/

/-- R165: the frame computation, its fixed bits and its corner cases; it reads no state, and writes none but the value
it returns. -/
def Obligations.UartFramesAreComputed : Prop :=
  (∀ b : Byte, encode (.uartFrames b) = [0x50, b]) ∧
  (∀ (s : State) (b : Byte),
    exec (.uartFrames b) s = .next { s with ret := .frames (rev8 ((b <<< 2) ||| 0x01)) (rev8 ((b >>> 6) ||| 0xFC)) }) ∧
  (∀ b : Byte, (frame1 b).extractLsb 7 6 = 0b10 ∧ (frame2 b).extractLsb 5 0 = 0b111111) ∧
  (frame1 0x00 = 0x80 ∧ frame2 0x00 = 0x3F) ∧ (frame1 0xFF = 0xBF ∧ frame2 0xFF = 0xFF) ∧
  (frame1 0x41 = 0xA0 ∧ frame2 0x41 = 0xBF)

/-- R166: from `Idle`, with no other agent moving, `uart_send` performs its writes and returns. Nothing else changes.
-/
def Obligations.UartSendStartsFromIdle : Prop :=
  ∀ (s : State) (b : Byte), s.periphInit = true → fgHeld s = false → s.env = [] → s.uartState = .idle →
    s.sdaOut ≠ .fromSr →
    exec (.uartSend b) s =
      .next { s with
        uartByte := b, sr := frame1 b, cnt := 8, ovf := false, uartState := .pendingByte (frame2 b), ovie := true,
        txdSrc := .fromSr, clksrc := .timer }

/-- R166: from `Idle`, whatever the other agents do meanwhile, `uart_send` returns with the second frame pending, the
interrupt enabled, the pin and the clock connected, `GIE` and `CS_SAVED` restored; and no register of the I2C engine,
no section and no byte of memory changes. -/
def Obligations.UartSendStartsWhateverOthersDo : Prop :=
  ∀ (s : State) (b : Byte), s.periphInit = true → fgHeld s = false → s.uartState = .idle →
    ∃ t, exec (.uartSend b) s = .next t ∧ t.fg = s.fg ∧ KeptByUart s t ∧ t.uartState = .pendingByte (frame2 b) ∧
      t.uartByte = b ∧ t.ovie = true ∧ t.txdSrc = .fromSr ∧ t.clksrc = .timer

/-- R166, R69 (b): while the state is not `Idle` a check of `uart_send` fails and changes nothing but that `uart_send`
has its operand, sampled once at its invocation; `FG` is again at the head of the check, and so it is from the loop's
back edge. The check that finds `Idle` after waiting starts the operand sampled at invocation, whatever the caller's
memory holds by then: with no other agent moving it makes the writes of R166 and nothing else changes, `uart_send`
returns, or `FG` goes on with the lines after it. And whatever the other agents do meanwhile, a check that fails
starts nothing and leaves `FG` at the check's back edge or its head, every register that they do not write as it was;
and the one that finds `Idle` leaves that operand's second frame pending, the interrupt enabled, the pin and the clock
connected, `GIE` and `CS_SAVED` restored. That one step is one check is the model's choice
(notes/assumptions/16.md). -/
def Obligations.UartSendWaitsWhileBusy : Prop :=
  ∀ s : State, fgHeld s = false →
    (s.env = [] → s.uartState ≠ .idle →
      (∀ b, s.periphInit = true → exec (.uartSend b) s = .next { s with uartByte := b, fg := sendLines ++ s.fg }) ∧
      (∀ ls, s.fg = sendLines ++ ls → resume s = s)) ∧
    (∀ ls, s.fg = .spinBack :: .scopeEnd .busy :: startWrites ++ .csExit :: ls →
      resume s = { s with fg := sendLines ++ ls }) ∧
    (s.env = [] → s.uartState = .idle → s.sdaOut ≠ .fromSr →
      (s.fg = sendLines → resume s = { started s.uartByte s with fg := [] }) ∧
      (∀ ls, s.fg = sendLines ++ ls → resume s = performLines ls { started s.uartByte s with fg := [] })) ∧
    (s.uartState ≠ .idle →
      (∀ b, s.periphInit = true → ∃ t, exec (.uartSend b) s = .next t ∧ CheckedFrom { s with uartByte := b } t ∧
        (t.fg = sendLines ++ s.fg ∨ t.fg = .spinBack :: .scopeEnd .busy :: startWrites ++ .csExit :: s.fg)) ∧
      (∀ ls, s.fg = sendLines ++ ls → CheckedFrom s (resume s) ∧
        ((resume s).fg = s.fg ∨ (resume s).fg = .spinBack :: .scopeEnd .busy :: startWrites ++ .csExit :: ls))) ∧
    (s.uartState = .idle → ∀ ls, s.fg = sendLines ++ ls →
      ∃ t, resume s = performLines ls t ∧ t.fg = [] ∧ KeptByUart s t ∧
        t.uartState = .pendingByte (frame2 s.uartByte) ∧ t.uartByte = s.uartByte ∧ t.ovie = true ∧
        t.txdSrc = .fromSr ∧ t.clksrc = .timer)

/-- R167: the drain wait returns in `Idle` with nothing changed, and waits in every other state. And of a drain wait
already under way: in every other state the check fails, nothing changes and `FG` is again at the head of the check,
and so it is from the loop's back edge; the check that finds `Idle` after waiting ends the wait with nothing changed,
and `FG` returns or goes on with the lines after it. The same whatever the other agents do meanwhile, every register
that they do not write left as it was, but that a check that fails may leave `FG` at its back edge. That one step is
one check is the model's choice (notes/assumptions/16.md). -/
def Obligations.DrainWaitReturnsInIdleOnly : Prop :=
  ∀ s : State, fgHeld s = false →
    (s.env = [] →
      (s.uartState = .idle → exec .uartWaitIdle s = .next s ∧
        (s.fg = drainLines → resume s = { s with fg := [] }) ∧
        (∀ ls, s.fg = drainLines ++ ls → resume s = performLines ls { s with fg := [] })) ∧
      (s.uartState ≠ .idle → exec .uartWaitIdle s = .next { s with fg := drainLines ++ s.fg } ∧
        (∀ ls, s.fg = drainLines ++ ls → resume s = s))) ∧
    (∀ ls, s.fg = .spinBack :: .scopeEnd .busy :: .csExit :: ls → resume s = { s with fg := drainLines ++ ls }) ∧
    (s.uartState = .idle →
      (∃ t, exec .uartWaitIdle s = .next t ∧ CheckedFrom s t ∧ t.fg = s.fg) ∧
      (∀ ls, s.fg = drainLines ++ ls → ∃ t, resume s = performLines ls t ∧ CheckedFrom s t ∧ t.fg = [])) ∧
    (s.uartState ≠ .idle →
      (∃ t, exec .uartWaitIdle s = .next t ∧ CheckedFrom s t ∧
        (t.fg = drainLines ++ s.fg ∨ t.fg = .spinBack :: .scopeEnd .busy :: .csExit :: s.fg)) ∧
      (∀ ls, s.fg = drainLines ++ ls → CheckedFrom s (resume s) ∧
        ((resume s).fg = s.fg ∨ (resume s).fg = .spinBack :: .scopeEnd .busy :: .csExit :: ls)))

/-- R172, R173, R69 (c): strings, with no other agent moving. The empty one is the drain wait, which returns in `Idle`
and waits in every other state. Of another, invoked in `Idle`, the first byte is started and `FG` waits to send the
rest; invoked in every other state, its first byte is sampled and `FG` waits at the check of `Idle` to send it, then
the rest. A line is its bytes and then the line terminator's. And wherever `FG` stands before a byte of a string, the
byte it sends is the one that the caller's memory holds at its turn: in `Idle` it is started; in every other state, as
in an ordinary string, it is sampled and `FG` waits at the check, and the check that finds `Idle` starts that byte and
`FG` waits to send the rest. When one `uart_send` has returned, the turn of the next byte comes; and whatever the
other agents do meanwhile, and whether it is started at once or waits, the byte at its turn is sampled from the
caller's memory. That `FG` waits at a step's end, and that the bytes first come with the invocation, is the model's
choice (notes/assumptions/16.md, notes/assumptions/4.md); the terminator is an open parameter
(notes/assumptions/19.md). -/
def Obligations.StringSendsItsFirstByteThenTheRest : Prop :=
  ∀ s : State, fgHeld s = false →
    (s.env = [] → s.uartState = .idle → s.sdaOut ≠ .fromSr →
      (s.periphInit = true → Memory.wf s.mem = true →
        exec (.uartSendStr []) s = .next s ∧
        (∀ b bs, exec (.uartSendStr (b :: bs)) s =
          .next { started b (layOperand (b :: bs) s) with
            fg := sendStrLines (bufferBytes (s.operandAt + 1) bs.length) ++ s.fg }) ∧
        (∀ b bs, exec (.uartSendLine (b :: bs)) s =
          .next { started b (layOperand (b :: bs) s) with
            fg := sendStrLines (bufferBytes (s.operandAt + 1) bs.length ++ lineTerminator) ++ s.fg }) ∧
        (Config.pLineTerminator = [] → exec (.uartSendLine []) s = .next s) ∧
        (∀ b bs, Config.pLineTerminator = b :: bs →
          exec (.uartSendLine []) s = .next { started b s with fg := sendStrLines (bs.map .value) ++ s.fg })) ∧
      (∀ src rest, s.fg = sendStrLines (src :: rest) →
        resume s = { started (sourceByte s src) s with fg := sendStrLines rest }) ∧
      (∀ rest, s.fg = sendLines ++ nextBytes rest →
        resume s = { started s.uartByte s with fg := sendStrLines rest })) ∧
    (s.env = [] → s.uartState ≠ .idle →
      (s.periphInit = true → Memory.wf s.mem = true →
        exec (.uartSendStr []) s = .next { s with fg := drainLines ++ s.fg } ∧
        (∀ b bs, exec (.uartSendStr (b :: bs)) s =
          .next { layOperand (b :: bs) s with
            uartByte := b, fg := sendLines ++ nextBytes (bufferBytes (s.operandAt + 1) bs.length) ++ s.fg }) ∧
        (∀ b bs, exec (.uartSendLine (b :: bs)) s =
          .next { layOperand (b :: bs) s with
            uartByte := b,
            fg := sendLines ++ nextBytes (bufferBytes (s.operandAt + 1) bs.length ++ lineTerminator) ++ s.fg }) ∧
        (Config.pLineTerminator = [] → exec (.uartSendLine []) s = .next { s with fg := drainLines ++ s.fg }) ∧
        (∀ b bs, Config.pLineTerminator = b :: bs →
          exec (.uartSendLine []) s =
            .next { s with uartByte := b, fg := sendLines ++ nextBytes (bs.map .value) ++ s.fg })) ∧
      (∀ src rest, s.fg = sendStrLines (src :: rest) →
        resume s = { s with uartByte := sourceByte s src, fg := sendLines ++ nextBytes rest })) ∧
    (∀ src rest, s.fg = nextBytes (src :: rest) → resume s = { s with fg := sendStrLines (src :: rest) }) ∧
    (∀ src rest, s.fg = sendStrLines (src :: rest) → (resume s).uartByte = sourceByte s src) ∧
    (∀ a, sourceByte s (.buffer a) = Memory.read s.mem a)

/-- R30, R160: in `FreeRunCompare`, from a count of 0, the ticks before the `TCMP`-th only count, and the `TCMP`-th is
a compare event with the count again 0; a stopped timer does nothing. And after boot compare events come for ever
under weak fairness, whatever the operations, the handler and the critical sections do: a timer listed to run on stays
listed over every step, and for every number `n` of compare events some number of steps brings as many; and from the
model's invariant, with no request waiting, there are that many steps. That fairness is an entry of the schedule is
the model's choice (notes/assumptions/5.md). -/
def Obligations.CompareEventsAreTcmpTicksApart : Prop :=
  ∀ s : State,
    (s.tmode = .freeRunCompare → s.tcnt = 0 → s.tcmp ≠ 0 →
      (∀ k < s.tcmp.toNat, timerTick^[k] s = { s with tcnt := BitVec.ofNat 8 k }) ∧
      timerTick^[s.tcmp.toNat] s = compareEvent s) ∧
    (s.tmode = .stopped → timerTick s = s) ∧
    (TimerFair s →
      (∀ t, step s = .next t → TimerFair t) ∧
      ∀ n, ∃ k, (∀ t, Steps k s t → compareCount s + n ≤ compareCount t) ∧
        (Inv s → s.requests = [] → ∃ t, Steps k s t))

/-- R161: a compare event: under the timer clock one shift with any fill bit and one advance, otherwise neither; and
it writes no other register. -/
def Obligations.CompareEventShiftsUnderTimerClock : Prop :=
  ∀ s : State, ∃ t, exec .timerCompare s = .next t ∧
    (s.clksrc = .timer →
      (∃ fill, t.sr = shiftIn s.sr fill) ∧ t.cnt = s.cnt + 1 ∧ t.ovf = (s.ovf || s.cnt == 15)) ∧
    (s.clksrc ≠ .timer → t.sr = s.sr ∧ t.cnt = s.cnt ∧ t.ovf = s.ovf) ∧
    KeptByHandler s t ∧ t.ovie = s.ovie ∧ t.clksrc = s.clksrc ∧ t.txdSrc = s.txdSrc ∧ t.tcnt = s.tcnt ∧ t.gie = s.gie ∧
    t.uartState = s.uartState ∧ t.inIsr = s.inIsr

/-! ### The interrupt (43_uart_tx.md §3; 60_exceptions.md §2, §3) -/

/-- R168: the handler in `PendingByte(f2)`, with no other agent moving: frame 2 is loaded, the counter re-armed, the
flag cleared, the state `AwaitingStop`; and the pin takes `f2[7]`. Nothing else changes. -/
def Obligations.HandlerLoadsSecondFrame : Prop :=
  ∀ (s : State) (f2 : Byte), irqPending s = true → s.uartState = .pendingByte f2 → s.env = [] → s.sdaOut ≠ .fromSr →
    ∃ t, exec .usiOvfIrq s = .next t ∧
      t = { s with sr := f2, cnt := 8, ovf := false, uartState := .awaitingStop } ∧
      (s.txdSrc = .fromSr → txdLine t = f2.getLsbD 7)

/-- R169: the handler in `AwaitingStop`, with no other agent moving: the clocking and the interrupt are disabled, the
pin idle-high, the flag cleared, the state `Idle`. Nothing else changes. -/
def Obligations.HandlerEndsTheCharacter : Prop :=
  ∀ s : State, irqPending s = true → s.uartState = .awaitingStop → s.env = [] →
    ∃ t, exec .usiOvfIrq s = .next t ∧
      t = { s with clksrc := .off, ovie := false, txdSrc := .idleHigh, ovf := false, uartState := .idle } ∧
      txdLine t = true

/-- R170, R193, R194: taken when due in `Idle` the interrupt is a fault; where the interrupt condition does not hold
it is not taken and nothing changes. That an event presented then does nothing is the model's choice
(notes/assumptions/25.md). -/
def Obligations.InterruptInIdleFaultsAndUndueChangesNothing : Prop :=
  ∀ s : State,
    (irqPending s = true → s.uartState = .idle → exec .usiOvfIrq s = .fault .handlerInIdle) ∧
    (¬(s.ovf = true ∧ s.ovie = true ∧ s.gie = true ∧ s.inIsr = false) → exec .usiOvfIrq s = .next s)

/-- R195, R196: whatever the other agents do meanwhile, a handler run returns with `IN_ISR = 0` and `GIE = 1`, has
advanced `UART_STATE` one place, and has left `FG`'s position, its private registers, `CS_SAVED` and memory as they
were. -/
def Obligations.InterruptResumesForegroundUnchanged : Prop :=
  ∀ s : State, irqPending s = true → s.uartState ≠ .idle →
    ∃ t, exec .usiOvfIrq s = .next t ∧ KeptByHandler s t ∧ t.inIsr = false ∧ t.gie = true ∧
      (∀ f2, s.uartState = .pendingByte f2 → t.uartState = .awaitingStop ∧ t.ovie = s.ovie ∧ t.clksrc = s.clksrc ∧
        t.txdSrc = s.txdSrc) ∧
      (s.uartState = .awaitingStop → t.uartState = .idle ∧ t.ovie = false ∧ t.clksrc = .off ∧ t.txdSrc = .idleHigh ∧
        t.ovf = false)

/-- R171, R87: one character on the wire, with each handler run completing inside the slot that began at the event
that made it due, so that `UartLatencyOK` holds at every compare event (R175, R227): after the idle filler, the ten
slots of the framed character and five stop-level slots, whatever the fill bits; then the pin is idle-high and the
state `Idle`. When a slot is read is the model's choice (notes/assumptions/10.md). -/
def Obligations.CharacterOnTheWire : Prop :=
  ∀ (s : State) (b : Byte), s.periphInit = true → fgHeld s = false → s.env = [] → s.uartState = .idle →
    s.sdaOut ≠ .fromSr → s.overlap = false → s.gie = true → s.slotOpen = true →
    ∃ t u v, exec (.uartSend b) s = .next t ∧ (∀ k < 8, LatencyOk (compareEvents k t)) ∧
      exec .usiOvfIrq (compareEvents 8 t) = .next u ∧ u.uartState = .awaitingStop ∧
      (∀ k < 8, LatencyOk (compareEvents k u)) ∧
      exec .usiOvfIrq (compareEvents 8 u) = .next v ∧ v.uartState = .idle ∧ v.txdSrc = .idleHigh ∧ v.clksrc = .off ∧
      v.ovie = false ∧ LatencyOk v ∧
      v.wireTrace = s.wireTrace ++ true :: framedCharacter b ++ List.replicate 5 true

/-! ### The whole machine -/

/-- The model's invariant holds at reset, and so do I3 and I4 of R45 with where `FG` stands. -/
def Obligations.ResetMeetsInvariant : Prop := Inv State.reset ∧ Exclusive State.reset

/-- Every step keeps the model's invariant, from every state that meets it: the memory stays canonical (the model's
form), sections nest with interrupts off inside (R34, R111), no handler is left half run (R197), the overflow
interrupt is enabled only while `UART_STATE` is not `Idle` (R170), the timer is the shift clock only with the
interrupt enabled and the pin connected (R45 I4), a pending frame is a second frame (R96 (d)), `FG` stands where an
operation can. It is the model's own. -/
def Obligations.StepKeepsInvariant : Prop := ∀ s t : State, Inv s → step s = .next t → Inv t

/-- R170, R197: from a state that meets the invariant no step faults: the handler is never entered in `Idle`. -/
def Obligations.InvariantExcludesFaults : Prop := ∀ (s : State) (f : Fault), Inv s → step s ≠ .fault f

/-- R163, R164, R174: the transitions of `UART_STATE` in one step, all of them: `Idle` to `PendingByte` of a second
frame, and, only where the interrupt condition held, `PendingByte` to `AwaitingStop` and `AwaitingStop` to `Idle`. No
step goes from `PendingByte` to another `PendingByte`. -/
def Obligations.UartStateTransitions : Prop :=
  ∀ s t : State, Inv s → step s = .next t →
    t.uartState = s.uartState ∨
    (s.uartState = .idle ∧ ∃ b, t.uartState = .pendingByte (frame2 b)) ∨
    (irqPending s = true ∧ (∃ f, s.uartState = .pendingByte f) ∧ t.uartState = .awaitingStop) ∨
    (irqPending s = true ∧ s.uartState = .awaitingStop ∧ t.uartState = .idle)

/-- R45 (I3, I4), R226: every step of a caller that keeps its duties, D-MUTEX on the command that the step takes among
them, keeps the two engines apart, whether a command returns or waits and returns by later steps: an open transaction
finds interrupts off, no handler, `UART_STATE = Idle` and the strobed clock; a busy UART owns the overflow interrupt,
the clock and the pin; an idle one neither clock nor pin. Where `FG` can stand is the model's
(notes/assumptions/16.md). -/
def Obligations.CommandsKeepEngineExclusion : Prop :=
  ∀ s t : State, Exclusive s → KeepsDuties s → step s = .next t → Exclusive t

/-- R231: a `PEER` that never releases `SCL` hangs the block: every next step finds `FG` at the same wait, with `GIE`
still 0, `CS_SAVED` and `UART_STATE` unchanged; and with no request waiting there is a next step. The list of
waiting requests is the model's (notes/assumptions/11.md). -/
def Obligations.SclHeldLowHangsForever : Prop :=
  ∀ s : State, HungOnScl s →
    (∀ t, step s = .next t → HungOnScl t ∧ t.fg = s.fg ∧ t.csSaved = s.csSaved ∧ t.uartState = s.uartState) ∧
    (s.requests = [] → ∃ t, step s = .next t)

/-- R232: a check of `Idle` made with `GIE = 0` while the state is another hangs `FG`: every next step finds it at the
same check, `UART_STATE` unchanged; and with no request waiting there is a next step. The list of waiting
requests is the model's (notes/assumptions/11.md). -/
def Obligations.IdleCheckWithInterruptsOffHangsForever : Prop :=
  ∀ s : State, HungOnIdle s →
    (∀ t, step s = .next t → HungOnIdle t ∧ t.fg = s.fg ∧ t.uartState = s.uartState) ∧
    (s.requests = [] → ∃ t, step s = .next t)
end

