-- ==== Sys2Proof/Laws/State.lean ====
section
/-! SUPPORT. One lemma per field per update: what the observation, the timer and the other agents' instants leave
unchanged. The named updates of Machine/Flags.lean and Machine/Ops.lean carry `@[simps]`, which states the same for
them. -/

namespace Sys2Proof.Machine

/-- A projection that the observation's fields do not reach is that of the observed state. -/
theorem observe_keeps {α : Type} (p : State → α)
    (h : ∀ t tr br d, p { t with busTrace := tr, busRise := br, draws := d } = p t) (s t : State) :
    p (observe s t) = p t := by
  unfold observe drawSeen
  split
  · split <;> exact h t _ _ _
  · split
    · exact h t _ _ _
    · rfl
  · split
    · exact h t _ _ _
    · exact h t _ _ _
    · rfl
  · rfl

theorem drawSeen_keeps {α : Type} (p : State → α) (h : ∀ t d, p { t with draws := d } = p t) (s : State) :
    p (drawSeen s) = p s := by
  unfold drawSeen; split
  · exact h s _
  · rfl

theorem closeSlot_keeps {α : Type} (p : State → α)
    (h : ∀ t w o d, p { t with wireTrace := w, slotOpen := o, draws := d } = p t) (s : State) :
    p (closeSlot s) = p s := by
  unfold closeSlot drawSeen; split
  · split <;> exact h s _ _ _
  · exact h s _ _ _

theorem timerShift_keeps {α : Type} (p : State → α)
    (h : ∀ t r c o d, p { t with sr := r, cnt := c, ovf := o, draws := d } = p t) (s : State) :
    p (timerShift s) = p s := by
  unfold timerShift advance; split
  · exact h s _ _ _ _
  · rfl

/-- A projection that one move of another agent leaves unchanged is unchanged by a whole instant. -/
theorem slot_keeps {α : Type} (p : State → α) (h : ∀ s m, p (envMove s m) = p s)
    (he : ∀ s e, p { s with env := e } = p s) (s : State) : p (slot s) = p s := by
  have fold : ∀ (ms : List EnvMove) (t : State), p (ms.foldl envMove t) = p t := by
    intro ms
    induction ms with
    | nil => intro t; rfl
    | cons m ms ih => intro t; rw [List.foldl_cons, ih, h]
  unfold slot
  split
  · rfl
  · rw [fold, he]

@[simp] theorem observe_sr (s t : State) : (observe s t).sr = t.sr := observe_keeps (·.sr) (fun _ _ _ _ => rfl) s t
@[simp] theorem observe_cnt (s t : State) : (observe s t).cnt = t.cnt := observe_keeps (·.cnt) (fun _ _ _ _ => rfl) s t
@[simp] theorem observe_ovf (s t : State) : (observe s t).ovf = t.ovf := observe_keeps (·.ovf) (fun _ _ _ _ => rfl) s t
@[simp] theorem observe_ovie (s t : State) : (observe s t).ovie = t.ovie := observe_keeps (·.ovie) (fun _ _ _ _ => rfl) s t
@[simp] theorem observe_clksrc (s t : State) : (observe s t).clksrc = t.clksrc := observe_keeps (·.clksrc) (fun _ _ _ _ => rfl) s t
@[simp] theorem observe_din (s t : State) : (observe s t).din = t.din := observe_keeps (·.din) (fun _ _ _ _ => rfl) s t
@[simp] theorem observe_sclOut (s t : State) : (observe s t).sclOut = t.sclOut := observe_keeps (·.sclOut) (fun _ _ _ _ => rfl) s t
@[simp] theorem observe_sdaOut (s t : State) : (observe s t).sdaOut = t.sdaOut := observe_keeps (·.sdaOut) (fun _ _ _ _ => rfl) s t
@[simp] theorem observe_txdSrc (s t : State) : (observe s t).txdSrc = t.txdSrc := observe_keeps (·.txdSrc) (fun _ _ _ _ => rfl) s t
@[simp] theorem observe_tcnt (s t : State) : (observe s t).tcnt = t.tcnt := observe_keeps (·.tcnt) (fun _ _ _ _ => rfl) s t
@[simp] theorem observe_tcmp (s t : State) : (observe s t).tcmp = t.tcmp := observe_keeps (·.tcmp) (fun _ _ _ _ => rfl) s t
@[simp] theorem observe_tmode (s t : State) : (observe s t).tmode = t.tmode := observe_keeps (·.tmode) (fun _ _ _ _ => rfl) s t
@[simp] theorem observe_gie (s t : State) : (observe s t).gie = t.gie := observe_keeps (·.gie) (fun _ _ _ _ => rfl) s t
@[simp] theorem observe_periphInit (s t : State) : (observe s t).periphInit = t.periphInit := observe_keeps (·.periphInit) (fun _ _ _ _ => rfl) s t
@[simp] theorem observe_csSaved (s t : State) : (observe s t).csSaved = t.csSaved := observe_keeps (·.csSaved) (fun _ _ _ _ => rfl) s t
@[simp] theorem observe_uartState (s t : State) : (observe s t).uartState = t.uartState := observe_keeps (·.uartState) (fun _ _ _ _ => rfl) s t
@[simp] theorem observe_i2cTxn (s t : State) : (observe s t).i2cTxn = t.i2cTxn := observe_keeps (·.i2cTxn) (fun _ _ _ _ => rfl) s t
@[simp] theorem observe_i2cRw (s t : State) : (observe s t).i2cRw = t.i2cRw := observe_keeps (·.i2cRw) (fun _ _ _ _ => rfl) s t
@[simp] theorem observe_i2cAddr (s t : State) : (observe s t).i2cAddr = t.i2cAddr := observe_keeps (·.i2cAddr) (fun _ _ _ _ => rfl) s t
@[simp] theorem observe_i2cBuf (s t : State) : (observe s t).i2cBuf = t.i2cBuf := observe_keeps (·.i2cBuf) (fun _ _ _ _ => rfl) s t
@[simp] theorem observe_i2cLen (s t : State) : (observe s t).i2cLen = t.i2cLen := observe_keeps (·.i2cLen) (fun _ _ _ _ => rfl) s t
@[simp] theorem observe_i2cIdx (s t : State) : (observe s t).i2cIdx = t.i2cIdx := observe_keeps (·.i2cIdx) (fun _ _ _ _ => rfl) s t
@[simp] theorem observe_i2cAckbit (s t : State) : (observe s t).i2cAckbit = t.i2cAckbit := observe_keeps (·.i2cAckbit) (fun _ _ _ _ => rfl) s t
@[simp] theorem observe_i2cResult (s t : State) : (observe s t).i2cResult = t.i2cResult := observe_keeps (·.i2cResult) (fun _ _ _ _ => rfl) s t
@[simp] theorem observe_inIsr (s t : State) : (observe s t).inIsr = t.inIsr := observe_keeps (·.inIsr) (fun _ _ _ _ => rfl) s t
@[simp] theorem observe_uartByte (s t : State) : (observe s t).uartByte = t.uartByte := observe_keeps (·.uartByte) (fun _ _ _ _ => rfl) s t
@[simp] theorem observe_mem (s t : State) : (observe s t).mem = t.mem := observe_keeps (·.mem) (fun _ _ _ _ => rfl) s t
@[simp] theorem observe_operandAt (s t : State) : (observe s t).operandAt = t.operandAt := observe_keeps (·.operandAt) (fun _ _ _ _ => rfl) s t
@[simp] theorem observe_callerStores (s t : State) : (observe s t).callerStores = t.callerStores := observe_keeps (·.callerStores) (fun _ _ _ _ => rfl) s t
@[simp] theorem observe_fg (s t : State) : (observe s t).fg = t.fg := observe_keeps (·.fg) (fun _ _ _ _ => rfl) s t
@[simp] theorem observe_ret (s t : State) : (observe s t).ret = t.ret := observe_keeps (·.ret) (fun _ _ _ _ => rfl) s t
@[simp] theorem observe_peerSdaLow (s t : State) : (observe s t).peerSdaLow = t.peerSdaLow := observe_keeps (·.peerSdaLow) (fun _ _ _ _ => rfl) s t
@[simp] theorem observe_peerSclLow (s t : State) : (observe s t).peerSclLow = t.peerSclLow := observe_keeps (·.peerSclLow) (fun _ _ _ _ => rfl) s t
@[simp] theorem observe_env (s t : State) : (observe s t).env = t.env := observe_keeps (·.env) (fun _ _ _ _ => rfl) s t
@[simp] theorem observe_requests (s t : State) : (observe s t).requests = t.requests := observe_keeps (·.requests) (fun _ _ _ _ => rfl) s t
@[simp] theorem observe_overlap (s t : State) : (observe s t).overlap = t.overlap := observe_keeps (·.overlap) (fun _ _ _ _ => rfl) s t
@[simp] theorem observe_wireTrace (s t : State) : (observe s t).wireTrace = t.wireTrace := observe_keeps (·.wireTrace) (fun _ _ _ _ => rfl) s t
@[simp] theorem observe_slotOpen (s t : State) : (observe s t).slotOpen = t.slotOpen := observe_keeps (·.slotOpen) (fun _ _ _ _ => rfl) s t

@[simp] theorem drawSeen_sr (s : State) : (drawSeen s).sr = s.sr := drawSeen_keeps (·.sr) (fun _ _ => rfl) s
@[simp] theorem drawSeen_cnt (s : State) : (drawSeen s).cnt = s.cnt := drawSeen_keeps (·.cnt) (fun _ _ => rfl) s
@[simp] theorem drawSeen_ovf (s : State) : (drawSeen s).ovf = s.ovf := drawSeen_keeps (·.ovf) (fun _ _ => rfl) s
@[simp] theorem drawSeen_ovie (s : State) : (drawSeen s).ovie = s.ovie := drawSeen_keeps (·.ovie) (fun _ _ => rfl) s
@[simp] theorem drawSeen_clksrc (s : State) : (drawSeen s).clksrc = s.clksrc := drawSeen_keeps (·.clksrc) (fun _ _ => rfl) s
@[simp] theorem drawSeen_din (s : State) : (drawSeen s).din = s.din := drawSeen_keeps (·.din) (fun _ _ => rfl) s
@[simp] theorem drawSeen_sclOut (s : State) : (drawSeen s).sclOut = s.sclOut := drawSeen_keeps (·.sclOut) (fun _ _ => rfl) s
@[simp] theorem drawSeen_sdaOut (s : State) : (drawSeen s).sdaOut = s.sdaOut := drawSeen_keeps (·.sdaOut) (fun _ _ => rfl) s
@[simp] theorem drawSeen_txdSrc (s : State) : (drawSeen s).txdSrc = s.txdSrc := drawSeen_keeps (·.txdSrc) (fun _ _ => rfl) s
@[simp] theorem drawSeen_tcnt (s : State) : (drawSeen s).tcnt = s.tcnt := drawSeen_keeps (·.tcnt) (fun _ _ => rfl) s
@[simp] theorem drawSeen_tcmp (s : State) : (drawSeen s).tcmp = s.tcmp := drawSeen_keeps (·.tcmp) (fun _ _ => rfl) s
@[simp] theorem drawSeen_tmode (s : State) : (drawSeen s).tmode = s.tmode := drawSeen_keeps (·.tmode) (fun _ _ => rfl) s
@[simp] theorem drawSeen_gie (s : State) : (drawSeen s).gie = s.gie := drawSeen_keeps (·.gie) (fun _ _ => rfl) s
@[simp] theorem drawSeen_periphInit (s : State) : (drawSeen s).periphInit = s.periphInit := drawSeen_keeps (·.periphInit) (fun _ _ => rfl) s
@[simp] theorem drawSeen_csSaved (s : State) : (drawSeen s).csSaved = s.csSaved := drawSeen_keeps (·.csSaved) (fun _ _ => rfl) s
@[simp] theorem drawSeen_uartState (s : State) : (drawSeen s).uartState = s.uartState := drawSeen_keeps (·.uartState) (fun _ _ => rfl) s
@[simp] theorem drawSeen_i2cTxn (s : State) : (drawSeen s).i2cTxn = s.i2cTxn := drawSeen_keeps (·.i2cTxn) (fun _ _ => rfl) s
@[simp] theorem drawSeen_i2cRw (s : State) : (drawSeen s).i2cRw = s.i2cRw := drawSeen_keeps (·.i2cRw) (fun _ _ => rfl) s
@[simp] theorem drawSeen_i2cAddr (s : State) : (drawSeen s).i2cAddr = s.i2cAddr := drawSeen_keeps (·.i2cAddr) (fun _ _ => rfl) s
@[simp] theorem drawSeen_i2cBuf (s : State) : (drawSeen s).i2cBuf = s.i2cBuf := drawSeen_keeps (·.i2cBuf) (fun _ _ => rfl) s
@[simp] theorem drawSeen_i2cLen (s : State) : (drawSeen s).i2cLen = s.i2cLen := drawSeen_keeps (·.i2cLen) (fun _ _ => rfl) s
@[simp] theorem drawSeen_i2cIdx (s : State) : (drawSeen s).i2cIdx = s.i2cIdx := drawSeen_keeps (·.i2cIdx) (fun _ _ => rfl) s
@[simp] theorem drawSeen_i2cAckbit (s : State) : (drawSeen s).i2cAckbit = s.i2cAckbit := drawSeen_keeps (·.i2cAckbit) (fun _ _ => rfl) s
@[simp] theorem drawSeen_i2cResult (s : State) : (drawSeen s).i2cResult = s.i2cResult := drawSeen_keeps (·.i2cResult) (fun _ _ => rfl) s
@[simp] theorem drawSeen_inIsr (s : State) : (drawSeen s).inIsr = s.inIsr := drawSeen_keeps (·.inIsr) (fun _ _ => rfl) s
@[simp] theorem drawSeen_uartByte (s : State) : (drawSeen s).uartByte = s.uartByte := drawSeen_keeps (·.uartByte) (fun _ _ => rfl) s
@[simp] theorem drawSeen_mem (s : State) : (drawSeen s).mem = s.mem := drawSeen_keeps (·.mem) (fun _ _ => rfl) s
@[simp] theorem drawSeen_operandAt (s : State) : (drawSeen s).operandAt = s.operandAt := drawSeen_keeps (·.operandAt) (fun _ _ => rfl) s
@[simp] theorem drawSeen_callerStores (s : State) : (drawSeen s).callerStores = s.callerStores := drawSeen_keeps (·.callerStores) (fun _ _ => rfl) s
@[simp] theorem drawSeen_fg (s : State) : (drawSeen s).fg = s.fg := drawSeen_keeps (·.fg) (fun _ _ => rfl) s
@[simp] theorem drawSeen_ret (s : State) : (drawSeen s).ret = s.ret := drawSeen_keeps (·.ret) (fun _ _ => rfl) s
@[simp] theorem drawSeen_peerSdaLow (s : State) : (drawSeen s).peerSdaLow = s.peerSdaLow := drawSeen_keeps (·.peerSdaLow) (fun _ _ => rfl) s
@[simp] theorem drawSeen_peerSclLow (s : State) : (drawSeen s).peerSclLow = s.peerSclLow := drawSeen_keeps (·.peerSclLow) (fun _ _ => rfl) s
@[simp] theorem drawSeen_env (s : State) : (drawSeen s).env = s.env := drawSeen_keeps (·.env) (fun _ _ => rfl) s
@[simp] theorem drawSeen_requests (s : State) : (drawSeen s).requests = s.requests := drawSeen_keeps (·.requests) (fun _ _ => rfl) s
@[simp] theorem drawSeen_overlap (s : State) : (drawSeen s).overlap = s.overlap := drawSeen_keeps (·.overlap) (fun _ _ => rfl) s
@[simp] theorem drawSeen_busTrace (s : State) : (drawSeen s).busTrace = s.busTrace := drawSeen_keeps (·.busTrace) (fun _ _ => rfl) s
@[simp] theorem drawSeen_busRise (s : State) : (drawSeen s).busRise = s.busRise := drawSeen_keeps (·.busRise) (fun _ _ => rfl) s
@[simp] theorem drawSeen_wireTrace (s : State) : (drawSeen s).wireTrace = s.wireTrace := drawSeen_keeps (·.wireTrace) (fun _ _ => rfl) s
@[simp] theorem drawSeen_slotOpen (s : State) : (drawSeen s).slotOpen = s.slotOpen := drawSeen_keeps (·.slotOpen) (fun _ _ => rfl) s

@[simp] theorem closeSlot_sr (s : State) : (closeSlot s).sr = s.sr := closeSlot_keeps (·.sr) (fun _ _ _ _ => rfl) s
@[simp] theorem closeSlot_cnt (s : State) : (closeSlot s).cnt = s.cnt := closeSlot_keeps (·.cnt) (fun _ _ _ _ => rfl) s
@[simp] theorem closeSlot_ovf (s : State) : (closeSlot s).ovf = s.ovf := closeSlot_keeps (·.ovf) (fun _ _ _ _ => rfl) s
@[simp] theorem closeSlot_ovie (s : State) : (closeSlot s).ovie = s.ovie := closeSlot_keeps (·.ovie) (fun _ _ _ _ => rfl) s
@[simp] theorem closeSlot_clksrc (s : State) : (closeSlot s).clksrc = s.clksrc := closeSlot_keeps (·.clksrc) (fun _ _ _ _ => rfl) s
@[simp] theorem closeSlot_din (s : State) : (closeSlot s).din = s.din := closeSlot_keeps (·.din) (fun _ _ _ _ => rfl) s
@[simp] theorem closeSlot_sclOut (s : State) : (closeSlot s).sclOut = s.sclOut := closeSlot_keeps (·.sclOut) (fun _ _ _ _ => rfl) s
@[simp] theorem closeSlot_sdaOut (s : State) : (closeSlot s).sdaOut = s.sdaOut := closeSlot_keeps (·.sdaOut) (fun _ _ _ _ => rfl) s
@[simp] theorem closeSlot_txdSrc (s : State) : (closeSlot s).txdSrc = s.txdSrc := closeSlot_keeps (·.txdSrc) (fun _ _ _ _ => rfl) s
@[simp] theorem closeSlot_tcnt (s : State) : (closeSlot s).tcnt = s.tcnt := closeSlot_keeps (·.tcnt) (fun _ _ _ _ => rfl) s
@[simp] theorem closeSlot_tcmp (s : State) : (closeSlot s).tcmp = s.tcmp := closeSlot_keeps (·.tcmp) (fun _ _ _ _ => rfl) s
@[simp] theorem closeSlot_tmode (s : State) : (closeSlot s).tmode = s.tmode := closeSlot_keeps (·.tmode) (fun _ _ _ _ => rfl) s
@[simp] theorem closeSlot_gie (s : State) : (closeSlot s).gie = s.gie := closeSlot_keeps (·.gie) (fun _ _ _ _ => rfl) s
@[simp] theorem closeSlot_periphInit (s : State) : (closeSlot s).periphInit = s.periphInit := closeSlot_keeps (·.periphInit) (fun _ _ _ _ => rfl) s
@[simp] theorem closeSlot_csSaved (s : State) : (closeSlot s).csSaved = s.csSaved := closeSlot_keeps (·.csSaved) (fun _ _ _ _ => rfl) s
@[simp] theorem closeSlot_uartState (s : State) : (closeSlot s).uartState = s.uartState := closeSlot_keeps (·.uartState) (fun _ _ _ _ => rfl) s
@[simp] theorem closeSlot_i2cTxn (s : State) : (closeSlot s).i2cTxn = s.i2cTxn := closeSlot_keeps (·.i2cTxn) (fun _ _ _ _ => rfl) s
@[simp] theorem closeSlot_i2cRw (s : State) : (closeSlot s).i2cRw = s.i2cRw := closeSlot_keeps (·.i2cRw) (fun _ _ _ _ => rfl) s
@[simp] theorem closeSlot_i2cAddr (s : State) : (closeSlot s).i2cAddr = s.i2cAddr := closeSlot_keeps (·.i2cAddr) (fun _ _ _ _ => rfl) s
@[simp] theorem closeSlot_i2cBuf (s : State) : (closeSlot s).i2cBuf = s.i2cBuf := closeSlot_keeps (·.i2cBuf) (fun _ _ _ _ => rfl) s
@[simp] theorem closeSlot_i2cLen (s : State) : (closeSlot s).i2cLen = s.i2cLen := closeSlot_keeps (·.i2cLen) (fun _ _ _ _ => rfl) s
@[simp] theorem closeSlot_i2cIdx (s : State) : (closeSlot s).i2cIdx = s.i2cIdx := closeSlot_keeps (·.i2cIdx) (fun _ _ _ _ => rfl) s
@[simp] theorem closeSlot_i2cAckbit (s : State) : (closeSlot s).i2cAckbit = s.i2cAckbit := closeSlot_keeps (·.i2cAckbit) (fun _ _ _ _ => rfl) s
@[simp] theorem closeSlot_i2cResult (s : State) : (closeSlot s).i2cResult = s.i2cResult := closeSlot_keeps (·.i2cResult) (fun _ _ _ _ => rfl) s
@[simp] theorem closeSlot_inIsr (s : State) : (closeSlot s).inIsr = s.inIsr := closeSlot_keeps (·.inIsr) (fun _ _ _ _ => rfl) s
@[simp] theorem closeSlot_uartByte (s : State) : (closeSlot s).uartByte = s.uartByte := closeSlot_keeps (·.uartByte) (fun _ _ _ _ => rfl) s
@[simp] theorem closeSlot_mem (s : State) : (closeSlot s).mem = s.mem := closeSlot_keeps (·.mem) (fun _ _ _ _ => rfl) s
@[simp] theorem closeSlot_operandAt (s : State) : (closeSlot s).operandAt = s.operandAt := closeSlot_keeps (·.operandAt) (fun _ _ _ _ => rfl) s
@[simp] theorem closeSlot_callerStores (s : State) : (closeSlot s).callerStores = s.callerStores := closeSlot_keeps (·.callerStores) (fun _ _ _ _ => rfl) s
@[simp] theorem closeSlot_fg (s : State) : (closeSlot s).fg = s.fg := closeSlot_keeps (·.fg) (fun _ _ _ _ => rfl) s
@[simp] theorem closeSlot_ret (s : State) : (closeSlot s).ret = s.ret := closeSlot_keeps (·.ret) (fun _ _ _ _ => rfl) s
@[simp] theorem closeSlot_peerSdaLow (s : State) : (closeSlot s).peerSdaLow = s.peerSdaLow := closeSlot_keeps (·.peerSdaLow) (fun _ _ _ _ => rfl) s
@[simp] theorem closeSlot_peerSclLow (s : State) : (closeSlot s).peerSclLow = s.peerSclLow := closeSlot_keeps (·.peerSclLow) (fun _ _ _ _ => rfl) s
@[simp] theorem closeSlot_env (s : State) : (closeSlot s).env = s.env := closeSlot_keeps (·.env) (fun _ _ _ _ => rfl) s
@[simp] theorem closeSlot_requests (s : State) : (closeSlot s).requests = s.requests := closeSlot_keeps (·.requests) (fun _ _ _ _ => rfl) s
@[simp] theorem closeSlot_overlap (s : State) : (closeSlot s).overlap = s.overlap := closeSlot_keeps (·.overlap) (fun _ _ _ _ => rfl) s
@[simp] theorem closeSlot_busTrace (s : State) : (closeSlot s).busTrace = s.busTrace := closeSlot_keeps (·.busTrace) (fun _ _ _ _ => rfl) s
@[simp] theorem closeSlot_busRise (s : State) : (closeSlot s).busRise = s.busRise := closeSlot_keeps (·.busRise) (fun _ _ _ _ => rfl) s

@[simp] theorem timerShift_ovie (s : State) : (timerShift s).ovie = s.ovie := timerShift_keeps (·.ovie) (fun _ _ _ _ _ => rfl) s
@[simp] theorem timerShift_clksrc (s : State) : (timerShift s).clksrc = s.clksrc := timerShift_keeps (·.clksrc) (fun _ _ _ _ _ => rfl) s
@[simp] theorem timerShift_din (s : State) : (timerShift s).din = s.din := timerShift_keeps (·.din) (fun _ _ _ _ _ => rfl) s
@[simp] theorem timerShift_sclOut (s : State) : (timerShift s).sclOut = s.sclOut := timerShift_keeps (·.sclOut) (fun _ _ _ _ _ => rfl) s
@[simp] theorem timerShift_sdaOut (s : State) : (timerShift s).sdaOut = s.sdaOut := timerShift_keeps (·.sdaOut) (fun _ _ _ _ _ => rfl) s
@[simp] theorem timerShift_txdSrc (s : State) : (timerShift s).txdSrc = s.txdSrc := timerShift_keeps (·.txdSrc) (fun _ _ _ _ _ => rfl) s
@[simp] theorem timerShift_tcnt (s : State) : (timerShift s).tcnt = s.tcnt := timerShift_keeps (·.tcnt) (fun _ _ _ _ _ => rfl) s
@[simp] theorem timerShift_tcmp (s : State) : (timerShift s).tcmp = s.tcmp := timerShift_keeps (·.tcmp) (fun _ _ _ _ _ => rfl) s
@[simp] theorem timerShift_tmode (s : State) : (timerShift s).tmode = s.tmode := timerShift_keeps (·.tmode) (fun _ _ _ _ _ => rfl) s
@[simp] theorem timerShift_gie (s : State) : (timerShift s).gie = s.gie := timerShift_keeps (·.gie) (fun _ _ _ _ _ => rfl) s
@[simp] theorem timerShift_periphInit (s : State) : (timerShift s).periphInit = s.periphInit := timerShift_keeps (·.periphInit) (fun _ _ _ _ _ => rfl) s
@[simp] theorem timerShift_csSaved (s : State) : (timerShift s).csSaved = s.csSaved := timerShift_keeps (·.csSaved) (fun _ _ _ _ _ => rfl) s
@[simp] theorem timerShift_uartState (s : State) : (timerShift s).uartState = s.uartState := timerShift_keeps (·.uartState) (fun _ _ _ _ _ => rfl) s
@[simp] theorem timerShift_i2cTxn (s : State) : (timerShift s).i2cTxn = s.i2cTxn := timerShift_keeps (·.i2cTxn) (fun _ _ _ _ _ => rfl) s
@[simp] theorem timerShift_i2cRw (s : State) : (timerShift s).i2cRw = s.i2cRw := timerShift_keeps (·.i2cRw) (fun _ _ _ _ _ => rfl) s
@[simp] theorem timerShift_i2cAddr (s : State) : (timerShift s).i2cAddr = s.i2cAddr := timerShift_keeps (·.i2cAddr) (fun _ _ _ _ _ => rfl) s
@[simp] theorem timerShift_i2cBuf (s : State) : (timerShift s).i2cBuf = s.i2cBuf := timerShift_keeps (·.i2cBuf) (fun _ _ _ _ _ => rfl) s
@[simp] theorem timerShift_i2cLen (s : State) : (timerShift s).i2cLen = s.i2cLen := timerShift_keeps (·.i2cLen) (fun _ _ _ _ _ => rfl) s
@[simp] theorem timerShift_i2cIdx (s : State) : (timerShift s).i2cIdx = s.i2cIdx := timerShift_keeps (·.i2cIdx) (fun _ _ _ _ _ => rfl) s
@[simp] theorem timerShift_i2cAckbit (s : State) : (timerShift s).i2cAckbit = s.i2cAckbit := timerShift_keeps (·.i2cAckbit) (fun _ _ _ _ _ => rfl) s
@[simp] theorem timerShift_i2cResult (s : State) : (timerShift s).i2cResult = s.i2cResult := timerShift_keeps (·.i2cResult) (fun _ _ _ _ _ => rfl) s
@[simp] theorem timerShift_inIsr (s : State) : (timerShift s).inIsr = s.inIsr := timerShift_keeps (·.inIsr) (fun _ _ _ _ _ => rfl) s
@[simp] theorem timerShift_uartByte (s : State) : (timerShift s).uartByte = s.uartByte := timerShift_keeps (·.uartByte) (fun _ _ _ _ _ => rfl) s
@[simp] theorem timerShift_mem (s : State) : (timerShift s).mem = s.mem := timerShift_keeps (·.mem) (fun _ _ _ _ _ => rfl) s
@[simp] theorem timerShift_operandAt (s : State) : (timerShift s).operandAt = s.operandAt := timerShift_keeps (·.operandAt) (fun _ _ _ _ _ => rfl) s
@[simp] theorem timerShift_callerStores (s : State) : (timerShift s).callerStores = s.callerStores := timerShift_keeps (·.callerStores) (fun _ _ _ _ _ => rfl) s
@[simp] theorem timerShift_fg (s : State) : (timerShift s).fg = s.fg := timerShift_keeps (·.fg) (fun _ _ _ _ _ => rfl) s
@[simp] theorem timerShift_ret (s : State) : (timerShift s).ret = s.ret := timerShift_keeps (·.ret) (fun _ _ _ _ _ => rfl) s
@[simp] theorem timerShift_peerSdaLow (s : State) : (timerShift s).peerSdaLow = s.peerSdaLow := timerShift_keeps (·.peerSdaLow) (fun _ _ _ _ _ => rfl) s
@[simp] theorem timerShift_peerSclLow (s : State) : (timerShift s).peerSclLow = s.peerSclLow := timerShift_keeps (·.peerSclLow) (fun _ _ _ _ _ => rfl) s
@[simp] theorem timerShift_env (s : State) : (timerShift s).env = s.env := timerShift_keeps (·.env) (fun _ _ _ _ _ => rfl) s
@[simp] theorem timerShift_requests (s : State) : (timerShift s).requests = s.requests := timerShift_keeps (·.requests) (fun _ _ _ _ _ => rfl) s
@[simp] theorem timerShift_overlap (s : State) : (timerShift s).overlap = s.overlap := timerShift_keeps (·.overlap) (fun _ _ _ _ _ => rfl) s
@[simp] theorem timerShift_busTrace (s : State) : (timerShift s).busTrace = s.busTrace := timerShift_keeps (·.busTrace) (fun _ _ _ _ _ => rfl) s
@[simp] theorem timerShift_busRise (s : State) : (timerShift s).busRise = s.busRise := timerShift_keeps (·.busRise) (fun _ _ _ _ _ => rfl) s
@[simp] theorem timerShift_wireTrace (s : State) : (timerShift s).wireTrace = s.wireTrace := timerShift_keeps (·.wireTrace) (fun _ _ _ _ _ => rfl) s
@[simp] theorem timerShift_slotOpen (s : State) : (timerShift s).slotOpen = s.slotOpen := timerShift_keeps (·.slotOpen) (fun _ _ _ _ _ => rfl) s

@[simp] theorem compareEvent_ovie (s : State) : (compareEvent s).ovie = s.ovie := by simp [compareEvent]
@[simp] theorem compareEvent_clksrc (s : State) : (compareEvent s).clksrc = s.clksrc := by simp [compareEvent]
@[simp] theorem compareEvent_din (s : State) : (compareEvent s).din = s.din := by simp [compareEvent]
@[simp] theorem compareEvent_sclOut (s : State) : (compareEvent s).sclOut = s.sclOut := by simp [compareEvent]
@[simp] theorem compareEvent_sdaOut (s : State) : (compareEvent s).sdaOut = s.sdaOut := by simp [compareEvent]
@[simp] theorem compareEvent_txdSrc (s : State) : (compareEvent s).txdSrc = s.txdSrc := by simp [compareEvent]
@[simp] theorem compareEvent_tcnt (s : State) : (compareEvent s).tcnt = s.tcnt := by simp [compareEvent]
@[simp] theorem compareEvent_tcmp (s : State) : (compareEvent s).tcmp = s.tcmp := by simp [compareEvent]
@[simp] theorem compareEvent_tmode (s : State) : (compareEvent s).tmode = s.tmode := by simp [compareEvent]
@[simp] theorem compareEvent_gie (s : State) : (compareEvent s).gie = s.gie := by simp [compareEvent]
@[simp] theorem compareEvent_periphInit (s : State) : (compareEvent s).periphInit = s.periphInit := by simp [compareEvent]
@[simp] theorem compareEvent_csSaved (s : State) : (compareEvent s).csSaved = s.csSaved := by simp [compareEvent]
@[simp] theorem compareEvent_uartState (s : State) : (compareEvent s).uartState = s.uartState := by simp [compareEvent]
@[simp] theorem compareEvent_i2cTxn (s : State) : (compareEvent s).i2cTxn = s.i2cTxn := by simp [compareEvent]
@[simp] theorem compareEvent_i2cRw (s : State) : (compareEvent s).i2cRw = s.i2cRw := by simp [compareEvent]
@[simp] theorem compareEvent_i2cAddr (s : State) : (compareEvent s).i2cAddr = s.i2cAddr := by simp [compareEvent]
@[simp] theorem compareEvent_i2cBuf (s : State) : (compareEvent s).i2cBuf = s.i2cBuf := by simp [compareEvent]
@[simp] theorem compareEvent_i2cLen (s : State) : (compareEvent s).i2cLen = s.i2cLen := by simp [compareEvent]
@[simp] theorem compareEvent_i2cIdx (s : State) : (compareEvent s).i2cIdx = s.i2cIdx := by simp [compareEvent]
@[simp] theorem compareEvent_i2cAckbit (s : State) : (compareEvent s).i2cAckbit = s.i2cAckbit := by simp [compareEvent]
@[simp] theorem compareEvent_i2cResult (s : State) : (compareEvent s).i2cResult = s.i2cResult := by simp [compareEvent]
@[simp] theorem compareEvent_inIsr (s : State) : (compareEvent s).inIsr = s.inIsr := by simp [compareEvent]
@[simp] theorem compareEvent_uartByte (s : State) : (compareEvent s).uartByte = s.uartByte := by simp [compareEvent]
@[simp] theorem compareEvent_mem (s : State) : (compareEvent s).mem = s.mem := by simp [compareEvent]
@[simp] theorem compareEvent_operandAt (s : State) : (compareEvent s).operandAt = s.operandAt := by simp [compareEvent]
@[simp] theorem compareEvent_callerStores (s : State) : (compareEvent s).callerStores = s.callerStores := by simp [compareEvent]
@[simp] theorem compareEvent_fg (s : State) : (compareEvent s).fg = s.fg := by simp [compareEvent]
@[simp] theorem compareEvent_ret (s : State) : (compareEvent s).ret = s.ret := by simp [compareEvent]
@[simp] theorem compareEvent_peerSdaLow (s : State) : (compareEvent s).peerSdaLow = s.peerSdaLow := by simp [compareEvent]
@[simp] theorem compareEvent_peerSclLow (s : State) : (compareEvent s).peerSclLow = s.peerSclLow := by simp [compareEvent]
@[simp] theorem compareEvent_env (s : State) : (compareEvent s).env = s.env := by simp [compareEvent]
@[simp] theorem compareEvent_requests (s : State) : (compareEvent s).requests = s.requests := by simp [compareEvent]
@[simp] theorem compareEvent_overlap (s : State) : (compareEvent s).overlap = s.overlap := by simp [compareEvent]
@[simp] theorem compareEvent_busTrace (s : State) : (compareEvent s).busTrace = s.busTrace := by simp [compareEvent]
@[simp] theorem compareEvent_busRise (s : State) : (compareEvent s).busRise = s.busRise := by simp [compareEvent]

@[simp] theorem timerTick_ovie (s : State) : (timerTick s).ovie = s.ovie := by unfold timerTick; split <;> [split; skip] <;> simp
@[simp] theorem timerTick_clksrc (s : State) : (timerTick s).clksrc = s.clksrc := by unfold timerTick; split <;> [split; skip] <;> simp
@[simp] theorem timerTick_din (s : State) : (timerTick s).din = s.din := by unfold timerTick; split <;> [split; skip] <;> simp
@[simp] theorem timerTick_sclOut (s : State) : (timerTick s).sclOut = s.sclOut := by unfold timerTick; split <;> [split; skip] <;> simp
@[simp] theorem timerTick_sdaOut (s : State) : (timerTick s).sdaOut = s.sdaOut := by unfold timerTick; split <;> [split; skip] <;> simp
@[simp] theorem timerTick_txdSrc (s : State) : (timerTick s).txdSrc = s.txdSrc := by unfold timerTick; split <;> [split; skip] <;> simp
@[simp] theorem timerTick_tcmp (s : State) : (timerTick s).tcmp = s.tcmp := by unfold timerTick; split <;> [split; skip] <;> simp
@[simp] theorem timerTick_tmode (s : State) : (timerTick s).tmode = s.tmode := by unfold timerTick; split <;> [split; skip] <;> simp
@[simp] theorem timerTick_gie (s : State) : (timerTick s).gie = s.gie := by unfold timerTick; split <;> [split; skip] <;> simp
@[simp] theorem timerTick_periphInit (s : State) : (timerTick s).periphInit = s.periphInit := by unfold timerTick; split <;> [split; skip] <;> simp
@[simp] theorem timerTick_csSaved (s : State) : (timerTick s).csSaved = s.csSaved := by unfold timerTick; split <;> [split; skip] <;> simp
@[simp] theorem timerTick_uartState (s : State) : (timerTick s).uartState = s.uartState := by unfold timerTick; split <;> [split; skip] <;> simp
@[simp] theorem timerTick_i2cTxn (s : State) : (timerTick s).i2cTxn = s.i2cTxn := by unfold timerTick; split <;> [split; skip] <;> simp
@[simp] theorem timerTick_i2cRw (s : State) : (timerTick s).i2cRw = s.i2cRw := by unfold timerTick; split <;> [split; skip] <;> simp
@[simp] theorem timerTick_i2cAddr (s : State) : (timerTick s).i2cAddr = s.i2cAddr := by unfold timerTick; split <;> [split; skip] <;> simp
@[simp] theorem timerTick_i2cBuf (s : State) : (timerTick s).i2cBuf = s.i2cBuf := by unfold timerTick; split <;> [split; skip] <;> simp
@[simp] theorem timerTick_i2cLen (s : State) : (timerTick s).i2cLen = s.i2cLen := by unfold timerTick; split <;> [split; skip] <;> simp
@[simp] theorem timerTick_i2cIdx (s : State) : (timerTick s).i2cIdx = s.i2cIdx := by unfold timerTick; split <;> [split; skip] <;> simp
@[simp] theorem timerTick_i2cAckbit (s : State) : (timerTick s).i2cAckbit = s.i2cAckbit := by unfold timerTick; split <;> [split; skip] <;> simp
@[simp] theorem timerTick_i2cResult (s : State) : (timerTick s).i2cResult = s.i2cResult := by unfold timerTick; split <;> [split; skip] <;> simp
@[simp] theorem timerTick_inIsr (s : State) : (timerTick s).inIsr = s.inIsr := by unfold timerTick; split <;> [split; skip] <;> simp
@[simp] theorem timerTick_uartByte (s : State) : (timerTick s).uartByte = s.uartByte := by unfold timerTick; split <;> [split; skip] <;> simp
@[simp] theorem timerTick_mem (s : State) : (timerTick s).mem = s.mem := by unfold timerTick; split <;> [split; skip] <;> simp
@[simp] theorem timerTick_operandAt (s : State) : (timerTick s).operandAt = s.operandAt := by unfold timerTick; split <;> [split; skip] <;> simp
@[simp] theorem timerTick_callerStores (s : State) : (timerTick s).callerStores = s.callerStores := by unfold timerTick; split <;> [split; skip] <;> simp
@[simp] theorem timerTick_fg (s : State) : (timerTick s).fg = s.fg := by unfold timerTick; split <;> [split; skip] <;> simp
@[simp] theorem timerTick_ret (s : State) : (timerTick s).ret = s.ret := by unfold timerTick; split <;> [split; skip] <;> simp
@[simp] theorem timerTick_peerSdaLow (s : State) : (timerTick s).peerSdaLow = s.peerSdaLow := by unfold timerTick; split <;> [split; skip] <;> simp
@[simp] theorem timerTick_peerSclLow (s : State) : (timerTick s).peerSclLow = s.peerSclLow := by unfold timerTick; split <;> [split; skip] <;> simp
@[simp] theorem timerTick_env (s : State) : (timerTick s).env = s.env := by unfold timerTick; split <;> [split; skip] <;> simp
@[simp] theorem timerTick_requests (s : State) : (timerTick s).requests = s.requests := by unfold timerTick; split <;> [split; skip] <;> simp
@[simp] theorem timerTick_overlap (s : State) : (timerTick s).overlap = s.overlap := by unfold timerTick; split <;> [split; skip] <;> simp
@[simp] theorem timerTick_busTrace (s : State) : (timerTick s).busTrace = s.busTrace := by unfold timerTick; split <;> [split; skip] <;> simp
@[simp] theorem timerTick_busRise (s : State) : (timerTick s).busRise = s.busRise := by unfold timerTick; split <;> [split; skip] <;> simp

@[simp] theorem tickSeen_ovie (s : State) : (tickSeen s).ovie = s.ovie := by simp [tickSeen]
@[simp] theorem tickSeen_clksrc (s : State) : (tickSeen s).clksrc = s.clksrc := by simp [tickSeen]
@[simp] theorem tickSeen_din (s : State) : (tickSeen s).din = s.din := by simp [tickSeen]
@[simp] theorem tickSeen_sclOut (s : State) : (tickSeen s).sclOut = s.sclOut := by simp [tickSeen]
@[simp] theorem tickSeen_sdaOut (s : State) : (tickSeen s).sdaOut = s.sdaOut := by simp [tickSeen]
@[simp] theorem tickSeen_txdSrc (s : State) : (tickSeen s).txdSrc = s.txdSrc := by simp [tickSeen]
@[simp] theorem tickSeen_tcmp (s : State) : (tickSeen s).tcmp = s.tcmp := by simp [tickSeen]
@[simp] theorem tickSeen_tmode (s : State) : (tickSeen s).tmode = s.tmode := by simp [tickSeen]
@[simp] theorem tickSeen_gie (s : State) : (tickSeen s).gie = s.gie := by simp [tickSeen]
@[simp] theorem tickSeen_periphInit (s : State) : (tickSeen s).periphInit = s.periphInit := by simp [tickSeen]
@[simp] theorem tickSeen_csSaved (s : State) : (tickSeen s).csSaved = s.csSaved := by simp [tickSeen]
@[simp] theorem tickSeen_uartState (s : State) : (tickSeen s).uartState = s.uartState := by simp [tickSeen]
@[simp] theorem tickSeen_i2cTxn (s : State) : (tickSeen s).i2cTxn = s.i2cTxn := by simp [tickSeen]
@[simp] theorem tickSeen_i2cRw (s : State) : (tickSeen s).i2cRw = s.i2cRw := by simp [tickSeen]
@[simp] theorem tickSeen_i2cAddr (s : State) : (tickSeen s).i2cAddr = s.i2cAddr := by simp [tickSeen]
@[simp] theorem tickSeen_i2cBuf (s : State) : (tickSeen s).i2cBuf = s.i2cBuf := by simp [tickSeen]
@[simp] theorem tickSeen_i2cLen (s : State) : (tickSeen s).i2cLen = s.i2cLen := by simp [tickSeen]
@[simp] theorem tickSeen_i2cIdx (s : State) : (tickSeen s).i2cIdx = s.i2cIdx := by simp [tickSeen]
@[simp] theorem tickSeen_i2cAckbit (s : State) : (tickSeen s).i2cAckbit = s.i2cAckbit := by simp [tickSeen]
@[simp] theorem tickSeen_i2cResult (s : State) : (tickSeen s).i2cResult = s.i2cResult := by simp [tickSeen]
@[simp] theorem tickSeen_inIsr (s : State) : (tickSeen s).inIsr = s.inIsr := by simp [tickSeen]
@[simp] theorem tickSeen_uartByte (s : State) : (tickSeen s).uartByte = s.uartByte := by simp [tickSeen]
@[simp] theorem tickSeen_mem (s : State) : (tickSeen s).mem = s.mem := by simp [tickSeen]
@[simp] theorem tickSeen_operandAt (s : State) : (tickSeen s).operandAt = s.operandAt := by simp [tickSeen]
@[simp] theorem tickSeen_callerStores (s : State) : (tickSeen s).callerStores = s.callerStores := by simp [tickSeen]
@[simp] theorem tickSeen_fg (s : State) : (tickSeen s).fg = s.fg := by simp [tickSeen]
@[simp] theorem tickSeen_ret (s : State) : (tickSeen s).ret = s.ret := by simp [tickSeen]
@[simp] theorem tickSeen_peerSdaLow (s : State) : (tickSeen s).peerSdaLow = s.peerSdaLow := by simp [tickSeen]
@[simp] theorem tickSeen_peerSclLow (s : State) : (tickSeen s).peerSclLow = s.peerSclLow := by simp [tickSeen]
@[simp] theorem tickSeen_env (s : State) : (tickSeen s).env = s.env := by simp [tickSeen]
@[simp] theorem tickSeen_requests (s : State) : (tickSeen s).requests = s.requests := by simp [tickSeen]
@[simp] theorem tickSeen_overlap (s : State) : (tickSeen s).overlap = s.overlap := by simp [tickSeen]

/-- A projection that one tick leaves unchanged is unchanged by several. -/
theorem tickRun_keeps {α : Type} (p : State → α) (h : ∀ s, p (tickSeen s) = p s) (n : Nat) (s : State) :
    p (tickRun n s) = p s := by
  induction n generalizing s with
  | zero => rfl
  | succ n ih => rw [tickRun, ih, h]

@[simp] theorem tickRun_ovie (n : Nat) (s : State) : (tickRun n s).ovie = s.ovie := tickRun_keeps (·.ovie) tickSeen_ovie n s
@[simp] theorem tickRun_clksrc (n : Nat) (s : State) : (tickRun n s).clksrc = s.clksrc := tickRun_keeps (·.clksrc) tickSeen_clksrc n s
@[simp] theorem tickRun_din (n : Nat) (s : State) : (tickRun n s).din = s.din := tickRun_keeps (·.din) tickSeen_din n s
@[simp] theorem tickRun_sclOut (n : Nat) (s : State) : (tickRun n s).sclOut = s.sclOut := tickRun_keeps (·.sclOut) tickSeen_sclOut n s
@[simp] theorem tickRun_sdaOut (n : Nat) (s : State) : (tickRun n s).sdaOut = s.sdaOut := tickRun_keeps (·.sdaOut) tickSeen_sdaOut n s
@[simp] theorem tickRun_txdSrc (n : Nat) (s : State) : (tickRun n s).txdSrc = s.txdSrc := tickRun_keeps (·.txdSrc) tickSeen_txdSrc n s
@[simp] theorem tickRun_tcmp (n : Nat) (s : State) : (tickRun n s).tcmp = s.tcmp := tickRun_keeps (·.tcmp) tickSeen_tcmp n s
@[simp] theorem tickRun_tmode (n : Nat) (s : State) : (tickRun n s).tmode = s.tmode := tickRun_keeps (·.tmode) tickSeen_tmode n s
@[simp] theorem tickRun_gie (n : Nat) (s : State) : (tickRun n s).gie = s.gie := tickRun_keeps (·.gie) tickSeen_gie n s
@[simp] theorem tickRun_periphInit (n : Nat) (s : State) : (tickRun n s).periphInit = s.periphInit := tickRun_keeps (·.periphInit) tickSeen_periphInit n s
@[simp] theorem tickRun_csSaved (n : Nat) (s : State) : (tickRun n s).csSaved = s.csSaved := tickRun_keeps (·.csSaved) tickSeen_csSaved n s
@[simp] theorem tickRun_uartState (n : Nat) (s : State) : (tickRun n s).uartState = s.uartState := tickRun_keeps (·.uartState) tickSeen_uartState n s
@[simp] theorem tickRun_i2cTxn (n : Nat) (s : State) : (tickRun n s).i2cTxn = s.i2cTxn := tickRun_keeps (·.i2cTxn) tickSeen_i2cTxn n s
@[simp] theorem tickRun_i2cRw (n : Nat) (s : State) : (tickRun n s).i2cRw = s.i2cRw := tickRun_keeps (·.i2cRw) tickSeen_i2cRw n s
@[simp] theorem tickRun_i2cAddr (n : Nat) (s : State) : (tickRun n s).i2cAddr = s.i2cAddr := tickRun_keeps (·.i2cAddr) tickSeen_i2cAddr n s
@[simp] theorem tickRun_i2cBuf (n : Nat) (s : State) : (tickRun n s).i2cBuf = s.i2cBuf := tickRun_keeps (·.i2cBuf) tickSeen_i2cBuf n s
@[simp] theorem tickRun_i2cLen (n : Nat) (s : State) : (tickRun n s).i2cLen = s.i2cLen := tickRun_keeps (·.i2cLen) tickSeen_i2cLen n s
@[simp] theorem tickRun_i2cIdx (n : Nat) (s : State) : (tickRun n s).i2cIdx = s.i2cIdx := tickRun_keeps (·.i2cIdx) tickSeen_i2cIdx n s
@[simp] theorem tickRun_i2cAckbit (n : Nat) (s : State) : (tickRun n s).i2cAckbit = s.i2cAckbit := tickRun_keeps (·.i2cAckbit) tickSeen_i2cAckbit n s
@[simp] theorem tickRun_i2cResult (n : Nat) (s : State) : (tickRun n s).i2cResult = s.i2cResult := tickRun_keeps (·.i2cResult) tickSeen_i2cResult n s
@[simp] theorem tickRun_inIsr (n : Nat) (s : State) : (tickRun n s).inIsr = s.inIsr := tickRun_keeps (·.inIsr) tickSeen_inIsr n s
@[simp] theorem tickRun_uartByte (n : Nat) (s : State) : (tickRun n s).uartByte = s.uartByte := tickRun_keeps (·.uartByte) tickSeen_uartByte n s
@[simp] theorem tickRun_mem (n : Nat) (s : State) : (tickRun n s).mem = s.mem := tickRun_keeps (·.mem) tickSeen_mem n s
@[simp] theorem tickRun_operandAt (n : Nat) (s : State) : (tickRun n s).operandAt = s.operandAt := tickRun_keeps (·.operandAt) tickSeen_operandAt n s
@[simp] theorem tickRun_callerStores (n : Nat) (s : State) : (tickRun n s).callerStores = s.callerStores := tickRun_keeps (·.callerStores) tickSeen_callerStores n s
@[simp] theorem tickRun_fg (n : Nat) (s : State) : (tickRun n s).fg = s.fg := tickRun_keeps (·.fg) tickSeen_fg n s
@[simp] theorem tickRun_ret (n : Nat) (s : State) : (tickRun n s).ret = s.ret := tickRun_keeps (·.ret) tickSeen_ret n s
@[simp] theorem tickRun_peerSdaLow (n : Nat) (s : State) : (tickRun n s).peerSdaLow = s.peerSdaLow := tickRun_keeps (·.peerSdaLow) tickSeen_peerSdaLow n s
@[simp] theorem tickRun_peerSclLow (n : Nat) (s : State) : (tickRun n s).peerSclLow = s.peerSclLow := tickRun_keeps (·.peerSclLow) tickSeen_peerSclLow n s
@[simp] theorem tickRun_env (n : Nat) (s : State) : (tickRun n s).env = s.env := tickRun_keeps (·.env) tickSeen_env n s
@[simp] theorem tickRun_requests (n : Nat) (s : State) : (tickRun n s).requests = s.requests := tickRun_keeps (·.requests) tickSeen_requests n s
@[simp] theorem tickRun_overlap (n : Nat) (s : State) : (tickRun n s).overlap = s.overlap := tickRun_keeps (·.overlap) tickSeen_overlap n s

@[simp] theorem envMove_ovie (s : State) (m : EnvMove) : (envMove s m).ovie = s.ovie := by cases m <;> simp [envMove]
@[simp] theorem envMove_clksrc (s : State) (m : EnvMove) : (envMove s m).clksrc = s.clksrc := by cases m <;> simp [envMove]
@[simp] theorem envMove_din (s : State) (m : EnvMove) : (envMove s m).din = s.din := by cases m <;> simp [envMove]
@[simp] theorem envMove_sclOut (s : State) (m : EnvMove) : (envMove s m).sclOut = s.sclOut := by cases m <;> simp [envMove]
@[simp] theorem envMove_sdaOut (s : State) (m : EnvMove) : (envMove s m).sdaOut = s.sdaOut := by cases m <;> simp [envMove]
@[simp] theorem envMove_txdSrc (s : State) (m : EnvMove) : (envMove s m).txdSrc = s.txdSrc := by cases m <;> simp [envMove]
@[simp] theorem envMove_tcmp (s : State) (m : EnvMove) : (envMove s m).tcmp = s.tcmp := by cases m <;> simp [envMove]
@[simp] theorem envMove_tmode (s : State) (m : EnvMove) : (envMove s m).tmode = s.tmode := by cases m <;> simp [envMove]
@[simp] theorem envMove_gie (s : State) (m : EnvMove) : (envMove s m).gie = s.gie := by cases m <;> simp [envMove]
@[simp] theorem envMove_periphInit (s : State) (m : EnvMove) : (envMove s m).periphInit = s.periphInit := by cases m <;> simp [envMove]
@[simp] theorem envMove_csSaved (s : State) (m : EnvMove) : (envMove s m).csSaved = s.csSaved := by cases m <;> simp [envMove]
@[simp] theorem envMove_uartState (s : State) (m : EnvMove) : (envMove s m).uartState = s.uartState := by cases m <;> simp [envMove]
@[simp] theorem envMove_i2cTxn (s : State) (m : EnvMove) : (envMove s m).i2cTxn = s.i2cTxn := by cases m <;> simp [envMove]
@[simp] theorem envMove_i2cRw (s : State) (m : EnvMove) : (envMove s m).i2cRw = s.i2cRw := by cases m <;> simp [envMove]
@[simp] theorem envMove_i2cAddr (s : State) (m : EnvMove) : (envMove s m).i2cAddr = s.i2cAddr := by cases m <;> simp [envMove]
@[simp] theorem envMove_i2cBuf (s : State) (m : EnvMove) : (envMove s m).i2cBuf = s.i2cBuf := by cases m <;> simp [envMove]
@[simp] theorem envMove_i2cLen (s : State) (m : EnvMove) : (envMove s m).i2cLen = s.i2cLen := by cases m <;> simp [envMove]
@[simp] theorem envMove_i2cIdx (s : State) (m : EnvMove) : (envMove s m).i2cIdx = s.i2cIdx := by cases m <;> simp [envMove]
@[simp] theorem envMove_i2cAckbit (s : State) (m : EnvMove) : (envMove s m).i2cAckbit = s.i2cAckbit := by cases m <;> simp [envMove]
@[simp] theorem envMove_i2cResult (s : State) (m : EnvMove) : (envMove s m).i2cResult = s.i2cResult := by cases m <;> simp [envMove]
@[simp] theorem envMove_inIsr (s : State) (m : EnvMove) : (envMove s m).inIsr = s.inIsr := by cases m <;> simp [envMove]
@[simp] theorem envMove_uartByte (s : State) (m : EnvMove) : (envMove s m).uartByte = s.uartByte := by cases m <;> simp [envMove]
@[simp] theorem envMove_mem (s : State) (m : EnvMove) : (envMove s m).mem = s.mem := by cases m <;> simp [envMove]
@[simp] theorem envMove_operandAt (s : State) (m : EnvMove) : (envMove s m).operandAt = s.operandAt := by cases m <;> simp [envMove]
@[simp] theorem envMove_callerStores (s : State) (m : EnvMove) : (envMove s m).callerStores = s.callerStores := by cases m <;> simp [envMove]
@[simp] theorem envMove_fg (s : State) (m : EnvMove) : (envMove s m).fg = s.fg := by cases m <;> simp [envMove]
@[simp] theorem envMove_ret (s : State) (m : EnvMove) : (envMove s m).ret = s.ret := by cases m <;> simp [envMove]
@[simp] theorem envMove_requests (s : State) (m : EnvMove) : (envMove s m).requests = s.requests := by cases m <;> simp [envMove]
@[simp] theorem envMove_overlap (s : State) (m : EnvMove) : (envMove s m).overlap = s.overlap := by cases m <;> simp [envMove]

@[simp] theorem slot_ovie (s : State) : (slot s).ovie = s.ovie := slot_keeps (·.ovie) envMove_ovie (fun _ _ => rfl) s
@[simp] theorem slot_clksrc (s : State) : (slot s).clksrc = s.clksrc := slot_keeps (·.clksrc) envMove_clksrc (fun _ _ => rfl) s
@[simp] theorem slot_din (s : State) : (slot s).din = s.din := slot_keeps (·.din) envMove_din (fun _ _ => rfl) s
@[simp] theorem slot_sclOut (s : State) : (slot s).sclOut = s.sclOut := slot_keeps (·.sclOut) envMove_sclOut (fun _ _ => rfl) s
@[simp] theorem slot_sdaOut (s : State) : (slot s).sdaOut = s.sdaOut := slot_keeps (·.sdaOut) envMove_sdaOut (fun _ _ => rfl) s
@[simp] theorem slot_txdSrc (s : State) : (slot s).txdSrc = s.txdSrc := slot_keeps (·.txdSrc) envMove_txdSrc (fun _ _ => rfl) s
@[simp] theorem slot_tcmp (s : State) : (slot s).tcmp = s.tcmp := slot_keeps (·.tcmp) envMove_tcmp (fun _ _ => rfl) s
@[simp] theorem slot_tmode (s : State) : (slot s).tmode = s.tmode := slot_keeps (·.tmode) envMove_tmode (fun _ _ => rfl) s
@[simp] theorem slot_gie (s : State) : (slot s).gie = s.gie := slot_keeps (·.gie) envMove_gie (fun _ _ => rfl) s
@[simp] theorem slot_periphInit (s : State) : (slot s).periphInit = s.periphInit := slot_keeps (·.periphInit) envMove_periphInit (fun _ _ => rfl) s
@[simp] theorem slot_csSaved (s : State) : (slot s).csSaved = s.csSaved := slot_keeps (·.csSaved) envMove_csSaved (fun _ _ => rfl) s
@[simp] theorem slot_uartState (s : State) : (slot s).uartState = s.uartState := slot_keeps (·.uartState) envMove_uartState (fun _ _ => rfl) s
@[simp] theorem slot_i2cTxn (s : State) : (slot s).i2cTxn = s.i2cTxn := slot_keeps (·.i2cTxn) envMove_i2cTxn (fun _ _ => rfl) s
@[simp] theorem slot_i2cRw (s : State) : (slot s).i2cRw = s.i2cRw := slot_keeps (·.i2cRw) envMove_i2cRw (fun _ _ => rfl) s
@[simp] theorem slot_i2cAddr (s : State) : (slot s).i2cAddr = s.i2cAddr := slot_keeps (·.i2cAddr) envMove_i2cAddr (fun _ _ => rfl) s
@[simp] theorem slot_i2cBuf (s : State) : (slot s).i2cBuf = s.i2cBuf := slot_keeps (·.i2cBuf) envMove_i2cBuf (fun _ _ => rfl) s
@[simp] theorem slot_i2cLen (s : State) : (slot s).i2cLen = s.i2cLen := slot_keeps (·.i2cLen) envMove_i2cLen (fun _ _ => rfl) s
@[simp] theorem slot_i2cIdx (s : State) : (slot s).i2cIdx = s.i2cIdx := slot_keeps (·.i2cIdx) envMove_i2cIdx (fun _ _ => rfl) s
@[simp] theorem slot_i2cAckbit (s : State) : (slot s).i2cAckbit = s.i2cAckbit := slot_keeps (·.i2cAckbit) envMove_i2cAckbit (fun _ _ => rfl) s
@[simp] theorem slot_i2cResult (s : State) : (slot s).i2cResult = s.i2cResult := slot_keeps (·.i2cResult) envMove_i2cResult (fun _ _ => rfl) s
@[simp] theorem slot_inIsr (s : State) : (slot s).inIsr = s.inIsr := slot_keeps (·.inIsr) envMove_inIsr (fun _ _ => rfl) s
@[simp] theorem slot_uartByte (s : State) : (slot s).uartByte = s.uartByte := slot_keeps (·.uartByte) envMove_uartByte (fun _ _ => rfl) s
@[simp] theorem slot_mem (s : State) : (slot s).mem = s.mem := slot_keeps (·.mem) envMove_mem (fun _ _ => rfl) s
@[simp] theorem slot_operandAt (s : State) : (slot s).operandAt = s.operandAt := slot_keeps (·.operandAt) envMove_operandAt (fun _ _ => rfl) s
@[simp] theorem slot_callerStores (s : State) : (slot s).callerStores = s.callerStores := slot_keeps (·.callerStores) envMove_callerStores (fun _ _ => rfl) s
@[simp] theorem slot_fg (s : State) : (slot s).fg = s.fg := slot_keeps (·.fg) envMove_fg (fun _ _ => rfl) s
@[simp] theorem slot_ret (s : State) : (slot s).ret = s.ret := slot_keeps (·.ret) envMove_ret (fun _ _ => rfl) s
@[simp] theorem slot_requests (s : State) : (slot s).requests = s.requests := slot_keeps (·.requests) envMove_requests (fun _ _ => rfl) s
@[simp] theorem slot_overlap (s : State) : (slot s).overlap = s.overlap := slot_keeps (·.overlap) envMove_overlap (fun _ _ => rfl) s

@[simp] theorem callerTurn_sr (s : State) : (callerTurn s).sr = s.sr := by unfold callerTurn; split <;> [skip; split] <;> rfl
@[simp] theorem callerTurn_cnt (s : State) : (callerTurn s).cnt = s.cnt := by unfold callerTurn; split <;> [skip; split] <;> rfl
@[simp] theorem callerTurn_ovf (s : State) : (callerTurn s).ovf = s.ovf := by unfold callerTurn; split <;> [skip; split] <;> rfl
@[simp] theorem callerTurn_ovie (s : State) : (callerTurn s).ovie = s.ovie := by unfold callerTurn; split <;> [skip; split] <;> rfl
@[simp] theorem callerTurn_clksrc (s : State) : (callerTurn s).clksrc = s.clksrc := by unfold callerTurn; split <;> [skip; split] <;> rfl
@[simp] theorem callerTurn_din (s : State) : (callerTurn s).din = s.din := by unfold callerTurn; split <;> [skip; split] <;> rfl
@[simp] theorem callerTurn_sclOut (s : State) : (callerTurn s).sclOut = s.sclOut := by unfold callerTurn; split <;> [skip; split] <;> rfl
@[simp] theorem callerTurn_sdaOut (s : State) : (callerTurn s).sdaOut = s.sdaOut := by unfold callerTurn; split <;> [skip; split] <;> rfl
@[simp] theorem callerTurn_txdSrc (s : State) : (callerTurn s).txdSrc = s.txdSrc := by unfold callerTurn; split <;> [skip; split] <;> rfl
@[simp] theorem callerTurn_tcnt (s : State) : (callerTurn s).tcnt = s.tcnt := by unfold callerTurn; split <;> [skip; split] <;> rfl
@[simp] theorem callerTurn_tcmp (s : State) : (callerTurn s).tcmp = s.tcmp := by unfold callerTurn; split <;> [skip; split] <;> rfl
@[simp] theorem callerTurn_tmode (s : State) : (callerTurn s).tmode = s.tmode := by unfold callerTurn; split <;> [skip; split] <;> rfl
@[simp] theorem callerTurn_gie (s : State) : (callerTurn s).gie = s.gie := by unfold callerTurn; split <;> [skip; split] <;> rfl
@[simp] theorem callerTurn_periphInit (s : State) : (callerTurn s).periphInit = s.periphInit := by unfold callerTurn; split <;> [skip; split] <;> rfl
@[simp] theorem callerTurn_csSaved (s : State) : (callerTurn s).csSaved = s.csSaved := by unfold callerTurn; split <;> [skip; split] <;> rfl
@[simp] theorem callerTurn_uartState (s : State) : (callerTurn s).uartState = s.uartState := by unfold callerTurn; split <;> [skip; split] <;> rfl
@[simp] theorem callerTurn_i2cTxn (s : State) : (callerTurn s).i2cTxn = s.i2cTxn := by unfold callerTurn; split <;> [skip; split] <;> rfl
@[simp] theorem callerTurn_i2cRw (s : State) : (callerTurn s).i2cRw = s.i2cRw := by unfold callerTurn; split <;> [skip; split] <;> rfl
@[simp] theorem callerTurn_i2cAddr (s : State) : (callerTurn s).i2cAddr = s.i2cAddr := by unfold callerTurn; split <;> [skip; split] <;> rfl
@[simp] theorem callerTurn_i2cBuf (s : State) : (callerTurn s).i2cBuf = s.i2cBuf := by unfold callerTurn; split <;> [skip; split] <;> rfl
@[simp] theorem callerTurn_i2cLen (s : State) : (callerTurn s).i2cLen = s.i2cLen := by unfold callerTurn; split <;> [skip; split] <;> rfl
@[simp] theorem callerTurn_i2cIdx (s : State) : (callerTurn s).i2cIdx = s.i2cIdx := by unfold callerTurn; split <;> [skip; split] <;> rfl
@[simp] theorem callerTurn_i2cAckbit (s : State) : (callerTurn s).i2cAckbit = s.i2cAckbit := by unfold callerTurn; split <;> [skip; split] <;> rfl
@[simp] theorem callerTurn_i2cResult (s : State) : (callerTurn s).i2cResult = s.i2cResult := by unfold callerTurn; split <;> [skip; split] <;> rfl
@[simp] theorem callerTurn_inIsr (s : State) : (callerTurn s).inIsr = s.inIsr := by unfold callerTurn; split <;> [skip; split] <;> rfl
@[simp] theorem callerTurn_uartByte (s : State) : (callerTurn s).uartByte = s.uartByte := by unfold callerTurn; split <;> [skip; split] <;> rfl
@[simp] theorem callerTurn_operandAt (s : State) : (callerTurn s).operandAt = s.operandAt := by unfold callerTurn; split <;> [skip; split] <;> rfl
@[simp] theorem callerTurn_fg (s : State) : (callerTurn s).fg = s.fg := by unfold callerTurn; split <;> [skip; split] <;> rfl
@[simp] theorem callerTurn_ret (s : State) : (callerTurn s).ret = s.ret := by unfold callerTurn; split <;> [skip; split] <;> rfl
@[simp] theorem callerTurn_peerSdaLow (s : State) : (callerTurn s).peerSdaLow = s.peerSdaLow := by unfold callerTurn; split <;> [skip; split] <;> rfl
@[simp] theorem callerTurn_peerSclLow (s : State) : (callerTurn s).peerSclLow = s.peerSclLow := by unfold callerTurn; split <;> [skip; split] <;> rfl
@[simp] theorem callerTurn_env (s : State) : (callerTurn s).env = s.env := by unfold callerTurn; split <;> [skip; split] <;> rfl
@[simp] theorem callerTurn_requests (s : State) : (callerTurn s).requests = s.requests := by unfold callerTurn; split <;> [skip; split] <;> rfl
@[simp] theorem callerTurn_draws (s : State) : (callerTurn s).draws = s.draws := by unfold callerTurn; split <;> [skip; split] <;> rfl
@[simp] theorem callerTurn_overlap (s : State) : (callerTurn s).overlap = s.overlap := by unfold callerTurn; split <;> [skip; split] <;> rfl
@[simp] theorem callerTurn_busTrace (s : State) : (callerTurn s).busTrace = s.busTrace := by unfold callerTurn; split <;> [skip; split] <;> rfl
@[simp] theorem callerTurn_busRise (s : State) : (callerTurn s).busRise = s.busRise := by unfold callerTurn; split <;> [skip; split] <;> rfl
@[simp] theorem callerTurn_wireTrace (s : State) : (callerTurn s).wireTrace = s.wireTrace := by unfold callerTurn; split <;> [skip; split] <;> rfl
@[simp] theorem callerTurn_slotOpen (s : State) : (callerTurn s).slotOpen = s.slotOpen := by unfold callerTurn; split <;> [skip; split] <;> rfl

@[simp] theorem isrStep_ovie (f : State → State) (s : State) : (isrStep f s).ovie = (f s).ovie := by simp [isrStep]
@[simp] theorem isrStep_clksrc (f : State → State) (s : State) : (isrStep f s).clksrc = (f s).clksrc := by simp [isrStep]
@[simp] theorem isrStep_din (f : State → State) (s : State) : (isrStep f s).din = (f s).din := by simp [isrStep]
@[simp] theorem isrStep_sclOut (f : State → State) (s : State) : (isrStep f s).sclOut = (f s).sclOut := by simp [isrStep]
@[simp] theorem isrStep_sdaOut (f : State → State) (s : State) : (isrStep f s).sdaOut = (f s).sdaOut := by simp [isrStep]
@[simp] theorem isrStep_txdSrc (f : State → State) (s : State) : (isrStep f s).txdSrc = (f s).txdSrc := by simp [isrStep]
@[simp] theorem isrStep_tcmp (f : State → State) (s : State) : (isrStep f s).tcmp = (f s).tcmp := by simp [isrStep]
@[simp] theorem isrStep_tmode (f : State → State) (s : State) : (isrStep f s).tmode = (f s).tmode := by simp [isrStep]
@[simp] theorem isrStep_gie (f : State → State) (s : State) : (isrStep f s).gie = (f s).gie := by simp [isrStep]
@[simp] theorem isrStep_periphInit (f : State → State) (s : State) : (isrStep f s).periphInit = (f s).periphInit := by simp [isrStep]
@[simp] theorem isrStep_csSaved (f : State → State) (s : State) : (isrStep f s).csSaved = (f s).csSaved := by simp [isrStep]
@[simp] theorem isrStep_uartState (f : State → State) (s : State) : (isrStep f s).uartState = (f s).uartState := by simp [isrStep]
@[simp] theorem isrStep_i2cTxn (f : State → State) (s : State) : (isrStep f s).i2cTxn = (f s).i2cTxn := by simp [isrStep]
@[simp] theorem isrStep_i2cRw (f : State → State) (s : State) : (isrStep f s).i2cRw = (f s).i2cRw := by simp [isrStep]
@[simp] theorem isrStep_i2cAddr (f : State → State) (s : State) : (isrStep f s).i2cAddr = (f s).i2cAddr := by simp [isrStep]
@[simp] theorem isrStep_i2cBuf (f : State → State) (s : State) : (isrStep f s).i2cBuf = (f s).i2cBuf := by simp [isrStep]
@[simp] theorem isrStep_i2cLen (f : State → State) (s : State) : (isrStep f s).i2cLen = (f s).i2cLen := by simp [isrStep]
@[simp] theorem isrStep_i2cIdx (f : State → State) (s : State) : (isrStep f s).i2cIdx = (f s).i2cIdx := by simp [isrStep]
@[simp] theorem isrStep_i2cAckbit (f : State → State) (s : State) : (isrStep f s).i2cAckbit = (f s).i2cAckbit := by simp [isrStep]
@[simp] theorem isrStep_i2cResult (f : State → State) (s : State) : (isrStep f s).i2cResult = (f s).i2cResult := by simp [isrStep]
@[simp] theorem isrStep_inIsr (f : State → State) (s : State) : (isrStep f s).inIsr = (f s).inIsr := by simp [isrStep]
@[simp] theorem isrStep_uartByte (f : State → State) (s : State) : (isrStep f s).uartByte = (f s).uartByte := by simp [isrStep]
@[simp] theorem isrStep_mem (f : State → State) (s : State) : (isrStep f s).mem = (f s).mem := by simp [isrStep]
@[simp] theorem isrStep_operandAt (f : State → State) (s : State) : (isrStep f s).operandAt = (f s).operandAt := by simp [isrStep]
@[simp] theorem isrStep_callerStores (f : State → State) (s : State) : (isrStep f s).callerStores = (f s).callerStores := by simp [isrStep]
@[simp] theorem isrStep_fg (f : State → State) (s : State) : (isrStep f s).fg = (f s).fg := by simp [isrStep]
@[simp] theorem isrStep_ret (f : State → State) (s : State) : (isrStep f s).ret = (f s).ret := by simp [isrStep]
@[simp] theorem isrStep_requests (f : State → State) (s : State) : (isrStep f s).requests = (f s).requests := by simp [isrStep]
@[simp] theorem isrStep_overlap (f : State → State) (s : State) : (isrStep f s).overlap = (f s).overlap := by simp [isrStep]

end Sys2Proof.Machine
end

