-- ==== Sys2Proof/Laws/Sequencer.lean ====
section
/-! SUPPORT. What the sequencer can do: one lemma per way a line ends, the run of two lists in a row, what a run leaves
unchanged, and the instants in which nobody else moves. -/

namespace Sys2Proof.Machine

/-! ### Instants -/

/-- With no moves listed the instant changes nothing. -/
theorem slot_quiet {s : State} (h : s.env = []) : slot s = s := by simp [slot, h]

/-- What a move lists for later instants: nothing, or the timer that runs on for ever, after some empty instants. -/
theorem envMove_env (s : State) (m : EnvMove) :
    ∃ e, (envMove s m).env = s.env ++ e ∧ (∀ ms ∈ e, ms = [] ∨ ms = [.freeRun]) ∧ (m = .freeRun → [.freeRun] ∈ e) := by
  cases m with
  | freeRun =>
    refine ⟨List.replicate (Config.tickGap s.draws) [] ++ [[.freeRun]], by simp [envMove], ?_, by simp⟩
    intro ms h
    rcases List.mem_append.mp h with h | h
    · exact .inl (List.eq_of_mem_replicate h)
    · exact .inr (List.mem_singleton.mp h)
  | peerSda low => exact ⟨[], by simp [envMove], nofun, nofun⟩
  | peerScl low => exact ⟨[], by simp [envMove], nofun, nofun⟩
  | tick => exact ⟨[], by simp [envMove], nofun, nofun⟩

/-- An instant takes the first entry of the schedule, and lists behind it what its moves list for later. -/
theorem slot_env (s : State) :
    ∃ e, (slot s).env = s.env.tail ++ e ∧ (∀ ms ∈ e, ms = [] ∨ ms = [.freeRun]) ∧
      (.freeRun ∈ s.env.headD [] → [.freeRun] ∈ e) := by
  have fold : ∀ (ms : List EnvMove) (t : State), ∃ e, (ms.foldl envMove t).env = t.env ++ e ∧
      (∀ ms ∈ e, ms = [] ∨ ms = [.freeRun]) ∧ (.freeRun ∈ ms → [.freeRun] ∈ e) := by
    intro ms
    induction ms with
    | nil => exact fun t => ⟨[], by simp, nofun, nofun⟩
    | cons m ms ih =>
      intro t
      obtain ⟨e, he, h1, h2⟩ := envMove_env t m
      obtain ⟨f, hf, h3, h4⟩ := ih (envMove t m)
      refine ⟨e ++ f, by rw [List.foldl_cons, hf, he, List.append_assoc], ?_, ?_⟩
      · intro x hx; exact (List.mem_append.mp hx).elim (h1 x) (h3 x)
      · intro hx
        rcases List.mem_cons.mp hx with rfl | hx
        · exact List.mem_append_left _ (h2 rfl)
        · exact List.mem_append_right _ (h4 hx)
  unfold slot
  split
  · next h => exact ⟨[], by simp [h], nofun, by simp [h]⟩
  · next ms rest h => simpa [h] using fold ms { s with env := rest }

/-- An entry of the schedule after an instant was one before it, or is what the timer listed. -/
theorem mem_slot_env {s : State} {ms : List EnvMove} (h : ms ∈ (slot s).env) :
    ms ∈ s.env ∨ ms = [] ∨ ms = [.freeRun] := by
  obtain ⟨e, he, h1, _⟩ := slot_env s
  rw [he] at h
  exact (List.mem_append.mp h).imp List.mem_of_mem_tail (h1 ms)

/-- A step that changes no line leaves the bus trace alone. -/
theorem observe_same_lines {s t : State} (hc : sclLine t = sclLine s) (hd : sclLine s = true → sdaLine t = sdaLine s) :
    observe s t = t := by
  unfold observe
  rw [hc]
  cases h : sclLine s with
  | false => rfl
  | true => rw [hd h]; cases sdaLine s <;> rfl

@[simp] theorem observe_self (s : State) : observe s s = s := observe_same_lines rfl (fun _ => rfl)

/-- While `SCL` stays low nothing is observed. -/
theorem observe_low {s t : State} (h : sclLine s = false) (h' : sclLine t = false) : observe s t = t := by
  simp [observe, h, h']

/-- A rise of `SCL` is remembered with the value of `SDA`. -/
theorem observe_rise {s t : State} (h : sclLine s = false) (h' : sclLine t = true) (ho : t.overlap = false) :
    observe s t = { t with busRise := some (sdaLine t) } := by
  simp [observe, h, h', drawSeen, seenBit, ho]

/-- A fall of `SCL` settles a remembered rise as a bit. -/
theorem observe_fall_bit {s t : State} {v : Bool} (h : sclLine s = true) (h' : sclLine t = false)
    (hv : t.busRise = some v) : observe s t = { t with busTrace := t.busTrace ++ [.bit v], busRise := none } := by
  simp [observe, h, h', hv]

/-- A fall of `SCL` after a framing event carries no bit. -/
theorem observe_fall_none {s t : State} (h : sclLine s = true) (h' : sclLine t = false) (hv : t.busRise = none) :
    observe s t = t := by
  simp [observe, h, h', hv]

/-- `SDA` falls while `SCL` is high. -/
theorem observe_start {s t : State} (h : sclLine s = true) (h' : sclLine t = true) (d : sdaLine s = true)
    (d' : sdaLine t = false) : observe s t = { t with busTrace := t.busTrace ++ [.start], busRise := none } := by
  simp [observe, h, h', d, d']

/-- `SDA` rises while `SCL` is high. -/
theorem observe_stop {s t : State} (h : sclLine s = true) (h' : sclLine t = true) (d : sdaLine s = false)
    (d' : sdaLine t = true) : observe s t = { t with busTrace := t.busTrace ++ [.stop], busRise := none } := by
  simp [observe, h, h', d, d']

/-! ### Runs -/

@[simp] theorem run_nil (m : Option Scope) (s : State) : run m [] s = ⟨m, s, []⟩ := by cases m <;> rfl

theorem run_held {l : Line} {ls : List Line} {s : State} (h : fgHeld s = true) :
    run none (l :: ls) s = ⟨none, s, l :: ls⟩ := by simp [run, h]

theorem run_go {l : Line} {ls : List Line} {s t : State} (h : fgHeld s = false) (hl : doLine l s = .go t) :
    run none (l :: ls) s = run none ls (slot (observe s t)) := by simp [run, h, hl]

theorem run_leave {l : Line} {ls : List Line} {s t : State} {m : Scope} (h : fgHeld s = false)
    (hl : doLine l s = .leave m t) : run none (l :: ls) s = run (some m) ls (slot (observe s t)) := by
  simp [run, h, hl]

theorem run_pass {l : Line} {ls : List Line} {s : State} (h : fgHeld s = false) (hl : doLine l s = .pass) :
    run none (l :: ls) s = run none ls s := by simp [run, h, hl]

theorem run_again {l : Line} {ls ks : List Line} {s t : State} (h : fgHeld s = false) (hl : doLine l s = .again ks t) :
    run none (l :: ls) s = ⟨none, observe s t, ks ++ ls⟩ := by simp [run, h, hl]

theorem run_skip {m : Scope} {l : Line} {ls : List Line} {s : State} (h : l ≠ .scopeEnd m) :
    run (some m) (l :: ls) s = run (some m) ls s := by simp [run, h]

theorem run_skip_end {m : Scope} {ls : List Line} {s : State} :
    run (some m) (.scopeEnd m :: ls) s = run none ls s := by simp [run]

/-- Leaving a region passes over everything up to its end. -/
theorem run_skip_to_end {m : Scope} {xs ls : List Line} {s : State} (h : Line.scopeEnd m ∉ xs) :
    run (some m) (xs ++ .scopeEnd m :: ls) s = run none ls s := by
  induction xs with
  | nil => exact run_skip_end
  | cons x xs ih =>
    simp only [List.mem_cons, not_or] at h
    rw [List.cons_append, run_skip (Ne.symm h.1), ih h.2]

/-- A run through two lists in a row is the run through the first and, if it has ended, the run through the second. -/
theorem run_append (m : Option Scope) (xs ys : List Line) (s : State) :
    run m (xs ++ ys) s =
      if (run m xs s).rest = [] then run (run m xs s).mode ys (run m xs s).st
      else ⟨(run m xs s).mode, (run m xs s).st, (run m xs s).rest ++ ys⟩ := by
  induction xs generalizing m s with
  | nil => simp
  | cons l xs ih =>
    cases m with
    | some m => simp only [List.cons_append, run]; exact ih _ _
    | none =>
      cases hs : fgHeld s with
      | true => simp [run_held hs]
      | false =>
        cases hl : doLine l s with
        | go t => simp only [List.cons_append, run_go hs hl]; exact ih _ _
        | leave k t => simp only [List.cons_append, run_leave hs hl]; exact ih _ _
        | pass => simp only [List.cons_append, run_pass hs hl]; exact ih _ _
        | again ks t =>
          simp only [List.cons_append, run_again hs hl]
          by_cases h : ks ++ xs = []
          · cases l <;> simp only [doLine] at hl
            all_goals first
              | (split at hl <;> first | (cases hl; simp at h) | cases hl)
              | (cases hl; simp [bitClockLines, failedCheckLines] at h)
              | cases hl
          · simp [h]

/-- A run through a list that ends in the mode `none` continues into what stands after it. -/
theorem run_append_done {xs : List Line} {s t : State} (h : run none xs s = ⟨none, t, []⟩) (ys : List Line) :
    run none (xs ++ ys) s = run none ys t := by rw [run_append, h]; simp

/-- The state that a line leaves. -/
def LineOut.state (s : State) : LineOut → State
  | .go t => t
  | .leave _ t => t
  | .pass => s
  | .again _ t => t

/-- A projection that neither the lines of a list, nor the other agents, nor the observation change, is unchanged by
the run through the list, wherever that run stops. -/
theorem run_keeps {α : Type} (p : State → α) (ho : ∀ s t, p (observe s t) = p t) (hs : ∀ s, p (slot s) = p s)
    (ls : List Line) (hl : ∀ l ∈ ls, ∀ s, p ((doLine l s).state s) = p s) (m : Option Scope) (s : State) :
    p (run m ls s).st = p s := by
  induction ls generalizing m s with
  | nil => simp
  | cons l ls ih =>
    have ih := ih (fun k hk => hl k (List.mem_cons_of_mem _ hk))
    have hl := hl l List.mem_cons_self s
    cases m with
    | some m => simp only [run]; exact ih _ _
    | none =>
      cases hf : fgHeld s with
      | true => rw [run_held hf]
      | false =>
        cases h : doLine l s with
        | go t => rw [run_go hf h, ih, hs, ho]; simpa [h, LineOut.state] using hl
        | leave k t => rw [run_leave hf h, ih, hs, ho]; simpa [h, LineOut.state] using hl
        | pass => rw [run_pass hf h, ih]
        | again ks t => rw [run_again hf h]; simpa [h, LineOut.state, ho] using hl

/-- A property that the lines of a list, the other agents and the observation keep holds after the run through the list,
wherever that run stops. -/
theorem run_preserves (P : State → Prop) (ho : ∀ s t, P t → P (observe s t)) (hs : ∀ s, P s → P (slot s))
    (ls : List Line) (hl : ∀ l ∈ ls, ∀ s, P s → P ((doLine l s).state s)) (m : Option Scope) {s : State} (h : P s) :
    P (run m ls s).st := by
  induction ls generalizing m s with
  | nil => simpa using h
  | cons l ls ih =>
    have ih := fun m s => ih (fun k hk => hl k (List.mem_cons_of_mem _ hk)) m (s := s)
    have hl := hl l List.mem_cons_self s h
    cases m with
    | some m => simp only [run]; exact ih _ _ h
    | none =>
      cases hf : fgHeld s with
      | true => rwa [run_held hf]
      | false =>
        cases hd : doLine l s with
        | go t => rw [run_go hf hd]; exact ih _ _ (hs _ (ho _ _ (by simpa [hd, LineOut.state] using hl)))
        | leave k t => rw [run_leave hf hd]; exact ih _ _ (hs _ (ho _ _ (by simpa [hd, LineOut.state] using hl)))
        | pass => rw [run_pass hf hd]; exact ih _ _ h
        | again ks t => rw [run_again hf hd]; exact ho _ _ (by simpa [hd, LineOut.state] using hl)

/-! ### Operations -/

theorem performLines_done {m : Option Scope} {ls : List Line} {s t : State} (h : run none ls s = ⟨m, t, []⟩) :
    performLines ls s = t := by simp [performLines, h]

/-- An operation whose run ends has returned. -/
theorem perform_done {m : Option Scope} {ls : List Line} {s t : State} (h : run none ls s = ⟨m, t, []⟩) :
    perform ls s = .next t := by rw [perform, performLines_done h]

/-- An operation whose run yields stands at the lines left over. -/
theorem performLines_yield {m : Option Scope} {ls rest : List Line} {s t : State} (h : run none ls s = ⟨m, t, rest⟩) :
    performLines ls s = { t with fg := rest ++ t.fg } := by simp [performLines, h]

/-- Runs that come to the same make the same of `FG`. -/
theorem performLines_congr {xs ys : List Line} {s t : State} (h : run none xs s = run none ys t) :
    performLines xs s = performLines ys t := by simp [performLines, h]

/-- A projection that does not look at `FG`'s position sees an operation's run. -/
theorem performLines_keeps {α : Type} (p : State → α) (hp : ∀ s f, p { s with fg := f } = p s) (ls : List Line)
    (s : State) : p (performLines ls s) = p (run none ls s).st := hp _ _

theorem command_booted {s : State} (h : s.periphInit = true) (ls : List Line) : command ls s = perform ls s := by
  simp [command, h]

end Sys2Proof.Machine
end

