-- ==== Sys2Proof/Laws/Instants.lean ====
section
/-! SUPPORT. The instants between two steps: what they leave unchanged while the timer is not the shift clock, a `PEER`
that does not stretch the clock, one that holds it for ever, and that nothing but `GIE`, `OVIE`, `OVF` and `IN_ISR`
decides whether `FG` is held. -/

namespace Sys2Proof.Machine

/-! ### The timer is not the shift clock -/

/-- A property that every move of another agent keeps is kept by a whole instant. -/
theorem slot_preserves (P : State → Prop) (he : ∀ s e, P s → P { s with env := e })
    (hm : ∀ s m, P s → P (envMove s m)) {s : State} (h : P s) : P (slot s) := by
  have fold : ∀ (ms : List EnvMove) (t : State), P t → P (ms.foldl envMove t) := by
    intro ms
    induction ms with
    | nil => intro t ht; exact ht
    | cons m ms ih => intro t ht; exact ih _ (hm t m ht)
  unfold slot
  split
  · exact h
  · exact fold _ _ (he _ _ h)

theorem timerShift_off {s : State} (h : s.clksrc ≠ .timer) : timerShift s = s := by simp [timerShift, h]

/-- A compare event under another shift clock than the timer changes neither the register nor the counter. -/
theorem compareEvent_off {s : State} (h : s.clksrc ≠ .timer) :
    (compareEvent s).sr = s.sr ∧ (compareEvent s).cnt = s.cnt ∧ (compareEvent s).ovf = s.ovf := by
  have : (closeSlot s).clksrc ≠ .timer := by simpa using h
  simp [compareEvent, timerShift_off this]

theorem timerTick_off {s : State} (h : s.clksrc ≠ .timer) :
    (timerTick s).sr = s.sr ∧ (timerTick s).cnt = s.cnt ∧ (timerTick s).ovf = s.ovf := by
  unfold timerTick
  split_ifs
  · exact compareEvent_off (s := { s with tcnt := 0 }) h
  · exact ⟨rfl, rfl, rfl⟩
  · exact ⟨rfl, rfl, rfl⟩

/-- What a tick of the running timer can do (R30): count, or reach the threshold and emit a compare event. -/
theorem timerTick_cases {s : State} (h : s.tmode = .freeRunCompare) :
    (s.tcnt + 1 = s.tcmp ∧ timerTick s = compareEvent { s with tcnt := 0 }) ∨
    (s.tcnt + 1 ≠ s.tcmp ∧ timerTick s = { s with tcnt := s.tcnt + 1 }) := by
  unfold timerTick
  rw [if_pos h]
  split
  · next he => exact .inl ⟨he, rfl⟩
  · next he => exact .inr ⟨he, rfl⟩

/-- Each compare event ends a bit slot, but the first, which begins one (R162). -/
theorem compareCount_compareEvent (s : State) : compareCount (compareEvent s) = compareCount s + 1 := by
  have close : compareCount (closeSlot s) = compareCount s + 1 := by
    unfold closeSlot drawSeen compareCount
    cases h : s.slotOpen <;> simp
    split <;> simp
  unfold compareEvent timerShift
  split
  · simpa [compareCount] using close
  · exact close

theorem compareCount_observe (s t : State) : compareCount (observe s t) = compareCount t := by simp [compareCount]

theorem tickRun_off (n : Nat) {s : State} (h : s.clksrc ≠ .timer) :
    (tickRun n s).sr = s.sr ∧ (tickRun n s).cnt = s.cnt ∧ (tickRun n s).ovf = s.ovf := by
  induction n generalizing s with
  | zero => exact ⟨rfl, rfl, rfl⟩
  | succ n ih =>
    have := ih (s := tickSeen s) (by simpa using h)
    simpa [tickRun, tickSeen, timerTick_off h] using this

theorem envMove_off {s : State} (m : EnvMove) (h : s.clksrc ≠ .timer) :
    (envMove s m).sr = s.sr ∧ (envMove s m).cnt = s.cnt ∧ (envMove s m).ovf = s.ovf := by
  cases m with
  | freeRun => exact tickRun_off _ (s := listAgain s) h
  | _ => simp [envMove, tickSeen, timerTick_off h]

theorem slot_off {s : State} (h : s.clksrc ≠ .timer) :
    (slot s).sr = s.sr ∧ (slot s).cnt = s.cnt ∧ (slot s).ovf = s.ovf := by
  have := slot_preserves (s := s) (fun t => t.clksrc ≠ .timer ∧ t.sr = s.sr ∧ t.cnt = s.cnt ∧ t.ovf = s.ovf)
    (fun _ _ ht => ht)
    (fun t m ht => by
      have := envMove_off m ht.1
      exact ⟨by simpa using ht.1, by rw [this.1, ht.2.1], by rw [this.2.1, ht.2.2.1], by rw [this.2.2, ht.2.2.2]⟩)
    ⟨h, rfl, rfl, rfl⟩
  exact this.2

/-! ### `PEER` and the clock line -/

theorem envMove_peerScl {s : State} {m : EnvMove} {b : Bool} (hm : m ≠ .peerScl !b) (h : s.peerSclLow = b) :
    (envMove s m).peerSclLow = b := by
  cases m with
  | peerScl low =>
    have : low = b := by cases low <;> cases b <;> simp_all
    simp [envMove, this]
  | _ => simpa [envMove] using h

theorem slot_peerScl {s : State} {b : Bool} (h : s.peerSclLow = b)
    (he : ∀ ms ∈ s.env, EnvMove.peerScl (!b) ∉ ms) : (slot s).peerSclLow = b := by
  have fold : ∀ (ms : List EnvMove) (t : State), EnvMove.peerScl (!b) ∉ ms → t.peerSclLow = b →
      (ms.foldl envMove t).peerSclLow = b := by
    intro ms
    induction ms with
    | nil => intro t _ h; exact h
    | cons m ms ih =>
      intro t hm ht
      simp only [List.mem_cons, not_or] at hm
      exact ih _ hm.2 (envMove_peerScl (Ne.symm hm.1) ht)
  unfold slot
  split
  · exact h
  · next ms rest heq => exact fold ms _ (he ms (by simp [heq])) h

/-- No instant lists a move of `PEER` that was not listed before. -/
theorem not_mem_slot_env {s : State} {b : Bool} (he : ∀ ms ∈ s.env, EnvMove.peerScl b ∉ ms) :
    ∀ ms ∈ (slot s).env, EnvMove.peerScl b ∉ ms := by
  intro ms hm
  rcases mem_slot_env hm with h | rfl | rfl
  · exact he ms h
  · simp
  · simp

theorem noStretch_slot {s : State} (h : NoStretch s) : NoStretch (slot s) :=
  ⟨slot_peerScl h.1 h.2, not_mem_slot_env h.2⟩

theorem sclHeld_slot {s : State} (h : SclHeldForever s) : SclHeldForever (slot s) :=
  ⟨slot_peerScl h.1 h.2, not_mem_slot_env h.2⟩

/-- Whether `PEER` can stretch the clock depends on its level and the coming instants alone. -/
theorem noStretch_congr {s t : State} (hp : t.peerSclLow = s.peerSclLow) (he : t.env = s.env) (h : NoStretch s) :
    NoStretch t := by unfold NoStretch; rw [hp, he]; exact h

theorem sclHeld_congr {s t : State} (hp : t.peerSclLow = s.peerSclLow) (he : t.env = s.env) (h : SclHeldForever s) :
    SclHeldForever t := by unfold SclHeldForever; rw [hp, he]; exact h

/-- The instant after a line, with the line's observation. -/
theorem noStretch_after {s t : State} (hp : t.peerSclLow = s.peerSclLow) (he : t.env = s.env) (h : NoStretch s) :
    NoStretch (slot (observe s t)) := noStretch_slot (noStretch_congr (by simpa using hp) (by simpa using he) h)

theorem noStretch_scl {s : State} (h : NoStretch s) (hs : s.sclOut = .released) : sclLine s = true := by
  simp [sclLine, hs, h.1]

theorem sclHeld_scl {s : State} (h : SclHeldForever s) : sclLine s = false := by simp [sclLine, h.1]

theorem scl_low {s : State} (h : s.sclOut = .low) : sclLine s = false := by simp [sclLine, h]

/-! ### Who may go on -/

theorem fgHeld_eq_false {s : State} : fgHeld s = false ↔ s.inIsr = false ∧ (s.ovf && s.ovie && s.gie) = false := by
  unfold fgHeld irqPending
  cases s.inIsr <;> simp

theorem fgHeld_congr {s t : State} (hi : t.inIsr = s.inIsr) (hg : t.gie = s.gie) (ho : t.ovie = s.ovie)
    (hf : t.ovf = s.ovf) : fgHeld s = fgHeld t := by unfold fgHeld irqPending; rw [hi, hg, ho, hf]

theorem Uninterrupted.notHeld {s : State} (h : Uninterrupted s) : fgHeld s = false := by
  rw [fgHeld_eq_false]
  refine ⟨h.1, ?_⟩
  rcases h.2 with h | h <;> simp [h]

theorem Uninterrupted.congr {s t : State} (h : Uninterrupted s) (hi : t.inIsr = s.inIsr) (hg : t.gie = s.gie)
    (ho : t.ovie = s.ovie) : Uninterrupted t := by unfold Uninterrupted; rw [hi, hg, ho]; exact h

theorem Uninterrupted.notHeldAt {s t : State} (h : Uninterrupted s) (hi : t.inIsr = s.inIsr) (hg : t.gie = s.gie)
    (ho : t.ovie = s.ovie) : fgHeld t = false := (h.congr hi hg ho).notHeld

end Sys2Proof.Machine
end

