-- ==== Sys2Proof/Laws/I2c.lean ====
section
/-! SUPPORT. What the I2C lines do while nobody disturbs them: a counted bit-clock, a transfer, and the five shared
sequences built on it, each with the bits that `PEER` presents and the instants it takes. -/

namespace Sys2Proof.Machine

/-- At the coming instant `PEER` leaves or brings `SDA` at `low`, and nothing else happens. -/
def Presents (low : Bool) (s : State) : Prop :=
  s.env.head? = some [.peerSda low] ∨ (s.env.headD [] = [] ∧ s.peerSdaLow = low)

/-- Nothing happens at the next `n` instants. -/
def QuietFor (n : Nat) (e : List (List EnvMove)) : Prop := ∀ ms ∈ e.take n, ms = []

theorem slot_silent {s : State} (h : s.env.headD [] = []) : slot s = { s with env := s.env.tail } := by
  unfold slot
  cases he : s.env with
  | nil => simp; cases s; simp_all
  | cons ms rest => simp [he] at h; simp [h]

theorem slot_presents {s : State} {low : Bool} (h : Presents low s) (hs : s.sclOut = .low) :
    slot s = { s with peerSdaLow := low, env := s.env.tail } := by
  rcases h with h | ⟨h, rfl⟩
  · obtain ⟨ms, rest, he⟩ : ∃ ms rest, s.env = ms :: rest := by
      cases hh : s.env with
      | nil => simp [hh] at h
      | cons a b => exact ⟨a, b, rfl⟩
    have : ms = [.peerSda low] := by simpa [he] using h
    subst this
    unfold slot
    simp only [he, List.foldl_cons, List.foldl_nil, envMove]
    apply observe_low <;> simp [sclLine, hs]
  · rw [slot_silent h]
theorem quiet_head {n e} (h : QuietFor (n+1) e) : e.headD [] = [] := by
  cases e with
  | nil => rfl
  | cons a b => exact h a (by simp)
theorem quiet_tail {n e} (h : QuietFor (n+1) e) : QuietFor n e.tail := by
  cases e with
  | nil => intro ms hm; simp at hm
  | cons a b => intro ms hm; exact h ms (by simpa using .inr hm)

/-- The state after one counted bit-clock at which `PEER` presents `low`. -/
def turned (low : Bool) (s : State) : State :=
  let v := sdaLine { s with peerSdaLow := low }
  { s with
    peerSdaLow := low, din := v, cnt := s.cnt + 2, ovf := s.ovf || s.cnt + 1 == 0 || s.cnt + 2 == 0,
    sr := shiftIn s.sr v, busTrace := s.busTrace ++ [.bit v], busRise := none, env := s.env.drop 6 }

/-- A master that can clock bits, undisturbed. -/
structure Clocking (s : State) : Prop where
  free : Uninterrupted s
  strobe : s.clksrc = .strobe
  scl : s.sclOut = .low
  peer : s.peerSclLow = false
  apart : s.overlap = false


theorem run_step {l : Line} {ls : List Line} {s t u w : State} (h : fgHeld s = false) (hl : doLine l s = .go t)
    (ho : observe s t = u) (hs : slot u = w) : run none (l :: ls) s = run none ls w := by
  rw [run_go h hl, ho, hs]

theorem bitClock_run {s : State} {low : Bool} (h : Clocking s) (hp : Presents low s) (hq : QuietFor 5 s.env.tail) (ls : List Line) :
    run none (bitClockLines ++ ls) s = run none ls (turned low s) := by
  obtain ⟨hf, hc, hs, hk, ho⟩ := h
  have q1 := quiet_tail hq; have q2 := quiet_tail q1; have q3 := quiet_tail q2; have q4 := quiet_tail q3
  have held : ∀ {t : State}, t.inIsr = s.inIsr → t.gie = s.gie → t.ovie = s.ovie → fgHeld t = false :=
    fun a b c => (hf.congr a b c).notHeld
  obtain ⟨v, hv⟩ : ∃ v, v = sdaLine { s with peerSdaLow := low } := ⟨_, rfl⟩
  simp only [bitClockLines, List.cons_append, List.nil_append]
  rw [run_step (t := s) (u := s) (w := { s with peerSdaLow := low, env := s.env.tail }) (by apply held <;> rfl) (by rfl)
    (by exact observe_self _) (slot_presents hp hs)]
  rw [run_step (t := { s with peerSdaLow := low, env := s.env.tail, sclOut := .released })
    (u := { s with peerSdaLow := low, env := s.env.tail, sclOut := .released, busRise := some v })
    (w := { s with peerSdaLow := low, env := s.env.tail.tail, sclOut := .released, busRise := some v })
    (by apply held <;> rfl) (by rfl) (by subst hv; exact observe_rise (by simp [sclLine, hs]) (by simp [sclLine, hk]) ho)
    (slot_silent (quiet_head hq))]
  rw [run_step
    (t := { s with peerSdaLow := low, env := s.env.tail.tail, sclOut := .released, busRise := some v, din := v, cnt := s.cnt + 1, ovf := s.ovf || s.cnt + 1 == 0 })
    (u := { s with peerSdaLow := low, env := s.env.tail.tail, sclOut := .released, busRise := some v, din := v, cnt := s.cnt + 1, ovf := s.ovf || s.cnt + 1 == 0 })
    (w := { s with peerSdaLow := low, env := s.env.tail.tail.tail, sclOut := .released, busRise := some v, din := v, cnt := s.cnt + 1, ovf := s.ovf || s.cnt + 1 == 0 })
    (by apply held <;> rfl) (by subst hv; simp [doLine, sclLine, hk, countEdge, hc, drawSeen, seenBit, ho, advance]; rfl)
    (by exact observe_same_lines rfl (fun _ => rfl)) (slot_silent (quiet_head q1))]
  rw [run_step (t := { s with peerSdaLow := low, env := s.env.tail.tail.tail, sclOut := .released, busRise := some v, din := v, cnt := s.cnt + 1, ovf := s.ovf || s.cnt + 1 == 0 })
    (w := { s with peerSdaLow := low, env := s.env.tail.tail.tail.tail, sclOut := .released, busRise := some v, din := v, cnt := s.cnt + 1, ovf := s.ovf || s.cnt + 1 == 0 }) (by apply held <;> rfl) (by rfl) (by exact observe_self _) (slot_silent (quiet_head q2))]
  rw [run_step (t := { s with peerSdaLow := low, env := s.env.tail.tail.tail.tail, sclOut := .low, busRise := some v, din := v, cnt := s.cnt + 1, ovf := s.ovf || s.cnt + 1 == 0 })
     (u := { s with peerSdaLow := low, env := s.env.tail.tail.tail.tail, sclOut := .low, busTrace := s.busTrace ++ [.bit v], busRise := none, din := v, cnt := s.cnt + 1, ovf := s.ovf || s.cnt + 1 == 0 })
     (w := { s with peerSdaLow := low, env := s.env.tail.tail.tail.tail.tail, sclOut := .low, busTrace := s.busTrace ++ [.bit v], busRise := none, din := v, cnt := s.cnt + 1, ovf := s.ovf || s.cnt + 1 == 0 }) (by apply held <;> rfl) (by rfl)
    (observe_fall_bit (by simp [sclLine, hk]) (by simp [sclLine]) rfl) (slot_silent (quiet_head q3))]
  rw [run_step (w := turned low s) (t := {turned low s with env := s.env.tail.tail.tail.tail.tail}) (u := {turned low s with env := s.env.tail.tail.tail.tail.tail}) (by apply held <;> rfl)
    (by subst hv; simp [doLine, hc, advance, turned, hs, BitVec.add_assoc]) (observe_low (by simp [sclLine]) (by simp [sclLine, turned, hs]))
    (by rw [slot_silent (quiet_head q4)]; simp [turned, ← List.drop_one])]

/-- The levels `PEER` presents in consecutive counted bit-clocks with their loop tests, from the level `cur` on. -/
def Scripted : List Bool → Bool → List (List EnvMove) → Prop
  | [], _, _ => True
  | low :: lows, cur, e =>
    (e.head? = some [.peerSda low] ∨ (e.headD [] = [] ∧ cur = low)) ∧ QuietFor 6 e.tail ∧ Scripted lows low (e.drop 7)

/-- The samples of consecutive counted bit-clocks. -/
def samples : SdaDrive → Byte → List Bool → List Bool
  | _, _, [] => []
  | d, r, low :: lows =>
    let v := !(d == .low || (d == .fromSr && !r.getLsbD 7) || low)
    v :: samples d (shiftIn r v) lows

theorem quiet_mono {m n e} (h : m ≤ n) (hq : QuietFor n e) : QuietFor m e := by
  intro ms hm
  exact hq ms ((List.take_prefix_take_left h).subset hm)
theorem quiet_drop {m n e} (hq : QuietFor (m + n) e) : QuietFor n (e.drop m) := by
  intro ms hm
  rw [List.take_drop] at hm
  exact hq ms (List.mem_of_mem_drop hm)
theorem Clocking.congr {s t : State} (h : Clocking s) (hi : t.inIsr = s.inIsr) (hg : t.gie = s.gie)
    (ho : t.ovie = s.ovie) (hc : t.clksrc = s.clksrc) (hs : t.sclOut = s.sclOut) (hp : t.peerSclLow = s.peerSclLow)
    (hv : t.overlap = s.overlap) : Clocking t :=
  ⟨h.free.congr hi hg ho, hc.trans h.strobe, hs.trans h.scl, hp.trans h.peer, hv.trans h.apart⟩

theorem turn_run {s : State} {low : Bool} (h : Clocking s) (hp : Presents low s) (hq : QuietFor 6 s.env.tail) :
    run none strobeLines s =
      ⟨if (turned low s).ovf then some .xfer else none, { turned low s with env := s.env.drop 7 }, []⟩ := by
  unfold strobeLines
  rw [bitClock_run h hp (quiet_mono (by omega) hq)]
  have hc : Clocking (turned low s) := h.congr rfl rfl rfl rfl rfl rfl rfl
  have hsl : slot (turned low s) = { turned low s with env := s.env.drop 7 } := by
    rw [slot_silent]
    · simp [turned, ← List.drop_one]
    · have := quiet_drop (m := 5) (n := 1) hq
      have := quiet_head this
      simpa [turned, ← List.drop_one] using this
  cases ho : (turned low s).ovf with
  | true =>
    rw [run_leave (t := turned low s) (m := .xfer) hc.free.notHeld (by simp [doLine, ho]), observe_self, hsl]
    simp
  | false =>
    rw [run_go (t := turned low s) hc.free.notHeld (by simp [doLine, ho]), observe_self, hsl]
    simp
theorem turns_run (lows : List Bool) (s : State) (h : Clocking s) (hs : Scripted lows s.peerSdaLow s.env)
    (hne : lows ≠ []) (hl : lows.length ≤ 8) (hc : s.cnt = i2cPreload lows.length) (ho : s.ovf = false) :
    run none (List.replicate lows.length strobeLines).flatten s =
      ⟨some .xfer, { s with
        peerSdaLow := lows.getLastD s.peerSdaLow, din := (samples s.sdaOut s.sr lows).getLastD s.din, cnt := 0,
        ovf := true, sr := (samples s.sdaOut s.sr lows).foldl shiftIn s.sr,
        busTrace := s.busTrace ++ (samples s.sdaOut s.sr lows).map .bit, busRise := none,
        env := s.env.drop (7 * lows.length) }, []⟩ := by
  induction lows generalizing s with
  | nil => exact absurd rfl hne
  | cons low lows ih =>
    obtain ⟨hp, hq, hs⟩ := hs
    have hv : sdaLine { s with peerSdaLow := low } = !(s.sdaOut == .low || (s.sdaOut == .fromSr && !s.sr.getLsbD 7) || low) := rfl
    rw [List.length_cons, List.replicate_succ, List.flatten_cons, run_append, turn_run h hp hq]
    simp only [if_true]
    cases lows with
    | nil =>
      have : (turned low s).ovf = true := by simp [turned, hc, i2cPreload]
      simp [this]
      simp [turned, sdaLine, samples, hc, i2cPreload]
    | cons l2 rest =>
      have h1 : (turned low s).ovf = false := by
        simp only [List.length_cons] at hl hc
        simp only [turned, ho, hc]
        have : rest.length ≤ 6 := by omega
        generalize rest.length = n at *
        interval_cases n <;> decide
      have h2 : (turned low s).cnt = i2cPreload (rest.length + 1) := by
        simp only [List.length_cons] at hl hc
        simp only [turned, ho, hc]
        have : rest.length ≤ 6 := by omega
        generalize rest.length = n at *
        interval_cases n <;> decide
      rw [if_neg (by simp [h1])]
      have hct : Clocking { turned low s with env := s.env.drop 7 } := h.congr rfl rfl rfl rfl rfl rfl rfl
      have := ih _ hct hs (by simp) (by simpa using Nat.le_of_succ_le hl) h2 h1
      refine this.trans ?_
      simp [turned, sdaLine, samples, Nat.mul_add]
      refine ⟨by simp [List.getLast?_cons], by simp [List.getLast?_cons], by congr 1; omega⟩

/-- A whole transfer: the preload, the counted bit-clocks, the exit from the loop. -/
theorem xfer_run {s : State} (lows : List Bool) (h : Clocking s) (hq : s.env.headD [] = [])
    (hs : Scripted lows s.peerSdaLow s.env.tail) (hl : lows.length = 1 ∨ lows.length = 8) (ls : List Line) :
    run none (xferLines lows.length ++ ls) s = run none ls { s with
        peerSdaLow := lows.getLastD s.peerSdaLow, din := (samples s.sdaOut s.sr lows).getLastD s.din, cnt := 0,
        ovf := true, sr := (samples s.sdaOut s.sr lows).foldl shiftIn s.sr,
        busTrace := s.busTrace ++ (samples s.sdaOut s.sr lows).map .bit, busRise := none,
        env := s.env.drop (1 + 7 * lows.length) } := by
  have hw : slot (preloadCounter (i2cPreload lows.length) s)
      = { s with cnt := i2cPreload lows.length, ovf := false, env := s.env.tail } := slot_silent hq
  rw [xferLines, List.cons_append, List.cons_append, run_step h.free.notHeld (t := preloadCounter (i2cPreload lows.length) s) (by rfl)
    (by exact observe_same_lines rfl (fun _ => rfl)) hw, List.append_assoc, run_append, turns_run lows
    { s with cnt := i2cPreload lows.length, ovf := false, env := s.env.tail } (h.congr rfl rfl rfl rfl rfl rfl rfl) hs
    (by rintro rfl; simp at hl) (by omega) rfl rfl]
  simp only [if_true, List.cons_append, List.nil_append]
  rw [run_skip (by simp), run_skip_end]
  simp [Nat.add_comm]

theorem scripted_quiet (n : Nat) (cur : Bool) (e : List (List EnvMove)) (h : QuietFor (7 * n) e) :
    Scripted (List.replicate n cur) cur e := by
  induction n generalizing e with
  | zero => trivial
  | succ n ih =>
    have h' : QuietFor (7 + 7 * n) e := by simpa [Nat.mul_add, Nat.add_comm] using h
    refine ⟨.inr ⟨quiet_head (quiet_mono (show 0 + 1 ≤ 7 + 7 * n by omega) h'), rfl⟩, ?_, ih _ (quiet_drop h')⟩
    exact quiet_tail (quiet_mono (show 6 + 1 ≤ 7 + 7 * n by omega) h')

theorem quiet_nil (n : Nat) : QuietFor n [] := by intro ms hm; simp at hm
theorem quiet_replicate {m n : Nat} (h : m ≤ n) (e) : QuietFor m (List.replicate n [] ++ e) := by
  intro ms hm
  rw [List.take_append_of_le_length (by simpa using h)] at hm
  exact List.eq_of_mem_replicate (List.mem_of_mem_take hm)

theorem scripted_slots (lows : List Bool) (cur : Bool) (e : List (List EnvMove)) :
    Scripted lows cur (lows.flatMap bitSlots ++ e) := by
  induction lows generalizing cur with
  | nil => trivial
  | cons low lows ih =>
    refine ⟨.inl ?_, ?_, ?_⟩
    · simp [bitSlots]
    · simp only [List.flatMap_cons, bitSlots, List.cons_append, List.tail_cons, List.append_assoc]
      exact quiet_replicate (Nat.le_refl 6) _
    · have : ((low :: lows).flatMap bitSlots ++ e).drop 7 = lows.flatMap bitSlots ++ e := by
        rw [List.flatMap_cons, List.append_assoc, List.drop_left' (by simp [bitSlots])]
      rw [this]; exact ih low

theorem shiftIn_getLsbD (r : Byte) (b : Bool) (i : Nat) :
    (shiftIn r b).getLsbD i = if i = 0 then b else decide (i < 8) && r.getLsbD (i - 1) := by
  have hb : (bitValue b).getLsbD i = (decide (i = 0) && b) := by
    cases b with
    | false => simp [bitValue]
    | true => simp [bitValue, BitVec.getLsbD_one]
  rw [shiftIn, BitVec.getLsbD_or, hb, BitVec.getLsbD_shiftLeft]
  by_cases h : i = 0
  · simp [h]
  · simp [h]
theorem shiftIn_bits (r v : Byte) : (bitsMsbFirst v).foldl shiftIn r = v := by
  apply BitVec.eq_of_getLsbD_eq
  intro i hi
  simp only [bitsMsbFirst, List.foldl_cons, List.foldl_nil, shiftIn_getLsbD]
  interval_cases i <;> simp
theorem samples_fromSr (r : Byte) : samples .fromSr r (List.replicate 8 false) = bitsMsbFirst r := by
  revert r; decide +kernel
theorem samples_released (r : Byte) (lows : List Bool) : samples .released r lows = lows.map (!·) := by
  induction lows generalizing r with
  | nil => rfl
  | cons low lows ih => simp [samples, ih]

theorem Clocking.sda {s : State} (h : Clocking s) (d : SdaDrive) (e) :
    Clocking { s with sdaOut := d, env := e } := h.congr rfl rfl rfl rfl rfl rfl rfl

/-- `SR` crosses the bus (R127). -/
theorem shiftOut_run {s : State} (h : Clocking s) (hq : s.env.headD [] = [])
    (hq1 : s.env.tail.headD [] = [])
    (hs : Scripted (List.replicate 8 false) s.peerSdaLow (s.env.drop 2)) (ls : List Line) :
    run none (shiftOutLines ++ ls) s = run none ls { s with
      sdaOut := .fromSr, cnt := 0, ovf := true, din := s.sr.getLsbD 0, peerSdaLow := false,
      busTrace := s.busTrace ++ byteEvents s.sr, busRise := none, env := s.env.drop 58 } := by
  have hx := xfer_run (s := { s with sdaOut := .fromSr, env := s.env.tail }) (List.replicate 8 false) (h.sda _ _) hq1
    (by simpa [← List.drop_one] using hs) (by simp) ls
  rw [shiftOutLines, List.cons_append, run_step h.free.notHeld (t := { s with sdaOut := .fromSr }) (u := { s with sdaOut := .fromSr })
   (w := { s with sdaOut := .fromSr, env := s.env.tail }) (by rfl)
    (by exact observe_low (scl_low h.scl) (scl_low h.scl)) (slot_silent hq)]
  refine Eq.trans hx ?_
  rw [samples_fromSr, shiftIn_bits]
  simp [byteEvents, bitsMsbFirst]

/-- `PEER`'s bits come in (R128). -/
theorem byteIn_run {s : State} (h : Clocking s) (v : Byte) (hq : s.env.headD [] = [])
    (hq1 : s.env.tail.headD [] = [])
    (hs : Scripted ((bitsMsbFirst v).map (!·)) s.peerSdaLow (s.env.drop 2)) (ls : List Line) :
    run none (byteInLines ++ ls) s = run none ls { s with
      sr := v, sdaOut := .released, cnt := 0, ovf := true, din := v.getLsbD 0, peerSdaLow := !v.getLsbD 0,
      busTrace := s.busTrace ++ byteEvents v, busRise := none, env := s.env.drop 58 } := by
  have hx := xfer_run (s := { s with sdaOut := .released, env := s.env.tail }) ((bitsMsbFirst v).map (!·)) (h.sda _ _) hq1
    (by simpa [← List.drop_one] using hs) (by simp [bitsMsbFirst]) ls
  rw [byteInLines, List.cons_append, run_step h.free.notHeld (t := { s with sdaOut := .released }) (u := { s with sdaOut := .released })
   (w := { s with sdaOut := .released, env := s.env.tail }) (by rfl)
    (by exact observe_low (scl_low h.scl) (scl_low h.scl)) (slot_silent hq)]
  refine Eq.trans hx ?_
  rw [samples_released]
  have : ((bitsMsbFirst v).map (!·)).map (!·) = bitsMsbFirst v := by simp [bitsMsbFirst]
  rw [this, shiftIn_bits]
  simp [byteEvents, bitsMsbFirst]

/-- The acknowledge slot (R129). -/
theorem ackCheck_run {s : State} (h : Clocking s) (low : Bool) (hq : s.env.headD [] = [])
    (hq1 : s.env.tail.headD [] = [])
    (hs : Scripted [low] s.peerSdaLow (s.env.drop 2)) (hq2 : (s.env.drop 9).headD [] = []) (ls : List Line) :
    run none (ackCheckLines ++ ls) s = run none ls { s with
      sr := shiftIn s.sr (!low), sdaOut := .released, cnt := 0, ovf := true, din := !low, peerSdaLow := low,
      i2cAckbit := !low, busTrace := s.busTrace ++ [.bit (!low)], busRise := none, env := s.env.drop 10 } := by
  have hx := xfer_run (s := { s with sdaOut := .released, env := s.env.tail }) [low] (h.sda _ _) hq1
    (by simpa [← List.drop_one] using hs) (by simp) (.ackLatch :: ls)
  rw [ackCheckLines, List.cons_append, List.cons_append, run_step h.free.notHeld (t := { s with sdaOut := .released }) (u := { s with sdaOut := .released })
   (w := { s with sdaOut := .released, env := s.env.tail }) (by rfl)
    (by exact observe_low (scl_low h.scl) (scl_low h.scl)) (slot_silent hq)]
  rw [List.append_assoc]
  refine Eq.trans hx ?_
  rw [samples_released]
  have h9 : List.drop (1 + 7 * [low].length) s.env.tail = s.env.drop 9 := by simp [← List.drop_one]
  rw [run_step (t := { s with
      sr := shiftIn s.sr (!low), sdaOut := .released, cnt := 0, ovf := true, din := !low, peerSdaLow := low,
      i2cAckbit := !low, busTrace := s.busTrace ++ [.bit (!low)], busRise := none, env := s.env.drop 9 })
      (u := { s with
      sr := shiftIn s.sr (!low), sdaOut := .released, cnt := 0, ovf := true, din := !low, peerSdaLow := low,
      i2cAckbit := !low, busTrace := s.busTrace ++ [.bit (!low)], busRise := none, env := s.env.drop 9 })
    (w := { s with
      sr := shiftIn s.sr (!low), sdaOut := .released, cnt := 0, ovf := true, din := !low, peerSdaLow := low,
      i2cAckbit := !low, busTrace := s.busTrace ++ [.bit (!low)], busRise := none, env := s.env.drop 10 })]
  · apply Uninterrupted.notHeld; exact h.free.congr rfl rfl rfl
  · have hb : (shiftIn s.sr (!low)).getLsbD 0 = !low := by cases low <;> simp [shiftIn, bitValue]
    simp only [doLine, h9]
    cases low <;> simp_all
  · exact observe_low (scl_low h.scl) (scl_low h.scl)
  · rw [slot_silent hq2]; simp

/-- The master's bit (R130), after `SR` has been loaded. -/
theorem masterAck_run {s : State} (h : Clocking s) (low : Bool) (hq : s.env.headD [] = [])
    (hq1 : s.env.tail.headD [] = [])
    (hs : Scripted [low] s.peerSdaLow (s.env.drop 2)) (ls : List Line) :
    run none (masterAckTail ++ ls) s = run none ls { s with
      sr := shiftIn s.sr (s.sr.getLsbD 7 && !low), sdaOut := .fromSr, cnt := 0, ovf := true, din := s.sr.getLsbD 7 && !low, peerSdaLow := low,
      busTrace := s.busTrace ++ [.bit (s.sr.getLsbD 7 && !low)], busRise := none, env := s.env.drop 9 } := by
  have hx := xfer_run (s := { s with sdaOut := .fromSr, env := s.env.tail }) [low] (h.sda _ _) hq1
    (by simpa [← List.drop_one] using hs) (by simp) ls
  rw [masterAckTail, List.cons_append, run_step h.free.notHeld (t := { s with sdaOut := .fromSr }) (u := { s with sdaOut := .fromSr })
   (w := { s with sdaOut := .fromSr, env := s.env.tail }) (by rfl)
    (by exact observe_low (scl_low h.scl) (scl_low h.scl)) (slot_silent hq)]
  refine Eq.trans hx ?_
  simp [samples, show (SdaDrive.fromSr == SdaDrive.low) = false from rfl]

theorem quiet_at {n k : Nat} {e : List (List EnvMove)} (h : QuietFor n e) (hk : k < n) : (e.drop k).headD [] = [] :=
  quiet_head (n := 0) (quiet_drop (quiet_mono (show k + 1 ≤ n by omega) h))

/-- A start condition on the idle bus (R125). -/
theorem start_run {s : State} (h : fgHeld s = false) (hs : s.sclOut = .released) (hd : s.sdaOut = .released)
    (hp : s.peerSclLow = false) (hl : s.peerSdaLow = false) (hq : QuietFor 6 s.env) (ls : List Line) :
    run none (startLines ++ ls) s = run none ls { s with
      sclOut := .low, sdaOut := .low, busTrace := s.busTrace ++ [.start], busRise := none, env := s.env.drop 6 } := by
  have held : ∀ {t : State}, t.inIsr = s.inIsr → t.gie = s.gie → t.ovie = s.ovie → t.ovf = s.ovf →
      fgHeld t = false := fun a b c d => fgHeld_congr a b c d ▸ h
  have e0 : ∀ k < 6, ∀ t : State, t.env = s.env.drop k → slot t = { t with env := s.env.drop (k + 1) } := by
    intro k hk t ht
    rw [slot_silent (by rw [ht]; exact quiet_at hq hk), ht]; simp
  simp only [startLines, List.cons_append, List.nil_append]
  rw [run_step (t := s) (u := s) (w := { s with env := s.env.drop 1 }) (by apply held <;> rfl) (by simp [doLine, ← hs]) (by exact observe_self _) (e0 0 (by omega) _ (by simp))]
  rw [run_step (t := { s with env := s.env.drop 1 }) (u := { s with env := s.env.drop 1 }) (w := { s with env := s.env.drop 2 }) (by apply held <;> rfl) (by simp [doLine, sclLine, hs, hp]) (by exact observe_self _) (e0 1 (by omega) _ (by rfl))]
  rw [run_step (t := { s with env := s.env.drop 2 }) (u := { s with env := s.env.drop 2 }) (w := { s with env := s.env.drop 3 }) (by apply held <;> rfl) (by rfl) (by exact observe_self _) (e0 2 (by omega) _ (by rfl))]
  rw [run_step (t := { s with env := s.env.drop 3, sdaOut := .low }) (u := { s with env := s.env.drop 3, sdaOut := .low, busTrace := s.busTrace ++ [.start], busRise := none })
     (w := { s with env := s.env.drop 4, sdaOut := .low, busTrace := s.busTrace ++ [.start], busRise := none }) (by apply held <;> rfl) (by rfl)
     (by exact observe_start (by simp [sclLine, hs, hp]) (by simp [sclLine, hs, hp]) (by simp [sdaLine, hd, hl]) (by simp [sdaLine])) (e0 3 (by omega) _ (by rfl))]
  rw [run_step (t := { s with env := s.env.drop 4, sdaOut := .low, busTrace := s.busTrace ++ [.start], busRise := none }) (u := { s with env := s.env.drop 4, sdaOut := .low, busTrace := s.busTrace ++ [.start], busRise := none })
     (w := { s with env := s.env.drop 5, sdaOut := .low, busTrace := s.busTrace ++ [.start], busRise := none }) (by apply held <;> rfl) (by rfl)
     (by exact observe_self _) (e0 4 (by omega) _ (by rfl))]
  rw [run_step (t := { s with env := s.env.drop 5, sclOut := .low, sdaOut := .low, busTrace := s.busTrace ++ [.start], busRise := none }) (u := { s with env := s.env.drop 5, sclOut := .low, sdaOut := .low, busTrace := s.busTrace ++ [.start], busRise := none })
     (w := { s with env := s.env.drop 6, sclOut := .low, sdaOut := .low, busTrace := s.busTrace ++ [.start], busRise := none }) (by apply held <;> rfl) (by rfl)
     (by exact observe_fall_none (by simp [sclLine, hs, hp]) (by simp [sclLine]) rfl) (e0 5 (by omega) _ (by rfl))]

/-- A stop condition (R126). -/
theorem stop_run {s : State} (h : fgHeld s = false) (hs : s.sclOut = .low)
    (hp : s.peerSclLow = false) (hp' : Presents false s) (ho : s.overlap = false) (hq : QuietFor 6 s.env.tail) (ls : List Line) :
    run none (stopLines ++ ls) s = run none ls { s with
      sclOut := .released, sdaOut := .released, peerSdaLow := false, busTrace := s.busTrace ++ [.stop], busRise := none, env := s.env.drop 7 } := by
  have held : ∀ {t : State}, t.inIsr = s.inIsr → t.gie = s.gie → t.ovie = s.ovie → t.ovf = s.ovf →
      fgHeld t = false := fun a b c d => fgHeld_congr a b c d ▸ h
  have e0 : ∀ k < 6, ∀ t : State, t.env = s.env.drop (k + 1) → slot t = { t with env := s.env.drop (k + 2) } := by
    intro k hk t ht
    rw [slot_silent (by rw [ht]; have := quiet_at hq hk; simpa [← List.drop_one, Nat.add_comm] using this), ht]; simp
  simp only [stopLines, List.cons_append, List.nil_append]
  rw [run_step (t := { s with sdaOut := .low }) (u := { s with sdaOut := .low }) (w := { s with sdaOut := .low, peerSdaLow := false, env := s.env.drop 1 }) (by apply held <;> rfl) (by rfl)
    (by exact observe_low (scl_low hs) (scl_low hs)) (by rw [slot_presents (s := { s with sdaOut := .low }) (low := false) hp' (by exact hs)]; simp)]
  rw [run_step (t := { s with sdaOut := .low, peerSdaLow := false, env := s.env.drop 1 }) (u := { s with sdaOut := .low, peerSdaLow := false, env := s.env.drop 1 })
   (w := { s with sdaOut := .low, peerSdaLow := false, env := s.env.drop 2 }) (by apply held <;> rfl) (by rfl) (by exact observe_self _) (e0 0 (by omega) _ (by rfl))]
  rw [run_step (t := { s with sclOut := .released, sdaOut := .low, peerSdaLow := false, env := s.env.drop 2 }) (u := { s with sclOut := .released, sdaOut := .low, peerSdaLow := false, env := s.env.drop 2, busRise := some false })
   (w := { s with sclOut := .released, sdaOut := .low, peerSdaLow := false, env := s.env.drop 3, busRise := some false }) (by apply held <;> rfl) (by rfl)
   (by exact (observe_rise (by simp [sclLine, hs]) (by simp [sclLine, hp]) ho)) (e0 1 (by omega) _ (by rfl))]
  rw [run_step (t := { s with sclOut := .released, sdaOut := .low, peerSdaLow := false, env := s.env.drop 3, busRise := some false }) (u := { s with sclOut := .released, sdaOut := .low, peerSdaLow := false, env := s.env.drop 3, busRise := some false })
   (w := { s with sclOut := .released, sdaOut := .low, peerSdaLow := false, env := s.env.drop 4, busRise := some false }) (by apply held <;> rfl) (by simp [doLine, sclLine, hp])
   (by exact observe_self _) (e0 2 (by omega) _ (by rfl))]
  rw [run_step (t := { s with sclOut := .released, sdaOut := .low, peerSdaLow := false, env := s.env.drop 4, busRise := some false }) (u := { s with sclOut := .released, sdaOut := .low, peerSdaLow := false, env := s.env.drop 4, busRise := some false })
   (w := { s with sclOut := .released, sdaOut := .low, peerSdaLow := false, env := s.env.drop 5, busRise := some false }) (by apply held <;> rfl) (by rfl)
   (by exact observe_self _) (e0 3 (by omega) _ (by rfl))]
  rw [run_step (t := { s with sclOut := .released, sdaOut := .released, peerSdaLow := false, env := s.env.drop 5, busRise := some false }) (u := { s with sclOut := .released, sdaOut := .released, peerSdaLow := false, env := s.env.drop 5, busRise := none, busTrace := s.busTrace ++ [.stop] })
   (w := { s with sclOut := .released, sdaOut := .released, peerSdaLow := false, env := s.env.drop 6, busRise := none, busTrace := s.busTrace ++ [.stop] }) (by apply held <;> rfl) (by rfl)
   (by exact observe_stop (by simp [sclLine, hp]) (by simp [sclLine, hp]) (by simp [sdaLine]) (by simp [sdaLine])) (e0 4 (by omega) _ (by rfl))]
  rw [run_step (t := { s with sclOut := .released, sdaOut := .released, peerSdaLow := false, env := s.env.drop 6, busRise := none, busTrace := s.busTrace ++ [.stop] }) (u := { s with sclOut := .released, sdaOut := .released, peerSdaLow := false, env := s.env.drop 6, busRise := none, busTrace := s.busTrace ++ [.stop] })
   (w := { s with sclOut := .released, sdaOut := .released, peerSdaLow := false, env := s.env.drop 7, busRise := none, busTrace := s.busTrace ++ [.stop] }) (by apply held <;> rfl) (by rfl)
   (by exact observe_self _) (e0 5 (by omega) _ (by rfl))]
/-! ### Segments of a transaction, at the instants that Safety.lean names -/

theorem flatMap_slots_length (lows : List Bool) : (lows.flatMap bitSlots).length = 7 * lows.length := by
  induction lows with
  | nil => rfl
  | cons a l ih => simp [bitSlots, ih, Nat.mul_add]

/-- A byte loaded into `SR` by a line and shifted out, at the instants of `byteOutSlots`. -/
theorem byteOut_seg {s : State} {l : Line} {b : Byte} {E : List (List EnvMove)} (h : Clocking s)
    (hl : doLine l s = .go { s with sr := b }) (he : s.env = byteOutSlots ++ E) (ls : List Line) :
    run none (l :: (shiftOutLines ++ ls)) s = run none ls { s with
      sr := b, sdaOut := .fromSr, cnt := 0, ovf := true, din := b.getLsbD 0, peerSdaLow := false,
      busTrace := s.busTrace ++ byteEvents b, busRise := none, env := E } := by
  have h1 : s.env.headD [] = [] := by simp [he, byteOutSlots]
  rw [run_step (t := { s with sr := b }) (u := { s with sr := b }) (w := { s with sr := b, env := s.env.tail })
    h.free.notHeld hl (by exact observe_low (scl_low h.scl) (scl_low h.scl)) (slot_silent h1)]
  have ht : s.env.tail = [] :: [] :: ((List.replicate 8 false).flatMap bitSlots ++ E) := by
    rw [he]; rfl
  refine (shiftOut_run (s := { s with sr := b, env := s.env.tail }) (h.congr rfl rfl rfl rfl rfl rfl rfl) (by simp [ht]) (by simp [ht]) ?_ ls).trans ?_
  · simp only [ht, List.drop_succ_cons, List.drop_zero]; exact scripted_slots _ _ _
  · have : s.env.tail.drop 58 = E := by
      rw [ht]; simp only [List.drop_succ_cons]
      rw [List.drop_left' (by rw [flatMap_slots_length]; rfl)]
    simp only [this]

theorem ack_seg {s : State} {ack : Bool} {E : List (List EnvMove)} (h : Clocking s)
    (he : s.env = ackSlots ack ++ E) (ls : List Line) :
    run none (ackCheckLines ++ ls) s = run none ls { s with
      sr := shiftIn s.sr (!ack), sdaOut := .released, cnt := 0, ovf := true, din := !ack, peerSdaLow := ack,
      i2cAckbit := !ack, busTrace := s.busTrace ++ [.bit (!ack)], busRise := none, env := E } := by
  have he' : s.env = [] :: [] :: ([ack].flatMap bitSlots ++ ([] :: E)) := by rw [he]; rfl
  refine (ackCheck_run h ack (by simp [he']) (by simp [he']) ?_ ?_ ls).trans ?_
  · simp only [he', List.drop_succ_cons, List.drop_zero]; exact scripted_slots _ _ _
  · simp [he', bitSlots]
  · have : s.env.drop 10 = E := by rw [he']; simp [bitSlots]
    rw [this]

/-- Lines that touch no line of the bus and take a silent instant. -/
theorem plain_seg {s t : State} {l : Line} {E : List (List EnvMove)} {ls : List Line} (h : fgHeld s = false)
    (hl : doLine l s = .go t) (hc : sclLine t = sclLine s) (hd : sclLine s = true → sdaLine t = sdaLine s) (he : t.env = [] :: E) :
    run none (l :: ls) s = run none ls { t with env := E } := by
  rw [run_go h hl, observe_same_lines hc hd, slot_silent (by simp [he])]
  simp [he]

/-- A line that changes no bus line, at a silent instant. -/
theorem flat_step {s t w : State} {l : Line} {ls : List Line} (h : fgHeld s = false)
    (hl : doLine l s = .go t) (hc : sclLine t = sclLine s) (hd : sclLine s = true → sdaLine t = sdaLine s) (he : t.env.headD [] = [])
    (hw : { t with env := t.env.tail } = w) :
    run none (l :: ls) s = run none ls w := by
  rw [run_go h hl, observe_same_lines hc hd, slot_silent he, hw]

theorem open_seg {s : State} {E : List (List EnvMove)} (h : fgHeld s = false) (hb : IdleBus s) (hu : s.uartState = .idle)
    (he : s.env = headSlots ++ E) (rw_ : Bool) (a : Byte) (n : Nat) (ls : List Line) :
    run none (.csEnter :: .invoke rw_ a n :: (openLines ++ ls)) s = run none ls { s with
      csSaved := s.gie :: s.csSaved, gie := false, i2cRw := rw_, i2cAddr := a, i2cBuf := s.operandAt, i2cLen := n,
      ovie := false, clksrc := .strobe, sclOut := .low, sdaOut := .low, busTrace := s.busTrace ++ [.start],
      busRise := none, i2cTxn := .opened, env := E } := by
  obtain ⟨hs, hd, hp, hl, ho⟩ := hb
  have hi := (fgHeld_eq_false.mp h).1
  have e0 : s.env = List.replicate 11 [] ++ E := he
  rw [flat_step (l := .csEnter)
    (t := { s with
      csSaved := s.gie :: s.csSaved, gie := false, env := List.replicate 11 [] ++ E })
    (w := { s with
      csSaved := s.gie :: s.csSaved, gie := false, env := List.replicate 10 [] ++ E })
    h (by simp [doLine, enterSection, e0]) (by rfl) (by exact fun _ => rfl) (by rfl) (by rfl)]
  rw [flat_step (l := .invoke rw_ a n)
    (t := { s with
      csSaved := s.gie :: s.csSaved, gie := false, i2cRw := rw_, i2cAddr := a, i2cBuf := s.operandAt,
      i2cLen := n, env := List.replicate 10 [] ++ E })
    (w := { s with
      csSaved := s.gie :: s.csSaved, gie := false, i2cRw := rw_, i2cAddr := a, i2cBuf := s.operandAt,
      i2cLen := n, env := List.replicate 9 [] ++ E })
    (by exact fgHeld_eq_false.mpr ⟨hi, by simp⟩) (by rfl) (by rfl) (by exact fun _ => rfl) (by rfl) (by rfl)]
  rw [openLines, List.append_assoc, List.cons_append, List.cons_append]
  rw [flat_step (l := .usiMask)
    (t := { s with
      csSaved := s.gie :: s.csSaved, gie := false, i2cRw := rw_, i2cAddr := a, i2cBuf := s.operandAt,
      i2cLen := n, ovie := false, env := List.replicate 9 [] ++ E })
    (w := { s with
      csSaved := s.gie :: s.csSaved, gie := false, i2cRw := rw_, i2cAddr := a, i2cBuf := s.operandAt,
      i2cLen := n, ovie := false, env := List.replicate 8 [] ++ E })
    (by exact fgHeld_eq_false.mpr ⟨hi, by simp⟩) (by simp [doLine, ho, hu]) (by rfl) (by exact fun _ => rfl) (by rfl)
    (by rfl)]
  rw [flat_step (l := .usiStrobe)
    (t := { s with
      csSaved := s.gie :: s.csSaved, gie := false, i2cRw := rw_, i2cAddr := a, i2cBuf := s.operandAt,
      i2cLen := n, ovie := false, clksrc := .strobe, env := List.replicate 8 [] ++ E })
    (w := { s with
      csSaved := s.gie :: s.csSaved, gie := false, i2cRw := rw_, i2cAddr := a, i2cBuf := s.operandAt,
      i2cLen := n, ovie := false, clksrc := .strobe, env := List.replicate 7 [] ++ E })
    (by exact fgHeld_eq_false.mpr ⟨hi, by simp⟩) (by rfl) (by rfl) (by exact fun _ => rfl) (by rfl) (by rfl)]
  rw [start_run (s := { s with
      csSaved := s.gie :: s.csSaved, gie := false, i2cRw := rw_, i2cAddr := a, i2cBuf := s.operandAt,
      i2cLen := n, ovie := false, clksrc := .strobe, env := List.replicate 7 [] ++ E })
    (by exact fgHeld_eq_false.mpr ⟨hi, by simp⟩) hs hd hp hl (quiet_replicate (n := 7) (by omega) E)]
  rw [List.cons_append]
  exact flat_step (l := .txnOpen)
    (t := { s with
      csSaved := s.gie :: s.csSaved, gie := false, i2cRw := rw_, i2cAddr := a, i2cBuf := s.operandAt,
      i2cLen := n, ovie := false, clksrc := .strobe, sclOut := .low, sdaOut := .low,
      busTrace := s.busTrace ++ [.start], busRise := none, i2cTxn := .opened,
      env := List.replicate 1 [] ++ E })
    (by exact fgHeld_eq_false.mpr ⟨hi, by simp⟩) (by rfl) (by rfl) (by exact fun _ => rfl) (by rfl) (by rfl)

/-- The end of every transaction, from the close on. -/
theorem leave_run {s : State} {g : Bool} {saved : List Bool} (h : Clocking s) (hi : s.ovie = false)
    (hcs : s.csSaved = g :: saved) (hp : Presents false s) (hq : QuietFor 10 s.env.tail) :
    run none (closeLines ++ [.csExit, .returnResult]) s = ⟨none, { s with
      sclOut := .released, sdaOut := .released, peerSdaLow := false, i2cTxn := .none, clksrc := .off, gie := g, csSaved := saved, ret := .result s.i2cResult, busTrace := s.busTrace ++ [.stop], busRise := none, env := s.env.drop 11 }, []⟩ := by
  have hn := h.free.1
  have q : ∀ k, 7 ≤ k → k < 11 → (s.env.drop k).headD [] = [] := by
    intro k h1 h2
    have := quiet_at hq (k := k - 1) (by omega)
    rwa [← List.drop_one, List.drop_drop, Nat.add_sub_cancel' (by omega)] at this
  rw [closeLines, List.append_assoc, stop_run h.free.notHeld h.scl h.peer hp h.apart (quiet_mono (by omega) hq)]
  rw [List.cons_append, List.cons_append, List.nil_append]
  rw [flat_step (l := .txnClose) (t := { s with sclOut := .released, sdaOut := .released, peerSdaLow := false, i2cTxn := .none, clksrc := s.clksrc, gie := s.gie, csSaved := s.csSaved, ret := s.ret, busTrace := s.busTrace ++ [.stop], busRise := none, env := s.env.drop 7 })
    (w := { s with sclOut := .released, sdaOut := .released, peerSdaLow := false, i2cTxn := .none, clksrc := s.clksrc, gie := s.gie, csSaved := s.csSaved, ret := s.ret, busTrace := s.busTrace ++ [.stop], busRise := none, env := s.env.drop 8 })
    (by exact fgHeld_eq_false.mpr ⟨hn, by simp [hi]⟩) (by rfl) (by rfl) (by exact fun _ => rfl) (q 7 (by omega) (by omega)) (by simp)]
  rw [flat_step (l := .giveUsi) (t := { s with sclOut := .released, sdaOut := .released, peerSdaLow := false, i2cTxn := .none, clksrc := .off, gie := s.gie, csSaved := s.csSaved, ret := s.ret, busTrace := s.busTrace ++ [.stop], busRise := none, env := s.env.drop 8 })
    (w := { s with sclOut := .released, sdaOut := .released, peerSdaLow := false, i2cTxn := .none, clksrc := .off, gie := s.gie, csSaved := s.csSaved, ret := s.ret, busTrace := s.busTrace ++ [.stop], busRise := none, env := s.env.drop 9 })
    (by exact fgHeld_eq_false.mpr ⟨hn, by simp [hi]⟩) (by rfl) (by rfl) (by exact fun _ => rfl) (q 8 (by omega) (by omega)) (by simp)]
  rw [flat_step (l := .csExit) (t := { s with sclOut := .released, sdaOut := .released, peerSdaLow := false, i2cTxn := .none, clksrc := .off, gie := g, csSaved := saved, ret := s.ret, busTrace := s.busTrace ++ [.stop], busRise := none, env := s.env.drop 9 })
    (w := { s with sclOut := .released, sdaOut := .released, peerSdaLow := false, i2cTxn := .none, clksrc := .off, gie := g, csSaved := saved, ret := s.ret, busTrace := s.busTrace ++ [.stop], busRise := none, env := s.env.drop 10 })
    (by exact fgHeld_eq_false.mpr ⟨hn, by simp [hi]⟩) (by simp [doLine, exitSection, hcs]) (by rfl) (by exact fun _ => rfl) (q 9 (by omega) (by omega)) (by simp)]
  rw [flat_step (l := .returnResult) (t := { s with sclOut := .released, sdaOut := .released, peerSdaLow := false, i2cTxn := .none, clksrc := .off, gie := g, csSaved := saved, ret := .result s.i2cResult, busTrace := s.busTrace ++ [.stop], busRise := none, env := s.env.drop 10 })
    (w := { s with sclOut := .released, sdaOut := .released, peerSdaLow := false, i2cTxn := .none, clksrc := .off, gie := g, csSaved := saved, ret := .result s.i2cResult, busTrace := s.busTrace ++ [.stop], busRise := none, env := s.env.drop 11 })
    (by exact fgHeld_eq_false.mpr ⟨hn, by simp [hi]⟩) (by rfl) (by rfl) (by exact fun _ => rfl) (q 10 (by omega) (by omega)) (by simp)]
  rfl

/-- The end of every transaction at the instants of `leaveSlots`. -/
theorem leave_seg {s : State} {g : Bool} {saved : List Bool} {E : List (List EnvMove)} (h : Clocking s)
    (hi : s.ovie = false) (hcs : s.csSaved = g :: saved) (he : s.env = leaveSlots ++ E) :
    run none (closeLines ++ [.csExit, .returnResult]) s = ⟨none, { s with
      sclOut := .released, sdaOut := .released, peerSdaLow := false, i2cTxn := .none, clksrc := .off, gie := g, csSaved := saved, ret := .result s.i2cResult, busTrace := s.busTrace ++ [.stop], busRise := none, env := E }, []⟩ := by
  rw [leave_run h hi hcs (.inl (by rw [he]; rfl)) (by rw [he]; exact quiet_replicate (n := 10) (Nat.le_refl _) E)]
  have : s.env.drop 11 = E := by rw [he]; rfl
  rw [this]

theorem not_mem_dataLines {turn : List Line} (h : Line.scopeEnd .txn ∉ turn) (n : Nat) : Line.scopeEnd .txn ∉ dataLines turn n := by
  intro hm
  simp only [dataLines, List.mem_flatten, List.mem_replicate] at hm
  obtain ⟨l, ⟨_, rfl⟩, hl⟩ := hm
  exact h hl

theorem transaction_head {s : State} {E : List (List EnvMove)} (h : fgHeld s = false) (hb : IdleBus s) (hu : s.uartState = .idle)
    (ack : Bool) (he : s.env = headSlots ++ (byteOutSlots ++ (ackSlots ack ++ E))) (rw_ : Bool) (a : Byte) (n : Nat) (ls : List Line) :
    run none (.csEnter :: .invoke rw_ a n :: (openLines ++ (addressLines rw_ ++ ls))) s = run none ls { s with
      csSaved := s.gie :: s.csSaved, gie := false, i2cRw := rw_, i2cAddr := a, i2cBuf := s.operandAt, i2cLen := n,
      ovie := false, clksrc := .strobe, i2cTxn := .opened, sclOut := .low, sdaOut := .released,
      sr := shiftIn (addressByte a rw_) (!ack), cnt := 0, ovf := true, din := !ack, peerSdaLow := ack, i2cAckbit := !ack,
      busTrace := s.busTrace ++ [.start] ++ byteEvents (addressByte a rw_) ++ [.bit (!ack)], busRise := none, env := E } := by
  have hi := (fgHeld_eq_false.mp h).1
  rw [open_seg h hb hu he, addressLines, List.append_assoc, List.cons_append]
  rw [byteOut_seg (b := addressByte a rw_) (by exact ⟨⟨hi, .inl rfl⟩, rfl, rfl, hb.2.2.1, hb.2.2.2.2⟩) (by rfl) (by rfl)]
  rw [ack_seg (by exact ⟨⟨hi, .inl rfl⟩, rfl, rfl, hb.2.2.1, hb.2.2.2.2⟩) (by rfl)]


end Sys2Proof.Machine
end

