-- ==== Sys2Proof/Laws/Lines.lean ====
section
/-! SUPPORT. One lemma per field: which lines write it, and that a run through lines that do not write it leaves it as
it was, wherever the run stops. -/

namespace Sys2Proof.Machine

theorem countEdge_keeps {α : Type} (p : State → α) (h : ∀ t c o, p { t with cnt := c, ovf := o } = p t) (s : State) :
    p (countEdge s) = p s := by
  unfold countEdge advance; split
  · exact h s _ _
  · rfl

theorem exitSection_keeps {α : Type} (p : State → α) (h : ∀ t g v, p { t with gie := g, csSaved := v } = p t)
    (s : State) : p (exitSection s) = p s := by
  unfold exitSection; split
  · rfl
  · exact h s _ _

@[simp] theorem countEdge_sr (s : State) : (countEdge s).sr = s.sr := countEdge_keeps (·.sr) (fun _ _ _ => rfl) s
@[simp] theorem countEdge_ovie (s : State) : (countEdge s).ovie = s.ovie := countEdge_keeps (·.ovie) (fun _ _ _ => rfl) s
@[simp] theorem countEdge_clksrc (s : State) : (countEdge s).clksrc = s.clksrc := countEdge_keeps (·.clksrc) (fun _ _ _ => rfl) s
@[simp] theorem countEdge_din (s : State) : (countEdge s).din = s.din := countEdge_keeps (·.din) (fun _ _ _ => rfl) s
@[simp] theorem countEdge_sclOut (s : State) : (countEdge s).sclOut = s.sclOut := countEdge_keeps (·.sclOut) (fun _ _ _ => rfl) s
@[simp] theorem countEdge_sdaOut (s : State) : (countEdge s).sdaOut = s.sdaOut := countEdge_keeps (·.sdaOut) (fun _ _ _ => rfl) s
@[simp] theorem countEdge_txdSrc (s : State) : (countEdge s).txdSrc = s.txdSrc := countEdge_keeps (·.txdSrc) (fun _ _ _ => rfl) s
@[simp] theorem countEdge_tcnt (s : State) : (countEdge s).tcnt = s.tcnt := countEdge_keeps (·.tcnt) (fun _ _ _ => rfl) s
@[simp] theorem countEdge_tcmp (s : State) : (countEdge s).tcmp = s.tcmp := countEdge_keeps (·.tcmp) (fun _ _ _ => rfl) s
@[simp] theorem countEdge_tmode (s : State) : (countEdge s).tmode = s.tmode := countEdge_keeps (·.tmode) (fun _ _ _ => rfl) s
@[simp] theorem countEdge_gie (s : State) : (countEdge s).gie = s.gie := countEdge_keeps (·.gie) (fun _ _ _ => rfl) s
@[simp] theorem countEdge_periphInit (s : State) : (countEdge s).periphInit = s.periphInit := countEdge_keeps (·.periphInit) (fun _ _ _ => rfl) s
@[simp] theorem countEdge_csSaved (s : State) : (countEdge s).csSaved = s.csSaved := countEdge_keeps (·.csSaved) (fun _ _ _ => rfl) s
@[simp] theorem countEdge_uartState (s : State) : (countEdge s).uartState = s.uartState := countEdge_keeps (·.uartState) (fun _ _ _ => rfl) s
@[simp] theorem countEdge_i2cTxn (s : State) : (countEdge s).i2cTxn = s.i2cTxn := countEdge_keeps (·.i2cTxn) (fun _ _ _ => rfl) s
@[simp] theorem countEdge_i2cRw (s : State) : (countEdge s).i2cRw = s.i2cRw := countEdge_keeps (·.i2cRw) (fun _ _ _ => rfl) s
@[simp] theorem countEdge_i2cAddr (s : State) : (countEdge s).i2cAddr = s.i2cAddr := countEdge_keeps (·.i2cAddr) (fun _ _ _ => rfl) s
@[simp] theorem countEdge_i2cBuf (s : State) : (countEdge s).i2cBuf = s.i2cBuf := countEdge_keeps (·.i2cBuf) (fun _ _ _ => rfl) s
@[simp] theorem countEdge_i2cLen (s : State) : (countEdge s).i2cLen = s.i2cLen := countEdge_keeps (·.i2cLen) (fun _ _ _ => rfl) s
@[simp] theorem countEdge_i2cIdx (s : State) : (countEdge s).i2cIdx = s.i2cIdx := countEdge_keeps (·.i2cIdx) (fun _ _ _ => rfl) s
@[simp] theorem countEdge_i2cAckbit (s : State) : (countEdge s).i2cAckbit = s.i2cAckbit := countEdge_keeps (·.i2cAckbit) (fun _ _ _ => rfl) s
@[simp] theorem countEdge_i2cResult (s : State) : (countEdge s).i2cResult = s.i2cResult := countEdge_keeps (·.i2cResult) (fun _ _ _ => rfl) s
@[simp] theorem countEdge_inIsr (s : State) : (countEdge s).inIsr = s.inIsr := countEdge_keeps (·.inIsr) (fun _ _ _ => rfl) s
@[simp] theorem countEdge_uartByte (s : State) : (countEdge s).uartByte = s.uartByte := countEdge_keeps (·.uartByte) (fun _ _ _ => rfl) s
@[simp] theorem countEdge_mem (s : State) : (countEdge s).mem = s.mem := countEdge_keeps (·.mem) (fun _ _ _ => rfl) s
@[simp] theorem countEdge_operandAt (s : State) : (countEdge s).operandAt = s.operandAt := countEdge_keeps (·.operandAt) (fun _ _ _ => rfl) s
@[simp] theorem countEdge_callerStores (s : State) : (countEdge s).callerStores = s.callerStores := countEdge_keeps (·.callerStores) (fun _ _ _ => rfl) s
@[simp] theorem countEdge_fg (s : State) : (countEdge s).fg = s.fg := countEdge_keeps (·.fg) (fun _ _ _ => rfl) s
@[simp] theorem countEdge_ret (s : State) : (countEdge s).ret = s.ret := countEdge_keeps (·.ret) (fun _ _ _ => rfl) s
@[simp] theorem countEdge_peerSdaLow (s : State) : (countEdge s).peerSdaLow = s.peerSdaLow := countEdge_keeps (·.peerSdaLow) (fun _ _ _ => rfl) s
@[simp] theorem countEdge_peerSclLow (s : State) : (countEdge s).peerSclLow = s.peerSclLow := countEdge_keeps (·.peerSclLow) (fun _ _ _ => rfl) s
@[simp] theorem countEdge_env (s : State) : (countEdge s).env = s.env := countEdge_keeps (·.env) (fun _ _ _ => rfl) s
@[simp] theorem countEdge_requests (s : State) : (countEdge s).requests = s.requests := countEdge_keeps (·.requests) (fun _ _ _ => rfl) s
@[simp] theorem countEdge_draws (s : State) : (countEdge s).draws = s.draws := countEdge_keeps (·.draws) (fun _ _ _ => rfl) s
@[simp] theorem countEdge_overlap (s : State) : (countEdge s).overlap = s.overlap := countEdge_keeps (·.overlap) (fun _ _ _ => rfl) s
@[simp] theorem countEdge_busTrace (s : State) : (countEdge s).busTrace = s.busTrace := countEdge_keeps (·.busTrace) (fun _ _ _ => rfl) s
@[simp] theorem countEdge_busRise (s : State) : (countEdge s).busRise = s.busRise := countEdge_keeps (·.busRise) (fun _ _ _ => rfl) s
@[simp] theorem countEdge_wireTrace (s : State) : (countEdge s).wireTrace = s.wireTrace := countEdge_keeps (·.wireTrace) (fun _ _ _ => rfl) s
@[simp] theorem countEdge_slotOpen (s : State) : (countEdge s).slotOpen = s.slotOpen := countEdge_keeps (·.slotOpen) (fun _ _ _ => rfl) s

@[simp] theorem exitSection_sr (s : State) : (exitSection s).sr = s.sr := exitSection_keeps (·.sr) (fun _ _ _ => rfl) s
@[simp] theorem exitSection_cnt (s : State) : (exitSection s).cnt = s.cnt := exitSection_keeps (·.cnt) (fun _ _ _ => rfl) s
@[simp] theorem exitSection_ovf (s : State) : (exitSection s).ovf = s.ovf := exitSection_keeps (·.ovf) (fun _ _ _ => rfl) s
@[simp] theorem exitSection_ovie (s : State) : (exitSection s).ovie = s.ovie := exitSection_keeps (·.ovie) (fun _ _ _ => rfl) s
@[simp] theorem exitSection_clksrc (s : State) : (exitSection s).clksrc = s.clksrc := exitSection_keeps (·.clksrc) (fun _ _ _ => rfl) s
@[simp] theorem exitSection_din (s : State) : (exitSection s).din = s.din := exitSection_keeps (·.din) (fun _ _ _ => rfl) s
@[simp] theorem exitSection_sclOut (s : State) : (exitSection s).sclOut = s.sclOut := exitSection_keeps (·.sclOut) (fun _ _ _ => rfl) s
@[simp] theorem exitSection_sdaOut (s : State) : (exitSection s).sdaOut = s.sdaOut := exitSection_keeps (·.sdaOut) (fun _ _ _ => rfl) s
@[simp] theorem exitSection_txdSrc (s : State) : (exitSection s).txdSrc = s.txdSrc := exitSection_keeps (·.txdSrc) (fun _ _ _ => rfl) s
@[simp] theorem exitSection_tcnt (s : State) : (exitSection s).tcnt = s.tcnt := exitSection_keeps (·.tcnt) (fun _ _ _ => rfl) s
@[simp] theorem exitSection_tcmp (s : State) : (exitSection s).tcmp = s.tcmp := exitSection_keeps (·.tcmp) (fun _ _ _ => rfl) s
@[simp] theorem exitSection_tmode (s : State) : (exitSection s).tmode = s.tmode := exitSection_keeps (·.tmode) (fun _ _ _ => rfl) s
@[simp] theorem exitSection_periphInit (s : State) : (exitSection s).periphInit = s.periphInit := exitSection_keeps (·.periphInit) (fun _ _ _ => rfl) s
@[simp] theorem exitSection_uartState (s : State) : (exitSection s).uartState = s.uartState := exitSection_keeps (·.uartState) (fun _ _ _ => rfl) s
@[simp] theorem exitSection_i2cTxn (s : State) : (exitSection s).i2cTxn = s.i2cTxn := exitSection_keeps (·.i2cTxn) (fun _ _ _ => rfl) s
@[simp] theorem exitSection_i2cRw (s : State) : (exitSection s).i2cRw = s.i2cRw := exitSection_keeps (·.i2cRw) (fun _ _ _ => rfl) s
@[simp] theorem exitSection_i2cAddr (s : State) : (exitSection s).i2cAddr = s.i2cAddr := exitSection_keeps (·.i2cAddr) (fun _ _ _ => rfl) s
@[simp] theorem exitSection_i2cBuf (s : State) : (exitSection s).i2cBuf = s.i2cBuf := exitSection_keeps (·.i2cBuf) (fun _ _ _ => rfl) s
@[simp] theorem exitSection_i2cLen (s : State) : (exitSection s).i2cLen = s.i2cLen := exitSection_keeps (·.i2cLen) (fun _ _ _ => rfl) s
@[simp] theorem exitSection_i2cIdx (s : State) : (exitSection s).i2cIdx = s.i2cIdx := exitSection_keeps (·.i2cIdx) (fun _ _ _ => rfl) s
@[simp] theorem exitSection_i2cAckbit (s : State) : (exitSection s).i2cAckbit = s.i2cAckbit := exitSection_keeps (·.i2cAckbit) (fun _ _ _ => rfl) s
@[simp] theorem exitSection_i2cResult (s : State) : (exitSection s).i2cResult = s.i2cResult := exitSection_keeps (·.i2cResult) (fun _ _ _ => rfl) s
@[simp] theorem exitSection_inIsr (s : State) : (exitSection s).inIsr = s.inIsr := exitSection_keeps (·.inIsr) (fun _ _ _ => rfl) s
@[simp] theorem exitSection_uartByte (s : State) : (exitSection s).uartByte = s.uartByte := exitSection_keeps (·.uartByte) (fun _ _ _ => rfl) s
@[simp] theorem exitSection_mem (s : State) : (exitSection s).mem = s.mem := exitSection_keeps (·.mem) (fun _ _ _ => rfl) s
@[simp] theorem exitSection_operandAt (s : State) : (exitSection s).operandAt = s.operandAt := exitSection_keeps (·.operandAt) (fun _ _ _ => rfl) s
@[simp] theorem exitSection_callerStores (s : State) : (exitSection s).callerStores = s.callerStores := exitSection_keeps (·.callerStores) (fun _ _ _ => rfl) s
@[simp] theorem exitSection_fg (s : State) : (exitSection s).fg = s.fg := exitSection_keeps (·.fg) (fun _ _ _ => rfl) s
@[simp] theorem exitSection_ret (s : State) : (exitSection s).ret = s.ret := exitSection_keeps (·.ret) (fun _ _ _ => rfl) s
@[simp] theorem exitSection_peerSdaLow (s : State) : (exitSection s).peerSdaLow = s.peerSdaLow := exitSection_keeps (·.peerSdaLow) (fun _ _ _ => rfl) s
@[simp] theorem exitSection_peerSclLow (s : State) : (exitSection s).peerSclLow = s.peerSclLow := exitSection_keeps (·.peerSclLow) (fun _ _ _ => rfl) s
@[simp] theorem exitSection_env (s : State) : (exitSection s).env = s.env := exitSection_keeps (·.env) (fun _ _ _ => rfl) s
@[simp] theorem exitSection_requests (s : State) : (exitSection s).requests = s.requests := exitSection_keeps (·.requests) (fun _ _ _ => rfl) s
@[simp] theorem exitSection_draws (s : State) : (exitSection s).draws = s.draws := exitSection_keeps (·.draws) (fun _ _ _ => rfl) s
@[simp] theorem exitSection_overlap (s : State) : (exitSection s).overlap = s.overlap := exitSection_keeps (·.overlap) (fun _ _ _ => rfl) s
@[simp] theorem exitSection_busTrace (s : State) : (exitSection s).busTrace = s.busTrace := exitSection_keeps (·.busTrace) (fun _ _ _ => rfl) s
@[simp] theorem exitSection_busRise (s : State) : (exitSection s).busRise = s.busRise := exitSection_keeps (·.busRise) (fun _ _ _ => rfl) s
@[simp] theorem exitSection_wireTrace (s : State) : (exitSection s).wireTrace = s.wireTrace := exitSection_keeps (·.wireTrace) (fun _ _ _ => rfl) s
@[simp] theorem exitSection_slotOpen (s : State) : (exitSection s).slotOpen = s.slotOpen := exitSection_keeps (·.slotOpen) (fun _ _ _ => rfl) s

/-! ### Which lines write a field -/

/-- The lines that write `sr`. -/
def writes_sr : Line → Bool
  | .fallShift | .loadSr _ | .loadAddress _ | .loadBuf | .loadMasterAck | .uartLoad => true
  | _ => false

theorem doLine_sr {l : Line} (h : writes_sr l = false) (s : State) : ((doLine l s).state s).sr = s.sr := by
  cases l <;> first | (cases h; done) | rfl | (simp only [doLine]; split <;> simp [LineOut.state]) | simp [doLine, LineOut.state]

/-- The lines that write `cnt`. -/
def writes_cnt : Line → Bool
  | .riseSample | .fallShift | .preload _ | .uartArm => true
  | _ => false

theorem doLine_cnt {l : Line} (h : writes_cnt l = false) (s : State) : ((doLine l s).state s).cnt = s.cnt := by
  cases l <;> first | (cases h; done) | rfl | (simp only [doLine]; split <;> simp [LineOut.state]) | simp [doLine, LineOut.state]

/-- The lines that write `ovf`. -/
def writes_ovf : Line → Bool
  | .riseSample | .fallShift | .preload _ | .uartArm | .bootFlag => true
  | _ => false

theorem doLine_ovf {l : Line} (h : writes_ovf l = false) (s : State) : ((doLine l s).state s).ovf = s.ovf := by
  cases l <;> first | (cases h; done) | rfl | (simp only [doLine]; split <;> simp [LineOut.state]) | simp [doLine, LineOut.state]

/-- The lines that write `ovie`. -/
def writes_ovie : Line → Bool
  | .usiMask | .uartEnable | .bootMask => true
  | _ => false

theorem doLine_ovie {l : Line} (h : writes_ovie l = false) (s : State) : ((doLine l s).state s).ovie = s.ovie := by
  cases l <;> first | (cases h; done) | rfl | (simp only [doLine]; split <;> simp [LineOut.state]) | simp [doLine, LineOut.state]

/-- The lines that write `clksrc`. -/
def writes_clksrc : Line → Bool
  | .usiStrobe | .giveUsi | .uartClock | .bootClock => true
  | _ => false

theorem doLine_clksrc {l : Line} (h : writes_clksrc l = false) (s : State) : ((doLine l s).state s).clksrc = s.clksrc := by
  cases l <;> first | (cases h; done) | rfl | (simp only [doLine]; split <;> simp [LineOut.state]) | simp [doLine, LineOut.state]

/-- The lines that write `din`. -/
def writes_din : Line → Bool
  | .riseSample => true
  | _ => false

theorem doLine_din {l : Line} (h : writes_din l = false) (s : State) : ((doLine l s).state s).din = s.din := by
  cases l <;> first | (cases h; done) | rfl | (simp only [doLine]; split <;> simp [LineOut.state]) | simp [doLine, LineOut.state]

/-- The lines that write `sclOut`. -/
def writes_sclOut : Line → Bool
  | .sclLow | .sclRelease | .bootScl => true
  | _ => false

theorem doLine_sclOut {l : Line} (h : writes_sclOut l = false) (s : State) : ((doLine l s).state s).sclOut = s.sclOut := by
  cases l <;> first | (cases h; done) | rfl | (simp only [doLine]; split <;> simp [LineOut.state]) | simp [doLine, LineOut.state]

/-- The lines that write `sdaOut`. -/
def writes_sdaOut : Line → Bool
  | .sdaLow | .sdaRelease | .sdaFromSr | .bootSda => true
  | _ => false

theorem doLine_sdaOut {l : Line} (h : writes_sdaOut l = false) (s : State) : ((doLine l s).state s).sdaOut = s.sdaOut := by
  cases l <;> first | (cases h; done) | rfl | (simp only [doLine]; split <;> simp [LineOut.state]) | simp [doLine, LineOut.state]

/-- The lines that write `txdSrc`. -/
def writes_txdSrc : Line → Bool
  | .uartPin | .bootTxd => true
  | _ => false

theorem doLine_txdSrc {l : Line} (h : writes_txdSrc l = false) (s : State) : ((doLine l s).state s).txdSrc = s.txdSrc := by
  cases l <;> first | (cases h; done) | rfl | (simp only [doLine]; split <;> simp [LineOut.state]) | simp [doLine, LineOut.state]

theorem doLine_tcnt (l : Line) (s : State) : ((doLine l s).state s).tcnt = s.tcnt := by
  cases l <;> first | rfl | (simp only [doLine]; split <;> simp [LineOut.state]) | simp [doLine, LineOut.state]

/-- The lines that write `tcmp`. -/
def writes_tcmp : Line → Bool
  | .bootThreshold => true
  | _ => false

theorem doLine_tcmp {l : Line} (h : writes_tcmp l = false) (s : State) : ((doLine l s).state s).tcmp = s.tcmp := by
  cases l <;> first | (cases h; done) | rfl | (simp only [doLine]; split <;> simp [LineOut.state]) | simp [doLine, LineOut.state]

/-- The lines that write `tmode`. -/
def writes_tmode : Line → Bool
  | .bootTimer => true
  | _ => false

theorem doLine_tmode {l : Line} (h : writes_tmode l = false) (s : State) : ((doLine l s).state s).tmode = s.tmode := by
  cases l <;> first | (cases h; done) | rfl | (simp only [doLine]; split <;> simp [LineOut.state]) | simp [doLine, LineOut.state]

/-- The lines that write `gie`. -/
def writes_gie : Line → Bool
  | .csEnter | .csExit | .bootGie => true
  | _ => false

theorem doLine_gie {l : Line} (h : writes_gie l = false) (s : State) : ((doLine l s).state s).gie = s.gie := by
  cases l <;> first | (cases h; done) | rfl | (simp only [doLine]; split <;> simp [LineOut.state])

/-- The lines that write `periphInit`. -/
def writes_periphInit : Line → Bool
  | .bootHandle => true
  | _ => false

theorem doLine_periphInit {l : Line} (h : writes_periphInit l = false) (s : State) : ((doLine l s).state s).periphInit = s.periphInit := by
  cases l <;> first | (cases h; done) | rfl | (simp only [doLine]; split <;> simp [LineOut.state]) | simp [doLine, LineOut.state]

/-- The lines that write `csSaved`. -/
def writes_csSaved : Line → Bool
  | .csEnter | .csExit => true
  | _ => false

theorem doLine_csSaved {l : Line} (h : writes_csSaved l = false) (s : State) : ((doLine l s).state s).csSaved = s.csSaved := by
  cases l <;> first | (cases h; done) | rfl | (simp only [doLine]; split <;> simp [LineOut.state])

/-- The lines that write `uartState`. -/
def writes_uartState : Line → Bool
  | .uartPend | .bootUart => true
  | _ => false

theorem doLine_uartState {l : Line} (h : writes_uartState l = false) (s : State) : ((doLine l s).state s).uartState = s.uartState := by
  cases l <;> first | (cases h; done) | rfl | (simp only [doLine]; split <;> simp [LineOut.state]) | simp [doLine, LineOut.state]

/-- The lines that write `i2cTxn`. -/
def writes_i2cTxn : Line → Bool
  | .txnOpen | .txnClose => true
  | _ => false

theorem doLine_i2cTxn {l : Line} (h : writes_i2cTxn l = false) (s : State) : ((doLine l s).state s).i2cTxn = s.i2cTxn := by
  cases l <;> first | (cases h; done) | rfl | (simp only [doLine]; split <;> simp [LineOut.state]) | simp [doLine, LineOut.state]

/-- The lines that write `i2cRw`. -/
def writes_i2cRw : Line → Bool
  | .invoke _ _ _ => true
  | _ => false

theorem doLine_i2cRw {l : Line} (h : writes_i2cRw l = false) (s : State) : ((doLine l s).state s).i2cRw = s.i2cRw := by
  cases l <;> first | (cases h; done) | rfl | (simp only [doLine]; split <;> simp [LineOut.state]) | simp [doLine, LineOut.state]

/-- The lines that write `i2cAddr`. -/
def writes_i2cAddr : Line → Bool
  | .invoke _ _ _ => true
  | _ => false

theorem doLine_i2cAddr {l : Line} (h : writes_i2cAddr l = false) (s : State) : ((doLine l s).state s).i2cAddr = s.i2cAddr := by
  cases l <;> first | (cases h; done) | rfl | (simp only [doLine]; split <;> simp [LineOut.state]) | simp [doLine, LineOut.state]

/-- The lines that write `i2cBuf`. -/
def writes_i2cBuf : Line → Bool
  | .invoke _ _ _ => true
  | _ => false

theorem doLine_i2cBuf {l : Line} (h : writes_i2cBuf l = false) (s : State) : ((doLine l s).state s).i2cBuf = s.i2cBuf := by
  cases l <;> first | (cases h; done) | rfl | (simp only [doLine]; split <;> simp [LineOut.state]) | simp [doLine, LineOut.state]

/-- The lines that write `i2cLen`. -/
def writes_i2cLen : Line → Bool
  | .invoke _ _ _ => true
  | _ => false

theorem doLine_i2cLen {l : Line} (h : writes_i2cLen l = false) (s : State) : ((doLine l s).state s).i2cLen = s.i2cLen := by
  cases l <;> first | (cases h; done) | rfl | (simp only [doLine]; split <;> simp [LineOut.state]) | simp [doLine, LineOut.state]

/-- The lines that write `i2cIdx`. -/
def writes_i2cIdx : Line → Bool
  | .loopStart | .idxNext => true
  | _ => false

theorem doLine_i2cIdx {l : Line} (h : writes_i2cIdx l = false) (s : State) : ((doLine l s).state s).i2cIdx = s.i2cIdx := by
  cases l <;> first | (cases h; done) | rfl | (simp only [doLine]; split <;> simp [LineOut.state]) | simp [doLine, LineOut.state]

/-- The lines that write `i2cAckbit`. -/
def writes_i2cAckbit : Line → Bool
  | .ackLatch => true
  | _ => false

theorem doLine_i2cAckbit {l : Line} (h : writes_i2cAckbit l = false) (s : State) : ((doLine l s).state s).i2cAckbit = s.i2cAckbit := by
  cases l <;> first | (cases h; done) | rfl | (simp only [doLine]; split <;> simp [LineOut.state]) | simp [doLine, LineOut.state]

/-- The lines that write `i2cResult`. -/
def writes_i2cResult : Line → Bool
  | .raiseIfNack | .okReturn => true
  | _ => false

theorem doLine_i2cResult {l : Line} (h : writes_i2cResult l = false) (s : State) : ((doLine l s).state s).i2cResult = s.i2cResult := by
  cases l <;> first | (cases h; done) | rfl | (simp only [doLine]; split <;> simp [LineOut.state]) | simp [doLine, LineOut.state]

theorem doLine_inIsr (l : Line) (s : State) : ((doLine l s).state s).inIsr = s.inIsr := by
  cases l <;> first | rfl | (simp only [doLine]; split <;> simp [LineOut.state]) | simp [doLine, LineOut.state]

/-- The lines that write `uartByte`. -/
def writes_uartByte : Line → Bool
  | .uartInvoke _ => true
  | _ => false

theorem doLine_uartByte {l : Line} (h : writes_uartByte l = false) (s : State) : ((doLine l s).state s).uartByte = s.uartByte := by
  cases l <;> first | (cases h; done) | rfl | (simp only [doLine]; split <;> simp [LineOut.state]) | simp [doLine, LineOut.state]

/-- The lines that write `mem`. -/
def writes_mem : Line → Bool
  | .storeBuf => true
  | _ => false

theorem doLine_mem {l : Line} (h : writes_mem l = false) (s : State) : ((doLine l s).state s).mem = s.mem := by
  cases l <;> first | (cases h; done) | rfl | (simp only [doLine]; split <;> simp [LineOut.state]) | simp [doLine, LineOut.state]

theorem doLine_operandAt (l : Line) (s : State) : ((doLine l s).state s).operandAt = s.operandAt := by
  cases l <;> first | rfl | (simp only [doLine]; split <;> simp [LineOut.state]) | simp [doLine, LineOut.state]

theorem doLine_callerStores (l : Line) (s : State) : ((doLine l s).state s).callerStores = s.callerStores := by
  cases l <;> first | rfl | (simp only [doLine]; split <;> simp [LineOut.state]) | simp [doLine, LineOut.state]

theorem doLine_fg (l : Line) (s : State) : ((doLine l s).state s).fg = s.fg := by
  cases l <;> first | rfl | (simp only [doLine]; split <;> simp [LineOut.state]) | simp [doLine, LineOut.state]

/-- The lines that write `ret`. -/
def writes_ret : Line → Bool
  | .returnSr | .returnResult => true
  | _ => false

theorem doLine_ret {l : Line} (h : writes_ret l = false) (s : State) : ((doLine l s).state s).ret = s.ret := by
  cases l <;> first | (cases h; done) | rfl | (simp only [doLine]; split <;> simp [LineOut.state]) | simp [doLine, LineOut.state]

theorem doLine_peerSdaLow (l : Line) (s : State) : ((doLine l s).state s).peerSdaLow = s.peerSdaLow := by
  cases l <;> first | rfl | (simp only [doLine]; split <;> simp [LineOut.state]) | simp [doLine, LineOut.state]

theorem doLine_peerSclLow (l : Line) (s : State) : ((doLine l s).state s).peerSclLow = s.peerSclLow := by
  cases l <;> first | rfl | (simp only [doLine]; split <;> simp [LineOut.state]) | simp [doLine, LineOut.state]

theorem doLine_env (l : Line) (s : State) : ((doLine l s).state s).env = s.env := by
  cases l <;> first | rfl | (simp only [doLine]; split <;> simp [LineOut.state]) | simp [doLine, LineOut.state]

theorem doLine_requests (l : Line) (s : State) : ((doLine l s).state s).requests = s.requests := by
  cases l <;> first | rfl | (simp only [doLine]; split <;> simp [LineOut.state]) | simp [doLine, LineOut.state]

/-- The lines that write `draws`. -/
def writes_draws : Line → Bool
  | .riseSample => true
  | _ => false

theorem doLine_draws {l : Line} (h : writes_draws l = false) (s : State) : ((doLine l s).state s).draws = s.draws := by
  cases l <;> first | (cases h; done) | rfl | (simp only [doLine]; split <;> simp [LineOut.state]) | simp [doLine, LineOut.state]

/-- The lines that write `overlap`. -/
def writes_overlap : Line → Bool
  | .usiMask => true
  | _ => false

theorem doLine_overlap {l : Line} (h : writes_overlap l = false) (s : State) : ((doLine l s).state s).overlap = s.overlap := by
  cases l <;> first | (cases h; done) | rfl | (simp only [doLine]; split <;> simp [LineOut.state]) | simp [doLine, LineOut.state]

theorem doLine_busTrace (l : Line) (s : State) : ((doLine l s).state s).busTrace = s.busTrace := by
  cases l <;> first | rfl | (simp only [doLine]; split <;> simp [LineOut.state]) | simp [doLine, LineOut.state]

theorem doLine_busRise (l : Line) (s : State) : ((doLine l s).state s).busRise = s.busRise := by
  cases l <;> first | rfl | (simp only [doLine]; split <;> simp [LineOut.state]) | simp [doLine, LineOut.state]

theorem doLine_wireTrace (l : Line) (s : State) : ((doLine l s).state s).wireTrace = s.wireTrace := by
  cases l <;> first | rfl | (simp only [doLine]; split <;> simp [LineOut.state]) | simp [doLine, LineOut.state]

theorem doLine_slotOpen (l : Line) (s : State) : ((doLine l s).state s).slotOpen = s.slotOpen := by
  cases l <;> first | rfl | (simp only [doLine]; split <;> simp [LineOut.state]) | simp [doLine, LineOut.state]

/-! ### What a run leaves -/

theorem run_ovie {ls : List Line} (h : ∀ l ∈ ls, writes_ovie l = false) (m : Option Scope) (s : State) :
    (run m ls s).st.ovie = s.ovie :=
  run_keeps (·.ovie) observe_ovie slot_ovie ls (fun l hl s => doLine_ovie (h l hl) s) m s

theorem run_clksrc {ls : List Line} (h : ∀ l ∈ ls, writes_clksrc l = false) (m : Option Scope) (s : State) :
    (run m ls s).st.clksrc = s.clksrc :=
  run_keeps (·.clksrc) observe_clksrc slot_clksrc ls (fun l hl s => doLine_clksrc (h l hl) s) m s

theorem run_din {ls : List Line} (h : ∀ l ∈ ls, writes_din l = false) (m : Option Scope) (s : State) :
    (run m ls s).st.din = s.din :=
  run_keeps (·.din) observe_din slot_din ls (fun l hl s => doLine_din (h l hl) s) m s

theorem run_sclOut {ls : List Line} (h : ∀ l ∈ ls, writes_sclOut l = false) (m : Option Scope) (s : State) :
    (run m ls s).st.sclOut = s.sclOut :=
  run_keeps (·.sclOut) observe_sclOut slot_sclOut ls (fun l hl s => doLine_sclOut (h l hl) s) m s

theorem run_sdaOut {ls : List Line} (h : ∀ l ∈ ls, writes_sdaOut l = false) (m : Option Scope) (s : State) :
    (run m ls s).st.sdaOut = s.sdaOut :=
  run_keeps (·.sdaOut) observe_sdaOut slot_sdaOut ls (fun l hl s => doLine_sdaOut (h l hl) s) m s

theorem run_txdSrc {ls : List Line} (h : ∀ l ∈ ls, writes_txdSrc l = false) (m : Option Scope) (s : State) :
    (run m ls s).st.txdSrc = s.txdSrc :=
  run_keeps (·.txdSrc) observe_txdSrc slot_txdSrc ls (fun l hl s => doLine_txdSrc (h l hl) s) m s

theorem run_tcmp {ls : List Line} (h : ∀ l ∈ ls, writes_tcmp l = false) (m : Option Scope) (s : State) :
    (run m ls s).st.tcmp = s.tcmp :=
  run_keeps (·.tcmp) observe_tcmp slot_tcmp ls (fun l hl s => doLine_tcmp (h l hl) s) m s

theorem run_tmode {ls : List Line} (h : ∀ l ∈ ls, writes_tmode l = false) (m : Option Scope) (s : State) :
    (run m ls s).st.tmode = s.tmode :=
  run_keeps (·.tmode) observe_tmode slot_tmode ls (fun l hl s => doLine_tmode (h l hl) s) m s

theorem run_gie {ls : List Line} (h : ∀ l ∈ ls, writes_gie l = false) (m : Option Scope) (s : State) :
    (run m ls s).st.gie = s.gie :=
  run_keeps (·.gie) observe_gie slot_gie ls (fun l hl s => doLine_gie (h l hl) s) m s

theorem run_periphInit {ls : List Line} (h : ∀ l ∈ ls, writes_periphInit l = false) (m : Option Scope) (s : State) :
    (run m ls s).st.periphInit = s.periphInit :=
  run_keeps (·.periphInit) observe_periphInit slot_periphInit ls (fun l hl s => doLine_periphInit (h l hl) s) m s

theorem run_csSaved {ls : List Line} (h : ∀ l ∈ ls, writes_csSaved l = false) (m : Option Scope) (s : State) :
    (run m ls s).st.csSaved = s.csSaved :=
  run_keeps (·.csSaved) observe_csSaved slot_csSaved ls (fun l hl s => doLine_csSaved (h l hl) s) m s

theorem run_uartState {ls : List Line} (h : ∀ l ∈ ls, writes_uartState l = false) (m : Option Scope) (s : State) :
    (run m ls s).st.uartState = s.uartState :=
  run_keeps (·.uartState) observe_uartState slot_uartState ls (fun l hl s => doLine_uartState (h l hl) s) m s

theorem run_i2cTxn {ls : List Line} (h : ∀ l ∈ ls, writes_i2cTxn l = false) (m : Option Scope) (s : State) :
    (run m ls s).st.i2cTxn = s.i2cTxn :=
  run_keeps (·.i2cTxn) observe_i2cTxn slot_i2cTxn ls (fun l hl s => doLine_i2cTxn (h l hl) s) m s

theorem run_i2cRw {ls : List Line} (h : ∀ l ∈ ls, writes_i2cRw l = false) (m : Option Scope) (s : State) :
    (run m ls s).st.i2cRw = s.i2cRw :=
  run_keeps (·.i2cRw) observe_i2cRw slot_i2cRw ls (fun l hl s => doLine_i2cRw (h l hl) s) m s

theorem run_i2cAddr {ls : List Line} (h : ∀ l ∈ ls, writes_i2cAddr l = false) (m : Option Scope) (s : State) :
    (run m ls s).st.i2cAddr = s.i2cAddr :=
  run_keeps (·.i2cAddr) observe_i2cAddr slot_i2cAddr ls (fun l hl s => doLine_i2cAddr (h l hl) s) m s

theorem run_i2cBuf {ls : List Line} (h : ∀ l ∈ ls, writes_i2cBuf l = false) (m : Option Scope) (s : State) :
    (run m ls s).st.i2cBuf = s.i2cBuf :=
  run_keeps (·.i2cBuf) observe_i2cBuf slot_i2cBuf ls (fun l hl s => doLine_i2cBuf (h l hl) s) m s

theorem run_i2cLen {ls : List Line} (h : ∀ l ∈ ls, writes_i2cLen l = false) (m : Option Scope) (s : State) :
    (run m ls s).st.i2cLen = s.i2cLen :=
  run_keeps (·.i2cLen) observe_i2cLen slot_i2cLen ls (fun l hl s => doLine_i2cLen (h l hl) s) m s

theorem run_i2cIdx {ls : List Line} (h : ∀ l ∈ ls, writes_i2cIdx l = false) (m : Option Scope) (s : State) :
    (run m ls s).st.i2cIdx = s.i2cIdx :=
  run_keeps (·.i2cIdx) observe_i2cIdx slot_i2cIdx ls (fun l hl s => doLine_i2cIdx (h l hl) s) m s

theorem run_i2cAckbit {ls : List Line} (h : ∀ l ∈ ls, writes_i2cAckbit l = false) (m : Option Scope) (s : State) :
    (run m ls s).st.i2cAckbit = s.i2cAckbit :=
  run_keeps (·.i2cAckbit) observe_i2cAckbit slot_i2cAckbit ls (fun l hl s => doLine_i2cAckbit (h l hl) s) m s

theorem run_i2cResult {ls : List Line} (h : ∀ l ∈ ls, writes_i2cResult l = false) (m : Option Scope) (s : State) :
    (run m ls s).st.i2cResult = s.i2cResult :=
  run_keeps (·.i2cResult) observe_i2cResult slot_i2cResult ls (fun l hl s => doLine_i2cResult (h l hl) s) m s

@[simp] theorem run_inIsr (ls : List Line) (m : Option Scope) (s : State) : (run m ls s).st.inIsr = s.inIsr :=
  run_keeps (·.inIsr) observe_inIsr slot_inIsr ls (fun l _ s => doLine_inIsr l s) m s

theorem run_uartByte {ls : List Line} (h : ∀ l ∈ ls, writes_uartByte l = false) (m : Option Scope) (s : State) :
    (run m ls s).st.uartByte = s.uartByte :=
  run_keeps (·.uartByte) observe_uartByte slot_uartByte ls (fun l hl s => doLine_uartByte (h l hl) s) m s

theorem run_mem {ls : List Line} (h : ∀ l ∈ ls, writes_mem l = false) (m : Option Scope) (s : State) :
    (run m ls s).st.mem = s.mem :=
  run_keeps (·.mem) observe_mem slot_mem ls (fun l hl s => doLine_mem (h l hl) s) m s

@[simp] theorem run_operandAt (ls : List Line) (m : Option Scope) (s : State) : (run m ls s).st.operandAt = s.operandAt :=
  run_keeps (·.operandAt) observe_operandAt slot_operandAt ls (fun l _ s => doLine_operandAt l s) m s

@[simp] theorem run_callerStores (ls : List Line) (m : Option Scope) (s : State) : (run m ls s).st.callerStores = s.callerStores :=
  run_keeps (·.callerStores) observe_callerStores slot_callerStores ls (fun l _ s => doLine_callerStores l s) m s

@[simp] theorem run_fg (ls : List Line) (m : Option Scope) (s : State) : (run m ls s).st.fg = s.fg :=
  run_keeps (·.fg) observe_fg slot_fg ls (fun l _ s => doLine_fg l s) m s

theorem run_ret {ls : List Line} (h : ∀ l ∈ ls, writes_ret l = false) (m : Option Scope) (s : State) :
    (run m ls s).st.ret = s.ret :=
  run_keeps (·.ret) observe_ret slot_ret ls (fun l hl s => doLine_ret (h l hl) s) m s

@[simp] theorem run_requests (ls : List Line) (m : Option Scope) (s : State) : (run m ls s).st.requests = s.requests :=
  run_keeps (·.requests) observe_requests slot_requests ls (fun l _ s => doLine_requests l s) m s

theorem run_overlap {ls : List Line} (h : ∀ l ∈ ls, writes_overlap l = false) (m : Option Scope) (s : State) :
    (run m ls s).st.overlap = s.overlap :=
  run_keeps (·.overlap) observe_overlap slot_overlap ls (fun l hl s => doLine_overlap (h l hl) s) m s

/-- A run that ends leaves `FG`'s outer position as it was. -/
theorem fg_of_run {m : Option Scope} {ls : List Line} {s t : State} (h : run none ls s = ⟨m, t, []⟩) : t.fg = s.fg := by
  have := run_fg ls none s; rwa [h] at this

end Sys2Proof.Machine
end

