-- ==== Sys2Proof/Laws/Memory.lean ====
section
/-! SUPPORT. The laws of the caller's memory: what a store changes, and that it keeps the canonical form. -/

namespace Sys2Proof.Machine

@[simp] theorem Memory.read_nil (i : Nat) : Memory.read [] i = Memory.blank := rfl

theorem Memory.read_cons (k : Nat) (b : Byte) (m : List Host.Cell) (i : Nat) :
    Memory.read ((k, b) :: m) i = if i = k then b else Memory.read m i := rfl

theorem Memory.wfFrom_mono {lo lo' : Nat} (h : lo' ≤ lo) (m : List Host.Cell) (hm : Memory.wfFrom lo m = true) :
    Memory.wfFrom lo' m = true := by
  cases m with
  | nil => rfl
  | cons c m =>
    obtain ⟨k, b⟩ := c
    simp only [Memory.wfFrom, Bool.and_eq_true, decide_eq_true_eq] at hm ⊢
    exact ⟨⟨by omega, hm.1.2⟩, hm.2⟩

/-- A canonical memory whose cells lie at `lo` or above reads blank below `lo`. -/
theorem Memory.read_below {lo i : Nat} (h : i < lo) (m : List Host.Cell) (hm : Memory.wfFrom lo m = true) :
    Memory.read m i = Memory.blank := by
  induction m generalizing lo with
  | nil => rfl
  | cons c m ih =>
    obtain ⟨k, b⟩ := c
    simp only [Memory.wfFrom, Bool.and_eq_true, decide_eq_true_eq] at hm
    have hk : i ≠ k := by omega
    rw [Memory.read_cons, if_neg hk]
    exact ih (by omega) hm.2

/-- A store leaves every other byte as it was, in any memory. -/
theorem Memory.read_write_other (m : List Host.Cell) {i j : Nat} (v : Byte) (h : j ≠ i) :
    Memory.read (Memory.write m i v) j = Memory.read m j := by
  induction m with
  | nil => by_cases hv : v = Memory.blank <;> simp [Memory.write, hv, Memory.read_cons, h]
  | cons c m ih =>
    obtain ⟨k, b⟩ := c
    simp only [Memory.write]
    split_ifs with h1 h2 h3 h4 <;> simp_all [Memory.read_cons]

/-- A store into a canonical memory is read back. -/
theorem Memory.read_write_same (m : List Host.Cell) (i : Nat) (v : Byte) {lo : Nat} (hm : Memory.wfFrom lo m = true) :
    Memory.read (Memory.write m i v) i = v := by
  induction m generalizing lo with
  | nil => by_cases hv : v = Memory.blank <;> simp [Memory.write, hv, Memory.read_cons]
  | cons c m ih =>
    obtain ⟨k, b⟩ := c
    simp only [Memory.wfFrom, Bool.and_eq_true, decide_eq_true_eq] at hm
    simp only [Memory.write]
    split_ifs with h1 h2 h3 h4
    · rw [Memory.read_cons, if_neg (by omega), h2]
      exact Memory.read_below (by omega) m hm.2
    · simp [Memory.read_cons]
    · subst h3; rw [h4]; exact Memory.read_below (Nat.lt_succ_self _) m hm.2
    · simp [Memory.read_cons]
    · rw [Memory.read_cons, if_neg h3]; exact ih hm.2

theorem Memory.wfFrom_write (m : List Host.Cell) (i : Nat) (v : Byte) {lo : Nat} (hi : lo ≤ i)
    (hm : Memory.wfFrom lo m = true) : Memory.wfFrom lo (Memory.write m i v) = true := by
  induction m generalizing lo with
  | nil =>
    by_cases hv : v = Memory.blank
    · simp [Memory.write, hv, Memory.wfFrom]
    · simp [Memory.write, hv, Memory.wfFrom, hi]
  | cons c m ih =>
    obtain ⟨k, b⟩ := c
    have hm' := hm
    simp only [Memory.wfFrom, Bool.and_eq_true, decide_eq_true_eq] at hm'
    simp only [Memory.write]
    split_ifs with h1 h2 h3 h4
    · exact hm
    · simp [Memory.wfFrom, hi, h2, hm'.1.2, hm'.2]; omega
    · exact Memory.wfFrom_mono (by omega) m hm'.2
    · subst h3; simp [Memory.wfFrom, hi, h4, hm'.2]
    · simp [Memory.wfFrom, hm'.1.1, hm'.1.2, ih (show k + 1 ≤ i by omega) hm'.2]

/-- Every memory operation keeps the canonical form: the store is the only one that changes a memory. -/
theorem Memory.wf_write (m : List Host.Cell) (i : Nat) (v : Byte) (hm : Memory.wf m = true) :
    Memory.wf (Memory.write m i v) = true :=
  Memory.wfFrom_write m i v (Nat.zero_le i) hm

/-- Several stores keep the canonical form. -/
theorem Memory.wf_store (cells m : List Host.Cell) (hm : Memory.wf m = true) : Memory.wf (Memory.store m cells) = true := by
  induction cells generalizing m with
  | nil => exact hm
  | cons c cells ih => exact ih _ (Memory.wf_write m c.1 c.2 hm)

/-- A buffer laid in the caller's memory leaves every byte outside it as it was, in any memory. -/
theorem Memory.read_store_outside (d : List Byte) (m : List Host.Cell) (a : Nat) {x : Nat}
    (h : x < a ∨ a + d.length ≤ x) : Memory.read (Memory.store m (bufferCells a d)) x = Memory.read m x := by
  induction d generalizing m a with
  | nil => rfl
  | cons b d ih =>
    simp only [List.length_cons] at h
    show Memory.read (Memory.store (Memory.write m a b) (bufferCells (a + 1) d)) x = _
    rw [ih _ _ (by omega), Memory.read_write_other _ _ (by omega)]

/-- A buffer laid in a canonical memory is read back. -/
theorem Memory.read_store_inside (d : List Byte) (m : List Host.Cell) (a : Nat) (hm : Memory.wf m = true) (i : Nat)
    (hi : i < d.length) : Memory.read (Memory.store m (bufferCells a d)) (a + i) = d[i] := by
  induction d generalizing m a i with
  | nil => cases hi
  | cons b d ih =>
    show Memory.read (Memory.store (Memory.write m a b) (bufferCells (a + 1) d)) (a + i) = _
    cases i with
    | zero => rw [Memory.read_store_outside _ _ _ (by omega)]; exact Memory.read_write_same m a b (lo := 0) hm
    | succ i =>
      have := ih (Memory.write m a b) (a + 1) (Memory.wf_write m a b hm) i (by simpa using hi)
      rw [show a + (i + 1) = a + 1 + i by omega, this]; rfl

/-- The caller's turn keeps the canonical form. -/
theorem wf_callerTurn {s : State} (h : Memory.wf s.mem = true) : Memory.wf (callerTurn s).mem = true := by
  unfold callerTurn
  split
  · exact h
  · split
    · exact Memory.wf_store _ _ h
    · exact h

/-- The caller's turn changes its memory and the list of its turns alone. -/
theorem callerTurn_eq (s : State) : ∃ m c, callerTurn s = { s with mem := m, callerStores := c } := by
  unfold callerTurn
  split
  · exact ⟨_, _, rfl⟩
  · split <;> exact ⟨_, _, rfl⟩

/-- With no stores listed the caller's turn changes nothing. -/
theorem callerTurn_quiet {s : State} (h : s.callerStores = []) : callerTurn s = s := by simp [callerTurn, h]

/-- Inside a critical section of a running operation the caller stores nothing (R69 (a)). -/
theorem callerTurn_held {s : State} (hf : s.fg ≠ []) (hc : s.csSaved ≠ []) : callerTurn s = s := by
  unfold callerTurn
  split
  · rfl
  · rw [if_neg]; simp [callerFree, hf, hc]

/-- While the handler executes, or is due before `FG`'s next step, the caller stores nothing (R38, R194). -/
theorem callerTurn_due {s : State} (h : fgHeld s = true) : callerTurn s = s := by
  unfold callerTurn
  split
  · rfl
  · rw [if_neg]; simp [callerFree, h]

/-- The memory at reset is canonical. -/
theorem reset_memory_wf : Memory.wf State.reset.mem = true := rfl

end Sys2Proof.Machine
end

