-- ==== Sys2Proof/Laws/PerInstr.lean ====
section
/-! SUPPORT. Statements made of every operation, one lemma a constructor. -/

namespace Sys2Proof.Laws

/-- The length of an operation's descriptor: 1 and the operand bytes of R94's table (R97). -/
def descriptorLength : Instr → Nat
  | .i2cWrite _ d => 3 + d.length
  | .i2cRead _ _ => 3
  | .uartSendStr d => 2 + d.length
  | .uartSendLine d => 2 + d.length
  | .uartSend _ | .i2cXfer _ | .i2cByteOut _ | .i2cMasterAck _ | .i2cAddress _ | .uartFrames _ => 2
  | .csEnter | .csExit | .i2cStart | .i2cStop | .i2cBitClock | .i2cWaitSclHigh | .i2cByteIn | .i2cAckCheck | .i2cOpen
  | .i2cClose | .uartWaitIdle | .timerCompare | .usiOvfIrq => 1

/-- The format of the classes in `opcode[7:4]` (R94). -/
def classFormat (c : Nat) : Option Format :=
  match c with
  | 1 | 2 | 3 => some .cmd
  | 4 | 5 => some .uop
  | 6 => some .evt
  | _ => none

/-- The descriptor begins with the operation's opcode, is as long as R97 says and no longer than the longest one where
the operation is well formed, and the opcode's class is the operation's format (R93, R94, R97). -/
def Descriptor.Statement (i : Instr) : Prop :=
  (encode i).head? = some (opcode i) ∧ (encode i).length = descriptorLength i ∧
  (i.wellFormed = true → (encode i).length ≤ longestDescriptor) ∧
  classFormat ((opcode i).toNat / 16) = some i.format

theorem Descriptor.i2cWrite (a : Byte) (d : List Byte) : Descriptor.Statement (.i2cWrite a d) := by
  refine ⟨rfl, by simp [encode, operandBytes, bufferBytes, descriptorLength]; try omega, fun h => ?_, by simp [opcode, classFormat, Instr.format]⟩
  simp [Instr.wellFormed] at h
  simp [encode, operandBytes, bufferBytes, longestDescriptor]; omega

theorem Descriptor.i2cRead (a : Byte) (n : Nat) : Descriptor.Statement (.i2cRead a n) := by
  exact ⟨rfl, rfl, fun _ => by simp [encode, operandBytes, longestDescriptor], by simp [opcode, classFormat, Instr.format]⟩

theorem Descriptor.uartSend (b : Byte) : Descriptor.Statement (.uartSend b) := by
  exact ⟨rfl, rfl, fun _ => by simp [encode, operandBytes, longestDescriptor], by simp [opcode, classFormat, Instr.format]⟩

theorem Descriptor.uartSendStr (d : List Byte) : Descriptor.Statement (.uartSendStr d) := by
  refine ⟨rfl, by simp [encode, operandBytes, bufferBytes, descriptorLength]; try omega, fun h => ?_, by simp [opcode, classFormat, Instr.format]⟩
  simp [Instr.wellFormed] at h
  simp [encode, operandBytes, bufferBytes, longestDescriptor]; omega

theorem Descriptor.uartSendLine (d : List Byte) : Descriptor.Statement (.uartSendLine d) := by
  refine ⟨rfl, by simp [encode, operandBytes, bufferBytes, descriptorLength]; try omega, fun h => ?_, by simp [opcode, classFormat, Instr.format]⟩
  simp [Instr.wellFormed] at h
  simp [encode, operandBytes, bufferBytes, longestDescriptor]; omega

theorem Descriptor.csEnter : Descriptor.Statement .csEnter := by
  exact ⟨rfl, rfl, fun _ => by decide, by decide⟩

theorem Descriptor.csExit : Descriptor.Statement .csExit := by
  exact ⟨rfl, rfl, fun _ => by decide, by decide⟩

theorem Descriptor.i2cStart : Descriptor.Statement .i2cStart := by
  exact ⟨rfl, rfl, fun _ => by decide, by decide⟩

theorem Descriptor.i2cStop : Descriptor.Statement .i2cStop := by
  exact ⟨rfl, rfl, fun _ => by decide, by decide⟩

theorem Descriptor.i2cXfer (n : Nat) : Descriptor.Statement (.i2cXfer n) := by
  exact ⟨rfl, rfl, fun _ => by simp [encode, operandBytes, longestDescriptor], by simp [opcode, classFormat, Instr.format]⟩

theorem Descriptor.i2cBitClock : Descriptor.Statement .i2cBitClock := by
  exact ⟨rfl, rfl, fun _ => by decide, by decide⟩

theorem Descriptor.i2cWaitSclHigh : Descriptor.Statement .i2cWaitSclHigh := by
  exact ⟨rfl, rfl, fun _ => by decide, by decide⟩

theorem Descriptor.i2cByteOut (b : Byte) : Descriptor.Statement (.i2cByteOut b) := by
  exact ⟨rfl, rfl, fun _ => by simp [encode, operandBytes, longestDescriptor], by simp [opcode, classFormat, Instr.format]⟩

theorem Descriptor.i2cByteIn : Descriptor.Statement .i2cByteIn := by
  exact ⟨rfl, rfl, fun _ => by decide, by decide⟩

theorem Descriptor.i2cAckCheck : Descriptor.Statement .i2cAckCheck := by
  exact ⟨rfl, rfl, fun _ => by decide, by decide⟩

theorem Descriptor.i2cMasterAck (k : Bool) : Descriptor.Statement (.i2cMasterAck k) := by
  exact ⟨rfl, rfl, fun _ => by simp [encode, operandBytes, longestDescriptor], by simp [opcode, classFormat, Instr.format]⟩

theorem Descriptor.i2cOpen : Descriptor.Statement .i2cOpen := by
  exact ⟨rfl, rfl, fun _ => by decide, by decide⟩

theorem Descriptor.i2cClose : Descriptor.Statement .i2cClose := by
  exact ⟨rfl, rfl, fun _ => by decide, by decide⟩

theorem Descriptor.i2cAddress (r : Bool) : Descriptor.Statement (.i2cAddress r) := by
  exact ⟨rfl, rfl, fun _ => by simp [encode, operandBytes, longestDescriptor], by simp [opcode, classFormat, Instr.format]⟩

theorem Descriptor.uartFrames (b : Byte) : Descriptor.Statement (.uartFrames b) := by
  exact ⟨rfl, rfl, fun _ => by simp [encode, operandBytes, longestDescriptor], by simp [opcode, classFormat, Instr.format]⟩

theorem Descriptor.uartWaitIdle : Descriptor.Statement .uartWaitIdle := by
  exact ⟨rfl, rfl, fun _ => by decide, by decide⟩

theorem Descriptor.timerCompare : Descriptor.Statement .timerCompare := by
  exact ⟨rfl, rfl, fun _ => by decide, by decide⟩

theorem Descriptor.usiOvfIrq : Descriptor.Statement .usiOvfIrq := by
  exact ⟨rfl, rfl, fun _ => by decide, by decide⟩

end Sys2Proof.Laws
end

