-- ==== Sys2Proof/Laws/Unstretched.lean ====
section
/-! SUPPORT. What the I2C lines do whatever the other agents do, short of stretching the clock: one line, a bit-clock, a
transfer, the framing conditions. -/

namespace Sys2Proof.Machine

/-- The second state is the first but for what the other agents can change: their levels, the timer's count, the instants
gone by, the observations and, while the timer is the shift clock, the register and the counter. -/
structure LeftAlone (s t : State) : Prop where
  sr : s.clksrc ≠ .timer → t.sr = s.sr
  cnt : s.clksrc ≠ .timer → t.cnt = s.cnt
  ovf : s.clksrc ≠ .timer → t.ovf = s.ovf
  din : t.din = s.din
  clksrc : t.clksrc = s.clksrc
  sclOut : t.sclOut = s.sclOut
  sdaOut : t.sdaOut = s.sdaOut
  inIsr : t.inIsr = s.inIsr
  uartByte : t.uartByte = s.uartByte
  operandAt : t.operandAt = s.operandAt
  callerStores : t.callerStores = s.callerStores
  gie : t.gie = s.gie
  ovie : t.ovie = s.ovie
  txdSrc : t.txdSrc = s.txdSrc
  tcmp : t.tcmp = s.tcmp
  tmode : t.tmode = s.tmode
  periphInit : t.periphInit = s.periphInit
  csSaved : t.csSaved = s.csSaved
  uartState : t.uartState = s.uartState
  i2cTxn : t.i2cTxn = s.i2cTxn
  i2cRw : t.i2cRw = s.i2cRw
  i2cAddr : t.i2cAddr = s.i2cAddr
  i2cBuf : t.i2cBuf = s.i2cBuf
  i2cLen : t.i2cLen = s.i2cLen
  i2cIdx : t.i2cIdx = s.i2cIdx
  i2cAckbit : t.i2cAckbit = s.i2cAckbit
  i2cResult : t.i2cResult = s.i2cResult
  mem : t.mem = s.mem
  fg : t.fg = s.fg
  ret : t.ret = s.ret
  requests : t.requests = s.requests
  overlap : t.overlap = s.overlap

/-- What other agents leave alone twice they leave alone. -/
theorem LeftAlone.trans {s t u : State} (h : LeftAlone s t) (k : LeftAlone t u) : LeftAlone s u := by
  cases h; cases k; constructor
  case sr | cnt | ovf => simp_all
  all_goals simp only [*]

/-- The instant after a line. -/
theorem leftAlone_after (s t : State) : LeftAlone t (slot (observe s t)) := by
  have ho := slot_off (s := observe s t)
  constructor
  case sr | cnt | ovf => intro h; simp [ho (by simpa using h)]
  all_goals simp

/-- The same with a `PEER` that does not stretch the clock. -/
theorem after_line {s t : State} (hn : NoStretch s) (hp : t.peerSclLow = s.peerSclLow) (he : t.env = s.env) :
    ∃ u, slot (observe s t) = u ∧ NoStretch u ∧ LeftAlone t u :=
  ⟨_, rfl, noStretch_after hp he hn, leftAlone_after s t⟩

/-- One line, whatever the other agents do, short of stretching the clock. -/
theorem any_step {s t : State} {l : Line} (hu : Uninterrupted s) (hn : NoStretch s) (hl : doLine l s = .go t)
    (hp : t.peerSclLow = s.peerSclLow) (he : t.env = s.env) (hi : t.inIsr = s.inIsr)
    (hg : t.gie = s.gie) (ho : t.ovie = s.ovie) :
    ∃ u, (∀ ls, run none (l :: ls) s = run none ls u) ∧ Uninterrupted u ∧ NoStretch u ∧ LeftAlone t u := by
  obtain ⟨u, h, h1, h2⟩ := after_line hn hp he
  exact ⟨u, fun ls => by rw [run_go hu.notHeld hl, h], hu.congr (h2.inIsr.trans hi) (h2.gie.trans hg)
    (h2.ovie.trans ho), h1, h2⟩

/-- A master that can clock bits while the others do as they like, short of stretching the clock. -/
structure Able (s : State) : Prop where
  free : Uninterrupted s
  unstretched : NoStretch s
  strobe : s.clksrc = .strobe

/-- One bit-clock. -/
theorem bitClock_any {s : State} (h : Uninterrupted s) (hn : NoStretch s) :
    ∃ t, (∀ ls, run none (bitClockLines ++ ls) s = run none ls t) ∧ Uninterrupted t ∧ NoStretch t ∧
      t.clksrc = s.clksrc ∧ t.sclOut = .low ∧ t.sdaOut = s.sdaOut ∧
      (s.clksrc = .strobe →
        t.cnt = s.cnt + 2 ∧ t.ovf = (s.ovf || s.cnt + 1 == 0 || s.cnt + 2 == 0) ∧ t.sr = shiftIn s.sr t.din) := by
  obtain ⟨a, ra, ua, na, ca⟩ := any_step (l := .delayLow) (t := s) h hn rfl rfl rfl rfl rfl rfl
  obtain ⟨b, rb, ub, nb, cb⟩ := any_step (l := .sclRelease) (t := { a with sclOut := .released }) ua na rfl rfl rfl
    rfl rfl rfl
  have hb : sclLine b = true := noStretch_scl nb cb.sclOut
  obtain ⟨b', hb'⟩ : ∃ b', b' = drawSeen { b with din := seenBit b (sdaLine b) } := ⟨_, rfl⟩
  have hline : doLine .riseSample b = .go (countEdge b') := by subst hb'; simp [doLine, hb]
  have hbc : b.clksrc = s.clksrc := by rw [cb.clksrc]; exact ca.clksrc
  obtain ⟨c, rc, uc, nc, cc⟩ := any_step (l := .riseSample) ub nb hline (by simp [hb']) (by simp [hb'])
    (by simp [hb']) (by simp [hb']) (by simp [hb'])
  obtain ⟨d, rd, ud, nd, cd⟩ := any_step (l := .delayHigh) (t := c) uc nc rfl rfl rfl rfl rfl rfl
  obtain ⟨e, re, ue, ne, ce⟩ := any_step (l := .sclLow) (t := { d with sclOut := .low }) ud nd rfl rfl rfl rfl rfl rfl
  have hcc : c.clksrc = s.clksrc := by rw [cc.clksrc]; simp [hb', hbc]
  have hdc : d.clksrc = s.clksrc := by rw [cd.clksrc, hcc]
  have hec : e.clksrc = s.clksrc := by rw [ce.clksrc]; exact hdc
  have hes : e.sdaOut = s.sdaOut := by
    rw [ce.sdaOut]; show d.sdaOut = _; rw [cd.sdaOut, cc.sdaOut]; simp [hb', cb.sdaOut, ca.sdaOut]
  by_cases hst : s.clksrc = .strobe
  · have nt : s.clksrc ≠ .timer := by rw [hst]; decide
    obtain ⟨f, rf, uf, nf, cf⟩ := any_step (l := .fallShift) (t := advance { e with sr := shiftIn e.sr e.din }) ue ne
      (by simp [doLine, hec, hst]) rfl rfl rfl rfl rfl
    have hct : countEdge b' = advance b' := by unfold countEdge; rw [if_pos]; simp [hb', hbc, hst]
    have nb' : (countEdge b').clksrc ≠ .timer := by simpa [hb', hbc] using nt
    have na' : { a with sclOut := SclDrive.released }.clksrc ≠ .timer := by simpa [ca.clksrc] using nt
    have q1 : c.cnt = s.cnt + 1 := by
      rw [cc.cnt nb', hct, advance_cnt]; simp [hb', cb.cnt na', ca.cnt nt]
    have q2 : c.ovf = (s.ovf || s.cnt + 1 == 0) := by
      rw [cc.ovf nb', hct, advance_ovf]; simp [hb', cb.cnt na', ca.cnt nt, cb.ovf na', ca.ovf nt]
    have q3 : c.sr = s.sr := by
      rw [cc.sr nb', hct, advance_sr]; simp [hb', cb.sr na', ca.sr nt]
    have nc' : c.clksrc ≠ .timer := by rw [hcc]; exact nt
    have nd' : { d with sclOut := SclDrive.low }.clksrc ≠ .timer := by simpa [hdc] using nt
    have q4 : e.cnt = s.cnt + 1 := by rw [ce.cnt nd']; show d.cnt = _; rw [cd.cnt nc', q1]
    have q5 : e.ovf = (s.ovf || s.cnt + 1 == 0) := by rw [ce.ovf nd']; show d.ovf = _; rw [cd.ovf nc', q2]
    have q6 : e.sr = s.sr := by rw [ce.sr nd']; show d.sr = _; rw [cd.sr nc', q3]
    have ne' : (advance { e with sr := shiftIn e.sr e.din }).clksrc ≠ .timer := by simpa [hec] using nt
    refine ⟨f, fun ls => ?_, uf, nf, by rw [cf.clksrc]; exact hec, by rw [cf.sclOut]; exact ce.sclOut,
      by rw [cf.sdaOut]; exact hes, fun _ => ⟨?_, ?_, ?_⟩⟩
    · simp only [bitClockLines, List.cons_append, List.nil_append]; rw [ra, rb, rc, rd, re, rf]
    · rw [cf.cnt ne']; simp [q4, BitVec.add_assoc]
    · rw [cf.ovf ne']; simp [q4, q5, BitVec.add_assoc]
    · rw [cf.sr ne', cf.din]; simp [q6]
  · obtain ⟨f, rf, uf, nf, cf⟩ := any_step (l := .fallShift) (t := e) ue ne
      (by simp [doLine, hec, hst]) rfl rfl rfl rfl rfl
    refine ⟨f, fun ls => ?_, uf, nf, by rw [cf.clksrc]; exact hec, by rw [cf.sclOut]; exact ce.sclOut,
      by rw [cf.sdaOut]; exact hes, fun h => absurd h hst⟩
    simp only [bitClockLines, List.cons_append, List.nil_append]; rw [ra, rb, rc, rd, re, rf]

/-- The turns of a transfer's loop. -/
theorem turns_any (m : Nat) (s : State) (h : Able s) (hm : 1 ≤ m) (hm8 : m ≤ 8) (hc : s.cnt = i2cPreload m)
    (ho : s.ovf = false) :
    ∃ t, run none (List.replicate m strobeLines).flatten s = ⟨some .xfer, t, []⟩ ∧ Able t ∧ t.sclOut = .low ∧
      t.sdaOut = s.sdaOut ∧ t.cnt = 0 ∧ t.ovf = true ∧ t.sr.getLsbD 0 = t.din ∧
      (∀ k, m ≤ k → k < 8 → t.sr.getLsbD k = s.sr.getLsbD (k - m)) := by
  induction m generalizing s with
  | zero => omega
  | succ m ih =>
    obtain ⟨t, rt, ut, nt, ct, lt, dt, ht⟩ := bitClock_any h.free h.unstretched
    obtain ⟨t1, t2, t3⟩ := ht h.strobe
    rw [List.replicate_succ, List.flatten_cons, strobeLines, List.append_assoc, rt]
    have hm7 : m ≤ 7 := by omega
    have e0 : t.cnt = i2cPreload m := by rw [t1, hc]; clear * - hm7; interval_cases m <;> decide
    have e1 : t.ovf = decide (m = 0) := by rw [t2, hc, ho]; clear * - hm7; interval_cases m <;> decide
    have tt : t.clksrc ≠ .timer := by rw [ct, h.strobe]; decide
    obtain ⟨u, hu, hn, sc⟩ := after_line (s := t) (t := t) nt rfl rfl
    have au : Able u := ⟨ut.congr sc.inIsr sc.gie sc.ovie, hn, by rw [sc.clksrc, ct, h.strobe]⟩
    have hsr : ∀ k, u.sr.getLsbD k = if k = 0 then u.din else decide (k < 8) && s.sr.getLsbD (k - 1) := by
      intro k; rw [sc.sr tt, t3, shiftIn_getLsbD, sc.din]
    by_cases hz : m = 0
    · subst hz
      refine ⟨u, ?_, au, by rw [sc.sclOut, lt], by rw [sc.sdaOut, dt], by rw [sc.cnt tt, e0]; decide,
        by rw [sc.ovf tt, e1]; decide, ?_, ?_⟩
      · rw [List.cons_append, run_leave (m := .xfer) (t := t) ut.notHeld (by simp [doLine, e1]), hu]; simp
      · rw [hsr]; simp
      · intro k hk hk8; rw [hsr, if_neg (by omega)]; simp [hk8]
    · obtain ⟨w, hw, aw, w1, w2, w3, w4, w5, w6⟩ := ih u au (by omega) (by omega) (by rw [sc.cnt tt, e0])
        (by rw [sc.ovf tt, e1]; simp [hz])
      refine ⟨w, ?_, aw, w1, by rw [w2, sc.sdaOut, dt], w3, w4, w5, ?_⟩
      · rw [List.cons_append, run_go (t := t) ut.notHeld (by simp [doLine, e1, hz]), hu]; exact hw
      · intro k hk hk8
        rw [w6 k (by omega) hk8, hsr, if_neg (by omega)]
        have : k - m < 8 := by omega
        simp [this]; congr 1

/-- A whole transfer. -/
theorem xfer_any {s : State} (n : Nat) (h : Able s) (hn : n = 1 ∨ n = 8) :
    ∃ t, (∀ ls, run none (xferLines n ++ ls) s = run none ls t) ∧ Able t ∧ t.sclOut = .low ∧
      t.sdaOut = s.sdaOut ∧ t.cnt = 0 ∧ t.ovf = true ∧ t.sr.getLsbD 0 = t.din ∧
      (∀ k, n ≤ k → k < 8 → t.sr.getLsbD k = s.sr.getLsbD (k - n)) := by
  obtain ⟨u, ru, uu, nu, cu⟩ := any_step (l := .preload n) (t := preloadCounter (i2cPreload n) s) h.free
    h.unstretched rfl rfl rfl rfl rfl rfl
  have tt : (preloadCounter (i2cPreload n) s).clksrc ≠ .timer := by simp [h.strobe]
  obtain ⟨t, ht, at', t1, t2, t3, t4, t5, t6⟩ := turns_any n u ⟨uu, nu, by rw [cu.clksrc]; exact h.strobe⟩ (by omega)
    (by omega) (by rw [cu.cnt tt]; rfl) (by rw [cu.ovf tt]; rfl)
  refine ⟨t, fun ls => ?_, at', t1, by rw [t2, cu.sdaOut]; rfl, t3, t4, t5,
    fun k h1 h2 => by rw [t6 k h1 h2, cu.sr tt]; rfl⟩
  rw [xferLines, List.cons_append, List.cons_append, ru, List.append_assoc, run_append, ht]
  simp only [if_true, List.cons_append, List.nil_append]
  rw [run_skip (by simp), run_skip_end]

/-- The start condition. -/
theorem start_any {s : State} (h : Uninterrupted s) (hn : NoStretch s) :
    ∃ t, (∀ ls, run none (startLines ++ ls) s = run none ls t) ∧ Uninterrupted t ∧ NoStretch t ∧
      t.clksrc = s.clksrc ∧ t.sclOut = .low ∧ t.sdaOut = .low ∧
      (s.clksrc ≠ .timer → t.sr = s.sr ∧ t.cnt = s.cnt ∧ t.ovf = s.ovf) := by
  obtain ⟨a, ra, ua, na, ca⟩ := any_step (l := .sclRelease) (t := { s with sclOut := .released }) h hn rfl rfl rfl
    rfl rfl rfl
  have la : doLine .waitScl a = .go a := by simp [doLine, noStretch_scl na ca.sclOut]
  obtain ⟨b, rb, ub, nb, cb⟩ := any_step (l := .waitScl) (t := a) ua na la rfl rfl rfl rfl rfl
  obtain ⟨c, rc, uc, nc, cc⟩ := any_step (l := .delayLow) (t := b) ub nb rfl rfl rfl rfl rfl rfl
  obtain ⟨d, rd, ud, nd, cd⟩ := any_step (l := .sdaLow) (t := { c with sdaOut := .low }) uc nc rfl rfl rfl rfl rfl rfl
  obtain ⟨e, re, ue, ne, ce⟩ := any_step (l := .delayHigh) (t := d) ud nd rfl rfl rfl rfl rfl rfl
  obtain ⟨f, rf, uf, nf, cf⟩ := any_step (l := .sclLow) (t := { e with sclOut := .low }) ue ne rfl rfl rfl rfl rfl rfl
  have hb : b.clksrc = s.clksrc := by rw [cb.clksrc]; exact ca.clksrc
  have hc : c.clksrc = s.clksrc := by rw [cc.clksrc, hb]
  have hd : d.clksrc = s.clksrc := by rw [cd.clksrc]; exact hc
  have he : e.clksrc = s.clksrc := by rw [ce.clksrc]; exact hd
  refine ⟨f, fun ls => ?_, uf, nf, by rw [cf.clksrc]; exact he, cf.sclOut, ?_, fun nt => ?_⟩
  · simp only [startLines, List.cons_append, List.nil_append]; rw [ra, rb, rc, rd, re, rf]
  · rw [cf.sdaOut]; show e.sdaOut = _; rw [ce.sdaOut, cd.sdaOut]
  · have na' : a.clksrc ≠ .timer := by rw [ca.clksrc]; exact nt
    have nb' : b.clksrc ≠ .timer := by rw [hb]; exact nt
    have nc' : { c with sdaOut := SdaDrive.low }.clksrc ≠ .timer := by simpa [hc] using nt
    have nd' : d.clksrc ≠ .timer := by rw [hd]; exact nt
    have ne' : { e with sclOut := SclDrive.low }.clksrc ≠ .timer := by simpa [he] using nt
    refine ⟨?_, ?_, ?_⟩
    · rw [cf.sr ne']; show e.sr = _; rw [ce.sr nd', cd.sr nc']; show c.sr = _; rw [cc.sr nb', cb.sr na', ca.sr nt]
    · rw [cf.cnt ne']; show e.cnt = _; rw [ce.cnt nd', cd.cnt nc']; show c.cnt = _
      rw [cc.cnt nb', cb.cnt na', ca.cnt nt]
    · rw [cf.ovf ne']; show e.ovf = _; rw [ce.ovf nd', cd.ovf nc']; show c.ovf = _
      rw [cc.ovf nb', cb.ovf na', ca.ovf nt]

/-- The stop condition. -/
theorem stop_any {s : State} (h : Uninterrupted s) (hn : NoStretch s) :
    ∃ t, (∀ ls, run none (stopLines ++ ls) s = run none ls t) ∧ Uninterrupted t ∧ NoStretch t ∧
      t.clksrc = s.clksrc ∧ t.sclOut = .released ∧ t.sdaOut = .released ∧
      (s.clksrc ≠ .timer → t.sr = s.sr ∧ t.cnt = s.cnt ∧ t.ovf = s.ovf) := by
  obtain ⟨a, ra, ua, na, ca⟩ := any_step (l := .sdaLow) (t := { s with sdaOut := .low }) h hn rfl rfl rfl rfl rfl rfl
  obtain ⟨b, rb, ub, nb, cb⟩ := any_step (l := .delayLow) (t := a) ua na rfl rfl rfl rfl rfl rfl
  obtain ⟨c, rc, uc, nc, cc⟩ := any_step (l := .sclRelease) (t := { b with sclOut := .released }) ub nb rfl rfl rfl
    rfl rfl rfl
  have lc : doLine .waitScl c = .go c := by simp [doLine, noStretch_scl nc cc.sclOut]
  obtain ⟨d, rd, ud, nd, cd⟩ := any_step (l := .waitScl) (t := c) uc nc lc rfl rfl rfl rfl rfl
  obtain ⟨e, re, ue, ne, ce⟩ := any_step (l := .delayHigh) (t := d) ud nd rfl rfl rfl rfl rfl rfl
  obtain ⟨f, rf, uf, nf, cf⟩ := any_step (l := .sdaRelease) (t := { e with sdaOut := .released }) ue ne rfl rfl rfl
    rfl rfl rfl
  obtain ⟨g, rg, ug, ng, cg⟩ := any_step (l := .delayLow) (t := f) uf nf rfl rfl rfl rfl rfl rfl
  have ha : a.clksrc = s.clksrc := ca.clksrc
  have hb : b.clksrc = s.clksrc := by rw [cb.clksrc, ha]
  have hc : c.clksrc = s.clksrc := by rw [cc.clksrc]; exact hb
  have hd : d.clksrc = s.clksrc := by rw [cd.clksrc, hc]
  have he : e.clksrc = s.clksrc := by rw [ce.clksrc, hd]
  have hf : f.clksrc = s.clksrc := by rw [cf.clksrc]; exact he
  refine ⟨g, fun ls => ?_, ug, ng, by rw [cg.clksrc, hf], ?_, ?_, fun nt => ?_⟩
  · simp only [stopLines, List.cons_append, List.nil_append]; rw [ra, rb, rc, rd, re, rf, rg]
  · rw [cg.sclOut, cf.sclOut]; show e.sclOut = _; rw [ce.sclOut, cd.sclOut, cc.sclOut]
  · rw [cg.sdaOut, cf.sdaOut]
  · have na' : a.clksrc ≠ .timer := by rw [ha]; exact nt
    have nb' : { b with sclOut := SclDrive.released }.clksrc ≠ .timer := by simpa [hb] using nt
    have nc' : c.clksrc ≠ .timer := by rw [hc]; exact nt
    have nd' : d.clksrc ≠ .timer := by rw [hd]; exact nt
    have ne' : { e with sdaOut := SdaDrive.released }.clksrc ≠ .timer := by simpa [he] using nt
    have nf' : f.clksrc ≠ .timer := by rw [hf]; exact nt
    refine ⟨?_, ?_, ?_⟩
    · rw [cg.sr nf', cf.sr ne']; show e.sr = _; rw [ce.sr nd', cd.sr nc', cc.sr nb']; show b.sr = _
      rw [cb.sr na', ca.sr nt]
    · rw [cg.cnt nf', cf.cnt ne']; show e.cnt = _; rw [ce.cnt nd', cd.cnt nc', cc.cnt nb']; show b.cnt = _
      rw [cb.cnt na', ca.cnt nt]
    · rw [cg.ovf nf', cf.ovf ne']; show e.ovf = _; rw [ce.ovf nd', cd.ovf nc', cc.ovf nb']; show b.ovf = _
      rw [cb.ovf na', ca.ovf nt]

/-- Opening a transaction. -/
theorem open_any {s : State} (h : fgHeld s = false) (hn : NoStretch s) :
    ∃ t, (∀ ls, run none (openLines ++ ls) s = run none ls t) ∧ Able t ∧ t.ovie = false ∧ t.sclOut = .low ∧
      t.sdaOut = .low ∧ t.i2cTxn = .opened ∧ t.overlap = (s.overlap || s.uartState != .idle) ∧
      (s.clksrc ≠ .timer → t.sr = s.sr ∧ t.cnt = s.cnt ∧ t.ovf = s.ovf) := by
  have hi := (fgHeld_eq_false.mp h).1
  obtain ⟨m, hm, nm, cm⟩ := after_line (s := s)
    (t := { s with ovie := false, overlap := s.overlap || s.uartState != .idle }) hn rfl rfl
  have rm : ∀ ls, run none (.usiMask :: ls) s = run none ls m := fun ls => by rw [run_go h rfl, hm]
  have um : Uninterrupted m := ⟨by rw [cm.inIsr]; exact hi, .inr cm.ovie⟩
  obtain ⟨a, ra, ua, na, ca⟩ := any_step (l := .usiStrobe) (t := { m with clksrc := .strobe }) um nm rfl rfl rfl rfl
    rfl rfl
  obtain ⟨b, rb, ub, nb, b1, b2, b3, b4⟩ := start_any ua na
  obtain ⟨c, rc, uc, nc, cc⟩ := any_step (l := .txnOpen) (t := { b with i2cTxn := .opened }) ub nb rfl rfl rfl rfl rfl
    rfl
  have hb : b.clksrc = .strobe := by rw [b1, ca.clksrc]
  have b4 := b4 (by rw [ca.clksrc]; exact fun h => nomatch h)
  have tt : b.clksrc ≠ .timer := by rw [hb]; decide
  have ts : (ClkSrc.strobe) ≠ .timer := by decide
  have ovl : b.overlap = a.overlap := by
    have := run_overlap (ls := startLines) (by decide) none a
    have e := rb []; rw [List.append_nil] at e; rw [e] at this; exact this
  have ovi : b.ovie = a.ovie := by
    have := run_ovie (ls := startLines) (by decide) none a
    have e := rb []; rw [List.append_nil] at e; rw [e] at this; exact this
  refine ⟨c, fun ls => ?_, ⟨uc, nc, by rw [cc.clksrc]; exact hb⟩, ?_, by rw [cc.sclOut]; exact b2,
    by rw [cc.sdaOut]; exact b3, cc.i2cTxn, ?_, fun hc => ⟨?_, ?_, ?_⟩⟩
  · rw [openLines, List.append_assoc, List.cons_append, List.cons_append, rm, ra, rb, List.cons_append, rc]; rfl
  · rw [cc.ovie]; show b.ovie = _; rw [ovi, ca.ovie]; exact cm.ovie
  · rw [cc.overlap]; show b.overlap = _; rw [ovl, ca.overlap]; exact cm.overlap
  · rw [cc.sr tt]; show b.sr = _; rw [b4.1, ca.sr ts]; exact cm.sr hc
  · rw [cc.cnt tt]; show b.cnt = _; rw [b4.2.1, ca.cnt ts]; exact cm.cnt hc
  · rw [cc.ovf tt]; show b.ovf = _; rw [b4.2.2, ca.ovf ts]; exact cm.ovf hc

/-- Closing one. -/
theorem close_any {s : State} (h : Uninterrupted s) (hn : NoStretch s) (hc : s.clksrc ≠ .timer) :
    ∃ t, (∀ ls, run none (closeLines ++ ls) s = run none ls t) ∧ Uninterrupted t ∧ NoStretch t ∧ t.clksrc = .off ∧ t.sclOut = .released ∧ t.sdaOut = .released ∧ t.i2cTxn = .none ∧
      t.sr = s.sr ∧ t.cnt = s.cnt ∧ t.ovf = s.ovf := by
  obtain ⟨a, ra, ua, na, a1, a2, a3, a4⟩ := stop_any h hn
  obtain ⟨a5, a6, a7⟩ := a4 hc
  obtain ⟨b, rb, ub, nb, cb⟩ := any_step (l := .txnClose) (t := { a with i2cTxn := .none }) ua na rfl rfl rfl rfl rfl rfl
  obtain ⟨c, rc, uc, nc, cc⟩ := any_step (l := .giveUsi) (t := { b with clksrc := .off }) ub nb rfl rfl rfl rfl rfl rfl
  have ta : { a with i2cTxn := I2cTxn.none }.clksrc ≠ .timer := by simpa [a1] using hc
  have tz : ClkSrc.off ≠ .timer := by decide
  refine ⟨c, fun ls => ?_, uc, nc, cc.clksrc, ?_, ?_, ?_, ?_, ?_, ?_⟩
  · rw [closeLines, List.append_assoc, ra, List.cons_append, List.cons_append, rb, rc]; rfl
  · rw [cc.sclOut]; show b.sclOut = _; rw [cb.sclOut]; exact a2
  · rw [cc.sdaOut]; show b.sdaOut = _; rw [cb.sdaOut]; exact a3
  · rw [cc.i2cTxn]; exact cb.i2cTxn
  · rw [cc.sr tz]; show b.sr = _; rw [cb.sr ta]; exact a5
  · rw [cc.cnt tz]; show b.cnt = _; rw [cb.cnt ta]; exact a6
  · rw [cc.ovf tz]; show b.ovf = _; rw [cb.ovf ta]; exact a7

end Sys2Proof.Machine
end

