-- ==== Sys2Proof/Laws/Step.lean ====
section
/-! SUPPORT. What an operation and a step can do, said once: the inversions that later proofs cite in place of the
definitions. -/

namespace Sys2Proof.Machine

/-- The lines of an operation that has lines, on a buffer that lies at `at_`. -/
def opLines (at_ : Nat) : Instr → List Line
  | .i2cWrite a d => writeLines a d.length
  | .i2cRead a n => readLines a n
  | .uartSend _ => sendLines
  | .uartSendStr d => sendStrLines (bufferBytes at_ d.length)
  | .uartSendLine d => sendStrLines (bufferBytes at_ d.length ++ lineTerminator)
  | .i2cStart => startLines
  | .i2cStop => stopLines
  | .i2cXfer n => xferLines n ++ [.returnSr]
  | .i2cBitClock => bitClockLines
  | .i2cWaitSclHigh => [.waitScl]
  | .i2cByteOut b => byteOutLines b
  | .i2cByteIn => byteInLines ++ [.returnSr]
  | .i2cAckCheck => ackCheckLines
  | .i2cMasterAck k => masterAckLines k
  | .i2cOpen => openLines
  | .i2cClose => closeLines
  | .i2cAddress rw => addressAloneLines rw
  | .uartWaitIdle => drainLines
  | .csEnter | .csExit | .uartFrames _ | .timerCompare | .usiOvfIrq => []

/-- The state in which an operation's lines begin: its input buffer lies in the caller's memory, its byte is sampled. -/
def invoked : Instr → State → State
  | .i2cWrite _ d, s | .uartSendStr d, s | .uartSendLine d, s => layOperand d s
  | .uartSend b, s => sampleByte (.value b) s
  | _, s => s

/-- How an operation can end in a next state: its lines have been performed, or it is one of the five without lines. -/
theorem exec_next {i : Instr} {s t : State} (h : exec i s = .next t) :
    (i.format ≠ .evt ∧ t = performLines (opLines s.operandAt i) (invoked i s)) ∨
    (i = .csEnter ∧ t = enterSection s) ∨
    (i = .csExit ∧ t = exitSection s) ∨
    (∃ b, i = .uartFrames b ∧ t = { s with ret := .frames (frame1 b) (frame2 b) }) ∨
    (i = .timerCompare ∧ t = observe s (compareEvent s)) ∨
    (i = .usiOvfIrq ∧ takeInterrupt s = .next t) := by
  have cmd : ∀ ls s, command ls s = .next t → t = performLines ls s := by
    intro ls s h
    unfold command at h
    split at h
    · exact (Host.Outcome.next.inj h).symm
    · cases h
  cases i with
  | i2cWrite a d => exact .inl ⟨nofun, cmd _ _ h⟩
  | i2cRead a n => exact .inl ⟨nofun, cmd _ _ h⟩
  | uartSend b => exact .inl ⟨nofun, cmd _ _ h⟩
  | uartSendStr d => exact .inl ⟨nofun, cmd _ _ h⟩
  | uartSendLine d => exact .inl ⟨nofun, cmd _ _ h⟩
  | csEnter => exact .inr (.inl ⟨rfl, (Host.Outcome.next.inj h).symm⟩)
  | csExit =>
    simp only [exec, execCsExit] at h
    split at h
    · cases h
    · exact .inr (.inr (.inl ⟨rfl, (Host.Outcome.next.inj h).symm⟩))
  | uartFrames b => exact .inr (.inr (.inr (.inl ⟨b, rfl, (Host.Outcome.next.inj h).symm⟩)))
  | timerCompare => exact .inr (.inr (.inr (.inr (.inl ⟨rfl, (Host.Outcome.next.inj h).symm⟩))))
  | usiOvfIrq => exact .inr (.inr (.inr (.inr (.inr ⟨rfl, h⟩))))
  | i2cXfer n =>
    simp only [exec, execI2cXfer] at h
    split at h
    · exact .inl ⟨nofun, (Host.Outcome.next.inj h).symm⟩
    · cases h
  | _ => exact .inl ⟨nofun, (Host.Outcome.next.inj h).symm⟩

/-- How the interrupt can end in a next state: not taken, or one of the two handler runs. -/
theorem takeInterrupt_next {s t : State} (h : takeInterrupt s = .next t) :
    (irqPending s = false ∧ t = s) ∨
    (irqPending s = true ∧ ∃ f, s.uartState = .pendingByte f ∧ t = handlerPending f s) ∨
    (irqPending s = true ∧ s.uartState = .awaitingStop ∧ t = handlerAwaiting s) := by
  unfold takeInterrupt at h
  cases hp : irqPending s with
  | false => simp only [hp] at h; exact .inl ⟨rfl, (Host.Outcome.next.inj h).symm⟩
  | true =>
    simp only [hp, if_true] at h
    cases hu : s.uartState with
    | idle => rw [hu] at h; cases h
    | pendingByte f => rw [hu] at h; exact .inr (.inl ⟨rfl, f, rfl, (Host.Outcome.next.inj h).symm⟩)
    | awaitingStop => rw [hu] at h; exact .inr (.inr ⟨rfl, rfl, (Host.Outcome.next.inj h).symm⟩)

theorem settle_next {o : Host.Outcome State Fault Refusal} {t : State} (h : settle o = .next t) :
    ∃ u, o = .next u ∧ t = slot (callerTurn u) := by
  cases o with
  | next u => exact ⟨u, rfl, (Host.Outcome.next.inj h).symm⟩
  | fault f => cases h
  | refused r => cases h

/-- What can be fetched: an operation that its invocation stands for and its origin may invoke. -/
theorem fetch_ok {r : Request} {i : Instr} (h : fetch r = .ok i) :
    operation r.invocation = .ok i ∧ i.format = r.origin.presents := by
  unfold fetch at h
  split at h
  · cases h
  · split at h
    · cases h; exact ⟨by assumption, by assumption⟩
    · cases h

@[simp] theorem operation_call (i : Instr) : operation (.call i) = .ok i := rfl

theorem operation_descriptor {bs rest : List Byte} {i : Instr} (h : decode bs = .ok (i, rest)) :
    operation (.descriptor bs) = .ok i := by simp [operation, h]

theorem operation_bad {bs : List Byte} {e : DecodeError} (h : decode bs = .error e) :
    operation (.descriptor bs) = .error (.badDescriptor e) := by simp [operation, h]

/-- How a step can end in a next state: a request performed, the interrupt, `FG` going on, or nobody's turn; and the
instant after it. -/
theorem step_next {s t : State} (h : step s = .next t) :
    ∃ u, t = slot (callerTurn u) ∧
      ((∃ r rest i, s.requests = r :: rest ∧ nextMove s = .request r rest ∧ fetch r = .ok i ∧
          i.format = r.origin.presents ∧
          (r.origin = .hardware ∨ (fgHeld s = false ∧ s.fg = [])) ∧ exec i (take r rest s) = .next u) ∨
        (irqPending s = true ∧ takeInterrupt s = .next u) ∨
        (fgHeld s = false ∧ s.fg ≠ [] ∧ u = resume s) ∨
        u = s) := by
  have key : ∀ m, (∀ r rest, m = .request r rest → s.requests = r :: rest) → nextMove s = fgMove s m → ∃ u, t = slot (callerTurn u) ∧
      ((∃ r rest i, s.requests = r :: rest ∧ nextMove s = .request r rest ∧ fetch r = .ok i ∧
          i.format = r.origin.presents ∧
          (r.origin = .hardware ∨ (fgHeld s = false ∧ s.fg = [])) ∧ exec i (take r rest s) = .next u) ∨
        (irqPending s = true ∧ takeInterrupt s = .next u) ∨
        (fgHeld s = false ∧ s.fg ≠ [] ∧ u = resume s) ∨
        u = s) ∨ (nextMove s = m ∧ fgHeld s = false ∧ s.fg = []) := by
    intro m _ hm
    unfold fgMove at hm
    cases hi : s.inIsr with
    | true =>
      rw [if_pos hi] at hm
      simp only [step, hm, settle, Host.Outcome.next.injEq] at h
      exact ⟨s, .inl ⟨h.symm, .inr (.inr (.inr rfl))⟩⟩
    | false =>
      rw [if_neg (by simp [hi])] at hm
      cases hp : irqPending s with
      | true =>
        rw [if_pos hp] at hm
        simp only [step, hm] at h
        obtain ⟨u, hu, ht⟩ := settle_next h
        exact ⟨u, .inl ⟨ht, .inr (.inl ⟨rfl, hu⟩)⟩⟩
      | false =>
        rw [if_neg (by simp [hp])] at hm
        have hf : fgHeld s = false := by simp [fgHeld, hi, hp]
        by_cases hg : s.fg = []
        · rw [if_pos hg] at hm
          exact ⟨s, .inr ⟨hm, hf, hg⟩⟩
        · rw [if_neg hg] at hm
          simp only [step, hm, settle, Host.Outcome.next.injEq] at h
          exact ⟨_, .inl ⟨h.symm, .inr (.inr (.inl ⟨hf, hg, rfl⟩))⟩⟩
  have perf : ∀ r rest, s.requests = r :: rest → nextMove s = .request r rest →
      (r.origin = .hardware ∨ (fgHeld s = false ∧ s.fg = [])) →
      ∃ u, t = slot (callerTurn u) ∧ (∃ r rest i, s.requests = r :: rest ∧ nextMove s = .request r rest ∧ fetch r = .ok i ∧
          i.format = r.origin.presents ∧
          (r.origin = .hardware ∨ (fgHeld s = false ∧ s.fg = [])) ∧ exec i (take r rest s) = .next u) := by
    intro r rest hr hm ho
    simp only [step, hm] at h
    cases hd : fetch r with
    | error e => rw [hd] at h; cases h
    | ok i =>
      rw [hd] at h
      obtain ⟨u, hu, ht⟩ := settle_next h
      exact ⟨u, ht, r, rest, i, hr, hm, hd, (fetch_ok hd).2, ho, hu⟩
  cases hr : s.requests with
  | nil =>
    obtain ⟨u, hu | hu⟩ := key .idle (fun _ _ h => nomatch h) (by simp [nextMove, hr])
    · exact ⟨u, hu.1, by rw [← hr]; exact hu.2⟩
    · simp only [step, hu.1, settle, Host.Outcome.next.injEq] at h
      exact ⟨s, h.symm, .inr (.inr (.inr rfl))⟩
  | cons r rest =>
    by_cases ho : r.origin = .hardware
    · obtain ⟨u, hu, hx⟩ := perf r rest hr (by simp [nextMove, hr, ho]) (.inl ho)
      exact ⟨u, hu, .inl (by rw [← hr]; exact hx)⟩
    · obtain ⟨u, hu | hu⟩ := key (.request r rest) (fun _ _ h => by cases h; exact hr) (by simp [nextMove, hr, ho])
      · exact ⟨u, hu.1, by rw [← hr]; exact hu.2⟩
      · obtain ⟨u, hu', hx⟩ := perf r rest hr hu.1 (.inr hu.2)
        exact ⟨u, hu', .inl (by rw [← hr]; exact hx)⟩

/-- `FG` goes on by performing the lines that are its position. -/
theorem resume_eq (s : State) : resume s = performLines s.fg { s with fg := [] } := rfl

end Sys2Proof.Machine
end

