-- ==== Sys2Proof/Laws/Transactions.lean ====
section
/-! SUPPORT. What a transaction does whatever the other agents do, short of stretching the clock: its parts in order. -/

namespace Sys2Proof.Machine

/-- Inside a transaction between two bytes, whatever the other agents do. -/
structure Between (g : Bool) (saved : List Bool) (s : State) : Prop where
  able : Able s
  gie : s.gie = false
  ovie : s.ovie = false
  saved : s.csSaved = g :: saved
  cnt : s.cnt = 0
  ovf : s.ovf = true

theorem ack_any {s : State} (h : Able s) :
    ∃ t, (∀ ls, run none (ackCheckLines ++ ls) s = run none ls t) ∧ Able t ∧ t.cnt = 0 ∧ t.ovf = true := by
  obtain ⟨c, rc, uc, nc, cc⟩ := any_step (l := .sdaRelease) (t := { s with sdaOut := .released }) h.free h.unstretched rfl rfl rfl rfl rfl rfl
  obtain ⟨t, rt, at', _, _, t3, t4, _⟩ := xfer_any 1 ⟨uc, nc, by rw [cc.clksrc, ← h.strobe]⟩ (.inl rfl)
  obtain ⟨u, ru, uu, nu, cu⟩ := any_step (l := .ackLatch) (t := { t with i2cAckbit := t.sr.getLsbD 0 }) at'.free at'.unstretched rfl rfl rfl rfl rfl rfl
  have tt : { t with i2cAckbit := t.sr.getLsbD 0 }.clksrc ≠ .timer := by simp [at'.strobe]
  refine ⟨u, fun ls => ?_, ⟨uu, nu, by rw [cu.clksrc]; exact at'.strobe⟩, by rw [cu.cnt tt]; exact t3, by rw [cu.ovf tt]; exact t4⟩
  rw [ackCheckLines, List.cons_append, List.cons_append, rc, List.append_assoc, rt, List.cons_append, ru]; rfl

theorem shiftOut_any {s : State} (h : Able s) :
    ∃ t, (∀ ls, run none (shiftOutLines ++ ls) s = run none ls t) ∧ Able t := by
  obtain ⟨c, rc, uc, nc, cc⟩ := any_step (l := .sdaFromSr) (t := { s with sdaOut := .fromSr }) h.free h.unstretched rfl rfl rfl rfl rfl rfl
  obtain ⟨t, rt, at', _⟩ := xfer_any 8 ⟨uc, nc, by rw [cc.clksrc, ← h.strobe]⟩ (.inr rfl)
  exact ⟨t, fun ls => by rw [shiftOutLines, List.cons_append, rc, rt], at'⟩

theorem done_of_forall {A : List Line} {s t : State} (h : ∀ ls, run none (A ++ ls) s = run none ls t) :
    run none A s = ⟨none, t, []⟩ := by have := h []; simpa using this

/-- A byte loaded by a line, sent and checked. -/
theorem byteAck_any {s : State} {l : Line} {b : Byte} (h : Able s) (hl : doLine l s = .go { s with sr := b }) :
    ∃ t, run none (l :: (shiftOutLines ++ ackCheckLines)) s = ⟨none, t, []⟩ ∧ Able t ∧ t.cnt = 0 ∧ t.ovf = true := by
  obtain ⟨a, ra, ua, na, ca⟩ := any_step h.free h.unstretched hl rfl rfl rfl rfl rfl
  obtain ⟨c, rc, hc⟩ := shiftOut_any (s := a) ⟨ua, na, by rw [ca.clksrc]; exact h.strobe⟩
  obtain ⟨t, rt, hs⟩ := ack_any hc
  exact ⟨t, by rw [ra, rc]; exact done_of_forall rt, hs⟩

/-- A line that writes nothing that `Between` speaks of. -/
theorem Between.step {g : Bool} {v : List Bool} {s t : State} {l : Line} (h : Between g v s) (hl : doLine l s = .go t)
    (hp : t.peerSclLow = s.peerSclLow) (he : t.env = s.env) (hi : t.inIsr = s.inIsr) (hg : t.gie = s.gie)
    (ho : t.ovie = s.ovie) (hc : t.clksrc = s.clksrc) (hs : t.csSaved = s.csSaved) (hn : t.cnt = s.cnt) (hf : t.ovf = s.ovf) :
    ∃ u, (∀ ls, run none (l :: ls) s = run none ls u) ∧ Between g v u ∧ LeftAlone t u := by
  obtain ⟨u, ru, uu, nu, cu⟩ := any_step h.able.free h.able.unstretched hl hp he hi hg ho
  have ht : t.clksrc ≠ .timer := by rw [hc, h.able.strobe]; decide
  exact ⟨u, ru, ⟨⟨uu, nu, by rw [cu.clksrc, hc, h.able.strobe]⟩, by rw [cu.gie, hg, h.gie], by rw [cu.ovie, ho, h.ovie],
    by rw [cu.csSaved, hs, h.saved], by rw [cu.cnt ht, hn, h.cnt], by rw [cu.ovf ht, hf, h.ovf]⟩, cu⟩

theorem Between.of_run {g : Bool} {v : List Bool} {ls : List Line} {s t : State} {m} (h : Between g v s) (hr : run none ls s = ⟨m, t, []⟩)
    (ha : Able t) (hc : t.cnt = 0) (ho : t.ovf = true) (hl : ∀ l ∈ ls, (writes_gie l || writes_ovie l || writes_csSaved l) = false) :
    Between g v t := by
  simp only [Bool.or_eq_false_iff] at hl
  have h1 := run_gie (fun l h => (hl l h).1.1) none s
  have h2 := run_ovie (fun l h => (hl l h).1.2) none s
  have h3 := run_csSaved (fun l h => (hl l h).2) none s
  rw [hr] at h1 h2 h3
  exact ⟨ha, h1.trans h.gie, h2.trans h.ovie, h3.trans h.saved, hc, ho⟩

theorem writeData_any (n : Nat) (g : Bool) (v : List Bool) (s : State) (ls : List Line) (h : Between g v s) (hk : s.i2cAckbit = false) :
    ∃ t, run none (dataLines writeByteLines n ++ (.okReturn :: .scopeEnd .txn :: ls)) s = run none ls t ∧ Between g v t ∧
      (t.i2cResult = .ok ∧ t.i2cAckbit = false ∧ t.i2cIdx = s.i2cIdx + n ∨ t.i2cResult = .errNoAck ∧ t.i2cAckbit = true) := by
  induction n generalizing s with
  | zero =>
    obtain ⟨u, ru, bu, cu⟩ := h.step (l := .okReturn) (t := { s with i2cResult := .ok }) rfl rfl rfl rfl rfl rfl rfl rfl rfl rfl
    refine ⟨u, ?_, bu, .inl ⟨cu.i2cResult, by rw [cu.i2cAckbit]; exact hk, by rw [cu.i2cIdx]; rfl⟩⟩
    simp only [dataLines, List.replicate_zero, List.flatten_nil, List.nil_append]
    rw [ru]; exact run_pass bu.able.free.notHeld rfl
  | succ n ih =>
    obtain ⟨a, ra, aa, a1, a2⟩ := byteAck_any (l := .loadBuf) (b := Memory.read s.mem (s.i2cBuf + s.i2cIdx)) h.able rfl
    have ba := h.of_run ra aa a1 a2 (by decide)
    have ia : a.i2cIdx = s.i2cIdx := by have := run_i2cIdx (ls := .loadBuf :: (shiftOutLines ++ ackCheckLines)) (by decide) none s; rwa [ra] at this
    have hl : dataLines writeByteLines (n + 1) ++ (.okReturn :: .scopeEnd .txn :: ls) =
       (.loadBuf :: (shiftOutLines ++ ackCheckLines)) ++ (.raiseIfNack :: (.idxNext :: (dataLines writeByteLines n ++ [.okReturn])) ++ (.scopeEnd .txn :: ls)) := by
      simp [dataLines, writeByteLines, List.replicate_succ]
    rw [hl, run_append_done ra]
    cases hb : a.i2cAckbit with
    | false =>
      obtain ⟨c, rc, bc, cc⟩ := ba.step (l := .raiseIfNack) (t := a) (by simp [doLine, hb]) rfl rfl rfl rfl rfl rfl rfl rfl rfl
      obtain ⟨d, rd, bd, cd⟩ := bc.step (l := .idxNext) (t := { c with i2cIdx := c.i2cIdx + 1 }) rfl rfl rfl rfl rfl rfl rfl rfl rfl rfl
      obtain ⟨t, rt, bt, ht⟩ := ih d bd (by rw [cd.i2cAckbit]; show c.i2cAckbit = _; rw [cc.i2cAckbit, hb])
      refine ⟨t, ?_, bt, ?_⟩
      · rw [List.cons_append, rc, List.cons_append, rd]; simpa using rt
      · rcases ht with ⟨h1, h2, h3⟩ | h1
        · refine .inl ⟨h1, h2, ?_⟩
          rw [h3, cd.i2cIdx]; show c.i2cIdx + 1 + n = _; rw [cc.i2cIdx, ia]; omega
        · exact .inr h1
    | true =>
      obtain ⟨u, hu, hn, cu⟩ := after_line (s := a) (t := { a with i2cResult := .errNoAck }) ba.able.unstretched rfl rfl
      have tt : { a with i2cResult := I2cResult.errNoAck }.clksrc ≠ .timer := by simp [ba.able.strobe]
      refine ⟨u, ?_, ⟨⟨ba.able.free.congr cu.inIsr cu.gie cu.ovie, hn, by rw [cu.clksrc]; exact ba.able.strobe⟩, by rw [cu.gie]; exact ba.gie, by rw [cu.ovie]; exact ba.ovie,
        by rw [cu.csSaved]; exact ba.saved, by rw [cu.cnt tt]; exact ba.cnt, by rw [cu.ovf tt]; exact ba.ovf⟩, .inr ⟨cu.i2cResult, by rw [cu.i2cAckbit]; exact hb⟩⟩
      rw [List.cons_append, run_leave (m := .txn) (t := { a with i2cResult := .errNoAck }) ba.able.free.notHeld (by simp [doLine, hb]), hu, run_skip_to_end]
      have := not_mem_dataLines (turn := writeByteLines) (by decide) n
      simp [this]

/-- A transaction up to the answer to its address byte. -/
theorem head_any {s : State} (h : fgHeld s = false) (hn : NoStretch s) (rw_ : Bool) (a : Byte) (n : Nat) :
    ∃ t, run none (.csEnter :: .invoke rw_ a n :: (openLines ++ addressLines rw_)) s = ⟨none, t, []⟩ ∧
      Between s.gie s.csSaved t ∧ t.i2cRw = rw_ ∧ t.i2cAddr = a ∧ t.i2cBuf = s.operandAt ∧ t.i2cLen = n := by
  have hi := (fgHeld_eq_false.mp h).1
  obtain ⟨p, hp, np, cp⟩ := after_line (s := s) (t := enterSection s) hn rfl rfl
  have rp : ∀ ls, run none (.csEnter :: ls) s = run none ls p := fun ls => by rw [run_go h rfl, hp]
  have up : Uninterrupted p := ⟨by rw [cp.inIsr]; exact hi, .inl cp.gie⟩
  obtain ⟨q, rq, uq, nq, cq⟩ := any_step (l := .invoke rw_ a n) (t := { p with i2cRw := rw_, i2cAddr := a, i2cBuf := p.operandAt, i2cLen := n }) up np rfl rfl rfl rfl rfl rfl
  obtain ⟨o, ro, ao, o1, _⟩ := open_any uq.notHeld nq
  obtain ⟨t, rt, at', t1, t2⟩ := byteAck_any (l := .loadAddress rw_) (b := addressByte o.i2cAddr rw_) ao rfl
  have hr : run none (.csEnter :: .invoke rw_ a n :: (openLines ++ addressLines rw_)) s = ⟨none, t, []⟩ := by
    rw [rp, rq, ro]; exact rt
  have hq : run none (openLines ++ addressLines rw_) q = ⟨none, t, []⟩ := by rw [ro]; exact rt
  have ho : run none openLines q = ⟨none, o, []⟩ := done_of_forall ro
  refine ⟨t, hr, ⟨at', ?_, ?_, ?_, t1, t2⟩, ?_, ?_, ?_, ?_⟩
  · have := run_gie (ls := openLines ++ addressLines rw_) (by cases rw_ <;> decide) none q
    rw [hq] at this; rw [this, cq.gie]; exact cp.gie
  · have := run_ovie (ls := .loadAddress rw_ :: (shiftOutLines ++ ackCheckLines)) (by cases rw_ <;> decide) none o
    rw [rt] at this; rw [this]; exact o1
  · have := run_csSaved (ls := openLines ++ addressLines rw_) (by cases rw_ <;> decide) none q
    rw [hq] at this; rw [this, cq.csSaved]; exact cp.csSaved
  · have := run_i2cRw (ls := openLines ++ addressLines rw_) (by cases rw_ <;> decide) none q
    rw [hq] at this; rw [this, cq.i2cRw]
  · have := run_i2cAddr (ls := openLines ++ addressLines rw_) (by cases rw_ <;> decide) none q
    rw [hq] at this; rw [this, cq.i2cAddr]
  · have := run_i2cBuf (ls := openLines ++ addressLines rw_) (by cases rw_ <;> decide) none q
    rw [hq] at this; rw [this, cq.i2cBuf]; exact cp.operandAt
  · have := run_i2cLen (ls := openLines ++ addressLines rw_) (by cases rw_ <;> decide) none q
    rw [hq] at this; rw [this, cq.i2cLen]

/-- The end of a transaction. -/
theorem leave_any {s : State} {g : Bool} {v : List Bool} (h : Between g v s) :
    ∃ t, run none (closeLines ++ [.csExit, .returnResult]) s = ⟨none, t, []⟩ ∧ t.gie = g ∧ t.csSaved = v ∧ t.i2cTxn = .none ∧
      t.clksrc = .off ∧ t.ovie = false ∧ t.cnt = 0 ∧ t.ovf = true ∧ t.sclOut = .released ∧ t.sdaOut = .released ∧ t.ret = .result s.i2cResult := by
  obtain ⟨a, ra, ua, na, a1, a2, a3, a4, a5, a6, a7⟩ := close_any h.able.free h.able.unstretched (by rw [h.able.strobe]; decide)
  have hra := done_of_forall ra
  have ga : a.csSaved = g :: v := by have := run_csSaved (ls := closeLines) (by decide) none s; rw [hra] at this; exact this.trans h.saved
  have oa : a.ovie = false := by have := run_ovie (ls := closeLines) (by decide) none s; rw [hra] at this; exact this.trans h.ovie
  have sa : a.i2cResult = s.i2cResult := by have := run_i2cResult (ls := closeLines) (by decide) none s; rwa [hra] at this
  have ia : a.inIsr = false := ua.1
  obtain ⟨b, hb, nb, cb⟩ := after_line (s := a) (t := { a with gie := g, csSaved := v }) na rfl rfl
  have rb : ∀ ls, run none (.csExit :: ls) a = run none ls b := fun ls => by rw [run_go ua.notHeld (by simp [doLine, exitSection, ga]; rfl)]; rw [hb]
  have ub : Uninterrupted b := ⟨by rw [cb.inIsr]; exact ia, .inr (by rw [cb.ovie]; exact oa)⟩
  obtain ⟨c, rc, uc, nc, cc⟩ := any_step (l := .returnResult) (t := { b with ret := .result b.i2cResult }) ub nb rfl rfl rfl rfl rfl rfl
  have ta : { a with gie := g, csSaved := v }.clksrc ≠ .timer := by simp [a1]
  have tb : { b with ret := .result b.i2cResult }.clksrc ≠ .timer := by simp [cb.clksrc, a1]
  refine ⟨c, by rw [ra, rb, rc]; rfl, ?_, ?_, ?_, ?_, ?_, ?_, ?_, ?_, ?_, ?_⟩
  · rw [cc.gie]; exact cb.gie
  · rw [cc.csSaved]; exact cb.csSaved
  · rw [cc.i2cTxn]; show b.i2cTxn = _; rw [cb.i2cTxn]; exact a4
  · rw [cc.clksrc]; show b.clksrc = _; rw [cb.clksrc]; exact a1
  · rw [cc.ovie]; show b.ovie = _; rw [cb.ovie]; exact oa
  · rw [cc.cnt tb]; show b.cnt = _; rw [cb.cnt ta]; exact a6.trans h.cnt
  · rw [cc.ovf tb]; show b.ovf = _; rw [cb.ovf ta]; exact a7.trans h.ovf
  · rw [cc.sclOut]; show b.sclOut = _; rw [cb.sclOut]; exact a2
  · rw [cc.sdaOut]; show b.sdaOut = _; rw [cb.sdaOut]; exact a3
  · rw [cc.ret]; show Ret.result b.i2cResult = _; rw [cb.i2cResult]; exact congrArg _ sa

theorem readData_any (n : Nat) (g : Bool) (v : List Bool) (s : State) (ls : List Line) (h : Between g v s) (hk : s.i2cAckbit = false) :
    ∃ t, run none (dataLines readByteLines n ++ (.okReturn :: .scopeEnd .txn :: ls)) s = run none ls t ∧ Between g v t ∧
      t.i2cResult = .ok ∧ t.i2cAckbit = false ∧ t.i2cIdx = s.i2cIdx + n ∧
      (∀ x, x < s.i2cBuf + s.i2cIdx ∨ s.i2cBuf + s.i2cIdx + n ≤ x → Memory.read t.mem x = Memory.read s.mem x) := by
  induction n generalizing s with
  | zero =>
    obtain ⟨u, ru, bu, cu⟩ := h.step (l := .okReturn) (t := { s with i2cResult := .ok }) rfl rfl rfl rfl rfl rfl rfl rfl rfl rfl
    refine ⟨u, ?_, bu, cu.i2cResult, by rw [cu.i2cAckbit]; exact hk, by rw [cu.i2cIdx]; rfl, fun i _ => by rw [cu.mem]⟩
    simp only [dataLines, List.replicate_zero, List.flatten_nil, List.nil_append]
    rw [ru]; exact run_pass bu.able.free.notHeld rfl
  | succ n ih =>
    -- the byte
    obtain ⟨c, rc, uc, nc, cc⟩ := any_step (l := .sdaRelease) (t := { s with sdaOut := .released }) h.able.free h.able.unstretched rfl rfl rfl rfl rfl rfl
    obtain ⟨a, ra, aa, _, _, a1, a2, _⟩ := xfer_any 8 ⟨uc, nc, by rw [cc.clksrc, ← h.able.strobe]⟩ (.inr rfl)
    have hra : run none byteInLines s = ⟨none, a, []⟩ := by rw [byteInLines, rc]; exact done_of_forall ra
    have ba := h.of_run hra aa a1 a2 (by decide)
    have ia : a.i2cIdx = s.i2cIdx := by have := run_i2cIdx (ls := byteInLines) (by decide) none s; rwa [hra] at this
    have fa : a.i2cBuf = s.i2cBuf := by have := run_i2cBuf (ls := byteInLines) (by decide) none s; rwa [hra] at this
    have ma : a.mem = s.mem := by have := run_mem (ls := byteInLines) (by decide) none s; rwa [hra] at this
    have ka : a.i2cAckbit = s.i2cAckbit := by have := run_i2cAckbit (ls := byteInLines) (by decide) none s; rwa [hra] at this
    obtain ⟨b, rb, bb, cb⟩ := ba.step (l := .storeBuf) (t := { a with mem := Memory.write a.mem (a.i2cBuf + a.i2cIdx) a.sr }) rfl rfl rfl rfl rfl rfl rfl rfl rfl rfl
    obtain ⟨d, rd, bd, cd⟩ := bb.step (l := .loadMasterAck) (t := { b with sr := masterAckFrame (!decide (b.i2cIdx + 1 < b.i2cLen)) }) rfl rfl rfl rfl rfl rfl rfl rfl rfl rfl
    obtain ⟨e, re, ue, ne, ce⟩ := any_step (l := .sdaFromSr) (t := { d with sdaOut := .fromSr }) bd.able.free bd.able.unstretched rfl rfl rfl rfl rfl rfl
    obtain ⟨f, rf, af, _, _, f1, f2, _⟩ := xfer_any 1 ⟨ue, ne, by rw [ce.clksrc, ← bd.able.strobe]⟩ (.inl rfl)
    have hrf : run none masterAckTail d = ⟨none, f, []⟩ := by rw [masterAckTail, re]; exact done_of_forall rf
    have bf := bd.of_run hrf af f1 f2 (by decide)
    have if' : f.i2cIdx = d.i2cIdx := by have := run_i2cIdx (ls := masterAckTail) (by decide) none d; rwa [hrf] at this
    have ff : f.i2cBuf = d.i2cBuf := by have := run_i2cBuf (ls := masterAckTail) (by decide) none d; rwa [hrf] at this
    have mf : f.mem = d.mem := by have := run_mem (ls := masterAckTail) (by decide) none d; rwa [hrf] at this
    have kf : f.i2cAckbit = d.i2cAckbit := by have := run_i2cAckbit (ls := masterAckTail) (by decide) none d; rwa [hrf] at this
    obtain ⟨k, rk, bk, ck⟩ := bf.step (l := .idxNext) (t := { f with i2cIdx := f.i2cIdx + 1 }) rfl rfl rfl rfl rfl rfl rfl rfl rfl rfl
    have hkk : k.i2cAckbit = false := by
      rw [ck.i2cAckbit]; show f.i2cAckbit = _; rw [kf, cd.i2cAckbit]; show b.i2cAckbit = _; rw [cb.i2cAckbit]; show a.i2cAckbit = _; rw [ka, hk]
    have hki : k.i2cIdx = s.i2cIdx + 1 := by
      rw [ck.i2cIdx]; show f.i2cIdx + 1 = _; rw [if', cd.i2cIdx]; show b.i2cIdx + 1 = _; rw [cb.i2cIdx]; show a.i2cIdx + 1 = _; rw [ia]
    have hkb : k.i2cBuf = s.i2cBuf := by
      rw [ck.i2cBuf]; show f.i2cBuf = _; rw [ff, cd.i2cBuf]; show b.i2cBuf = _; rw [cb.i2cBuf]; exact fa
    have hkm : k.mem = Memory.write s.mem (s.i2cBuf + s.i2cIdx) a.sr := by
      rw [ck.mem]; show f.mem = _; rw [mf, cd.mem]; show b.mem = _; rw [cb.mem]; show Memory.write a.mem (a.i2cBuf + a.i2cIdx) a.sr = _; rw [ma, fa, ia]
    obtain ⟨t, rt, bt, t1, t2, t3, t4⟩ := ih k bk hkk
    refine ⟨t, ?_, bt, t1, t2, by rw [t3, hki]; omega, ?_⟩
    · have hl : dataLines readByteLines (n + 1) ++ (.okReturn :: .scopeEnd .txn :: ls) =
         byteInLines ++ (.storeBuf :: .loadMasterAck :: (masterAckTail ++ (.idxNext :: (dataLines readByteLines n ++ (.okReturn :: .scopeEnd .txn :: ls))))) := by
        simp [dataLines, readByteLines, List.replicate_succ]
      rw [hl, run_append_done hra, rb, rd, run_append_done hrf, rk, rt]
    · intro x hx
      rw [t4 x (by rw [hki, hkb]; omega), hkm, Memory.read_write_other _ _ (by omega)]


theorem trans_lines (rw_ a n turn) : transactionLines rw_ a n turn =
    (.csEnter :: .invoke rw_ a n :: (openLines ++ addressLines rw_)) ++ (.raiseIfNack :: .loopStart :: (dataLines turn n ++ (.okReturn :: .scopeEnd .txn :: (closeLines ++ [.csExit, .returnResult])))) := by
  simp [transactionLines, leaveLines]

/-- A refused address. -/
theorem refused_any {g v} {s : State} (h : Between g v s) (hk : s.i2cAckbit = true) (turn n) (ht : Line.scopeEnd .txn ∉ turn) (ls) :
    ∃ t, run none (.raiseIfNack :: .loopStart :: (dataLines turn n ++ (.okReturn :: .scopeEnd .txn :: ls))) s = run none ls t ∧ Between g v t ∧
      t.i2cResult = .errNoAck ∧ t.i2cAckbit = true ∧ t.mem = s.mem := by
  obtain ⟨u, hu, hn, cu⟩ := after_line (s := s) (t := { s with i2cResult := .errNoAck }) h.able.unstretched rfl rfl
  have tt : { s with i2cResult := I2cResult.errNoAck }.clksrc ≠ .timer := by simp [h.able.strobe]
  refine ⟨u, ?_, ⟨⟨h.able.free.congr cu.inIsr cu.gie cu.ovie, hn, by rw [cu.clksrc]; exact h.able.strobe⟩, by rw [cu.gie]; exact h.gie, by rw [cu.ovie]; exact h.ovie,
        by rw [cu.csSaved]; exact h.saved, by rw [cu.cnt tt]; exact h.cnt, by rw [cu.ovf tt]; exact h.ovf⟩, cu.i2cResult, by rw [cu.i2cAckbit]; exact hk, by rw [cu.mem]⟩
  have e : Line.loopStart :: (dataLines turn n ++ (.okReturn :: .scopeEnd .txn :: ls)) = (Line.loopStart :: (dataLines turn n ++ [.okReturn])) ++ (.scopeEnd .txn :: ls) := by simp
  rw [run_leave (m := .txn) (t := { s with i2cResult := .errNoAck }) h.able.free.notHeld (by simp [doLine, hk]), hu, e, run_skip_to_end]
  have := not_mem_dataLines ht n
  simp [this]

theorem mem_dataLines {p : Line → Bool} {turn : List Line} (h : ∀ l ∈ turn, p l = false) (n : Nat) : ∀ l ∈ dataLines turn n, p l = false := by
  intro l hl
  simp only [dataLines, List.mem_flatten, List.mem_replicate] at hl
  obtain ⟨x, ⟨_, rfl⟩, hx⟩ := hl; exact h l hx

/-- The lines of a transaction after its address. -/
def bodyLines (turn : List Line) (n : Nat) : List Line :=
  .raiseIfNack :: .loopStart :: (dataLines turn n ++ (.okReturn :: .scopeEnd .txn :: (closeLines ++ [.csExit, .returnResult])))

theorem mem_body {p : Line → Bool} {turn : List Line} (h : ∀ l ∈ turn, p l = false)
    (h' : ∀ l ∈ Line.raiseIfNack :: .loopStart :: .okReturn :: .scopeEnd .txn :: (closeLines ++ [.csExit, .returnResult]), p l = false) (n : Nat) :
    ∀ l ∈ bodyLines turn n, p l = false := by
  have := mem_dataLines h n
  simp only [bodyLines, List.forall_mem_cons, List.forall_mem_append] at h' ⊢
  exact ⟨h'.1, h'.2.1, this, h'.2.2⟩
theorem mem_trans {p : Line → Bool} {rw_ a n} {turn : List Line} (h : ∀ l ∈ turn, p l = false)
    (h' : ∀ l ∈ Line.raiseIfNack :: .loopStart :: .okReturn :: .scopeEnd .txn :: (closeLines ++ [.csExit, .returnResult]), p l = false)
    (h1 : p (.invoke rw_ a n) = false) (h2 : ∀ l ∈ Line.csEnter :: (openLines ++ (.loadAddress rw_ :: (shiftOutLines ++ ackCheckLines))), p l = false) :
    ∀ l ∈ transactionLines rw_ a n turn, p l = false := by
  have := mem_body h h' n
  rw [trans_lines]
  simp only [bodyLines, addressLines, List.cons_append, List.forall_mem_cons, List.forall_mem_append] at this h2 ⊢
  tauto


end Sys2Proof.Machine
end

