-- ==== Sys2Proof/Laws/Uart.lean ====
section
/-! SUPPORT. What the UART's lines and the handler do: a check of `Idle`, the start of a transmission, with nobody else
moving and with anybody moving; the steps of the handler; eight compare events in a row. -/

namespace Sys2Proof.Machine

/-- The check of `Idle` succeeds: its section is left open. -/
theorem poll_idle {s : State} (h : fgHeld s = false) (he : s.env = []) (hu : s.uartState = .idle) (ls : List Line) :
    run none (pollLines ++ ls) s = run none ls { s with csSaved := s.gie :: s.csSaved, gie := false } := by
  have hi := (fgHeld_eq_false.mp h).1
  simp only [pollLines, failedCheckLines, List.cons_append, List.nil_append]
  rw [run_step (t := { s with csSaved := s.gie :: s.csSaved, gie := false }) (u := { s with csSaved := s.gie :: s.csSaved, gie := false }) (w := { s with csSaved := s.gie :: s.csSaved, gie := false }) h (by rfl) (by exact observe_same_lines rfl (fun _ => rfl)) (by exact slot_quiet he)]
  rw [run_leave (m := .busy) (t := { s with csSaved := s.gie :: s.csSaved, gie := false }) (by exact fgHeld_eq_false.mpr ⟨hi, by simp⟩) (by simp [doLine, hu])]
  rw [observe_self, slot_quiet (by exact he), run_skip (by simp), run_skip (by simp), run_skip_end]
/-- The check fails: nothing has changed, and `FG` is at its head again. -/
theorem poll_busy {s : State} (h : fgHeld s = false) (he : s.env = []) (hu : s.uartState ≠ .idle) (ls : List Line) :
    run none (pollLines ++ ls) s = ⟨none, s, pollLines ++ ls⟩ := by
  have hi := (fgHeld_eq_false.mp h).1
  simp only [pollLines, failedCheckLines, List.cons_append, List.nil_append]
  rw [run_step (t := { s with csSaved := s.gie :: s.csSaved, gie := false }) (u := { s with csSaved := s.gie :: s.csSaved, gie := false }) (w := { s with csSaved := s.gie :: s.csSaved, gie := false }) h (by rfl) (by exact observe_same_lines rfl (fun _ => rfl)) (by exact slot_quiet he)]
  rw [run_step (t := { s with csSaved := s.gie :: s.csSaved, gie := false }) (u := { s with csSaved := s.gie :: s.csSaved, gie := false }) (w := { s with csSaved := s.gie :: s.csSaved, gie := false }) (by exact fgHeld_eq_false.mpr ⟨hi, by simp⟩) (by simp [doLine, hu]) (by exact observe_self _) (by exact slot_quiet he)]
  rw [run_step (t := s) (u := s) (w := s) (by exact fgHeld_eq_false.mpr ⟨hi, by simp⟩) (by simp [doLine, exitSection]) (by exact observe_same_lines rfl (fun _ => rfl)) (by exact slot_quiet he)]
  rw [run_again h rfl, observe_self]; rfl

/-- A line that changes no bus line while nobody else moves. -/
theorem quiet_step {s t : State} {l : Line} {ls : List Line} (h : fgHeld s = false) (hl : doLine l s = .go t)
    (he : t.env = []) (hc : sclLine t = sclLine s) (hd : sdaLine t = sdaLine s) :
    run none (l :: ls) s = run none ls t := by
  rw [run_go h hl, observe_same_lines hc (fun _ => hd), slot_quiet he]

/-- `uart_send` from `Idle`, its operand sampled. -/
theorem send_idle {s : State} (h : fgHeld s = false) (he : s.env = []) (hu : s.uartState = .idle)
    (hs : s.sdaOut ≠ .fromSr) (ls : List Line) :
    run none (sendLines ++ ls) s = run none ls (started s.uartByte s) := by
  have hi := (fgHeld_eq_false.mp h).1
  rw [sendLines, startWrites, List.append_assoc, List.append_assoc, poll_idle h he hu]
  simp only [List.cons_append, List.nil_append]
  rw [quiet_step (l := .uartLoad)
    (t := { s with
      csSaved := s.gie :: s.csSaved, gie := false, sr := frame1 s.uartByte })
    (by exact fgHeld_eq_false.mpr ⟨hi, by simp⟩) (by rfl) (by exact he) (by rfl) (by simp [sdaLine, beq_eq_false_iff_ne.mpr hs])]
  rw [quiet_step (l := .uartArm)
    (t := { s with
      csSaved := s.gie :: s.csSaved, gie := false, sr := frame1 s.uartByte, cnt := 8, ovf := false })
    (by exact fgHeld_eq_false.mpr ⟨hi, by simp⟩) (by rfl) (by exact he) (by rfl) (by rfl)]
  rw [quiet_step (l := .uartPend)
    (t := { s with
      csSaved := s.gie :: s.csSaved, gie := false, sr := frame1 s.uartByte, cnt := 8, ovf := false,
      uartState := .pendingByte (frame2 s.uartByte) })
    (by exact fgHeld_eq_false.mpr ⟨hi, by simp⟩) (by rfl) (by exact he) (by rfl) (by rfl)]
  rw [quiet_step (l := .uartEnable)
    (t := { s with
      csSaved := s.gie :: s.csSaved, gie := false, sr := frame1 s.uartByte, cnt := 8, ovf := false,
      uartState := .pendingByte (frame2 s.uartByte), ovie := true })
    (by exact fgHeld_eq_false.mpr ⟨hi, by simp⟩) (by rfl) (by exact he) (by rfl) (by rfl)]
  rw [quiet_step (l := .uartPin)
    (t := { s with
      csSaved := s.gie :: s.csSaved, gie := false, sr := frame1 s.uartByte, cnt := 8, ovf := false,
      uartState := .pendingByte (frame2 s.uartByte), ovie := true, txdSrc := .fromSr })
    (by exact fgHeld_eq_false.mpr ⟨hi, by simp⟩) (by rfl) (by exact he) (by rfl) (by rfl)]
  rw [quiet_step (l := .uartClock) (t := { started s.uartByte s with csSaved := s.gie :: s.csSaved, gie := false })
    (by exact fgHeld_eq_false.mpr ⟨hi, by simp⟩) (by rfl) (by exact he) (by rfl) (by rfl)]
  rw [quiet_step (l := .csExit) (t := started s.uartByte s) (by exact fgHeld_eq_false.mpr ⟨hi, by simp [started]⟩)
    (by simp [doLine, exitSection, started]) (by exact he) (by rfl) (by rfl)]

/-- A string's `uart_send` from `Idle`, from its invocation on. -/
theorem invoke_idle {s : State} (src : ByteSource) (h : fgHeld s = false) (he : s.env = []) (hu : s.uartState = .idle)
    (hs : s.sdaOut ≠ .fromSr) (ls : List Line) :
    run none (.uartInvoke src :: (sendLines ++ ls)) s = run none ls (started (sourceByte s src) s) := by
  rw [quiet_step (l := .uartInvoke src) (t := sampleByte src s) h rfl he rfl rfl]
  exact send_idle (s := sampleByte src s) h he hu hs ls

theorem started_free {s : State} (b : Byte) (h : fgHeld s = false) : fgHeld (started b s) = false :=
  fgHeld_eq_false.mpr ⟨(fgHeld_eq_false.mp h).1, by simp [started]⟩

/-- A line performed with interrupts off. -/
theorem closed_step {s t : State} {l : Line} (h : s.inIsr = false) (hg : s.gie = false) (hl : doLine l s = .go t) :
   ∃ u, (∀ ls, run none (l :: ls) s = run none ls u) ∧ LeftAlone t u :=
  ⟨_, fun ls => run_go (fgHeld_eq_false.mpr ⟨h, by simp [hg]⟩) hl, leftAlone_after s t⟩

/-- The check of `Idle` succeeds, whatever the other agents do: its section is left open. -/
theorem poll_idle_any {s : State} (h : fgHeld s = false) (hu : s.uartState = .idle) :
    ∃ t, (∀ ls, run none (pollLines ++ ls) s = run none ls t) ∧ LeftAlone (enterSection s) t := by
  have hi := (fgHeld_eq_false.mp h).1
  obtain ⟨a, ra, ca⟩ : ∃ a, (∀ ls, run none (.csEnter :: ls) s = run none ls a) ∧ LeftAlone (enterSection s) a :=
    ⟨_, fun ls => run_go h rfl, leftAlone_after _ _⟩
  have ha : doLine .uartTest a = .leave .busy a := by simp [doLine, ca.uartState, hu]
  refine ⟨_, fun ls => ?_, ca.trans (leftAlone_after a a)⟩
  simp only [pollLines, failedCheckLines, List.cons_append, List.nil_append, ra]
  rw [run_leave (fgHeld_eq_false.mpr ⟨ca.inIsr.trans hi, by simp [show a.gie = false from ca.gie]⟩) ha,
    run_skip (by simp), run_skip (by simp), run_skip_end]

/-- The drain wait ends in `Idle`, whatever the other agents do. -/
theorem drain_idle_any {s : State} (h : fgHeld s = false) (hu : s.uartState = .idle) :
    ∃ t, (∀ ls, run none (drainLines ++ ls) s = run none ls t) ∧ LeftAlone s t := by
  obtain ⟨p, rp, cp⟩ := poll_idle_any h hu
  have hc : p.csSaved = s.gie :: s.csSaved := cp.csSaved
  obtain ⟨t, rt, ct⟩ := closed_step (l := .csExit) (s := p) (t := { p with gie := s.gie, csSaved := s.csSaved })
    (cp.inIsr.trans (fgHeld_eq_false.mp h).1) cp.gie (by simp [doLine, exitSection, hc])
  have k : LeftAlone s { p with gie := s.gie, csSaved := s.csSaved } := { cp with gie := rfl, csSaved := rfl }
  exact ⟨t, fun ls => by rw [drainLines, List.append_assoc, rp, List.singleton_append, rt], k.trans ct⟩

/-- A transmission starts, whatever the other agents do. -/
theorem send_any {s : State} (h : fgHeld s = false) (hu : s.uartState = .idle) :
    ∃ t, (∀ ls, run none (sendLines ++ ls) s = run none ls t) ∧ t.gie = s.gie ∧ t.csSaved = s.csSaved ∧
      t.uartState = .pendingByte (frame2 s.uartByte) ∧ t.ovie = true ∧ t.txdSrc = .fromSr ∧ t.clksrc = .timer := by
  obtain ⟨p, rp, cp⟩ := poll_idle_any h hu
  have p1 : p.csSaved = s.gie :: s.csSaved := cp.csSaved
  have p2 : p.gie = false := cp.gie
  have p3 : p.inIsr = false := cp.inIsr.trans (fgHeld_eq_false.mp h).1
  have p4 : p.uartByte = s.uartByte := cp.uartByte
  obtain ⟨q, rq, cq⟩ := closed_step (l := .uartLoad) (s := p) p3 p2 rfl
  obtain ⟨r, rr, cr⟩ := closed_step (l := .uartArm) (s := q) (by rw [cq.inIsr]; exact p3) (by rw [cq.gie]; exact p2) rfl
  have r2 : r.gie = false := by rw [cr.gie]; show q.gie = _; rw [cq.gie]; exact p2
  have r3 : r.inIsr = false := by rw [cr.inIsr]; show q.inIsr = _; rw [cq.inIsr]; exact p3
  have r4 : r.csSaved = s.gie :: s.csSaved := by rw [cr.csSaved]; show q.csSaved = _; rw [cq.csSaved]; exact p1
  have r5 : r.uartByte = s.uartByte := by rw [cr.uartByte]; show q.uartByte = _; rw [cq.uartByte]; exact p4
  obtain ⟨x, rx, cx⟩ := closed_step (l := .uartPend) (s := r) r3 r2 rfl
  obtain ⟨y, ry, cy⟩ := closed_step (l := .uartEnable) (s := x) (by rw [cx.inIsr]; exact r3) (by rw [cx.gie]; exact r2) rfl
  have y2 : y.gie = false := by rw [cy.gie]; show x.gie = _; rw [cx.gie]; exact r2
  have y3 : y.inIsr = false := by rw [cy.inIsr]; show x.inIsr = _; rw [cx.inIsr]; exact r3
  obtain ⟨w, rw_, cw⟩ := closed_step (l := .uartPin) (s := y) y3 y2 rfl
  have w2 : w.gie = false := by rw [cw.gie]; exact y2
  have w3 : w.inIsr = false := by rw [cw.inIsr]; exact y3
  obtain ⟨z, rz, cz⟩ := closed_step (l := .uartClock) (s := w) w3 w2 rfl
  have z4 : z.csSaved = s.gie :: s.csSaved := by
    rw [cz.csSaved]; show w.csSaved = _; rw [cw.csSaved]; show y.csSaved = _; rw [cy.csSaved]
    show x.csSaved = _; rw [cx.csSaved]; exact r4
  obtain ⟨t, rt, ct⟩ := closed_step (l := .csExit) (s := z) (t := { z with gie := s.gie, csSaved := s.csSaved })
    (by rw [cz.inIsr]; exact w3) (by rw [cz.gie]; exact w2) (by simp [doLine, exitSection, z4])
  refine ⟨t, fun ls => ?_, ct.gie, ct.csSaved, ?_, ?_, ?_, ?_⟩
  · rw [sendLines, startWrites, List.append_assoc, List.append_assoc, rp]
    simp only [List.cons_append, List.nil_append]
    rw [rq, rr, rx, ry, rw_, rz, rt]
  · rw [ct.uartState]; show z.uartState = _; rw [cz.uartState]; show w.uartState = _; rw [cw.uartState]
    show y.uartState = _; rw [cy.uartState]; show x.uartState = _; rw [cx.uartState, r5]
  · rw [ct.ovie]; show z.ovie = _; rw [cz.ovie]; show w.ovie = _; rw [cw.ovie]; exact cy.ovie
  · rw [ct.txdSrc]; show z.txdSrc = _; rw [cz.txdSrc]; exact cw.txdSrc
  · rw [ct.clksrc]; exact cz.clksrc

/-- From a loop's back edge `FG` comes to the head of the check (R166, R167). -/
theorem run_backEdge {s : State} (h : fgHeld s = false) (ls : List Line) :
    run none (.spinBack :: .scopeEnd .busy :: ls) s = ⟨none, s, pollLines ++ ls⟩ := by
  rw [run_again h rfl, observe_self]; rfl

/-- The drain wait ends in `Idle` with nothing changed. -/
theorem drain_idle {s : State} (h : fgHeld s = false) (he : s.env = []) (hu : s.uartState = .idle) (ls : List Line) :
    run none (drainLines ++ ls) s = run none ls s := by
  have hi := (fgHeld_eq_false.mp h).1
  rw [drainLines, List.append_assoc, poll_idle h he hu, List.singleton_append]
  exact quiet_step (fgHeld_eq_false.mpr ⟨hi, by simp⟩) (by simp [doLine, exitSection]) he rfl rfl

/-- When a string's `uart_send` has returned, `FG` waits to send the rest. -/
theorem nextBytes_waits {s : State} (h : fgHeld s = false) (he : s.env = []) (hu : s.uartState ≠ .idle)
    (rest : List ByteSource) (ls : List Line) :
    run none (nextBytes rest ++ ls) s = ⟨none, s, sendStrLines rest ++ ls⟩ := by
  cases rest with
  | nil =>
    simp only [nextBytes, sendStrLines, drainLines, List.append_assoc]
    exact poll_busy h he hu _
  | cons src rest =>
    simp only [nextBytes, sendStrLines, List.cons_append]
    rw [run_again h rfl, observe_self]; rfl

/-- The check fails, whatever the other agents do: `FG` is at its head again, or at its back edge where the handler has
come due meanwhile. -/
theorem poll_busy_any {s : State} (h : fgHeld s = false) (hu : s.uartState ≠ .idle) :
    ∃ t, LeftAlone s t ∧ ((∀ ls, run none (pollLines ++ ls) s = ⟨none, t, pollLines ++ ls⟩) ∨
      ∀ ls, run none (pollLines ++ ls) s = ⟨none, t, .spinBack :: .scopeEnd .busy :: ls⟩) := by
  have hi := (fgHeld_eq_false.mp h).1
  obtain ⟨a, ra, ca⟩ : ∃ a, (∀ ls, run none (.csEnter :: ls) s = run none ls a) ∧ LeftAlone (enterSection s) a :=
    ⟨_, fun ls => run_go h rfl, leftAlone_after _ _⟩
  have ha : doLine .uartTest a = .go a := by simp [doLine, ca.uartState, hu]
  obtain ⟨b, rb, cb⟩ := closed_step (l := .uartTest) (ca.inIsr.trans hi) ca.gie ha
  have hb : b.csSaved = s.gie :: s.csSaved := cb.csSaved.trans ca.csSaved
  obtain ⟨c, rc, cc⟩ := closed_step (l := .csExit) (s := b) (t := { b with gie := s.gie, csSaved := s.csSaved })
    (cb.inIsr.trans (ca.inIsr.trans hi)) (cb.gie.trans ca.gie) (by simp [doLine, exitSection, hb])
  have k : LeftAlone s { b with gie := s.gie, csSaved := s.csSaved } :=
    { ca.trans cb with gie := rfl, csSaved := rfl }
  have r : ∀ ls, run none (pollLines ++ ls) s = run none (.spinBack :: .scopeEnd .busy :: ls) c := fun ls => by
    simp only [pollLines, failedCheckLines, List.cons_append, List.nil_append, ra, rb, rc]
  refine ⟨c, k.trans cc, ?_⟩
  cases hc : fgHeld c with
  | true => exact .inr fun ls => by rw [r, run_held hc]
  | false => exact .inl fun ls => by rw [r, run_backEdge hc]

/-- A step of the handler with nobody else moving. -/
theorem isrStep_quiet {f : State → State} {s : State} (he : (f s).env = []) (hc : sclLine (f s) = sclLine s) (hd : sclLine s = true → sdaLine (f s) = sdaLine s) : isrStep f s = f s := by
  rw [isrStep, observe_same_lines hc hd, slot_quiet he]

theorem irq_facts {s : State} (h : irqPending s = true) : s.inIsr = false ∧ s.gie = true ∧ s.ovie = true ∧ s.ovf = true := by
  revert h; unfold irqPending; cases s.inIsr <;> cases s.gie <;> cases s.ovie <;> cases s.ovf <;> simp

/-- A step of the handler, whatever the other agents do. -/
theorem isrStep_leaves (f : State → State) (s : State) : LeftAlone (f s) (isrStep f s) := leftAlone_after s (f s)

/-- A compare event in a bit slot of the transmission. -/
theorem cmp_step {s : State} (hc : s.clksrc = .timer) (hs : s.slotOpen = true) (ht : s.txdSrc = .fromSr) (ho : s.overlap = false) :
    let t := observe s (compareEvent s)
    t.wireTrace = s.wireTrace ++ [s.sr.getLsbD 7] ∧ (∃ f, t.sr = shiftIn s.sr f) ∧ t.cnt = s.cnt + 1 ∧ t.ovf = (s.ovf || s.cnt + 1 == 0) ∧
    t.clksrc = .timer ∧ t.slotOpen = true ∧ t.txdSrc = .fromSr ∧ t.overlap = false := by
  have h' : (closeSlot s).clksrc = .timer := by simpa using hc
  refine ⟨?_, ⟨Config.uartFill (closeSlot s).draws, ?_⟩, ?_, ?_, ?_, ?_, ?_, ?_⟩
  · simp [compareEvent, timerShift, hc]; simp [closeSlot, hs, drawSeen, ho, seenBit, txdLine, ht]
  · simp [compareEvent, timerShift, hc]
  · simp [compareEvent, timerShift, hc]
  · simp [compareEvent, timerShift, hc]
  · simp [hc]
  · simp [compareEvent, timerShift, hc]; simp [closeSlot, hs, drawSeen, ho]
  · simp [ht]
  · simp [ho]

/-- Eight of them: the register crosses the wire, bit 7 first, and the counter overflows. -/
theorem cmp_8 {s : State} (hc : s.clksrc = .timer) (hs : s.slotOpen = true) (ht : s.txdSrc = .fromSr) (ho : s.overlap = false) (hn : s.cnt = 8) :
    let t := compareEvents 8 s
    t.wireTrace = s.wireTrace ++ bitsMsbFirst s.sr ∧ t.ovf = true ∧ t.clksrc = .timer ∧ t.slotOpen = true ∧ t.txdSrc = .fromSr ∧ t.overlap = false ∧
    t.gie = s.gie ∧ t.ovie = s.ovie ∧ t.inIsr = s.inIsr ∧ t.uartState = s.uartState ∧ t.env = s.env ∧ t.sdaOut = s.sdaOut := by
  have kept : ∀ n s, (compareEvents n s).gie = s.gie ∧ (compareEvents n s).ovie = s.ovie ∧ (compareEvents n s).inIsr = s.inIsr ∧ (compareEvents n s).uartState = s.uartState ∧ (compareEvents n s).env = s.env ∧ (compareEvents n s).sdaOut = s.sdaOut := by
    intro n; induction n with
    | zero => intro s; simp [compareEvents]
    | succ n ih => intro s; rw [compareEvents]; have := ih (observe s (compareEvent s)); simpa using this
  have hk := kept 8 s
  simp only
  refine ⟨?_, ?_, ?_, ?_, ?_, ?_, hk⟩
  all_goals simp only [compareEvents]
  all_goals
    obtain ⟨a1, ⟨f1, a2⟩, a3, a4, a5, a6, a7, a8⟩ := cmp_step hc hs ht ho
    generalize observe s (compareEvent s) = u at *
    obtain ⟨b1, ⟨f2, b2⟩, b3, b4, b5, b6, b7, b8⟩ := cmp_step a5 a6 a7 a8
    generalize observe u (compareEvent u) = v at *
    obtain ⟨c1, ⟨f3, c2⟩, c3, c4, c5, c6, c7, c8⟩ := cmp_step b5 b6 b7 b8
    generalize observe v (compareEvent v) = w at *
    obtain ⟨d1, ⟨f4, d2⟩, d3, d4, d5, d6, d7, d8⟩ := cmp_step c5 c6 c7 c8
    generalize observe w (compareEvent w) = x at *
    obtain ⟨e1, ⟨f5, e2⟩, e3, e4, e5, e6, e7, e8⟩ := cmp_step d5 d6 d7 d8
    generalize observe x (compareEvent x) = y at *
    obtain ⟨g1, ⟨f6, g2⟩, g3, g4, g5, g6, g7, g8⟩ := cmp_step e5 e6 e7 e8
    generalize observe y (compareEvent y) = z at *
    obtain ⟨h1, ⟨f7, h2⟩, h3, h4, h5, h6, h7, h8⟩ := cmp_step g5 g6 g7 g8
    generalize observe z (compareEvent z) = p at *
    obtain ⟨i1, ⟨f8, i2⟩, i3, i4, i5, i6, i7, i8⟩ := cmp_step h5 h6 h7 h8
  · rw [i1, h1, g1, e1, d1, c1, b1, a1]
    simp [bitsMsbFirst, h2, g2, e2, d2, c2, b2, a2, shiftIn_getLsbD, -BitVec.getLsbD_eq_getElem]
  · rw [i4, h3, g3, e3, d3, c3, b3, a3, hn]; simp
  · exact i5
  · exact i6
  · exact i7
  · exact i8

end Sys2Proof.Machine
end

