-- ==== Sys2Proof/Tests/Slice0.lean ====
section
/-! SUPPORT. Tests: ill-formed terms refused, descriptors written out from spec/30_encoding.md R93 and R94, one or two
vectors of spec/95_test_vectors.md an operation, and for every statement with hypotheses a state that meets them. -/

namespace Sys2Proof.Tests

open Sys2Proof.Machine

/-! ### What is no operation -/

theorem test_transfer_of_two_bits_is_ill_formed : (Instr.i2cXfer 2).wellFormed = false := by decide
theorem test_write_of_256_bytes_is_ill_formed : (Instr.i2cWrite 0x77 (List.replicate 256 0)).wellFormed = false := by
  decide +kernel
theorem test_read_of_256_bytes_is_ill_formed : (Instr.i2cRead 0x77 256).wellFormed = false := by decide
theorem test_string_of_256_bytes_is_ill_formed : (Instr.uartSendStr (List.replicate 256 0)).wellFormed = false := by
  decide +kernel
theorem test_line_of_256_bytes_is_ill_formed : (Instr.uartSendLine (List.replicate 256 0)).wellFormed = false := by
  decide +kernel

/-! ### Descriptors, byte 0 and the operands from the table of R94 -/

theorem test_decode_i2cWrite : decode [0x10, 0x77, 0x02, 0xF2, 0x01] = .ok (.i2cWrite 0x77 [0xF2, 0x01], []) := by rfl
theorem test_decode_i2cRead : decode [0x11, 0x77, 0x06] = .ok (.i2cRead 0x77 6, []) := by rfl
theorem test_decode_uartSend : decode [0x20, 0x41] = .ok (.uartSend 0x41, []) := by rfl
theorem test_decode_uartSendStr : decode [0x21, 0x02, 0x41, 0x42] = .ok (.uartSendStr [0x41, 0x42], []) := by rfl
theorem test_decode_uartSendLine : decode [0x22, 0x01, 0x0A, 0x30] = .ok (.uartSendLine [0x0A], [0x30]) := by rfl
theorem test_decode_csEnter : decode [0x30] = .ok (.csEnter, []) := by rfl
theorem test_decode_csExit : decode [0x31] = .ok (.csExit, []) := by rfl
theorem test_decode_i2cStart : decode [0x40] = .ok (.i2cStart, []) := by rfl
theorem test_decode_i2cStop : decode [0x41] = .ok (.i2cStop, []) := by rfl
theorem test_decode_i2cXfer : decode [0x42, 0x08] = .ok (.i2cXfer 8, []) := by rfl
theorem test_decode_i2cBitClock : decode [0x43] = .ok (.i2cBitClock, []) := by rfl
theorem test_decode_i2cWaitSclHigh : decode [0x44] = .ok (.i2cWaitSclHigh, []) := by rfl
theorem test_decode_i2cByteOut : decode [0x45, 0xEE] = .ok (.i2cByteOut 0xEE, []) := by rfl
theorem test_decode_i2cByteIn : decode [0x46] = .ok (.i2cByteIn, []) := by rfl
theorem test_decode_i2cAckCheck : decode [0x47] = .ok (.i2cAckCheck, []) := by rfl
theorem test_decode_i2cMasterAck : decode [0x48, 0x01] = .ok (.i2cMasterAck true, []) := by rfl
theorem test_decode_i2cOpen : decode [0x49] = .ok (.i2cOpen, []) := by rfl
theorem test_decode_i2cClose : decode [0x4A] = .ok (.i2cClose, []) := by rfl
theorem test_decode_i2cAddress : decode [0x4B, 0x01] = .ok (.i2cAddress true, []) := by rfl
theorem test_decode_uartFrames : decode [0x50, 0x41] = .ok (.uartFrames 0x41, []) := by rfl
theorem test_decode_uartWaitIdle : decode [0x51] = .ok (.uartWaitIdle, []) := by rfl
theorem test_decode_timerCompare : decode [0x60] = .ok (.timerCompare, []) := by rfl
theorem test_decode_usiOvfIrq : decode [0x61] = .ok (.usiOvfIrq, []) := by rfl

theorem test_decode_unlisted_opcode : decode [0x32] = .error .unknownOpcode := by rfl
theorem test_decode_short_buffer : decode [0x10, 0x77, 0x02, 0xF2] = .error .truncated := by rfl
theorem test_decode_no_bit : decode [0x48, 0x02] = .error .operandNotBit := by rfl
theorem test_decodeTableWord_write : decodeTableWord 8 0x10 = some (.i2cWrite 0 []) := by decide +kernel
theorem test_decodeTableWord_event : decodeTableWord 8 0x61 = some .usiOvfIrq := by decide +kernel

/-! ### States and observations -/

/-- `Q0` of spec/95_test_vectors.md: the state after boot. -/
def q0 : State := { booted State.reset with fg := [] }

/-- `Q0` inside an open transaction: strobed clock, both lines driven low, interrupts off. -/
def busy : State :=
  { q0 with gie := false, csSaved := [true], clksrc := .strobe, sclOut := .low, sdaOut := .low, i2cTxn := .opened }

/-- `Q0` with a character under way, its frame pending. -/
def sending : State :=
  { q0 with sr := 0xA0, cnt := 8, uartState := .pendingByte 0xBF, ovie := true, txdSrc := .fromSr, clksrc := .timer }

/-- The same, with the overflow pending. -/
def overflowed : State := { sending with cnt := 0, ovf := true }

/-- The next state, where there is one. -/
def got : Host.Outcome State Fault Refusal → Option State
  | .next t => some t
  | .fault _ => none
  | .refused _ => none

/-- Bus bits as the vectors write them. -/
def bits (vs : List Nat) : List BusEvent := vs.map (fun v => .bit (v != 0))

/-! ### Vectors -/

/-- V-WRITE row 1. -/
theorem test_write_acknowledged :
    (got (exec (.i2cWrite 0x77 [0xF2, 0x01]) { q0 with env := writeSlots true [true, true] })).map
      (fun t => (t.busTrace, t.ret, t.sr, t.i2cIdx)) =
    some (.start :: bits [1,1,1,0,1,1,1,0, 0, 1,1,1,1,0,0,1,0, 0, 0,0,0,0,0,0,0,1, 0] ++ [.stop],
      .result .ok, 0x02, 2) := by
  decide +kernel

/-- V-WRITE row 5. -/
theorem test_write_data_refused :
    (got (exec (.i2cWrite 0x77 [0xF2, 0x01]) { q0 with env := writeSlots true [false, true] })).map
      (fun t => (t.busTrace, t.ret, t.sr, t.gie, t.csSaved)) =
    some (.start :: bits [1,1,1,0,1,1,1,0, 0, 1,1,1,1,0,0,1,0, 1] ++ [.stop], .result .errNoAck, 0xE5, true, []) := by
  decide +kernel

/-- V-READ row 2. -/
theorem test_read_two_bytes :
    (got (exec (.i2cRead 0x77 2) { q0 with env := readSlots [0xA5, 0x3C] })).map
      (fun t => (t.busTrace, t.ret, t.sr, t.mem)) =
    some (.start :: bits [1,1,1,0,1,1,1,1, 0, 1,0,1,0,0,1,0,1, 0, 0,0,1,1,1,1,0,0, 1] ++ [.stop], .result .ok, 0xFF,
      [(0, 0xA5), (1, 0x3C)]) := by decide +kernel

/-- V-READ row 4. -/
theorem test_read_refused :
    (got (exec (.i2cRead 0x77 2) q0)).map (fun t => (t.busTrace, t.ret, t.sr, t.mem)) =
    some (.start :: bits [1,1,1,0,1,1,1,1, 1] ++ [.stop], .result .errNoAck, 0xDF, []) := by decide +kernel

/-- V-UART-1, after the call. -/
theorem test_uartSend_from_idle :
    (got (exec (.uartSend 0x41) q0)).map
      (fun t => ((t.sr, t.cnt, t.uartState), (t.ovie, t.txdSrc, t.clksrc))) =
    some ((0xA0, 8, .pendingByte 0xBF), (true, .fromSr, .timer)) := by decide +kernel

/-- V-UART-5 row 3: it spins. -/
theorem test_uartSend_spins :
    (got (exec (.uartSend 0x42) sending)).map (fun t => (t.sr, t.uartState, t.fg)) =
    some (0xA0, .pendingByte 0xBF, sendLines) := by decide +kernel

/-- R60 (b): a read into a second buffer leaves the first. -/
theorem test_second_buffer :
    (got (exec (.i2cRead 0x77 2) { q0 with operandAt := 16, mem := [(0, 0x77)], env := readSlots [0xA5, 0x3C] })).map
      (fun t => t.mem) = some [(0, 0x77), (16, 0xA5), (17, 0x3C)] := by decide +kernel

/-- R69 (c): a byte of a string that the caller stores before its turn is sent with its new value. -/
theorem test_string_byte_changed_before_its_turn :
    ((got (step { sending with
        fg := nextBytes [.buffer 7], mem := [(7, 0x41)], callerStores := [[(7, 0x30)]] })).bind
      (fun t => got (step t))).map (fun t => (t.uartByte, t.fg)) =
    some (0x30, sendLines ++ drainLines) := by decide +kernel

/-- R194, R198 (c): a `CS_EXIT` leaves the handler due, so the store that the caller has listed waits. -/
theorem test_handler_due_before_the_caller_stores :
    (got (step { overflowed with
        gie := false, csSaved := [true], requests := [⟨.caller, .descriptor [0x31], 0⟩], callerStores := [[(0, 0xA5)]] })).map
      (fun t => (t.gie, t.mem, t.callerStores)) = some (true, [], [[(0, 0xA5)]]) := by decide +kernel

/-- P5: the first byte of the string starts at once. -/
theorem test_uartSendStr_starts :
    (got (exec (.uartSendStr [0x41, 0x42]) q0)).map (fun t => (t.sr, t.uartState)) =
    some (0xA0, .pendingByte 0xBF) := by decide +kernel

/-- R173, with two bytes before whatever the terminator is. -/
theorem test_uartSendLine_starts :
    (got (exec (.uartSendLine [0x0A, 0x30]) q0)).map (fun t => (t.sr, t.uartState)) =
    some (0x94, .pendingByte 0x3F) := by decide +kernel

/-- V-CS-1, V-CS-3 (the model lists the innermost saved state first). -/
theorem test_csEnter_nested :
    (got (exec .csEnter q0)).map (fun t => (t.gie, t.csSaved)) = some (false, [true]) ∧
    (got (exec .csEnter { q0 with gie := false, csSaved := [true] })).map (fun t => (t.gie, t.csSaved)) =
      some (false, [false, true]) := by decide +kernel

/-- V-CS-2, V-CS-4. -/
theorem test_csExit_nested :
    (got (exec .csExit { q0 with gie := false, csSaved := [true] })).map (fun t => (t.gie, t.csSaved)) =
      some (true, []) ∧
    (got (exec .csExit { q0 with gie := false, csSaved := [false, true] })).map (fun t => (t.gie, t.csSaved)) =
      some (false, [true]) := by decide +kernel

/-- V-CS-7. -/
theorem test_csExit_empty : exec .csExit q0 = .refused .noOpenSection := by rfl

/-- V-START-1. -/
theorem test_start :
    (got (exec .i2cStart { q0 with cnt := 5, sr := 0x12 })).map
      (fun t => ((t.busTrace, t.sclOut, t.sdaOut), (t.cnt, t.sr, t.ovf))) =
    some (([.start], .low, .low), (5, 0x12, false)) := by decide +kernel

/-- V-START-2. -/
theorem test_start_on_a_held_line :
    (got (exec .i2cStart { q0 with peerSdaLow := true })).map (fun t => (t.busTrace, t.sclOut, t.sdaOut)) =
    some ([], .low, .low) := by decide +kernel

/-- V-STOP-1. -/
theorem test_stop :
    (got (exec .i2cStop { q0 with sclOut := .low })).map (fun t => (t.busTrace, t.sclOut, t.sdaOut)) =
    some ([.stop], .released, .released) := by decide +kernel

/-- V-STOP-2. -/
theorem test_stop_after_master_nack :
    (got (exec .i2cStop { q0 with sclOut := .low, sdaOut := .fromSr, sr := 0xFF })).map (fun t => t.busTrace) =
    some [.stop] := by decide +kernel

/-- V-BITCLK row 4. -/
theorem test_bitClock :
    (got (exec .i2cBitClock { busy with sr := 0x77, cnt := 6, sdaOut := .fromSr })).map
      (fun t => (t.busTrace, t.din, t.cnt, t.sr, t.ovf)) = some (bits [0], false, 8, 0xEE, false) := by decide +kernel

/-- V-BITCLK row 8. -/
theorem test_bitClock_overflow :
    (got (exec .i2cBitClock { busy with sr := 0x77, cnt := 14, sdaOut := .fromSr })).map
      (fun t => (t.cnt, t.sr, t.ovf)) = some (0, 0xEE, true) := by decide +kernel

/-- V-WAIT-1: the fourth observation is at the fourth step. -/
theorem test_wait_returns :
    (got (exec .i2cWaitSclHigh { q0 with peerSclLow := true })).map (fun t => t.fg) = some [.waitScl] ∧
    (got (exec .i2cWaitSclHigh q0)).map (fun t => t.fg) = some [] := by decide +kernel

/-- V-XFER, `n` = 8 and 1. -/
theorem test_transfer_counts :
    (got (exec (.i2cXfer 8) busy)).map (fun t => (t.cnt, t.ovf, t.busTrace.length)) = some (0, true, 8) ∧
    (got (exec (.i2cXfer 1) busy)).map (fun t => (t.cnt, t.ovf, t.busTrace.length)) = some (0, true, 1) := by
  decide +kernel

/-- V-XFER, 2..7. -/
theorem test_transfer_of_seven_bits : exec (.i2cXfer 7) busy = .refused (.transferLength 7) := by rfl

/-- V-BITCLK, all of it. -/
theorem test_byteOut :
    (got (exec (.i2cByteOut 0xEE) busy)).map (fun t => (t.busTrace, t.sr, t.sclOut, t.cnt)) =
    some (bits [1,1,1,0,1,1,1,0], 0xEE, .low, 0) := by decide +kernel

/-- V-BYTEIN row 1. -/
theorem test_byteIn :
    (got (exec .i2cByteIn { busy with env := byteInSlots 0x5A })).map (fun t => (t.busTrace, t.ret)) =
    some (bits [0,1,0,1,1,0,1,0], .byte 0x5A) := by decide +kernel

/-- V-BYTEIN row 3, no peer driving. -/
theorem test_byteIn_nobody :
    (got (exec .i2cByteIn busy)).map (fun t => t.ret) = some (.byte 0xFF) := by decide +kernel

/-- V-ACK row 1. -/
theorem test_ackCheck_ack :
    (got (exec .i2cAckCheck { busy with sr := 0xEE, env := ackSlots true })).map
      (fun t => (t.busTrace, t.sr, t.i2cAckbit, t.cnt, t.ovf, t.sdaOut)) =
    some (bits [0], 0xDC, false, 0, true, .released) := by decide +kernel

/-- V-ACK row 2. -/
theorem test_ackCheck_nack :
    (got (exec .i2cAckCheck { busy with sr := 0xEE })).map (fun t => (t.busTrace, t.sr, t.i2cAckbit)) =
    some (bits [1], 0xDD, true) := by decide +kernel

/-- V-MACK rows 1 and 2. -/
theorem test_masterAck :
    (got (exec (.i2cMasterAck false) busy)).map (fun t => (t.busTrace, t.sr)) = some (bits [0], 0x00) ∧
    (got (exec (.i2cMasterAck true) busy)).map (fun t => (t.busTrace, t.sr)) = some (bits [1], 0xFF) := by
  decide +kernel

/-- V-MACK row 3. -/
theorem test_masterAck_overruled :
    (got (exec (.i2cMasterAck true) { busy with peerSdaLow := true })).map (fun t => (t.busTrace, t.sr)) =
    some (bits [0], 0xFE) := by decide +kernel

/-- R140, from `Q0`. -/
theorem test_open :
    (got (exec .i2cOpen { q0 with gie := false })).map (fun t => (t.busTrace, t.clksrc, t.i2cTxn, t.ovie)) =
    some ([.start], .strobe, .opened, false) := by decide +kernel

/-- R141, the end of P1. -/
theorem test_close :
    (got (exec .i2cClose busy)).map (fun t => (t.busTrace, t.clksrc, t.i2cTxn)) =
    some ([.stop], .off, .none) := by decide +kernel

/-- V-ADDR row 2, acknowledged. -/
theorem test_address_read :
    (got (exec (.i2cAddress true) { busy with i2cAddr := 0x77, env := byteOutSlots ++ ackSlots true })).map
      (fun t => (t.busTrace, t.i2cAckbit, t.i2cTxn, t.fg)) =
    some (bits [1,1,1,0,1,1,1,1, 0], false, .opened, []) := by decide +kernel

/-- V-ADDR row 9, and the error path of P4. -/
theorem test_address_refused :
    (got (exec (.i2cAddress false) { busy with i2cAddr := 0xF7 })).map
      (fun t => (t.busTrace, t.ret, t.i2cTxn, t.gie)) =
    some (bits [1,1,1,0,1,1,1,0, 1] ++ [.stop], .result .errNoAck, .none, true) := by decide +kernel

/-- V-UART-2, rows 0x0A and 0xAA. -/
theorem test_uartFrames :
    (got (exec (.uartFrames 0x0A) q0)).map (fun t => t.ret) = some (.frames 0x94 0x3F) ∧
    (got (exec (.uartFrames 0xAA) q0)).map (fun t => t.ret) = some (.frames 0x95 0x7F) := by decide +kernel

/-- P3, the wait before and after the character. -/
theorem test_uartWaitIdle :
    (got (exec .uartWaitIdle q0)).map (fun t => t.fg) = some [] ∧
    (got (exec .uartWaitIdle sending)).map (fun t => t.fg) = some drainLines := by decide +kernel

/-- V-UART-3 rows 1 and 2. -/
theorem test_timerCompare :
    (got (exec .timerCompare sending)).map (fun t => (t.cnt, t.ovf)) = some (9, false) ∧
    (got (exec .timerCompare { sending with sr := 0x80, cnt := 15 })).map (fun t => (t.cnt, t.ovf)) = some (0, true) ∧
    ∃ fill : Bool, (got (exec .timerCompare sending)).map (fun t => t.sr) = some (if fill then 0x41 else 0x40) := by
  refine ⟨by decide +kernel, by decide +kernel, Config.uartFill 0, ?_⟩
  show some (shiftIn 0xA0 (Config.uartFill 0)) = _
  cases Config.uartFill 0 <;> rfl

/-- V-UART-3 rows 3 and 4, V-RST-3. -/
theorem test_timerCompare_not_the_clock :
    (got (exec .timerCompare { q0 with sr := 0xA0, cnt := 8 })).map (fun t => (t.sr, t.cnt, t.ovf)) =
      some (0xA0, 8, false) ∧
    (got (exec .timerCompare { busy with sr := 0xA0, cnt := 8 })).map (fun t => (t.sr, t.cnt, t.ovf)) =
      some (0xA0, 8, false) := by decide +kernel

/-- V-UART-4 rows 2 and 3. -/
theorem test_interrupt_taken :
    (got (exec .usiOvfIrq { overflowed with uartState := .pendingByte 0x3F })).map
      (fun t => ((t.sr, t.cnt, t.ovf, t.uartState), (t.gie, t.inIsr, txdLine t))) =
      some ((0x3F, 8, false, .awaitingStop), (true, false, false)) ∧
    (got (exec .usiOvfIrq { overflowed with uartState := .awaitingStop })).map
      (fun t => ((t.clksrc, t.ovie, t.txdSrc), (t.ovf, t.uartState, txdLine t))) =
      some ((.off, false, .idleHigh), (false, .idle, true)) := by decide +kernel

/-- V-UART-4 rows 4 and 5. -/
theorem test_interrupt_not_taken_or_fault :
    (got (exec .usiOvfIrq { overflowed with uartState := .awaitingStop, gie := false })).map
      (fun t => (t.uartState, t.ovf)) = some (.awaitingStop, true) ∧
    exec .usiOvfIrq { overflowed with uartState := .idle } = .fault .handlerInIdle := by
  refine ⟨by decide +kernel, rfl⟩

/-- V-RST-2: the first step is the boot. -/
theorem test_boot :
    (got (step State.reset)).map (fun t => ((t.periphInit, t.gie, t.tmode), (t.clksrc, t.uartState, t.fg))) =
    some ((true, true, .freeRunCompare), (.off, .idle, [])) := by decide +kernel

/-- R10, R148 (f): a step performs a call on a buffer of 256 bytes. -/
theorem test_step_performs_a_call_of_256_bytes :
    (got (step { q0 with requests := [⟨.caller, .call (.uartSendStr (List.replicate 256 0x41)), 0⟩] })).map
      (fun t => (t.uartState, t.requests, t.fg == sendStrLines (Machine.bufferBytes 1 255), Memory.read t.mem 255)) =
    some (.pendingByte 0xBF, [], true, 0x41) := by decide +kernel

/-- A word placed where the step fetches runs as the next step. -/
theorem test_fetch_word :
    (got (step (State.reset.withFetchWord 16 0x4120))).map (fun t => (t.sr, t.uartState, t.requests)) =
    some (0xA0, .pendingByte 0xBF, []) := by decide +kernel

/-! ### For every statement with hypotheses, a state and operands that meet them

Each theorem is named after the statement; several clauses have several witnesses, at the ends of their ranges. -/

theorem witness_DecodeReadsBackEncode :
    (Instr.i2cWrite 0x77 (List.replicate 255 0)).wellFormed = true ∧ (Instr.i2cRead 0x77 255).wellFormed = true ∧
    (Instr.i2cXfer 1).wellFormed = true ∧ (Instr.i2cXfer 8).wellFormed = true ∧ Instr.usiOvfIrq.wellFormed = true := by
  decide +kernel

theorem witness_DecodeReadsOnlyDescriptors :
    decode [0x22, 0x01, 0x0A, 0x30] = .ok (.uartSendLine [0x0A], [0x30]) := by rfl

theorem witness_CallerPresentsCommandsOnly_undecodable :
    ∃ s : State, s.requests = ⟨.caller, .descriptor [0x99], 0⟩ :: [] ∧ fgHeld s = false ∧ s.fg = [] ∧
      decode [0x99] = .error .unknownOpcode :=
  ⟨{ q0 with requests := [⟨.caller, .descriptor [0x99], 0⟩] }, rfl, rfl, rfl, rfl⟩

theorem witness_CallerPresentsCommandsOnly_microoperation :
    ∃ s : State, s.requests = ⟨.caller, .descriptor [0x40], 0⟩ :: [] ∧ fgHeld s = false ∧ s.fg = [] ∧
      decode [0x40] = .ok (.i2cStart, []) ∧ Instr.i2cStart.format ≠ .cmd :=
  ⟨{ q0 with requests := [⟨.caller, .descriptor [0x40], 0⟩] }, rfl, rfl, rfl, rfl, by decide⟩

theorem witness_CallerPresentsCommandsOnly_call :
    ∃ s : State, s.requests = ⟨.caller, .call .i2cStart, 0⟩ :: [] ∧ fgHeld s = false ∧ s.fg = [] ∧
      Instr.i2cStart.format ≠ .cmd :=
  ⟨{ q0 with requests := [⟨.caller, .call .i2cStart, 0⟩] }, rfl, rfl, rfl, by decide⟩

theorem witness_StepPerformsTheDecodedOperation_foreground :
    ∃ s : State, s.requests = ⟨.caller, .descriptor (encode (.uartSend 0x41) ++ []), 7⟩ :: [] ∧
      (Instr.uartSend 0x41).wellFormed = true ∧ (Instr.uartSend 0x41).format = Origin.caller.presents ∧
      fgHeld s = false ∧ s.fg = [] :=
  ⟨{ q0 with requests := [⟨.caller, .descriptor [0x20, 0x41], 7⟩] }, rfl, rfl, rfl, rfl, rfl⟩

theorem witness_StepPerformsTheDecodedOperation_hardware :
    ∃ s : State, s.requests = ⟨.hardware, .descriptor (encode .timerCompare ++ []), 0⟩ :: [] ∧ s.fg ≠ [] ∧
      Instr.timerCompare.wellFormed = true ∧ Instr.timerCompare.format = Origin.hardware.presents :=
  ⟨{ q0 with fg := [.waitScl], requests := [⟨.hardware, .descriptor [0x60], 0⟩] }, rfl, by decide, rfl, rfl⟩

/-- A call with a buffer that no descriptor carries. -/
theorem witness_StepPerformsTheDecodedOperation_call :
    ∃ s : State, s.requests = ⟨.caller, .call (.i2cRead 0x77 256), 7⟩ :: [] ∧
      (Instr.i2cRead 0x77 256).wellFormed = false ∧ (Instr.i2cRead 0x77 256).format = Origin.caller.presents ∧
      fgHeld s = false ∧ s.fg = [] :=
  ⟨{ q0 with requests := [⟨.caller, .call (.i2cRead 0x77 256), 7⟩] }, rfl, by decide, rfl, rfl, rfl⟩

theorem witness_HandlerRunsBeforeForeground_due :
    overflowed.inIsr = false ∧ (∀ r ∈ overflowed.requests.head?, r.origin ≠ .hardware) ∧ overflowed.ovf = true ∧
    overflowed.ovie = true ∧ overflowed.gie = true := by
  exact ⟨rfl, (fun _ h => nomatch (show (none : Option Request) = some _ from h)), rfl, rfl, rfl⟩

theorem witness_HandlerRunsBeforeForeground_not_due :
    ∃ s : State, s.inIsr = false ∧ (∀ r ∈ s.requests.head?, r.origin ≠ .hardware) ∧
      ¬(s.ovf = true ∧ s.ovie = true ∧ s.gie = true) ∧ s.fg ≠ [] :=
  ⟨State.reset, rfl, by simp [State.reset], by decide, by decide⟩

/-- The state that a `CS_EXIT` leaves with an overflow pending, and one inside the handler, each with a store listed. -/
theorem witness_HandlerRunsBeforeForeground_caller :
    (∃ s t : State, exec .csExit s = .next t ∧ t.ovf = true ∧ t.ovie = true ∧ t.gie = true ∧ t.callerStores ≠ []) ∧
    (∃ s : State, s.inIsr = true ∧ s.gie = false ∧ s.callerStores ≠ []) :=
  ⟨⟨{ overflowed with gie := false, csSaved := [true], callerStores := [[(0, 0xA5)]] }, _, rfl, rfl, rfl, rfl,
    by simp [exitSection]⟩, { overflowed with inIsr := true, gie := false, callerStores := [[(0, 0xA5)]] }, by decide⟩

theorem witness_PreloadOverflowsAfterTwoEdgesPerBit_ends : (1 = 1 ∨ 1 = 8) ∧ (8 = 1 ∨ 8 = 8) := by decide

theorem witness_PreloadOverflowsAfterTwoEdgesPerBit_clock :
    Uninterrupted busy ∧ NoStretch busy ∧ busy.clksrc = .strobe := ⟨⟨rfl, .inl rfl⟩, ⟨rfl, nofun⟩, rfl⟩

theorem witness_PreloadOverflowsAfterTwoEdgesPerBit_lists :
    Line.preload 1 ∈ writeLines 0x77 0 ++ readLines 0x77 1 ∧ Line.preload 8 ∈ writeLines 0x77 0 ++ readLines 0x77 1 ∧
    (0 ≠ 1 ∧ 0 ≠ 8) ∧ (2 ≠ 1 ∧ 2 ≠ 8) ∧ (7 ≠ 1 ∧ 7 ≠ 8) ∧ (9 ≠ 1 ∧ 9 ≠ 8) := by decide +kernel

theorem witness_StoredByteReadsBack : Memory.wf [(0, 1), (255, 7)] = true := by decide

theorem witness_CanonicalMemoriesAreExtensional :
    Memory.wf [(3, 1)] = true ∧ ∀ i, Memory.read [(3, 1)] i = Memory.read [(3, 1)] i := ⟨by decide, fun _ => rfl⟩

theorem witness_CommandsRefusedBeforeBoot : State.reset.periphInit = false := rfl

theorem witness_PeripheralHandleIsNeverDestroyed : ∃ t, step q0 = .next t ∧ q0.periphInit = true := ⟨_, rfl, rfl⟩

theorem witness_CsExitRestoresOrIsRefused_empty : q0.csSaved = [] := rfl

theorem witness_CsExitRestoresOrIsRefused_pop :
    ∃ s : State, s.csSaved = false :: [true] ∧
      exec .csExit s = .next { s with gie := false, csSaved := [true] } :=
  ⟨{ q0 with gie := false, csSaved := [false, true] }, rfl, rfl⟩

theorem witness_CsExitRestoresOrIsRefused_due :
    ∃ s : State, s.csSaved = true :: [] ∧ s.ovf = true ∧ s.ovie = true ∧ s.inIsr = false ∧
      ∀ r ∈ s.requests.head?, r.origin ≠ .hardware :=
  ⟨{ overflowed with gie := false, csSaved := [true] }, rfl, rfl, rfl, rfl,
    fun _ h => nomatch (show (none : Option Request) = some _ from h)⟩

theorem witness_SectionDoesNotStopTheTimer : ∃ t, exec .timerCompare sending = .next t := ⟨_, rfl⟩

theorem witness_WaitSclHighSpins_high : fgHeld q0 = false ∧ sclLine q0 = true := by decide

/-- The master has released `SCL` (R122's precondition) and `PEER` stretches it. -/
theorem witness_WaitSclHighSpins_low :
    ∃ s : State, s.sclOut = .released ∧ s.peerSclLow = true ∧ fgHeld s = false ∧ sclLine s = false :=
  ⟨{ q0 with peerSclLow := true }, by decide⟩

/-- A start condition's wait under way, `SCL` still held low and at last released. -/
theorem witness_WaitSclHighSpins_under_way :
    (∃ s : State, s.fg = .waitScl :: startLines.tail.tail ∧ fgHeld s = false ∧ s.peerSclLow = true ∧
      sclLine s = false) ∧
    (∃ s : State, s.fg = .waitScl :: startLines.tail.tail ∧ fgHeld s = false ∧ sclLine s = true) :=
  ⟨⟨{ q0 with fg := .waitScl :: startLines.tail.tail, peerSclLow := true }, by decide⟩,
    { q0 with fg := .waitScl :: startLines.tail.tail }, by decide⟩

/-- A bit-clock's wait under way, at a counter that the edge overflows. -/
theorem witness_WaitSclHighSpins_bit_clock :
    (∃ s : State, s.fg = .riseSample :: [.delayHigh, .sclLow, .fallShift] ∧ fgHeld s = false ∧ s.sclOut = .released ∧
      sclLine s = false) ∧
    (∃ s : State, s.fg = .riseSample :: [.delayHigh, .sclLow, .fallShift] ∧ fgHeld s = false ∧ sclLine s = true ∧
      s.clksrc = .strobe ∧ s.overlap = false ∧ s.cnt = 15) :=
  ⟨⟨{ busy with fg := .riseSample :: [.delayHigh, .sclLow, .fallShift], sclOut := .released, peerSclLow := true },
      by decide⟩,
    { busy with fg := .riseSample :: [.delayHigh, .sclLow, .fallShift], sclOut := .released, cnt := 15 }, by decide⟩

theorem witness_StartConditionFromIdleBus_free :
    fgHeld q0 = false ∧ q0.env = [] ∧ q0.sclOut = .released ∧ q0.sdaOut = .released ∧ q0.peerSclLow = false ∧
    q0.peerSdaLow = false := by decide

theorem witness_StartConditionFromIdleBus_held :
    ∃ s : State, fgHeld s = false ∧ s.env = [] ∧ s.sclOut = .released ∧ s.sdaOut = .released ∧ s.peerSclLow = false ∧
      s.peerSdaLow = true ∧ s.busRise = none := ⟨{ q0 with peerSdaLow := true }, by decide⟩

theorem witness_StopConditionReleasesTheBus_free :
    fgHeld busy = false ∧ busy.env = [] ∧ busy.sclOut = .low ∧ busy.peerSclLow = false ∧ busy.overlap = false ∧
    busy.peerSdaLow = false := by decide

theorem witness_StopConditionReleasesTheBus_held :
    ∃ s : State, fgHeld s = false ∧ s.env = [] ∧ s.sclOut = .low ∧ s.peerSclLow = false ∧ s.overlap = false ∧
      s.peerSdaLow = true := ⟨{ busy with peerSdaLow := true }, by decide⟩

/-- The state `busy` inside a transaction meets what the micro-operations' statements ask. -/
theorem busy_uninterrupted : Uninterrupted busy := ⟨rfl, .inl rfl⟩

/-- `PEER` does not stretch in a state whose inputs are quiet. -/
theorem quiet_noStretch {s : State} (h : s.peerSclLow = false) (he : s.env = []) : NoStretch s :=
  ⟨h, by simp [he]⟩

theorem witness_BitClockSamplesAndShifts :
    Uninterrupted busy ∧ busy.env = [] ∧ busy.clksrc = .strobe ∧ busy.sclOut = .low ∧ busy.peerSclLow = false ∧
    busy.overlap = false := ⟨busy_uninterrupted, by decide⟩

theorem witness_TransferRunsUntilOverflow :
    ((1 = 1 ∨ 1 = 8) ∧ (8 = 1 ∨ 8 = 8)) ∧ Uninterrupted busy ∧ NoStretch busy ∧ busy.clksrc = .strobe :=
  ⟨by decide, busy_uninterrupted, quiet_noStretch rfl rfl, rfl⟩

/-- `PEER` moves at every instant it may: the edges of the ranges that `SdaSteadyWhileHigh` leaves out. -/
theorem witness_TransferRunsUntilOverflow_bits :
    ∃ s : State, Uninterrupted s ∧ NoStretch s ∧ s.clksrc = .strobe ∧ s.sclOut = .low ∧ s.overlap = false ∧
      SdaSteadyWhileHigh 1 s ∧ s.env ≠ [] := by
  refine ⟨{ busy with env := [[.peerSda true], [.peerSda false], [], [], [], [.peerSda true]] }, ⟨rfl, .inl rfl⟩,
    ⟨rfl, by simp⟩, rfl, rfl, rfl, ?_, by simp⟩
  intro i low hi h
  have : i = 2 ∨ i = 3 ∨ i = 4 := by omega
  obtain rfl | rfl | rfl := this <;> simp

theorem witness_ByteOutCrossesTheBus :
    Uninterrupted busy ∧ busy.env = [] ∧ busy.clksrc = .strobe ∧ busy.sclOut = .low ∧ busy.peerSclLow = false ∧
    busy.peerSdaLow = false ∧ busy.overlap = false := ⟨busy_uninterrupted, by decide⟩

theorem witness_ByteInReceivesWhatPeerPresents :
    ∃ s : State, Uninterrupted s ∧ s.env = byteInSlots 0x5A ∧ s.clksrc = .strobe ∧ s.sclOut = .low ∧
      s.peerSclLow = false ∧ s.overlap = false :=
  ⟨{ busy with env := byteInSlots 0x5A }, ⟨rfl, .inl rfl⟩, rfl, rfl, rfl, rfl, rfl⟩

theorem witness_AckCheckReadsTheAnswer :
    Uninterrupted busy ∧ busy.env = [] ∧ busy.clksrc = .strobe ∧ busy.sclOut = .low ∧ busy.peerSclLow = false ∧
    busy.overlap = false := ⟨busy_uninterrupted, by decide⟩

theorem witness_MasterAckDrivesItsBit :
    Uninterrupted busy ∧ busy.env = [] ∧ busy.clksrc = .strobe ∧ busy.sclOut = .low ∧ busy.peerSclLow = false ∧
    busy.overlap = false := ⟨busy_uninterrupted, by decide⟩

theorem witness_PrimitivesReturnWithoutStretching :
    Uninterrupted busy ∧ NoStretch busy ∧ busy.clksrc = .strobe :=
  ⟨busy_uninterrupted, quiet_noStretch rfl rfl, rfl⟩

theorem witness_PrimitivesFrame_framing : busy.clksrc ≠ .timer ∧
    (∃ t, exec .i2cStart busy = .next t) ∧ (∃ t, exec .i2cStop busy = .next t) := by
  refine ⟨by decide, ?_, ?_⟩ <;> exact ⟨_, rfl⟩

theorem witness_PrimitivesFrame_clocks :
    (∃ t, exec .i2cBitClock busy = .next t) ∧ (∃ t, exec .i2cWaitSclHigh busy = .next t) ∧
    (∃ t, exec (.i2cXfer 8) busy = .next t) := by
  refine ⟨?_, ?_, ?_⟩ <;> exact ⟨_, rfl⟩

theorem witness_PrimitivesFrame_bytes :
    (∃ t, exec (.i2cByteOut 0xEE) busy = .next t) ∧ (∃ t, exec .i2cByteIn busy = .next t) ∧
    (∃ t, exec .i2cAckCheck busy = .next t) ∧ (∃ t, exec (.i2cMasterAck true) busy = .next t) := by
  refine ⟨?_, ?_, ?_, ?_⟩ <;> exact ⟨_, rfl⟩

theorem witness_OpenTakesTheSharedResource : fgHeld q0 = false ∧ NoStretch q0 ∧ q0.clksrc ≠ .timer :=
  ⟨rfl, quiet_noStretch rfl rfl, by decide⟩

theorem witness_CloseGivesTheResourceBack : Uninterrupted busy ∧ NoStretch busy ∧ busy.clksrc ≠ .timer :=
  ⟨busy_uninterrupted, quiet_noStretch rfl rfl, by decide⟩

theorem witness_AddressPhaseAcknowledgedOrAborts_acknowledged :
    ∃ s : State, s.inIsr = false ∧ s.ovie = false ∧ s.clksrc = .strobe ∧ s.sclOut = .low ∧ s.peerSclLow = false ∧
      s.peerSdaLow = false ∧ s.overlap = false ∧ s.env = byteOutSlots ++ ackSlots true :=
  ⟨{ busy with env := byteOutSlots ++ ackSlots true }, rfl, rfl, rfl, rfl, rfl, rfl, rfl, rfl⟩

theorem witness_AddressPhaseAcknowledgedOrAborts_refused :
    busy.inIsr = false ∧ busy.ovie = false ∧ busy.clksrc = .strobe ∧ busy.sclOut = .low ∧ busy.peerSclLow = false ∧
    busy.peerSdaLow = false ∧ busy.overlap = false ∧ busy.env = [] ∧ busy.csSaved = true :: [] := by decide

theorem witness_WriteReturns : q0.periphInit = true ∧ fgHeld q0 = false ∧ NoStretch q0 :=
  ⟨rfl, rfl, quiet_noStretch rfl rfl⟩

theorem witness_ReadReturns : q0.periphInit = true ∧ fgHeld q0 = false ∧ NoStretch q0 :=
  ⟨rfl, rfl, quiet_noStretch rfl rfl⟩

theorem witness_TransactionsStoreOnlyInTheBuffer_write :
    ∃ s t, exec (.i2cWrite 0x77 [0xF2, 0x01]) s = .next t ∧ Memory.wf s.mem = true ∧ s.operandAt = 3 ∧ (1 < 2) ∧
      (2 < 3 ∨ 3 + 2 ≤ 2) ∧ (5 < 3 ∨ 3 + 2 ≤ 5) :=
  ⟨{ q0 with operandAt := 3 }, _, rfl, rfl, rfl, by decide, by decide, by decide⟩

theorem witness_TransactionsStoreOnlyInTheBuffer_read :
    (∃ t, exec (.i2cRead 0x77 2) q0 = .next t) ∧ (2 < 0 ∨ 0 + 2 ≤ 2) := ⟨⟨_, rfl⟩, by decide⟩

theorem witness_TransactionsStoreOnlyInTheBuffer_waiting :
    ∃ s : State, s.fg ≠ [] ∧ s.csSaved ≠ [] ∧ s.callerStores ≠ [] :=
  ⟨{ busy with fg := [.waitScl], callerStores := [[(0, 0xA5)]] }, by decide⟩

theorem witness_WriteOnTheWire (ack : Bool) :
    ∃ s : State, s.periphInit = true ∧ fgHeld s = false ∧ IdleBus s ∧ s.uartState = .idle ∧
      Memory.wf s.mem = true ∧ s.env = writeSlots ack ([((0xF2 : Byte), true), (0x01, false)].map (·.2)) :=
  ⟨{ q0 with env := writeSlots ack [true, false] }, rfl, rfl, ⟨rfl, rfl, rfl, rfl, rfl⟩, rfl, rfl, rfl⟩

theorem witness_ReadOnTheWire :
    ∃ s : State, s.periphInit = true ∧ fgHeld s = false ∧ IdleBus s ∧ s.uartState = .idle ∧ Memory.wf s.mem = true ∧
      s.env = readSlots [0xA5, 0x3C] :=
  ⟨{ q0 with env := readSlots [0xA5, 0x3C] }, rfl, rfl, ⟨rfl, rfl, rfl, rfl, rfl⟩, rfl, rfl, rfl⟩

theorem witness_ReadOnTheWire_refused :
    ∃ s : State, s.periphInit = true ∧ fgHeld s = false ∧ IdleBus s ∧ s.uartState = .idle ∧ s.env = refusedSlots :=
  ⟨{ q0 with env := refusedSlots }, rfl, rfl, ⟨rfl, rfl, rfl, rfl, rfl⟩, rfl, rfl⟩

theorem witness_TransactionBitClocksAndDuration_acknowledged :
    ∃ s : State, IdleBus s ∧ Memory.wf s.mem = true ∧ s.env = writeSlots true ([((0xF2 : Byte), true)].map (·.2)) ∧
      allAcked true [((0xF2 : Byte), true)] = true :=
  ⟨{ q0 with env := writeSlots true [true] }, ⟨rfl, rfl, rfl, rfl, rfl⟩, rfl, rfl, rfl⟩

/-- The first slot and the last. -/
theorem witness_TransactionBitClocksAndDuration_refused :
    ([false, true][0]? = some false ∧ ∀ j < 0, [false, true][j]? = some true) ∧
    ([true, false][1]? = some false ∧ ∀ j < 1, [true, false][j]? = some true) := by decide

theorem witness_TransactionBitClocksAndDuration_read :
    (∃ s : State, s.periphInit = true ∧ fgHeld s = false ∧ s.uartState = .idle ∧ s.env = readSlots []) ∧
    (∃ s : State, s.periphInit = true ∧ fgHeld s = false ∧ s.uartState = .idle ∧ s.env = refusedSlots) :=
  ⟨⟨{ q0 with env := readSlots [] }, by decide +kernel⟩, ⟨{ q0 with env := refusedSlots }, by decide +kernel⟩⟩

theorem witness_UartSendStartsFromIdle :
    q0.periphInit = true ∧ fgHeld q0 = false ∧ q0.env = [] ∧ q0.uartState = .idle ∧ q0.sdaOut ≠ .fromSr := by decide

theorem witness_UartSendStartsWhateverOthersDo :
    q0.periphInit = true ∧ fgHeld q0 = false ∧ q0.uartState = .idle := by decide

theorem witness_UartSendWaitsWhileBusy :
    sending.periphInit = true ∧ fgHeld sending = false ∧ sending.env = [] ∧ sending.uartState ≠ .idle := by decide

/-- A `uart_send` that has waited, its operand sampled, while the character under way is still being sent. -/
theorem witness_UartSendWaitsWhileBusy_still_waiting :
    ∃ s : State, s.fg = sendLines ++ drainLines ∧ s.uartByte = 0x42 ∧ fgHeld s = false ∧ s.env = [] ∧
      s.uartState ≠ .idle := ⟨{ sending with fg := sendLines ++ drainLines, uartByte := 0x42 }, by decide⟩

theorem witness_UartSendWaitsWhileBusy_back_edge :
    ∃ s : State, s.fg = .spinBack :: .scopeEnd .busy :: startWrites ++ .csExit :: [] ∧ fgHeld s = false :=
  ⟨{ sending with fg := .spinBack :: .scopeEnd .busy :: startWrites ++ .csExit :: [] }, by decide⟩

/-- The same when the UART has come to `Idle`, alone and inside a string. -/
theorem witness_UartSendWaitsWhileBusy_waited :
    (∃ s : State, s.fg = sendLines ∧ s.uartByte = 0x42 ∧ fgHeld s = false ∧ s.env = [] ∧ s.uartState = .idle ∧
      s.sdaOut ≠ .fromSr) ∧
    (∃ s : State, s.fg = sendLines ++ drainLines ∧ fgHeld s = false ∧ s.env ≠ [] ∧ s.uartState = .idle) :=
  ⟨⟨{ q0 with fg := sendLines, uartByte := 0x42 }, by decide⟩,
    { q0 with fg := sendLines ++ drainLines, env := [[.tick]] }, by decide⟩

/-- With the timer ticking between the lines of the check. -/
theorem witness_UartSendWaitsWhileBusy_ticking :
    ∃ s : State, s.fg = sendLines ++ [] ∧ s.periphInit = true ∧ fgHeld s = false ∧ s.env ≠ [] ∧ s.uartState ≠ .idle :=
  ⟨{ sending with fg := sendLines, env := [[.tick]] }, by decide⟩

theorem witness_DrainWaitReturnsInIdleOnly_idle : fgHeld q0 = false ∧ q0.env = [] ∧ q0.uartState = .idle := by decide
theorem witness_DrainWaitReturnsInIdleOnly_busy :
    fgHeld sending = false ∧ sending.env = [] ∧ sending.uartState ≠ .idle := by decide

/-- A drain wait under way, alone and as part of an operation, the UART still busy and come to `Idle`. -/
theorem witness_DrainWaitReturnsInIdleOnly_waited :
    (∃ s : State, s.fg = drainLines ∧ fgHeld s = false ∧ s.env = [] ∧ s.uartState = .idle) ∧
    (∃ s : State, s.fg = drainLines ++ sendLines ∧ fgHeld s = false ∧ s.env ≠ [] ∧ s.uartState = .idle) ∧
    (∃ s : State, s.fg = drainLines ++ [] ∧ fgHeld s = false ∧ s.env = [] ∧ s.uartState ≠ .idle) ∧
    (∃ s : State, s.fg = drainLines ++ [] ∧ fgHeld s = false ∧ s.env ≠ [] ∧ s.uartState ≠ .idle) :=
  ⟨⟨{ q0 with fg := drainLines }, by decide⟩, ⟨{ q0 with fg := drainLines ++ sendLines, env := [[.tick]] }, by decide⟩,
    ⟨{ sending with fg := drainLines }, by decide⟩, { sending with fg := drainLines, env := [[.tick]] }, by decide⟩

theorem witness_DrainWaitReturnsInIdleOnly_back_edge :
    ∃ s : State, s.fg = .spinBack :: .scopeEnd .busy :: .csExit :: [] ∧ fgHeld s = false :=
  ⟨{ sending with fg := [.spinBack, .scopeEnd .busy, .csExit] }, by decide⟩

theorem witness_StringSendsItsFirstByteThenTheRest :
    fgHeld q0 = false ∧ q0.env = [] ∧ q0.uartState = .idle ∧ q0.sdaOut ≠ .fromSr ∧ q0.periphInit = true ∧
    Memory.wf q0.mem = true := by decide

theorem witness_StringSendsItsFirstByteThenTheRest_waiting :
    ∃ s : State, fgHeld s = false ∧ s.env = [] ∧ s.uartState = .idle ∧ s.sdaOut ≠ .fromSr ∧
      s.fg = sendStrLines (.buffer 3 :: []) :=
  ⟨{ q0 with fg := sendStrLines [.buffer 3] }, rfl, rfl, rfl, by decide, rfl⟩

/-- The ordinary string: its next byte's turn comes while the character before it is under way. -/
theorem witness_StringSendsItsFirstByteThenTheRest_busy :
    (∃ s : State, fgHeld s = false ∧ s.env = [] ∧ s.uartState ≠ .idle ∧ s.periphInit = true ∧
      Memory.wf s.mem = true ∧ s.fg = sendStrLines (.buffer 3 :: [])) ∧
    (∃ s : State, fgHeld s = false ∧ s.env ≠ [] ∧ s.uartState ≠ .idle ∧ s.fg = sendStrLines (.buffer 3 :: [])) ∧
    (∃ s : State, fgHeld s = false ∧ s.uartState ≠ .idle ∧ s.fg = nextBytes (.buffer 3 :: [.value 0x0A])) :=
  ⟨⟨{ sending with fg := sendStrLines [.buffer 3] }, by decide⟩,
    ⟨{ sending with fg := sendStrLines [.buffer 3], env := [[.tick]] }, by decide⟩,
    { sending with fg := nextBytes [.buffer 3, .value 0x0A] }, by decide⟩

/-- A byte of a string that has waited, the UART come to `Idle`: the last one, and one before another. -/
theorem witness_StringSendsItsFirstByteThenTheRest_waited :
    (∃ s : State, fgHeld s = false ∧ s.env = [] ∧ s.uartState = .idle ∧ s.sdaOut ≠ .fromSr ∧
      s.fg = sendLines ++ nextBytes []) ∧
    (∃ s : State, fgHeld s = false ∧ s.env = [] ∧ s.uartState = .idle ∧ s.sdaOut ≠ .fromSr ∧
      s.fg = sendLines ++ nextBytes [.buffer 4]) :=
  ⟨⟨{ q0 with fg := sendLines ++ nextBytes [] }, by decide⟩,
    { q0 with fg := sendLines ++ nextBytes [.buffer 4] }, by decide⟩

/-- The two clauses on an empty line: one of them applies, whatever the terminator is. -/
theorem witness_StringSendsItsFirstByteThenTheRest_terminator :
    Config.pLineTerminator = [] ∨ ∃ b bs, Config.pLineTerminator = b :: bs := by
  cases h : Config.pLineTerminator with
  | nil => exact .inl rfl
  | cons b bs => exact .inr ⟨b, bs, rfl⟩

theorem witness_CompareEventsAreTcmpTicksApart_first :
    ∃ s : State, s.tmode = .freeRunCompare ∧ s.tcnt = 0 ∧ s.tcmp ≠ 0 ∧ 0 < s.tcmp.toNat :=
  ⟨{ q0 with tcmp := 1 }, by decide⟩

theorem witness_CompareEventsAreTcmpTicksApart_last :
    ∃ s : State, s.tmode = .freeRunCompare ∧ s.tcnt = 0 ∧ s.tcmp ≠ 0 ∧ 254 < s.tcmp.toNat :=
  ⟨{ q0 with tcmp := 255 }, by decide⟩

theorem witness_CompareEventsAreTcmpTicksApart_stopped : State.reset.tmode = .stopped := rfl

/-- The character under way meets the model's invariant, whatever the schedule. -/
theorem overflowed_inv_env (e : List (List EnvMove)) : Inv { overflowed with env := e } where
  memory := rfl
  noHalfHandler := rfl
  sections := fun h => absurd rfl h
  enabledOnlyBusy := fun _ => show overflowed.uartState ≠ .idle by decide
  clockedOnlyBusy := fun _ => ⟨rfl, rfl⟩
  pendingIsSecondFrame := fun f h => ⟨0x41, by cases h; decide⟩
  position := .inr .done

theorem overflowed_inv : Inv overflowed := overflowed_inv_env []

/-- With the timer listed to run on for ever, the handler due. -/
theorem witness_CompareEventsAreTcmpTicksApart_fair :
    ∃ s t : State, TimerFair s ∧ step s = .next t ∧ Inv s ∧ s.requests = [] :=
  ⟨{ overflowed with env := [[], [.freeRun]] }, _, ⟨rfl, rfl, [.freeRun], by simp, by simp⟩, rfl,
    overflowed_inv_env _, rfl⟩

theorem witness_CompareEventShiftsUnderTimerClock : sending.clksrc = .timer ∧ q0.clksrc ≠ .timer := by decide

theorem witness_HandlerLoadsSecondFrame :
    irqPending overflowed = true ∧ overflowed.uartState = .pendingByte 0xBF ∧ overflowed.env = [] ∧
    overflowed.sdaOut ≠ .fromSr ∧ overflowed.txdSrc = .fromSr := by decide

theorem witness_HandlerEndsTheCharacter :
    ∃ s : State, irqPending s = true ∧ s.uartState = .awaitingStop ∧ s.env = [] :=
  ⟨{ overflowed with uartState := .awaitingStop }, by decide⟩

theorem witness_InterruptInIdleFaultsAndUndueChangesNothing_idle :
    ∃ s : State, irqPending s = true ∧ s.uartState = .idle :=
  ⟨{ overflowed with uartState := .idle }, by decide⟩

theorem witness_InterruptInIdleFaultsAndUndueChangesNothing_undue :
    ¬(sending.ovf = true ∧ sending.ovie = true ∧ sending.gie = true ∧ sending.inIsr = false) := by decide

theorem witness_InterruptResumesForegroundUnchanged_pending :
    irqPending overflowed = true ∧ overflowed.uartState ≠ .idle ∧ overflowed.uartState = .pendingByte 0xBF := by decide

theorem witness_InterruptResumesForegroundUnchanged_awaiting :
    ∃ s : State, irqPending s = true ∧ s.uartState ≠ .idle ∧ s.uartState = .awaitingStop :=
  ⟨{ overflowed with uartState := .awaitingStop }, by decide⟩

theorem witness_CharacterOnTheWire :
    ∃ s : State, s.periphInit = true ∧ fgHeld s = false ∧ s.env = [] ∧ s.uartState = .idle ∧ s.sdaOut ≠ .fromSr ∧
      s.overlap = false ∧ s.gie = true ∧ s.slotOpen = true := ⟨{ q0 with slotOpen := true }, by decide⟩

theorem witness_StepKeepsInvariant : ∃ t, Inv overflowed ∧ step overflowed = .next t := ⟨_, overflowed_inv, rfl⟩

theorem witness_InvariantExcludesFaults : Inv overflowed := overflowed_inv

theorem witness_UartStateTransitions : ∃ t, Inv overflowed ∧ step overflowed = .next t ∧ t.uartState = .awaitingStop :=
  ⟨_, overflowed_inv, rfl, rfl⟩

/-- `Q0` with a write waiting meets the exclusion's premises, D-MUTEX among them. -/
theorem witness_CommandsKeepEngineExclusion_taken :
    ∃ s t, Exclusive s ∧ KeepsDuties s ∧ nextMove s ≠ .idle ∧ step s = .next t ∧ t.requests = [] := by
  refine ⟨{ q0 with requests := [⟨.caller, .descriptor [0x10, 0x3C, 0x00], 0⟩] }, _, ⟨rfl, fun h => ?_, ⟨fun h => ?_, fun _ => ?_⟩,
    .inl ⟨.done, rfl⟩⟩, ?_, ?_, rfl, rfl⟩
  · exact absurd (show I2cTxn.none = .opened from h) (by decide)
  · exact absurd rfl h
  · exact ⟨rfl, by decide⟩
  · rintro r rest i h h'
    cases h
    cases h'
    exact ⟨by decide, rfl⟩
  · exact fun h => nomatch h

/-- A transaction that waits at a stretched clock, inside its first byte. -/
theorem witness_CommandsKeepEngineExclusion_waiting :
    ∃ s t, Exclusive s ∧ KeepsDuties s ∧ s.i2cTxn = .opened ∧ s.fg ≠ [] ∧ step s = .next t := by
  refine ⟨{ busy with peerSclLow := true, fg := .riseSample :: .scopeEnd .txn :: endLines }, _,
    ⟨rfl, fun _ => ⟨rfl, rfl, rfl, rfl⟩, ⟨fun h => absurd rfl h, fun _ => ⟨rfl, by decide⟩⟩,
      .inr (.inr (.inl ⟨⟨rfl, rfl, rfl, rfl⟩, rfl, [.riseSample, .scopeEnd .txn], rfl, rfl⟩))⟩, ?_, rfl, by decide, rfl⟩
  rintro r rest i h -
  cases h

/-- A string of which a byte is still to be sent, its first character under way. -/
theorem witness_CommandsKeepEngineExclusion_string :
    ∃ s t, Exclusive s ∧ KeepsDuties s ∧ s.uartState ≠ .idle ∧ s.fg ≠ [] ∧ step s = .next t := by
  refine ⟨{ sending with fg := [.uartNext (.buffer 1)] }, _,
    ⟨rfl, fun h => ?_, ⟨fun _ => ⟨rfl, rfl, rfl, rfl⟩, fun h => ?_⟩, .inl ⟨.next _ _ .done, rfl⟩⟩, ?_, by decide,
    by decide, rfl⟩
  · exact absurd (show I2cTxn.none = .opened from h) (by decide)
  · exact absurd (show UartTxState.pendingByte 0xBF = .idle from h) (by decide)
  · rintro r rest i h -
    cases h

theorem witness_SclHeldLowHangsForever :
    ∃ s : State, HungOnScl s ∧ s.requests = [] :=
  ⟨{ busy with peerSclLow := true, fg := [.waitScl] },
    ⟨⟨[], .inl rfl⟩, ⟨rfl, by simp [busy, q0, State.reset, booted]⟩, rfl, rfl⟩, rfl⟩

theorem witness_IdleCheckWithInterruptsOffHangsForever :
    ∃ s : State, HungOnIdle s ∧ s.requests = [] :=
  ⟨{ sending with gie := false, fg := failedCheckLines ++ [] }, ⟨⟨[], rfl⟩, by decide, rfl, rfl⟩, rfl⟩

end Sys2Proof.Tests
end

/-! The control registers: what a step of another agent and a line leave of them, which lines come back or leave a
region, the boot run, and the handler. -/

namespace Sys2Proof.Machine

/-! ### The control registers -/

/-- The registers that the invariants of R45 and the model's own speak of, but for the memory and `FG`'s position, are
the same in both states. -/
structure SameControl (s t : State) : Prop where
  inIsr : t.inIsr = s.inIsr
  gie : t.gie = s.gie
  csSaved : t.csSaved = s.csSaved
  ovie : t.ovie = s.ovie
  clksrc : t.clksrc = s.clksrc
  txdSrc : t.txdSrc = s.txdSrc
  uartState : t.uartState = s.uartState
  i2cTxn : t.i2cTxn = s.i2cTxn

theorem LeftAlone.sameControl {s t : State} (h : LeftAlone s t) : SameControl s t :=
  ⟨h.inIsr, h.gie, h.csSaved, h.ovie, h.clksrc, h.txdSrc, h.uartState, h.i2cTxn⟩

/-- The caller's turn and the instant after it write no control register. -/
theorem sameControl_settled (s : State) : SameControl s (slot (callerTurn s)) := by constructor <;> simp

theorem sameControl_compareEvent (s : State) : SameControl s (observe s (compareEvent s)) := by constructor <;> simp

theorem sameControl_invoked (i : Instr) (s : State) : SameControl s (invoked i s) := by
  cases i <;> exact ⟨rfl, rfl, rfl, rfl, rfl, rfl, rfl, rfl⟩

/-- The lines that write a control register. -/
def writesControl (l : Line) : Bool :=
  writes_gie l || writes_csSaved l || writes_ovie l || writes_clksrc l || writes_txdSrc l || writes_uartState l ||
    writes_i2cTxn l

theorem doLine_sameControl {l : Line} (h : writesControl l = false) (s : State) :
    SameControl s ((doLine l s).state s) := by
  simp only [writesControl, Bool.or_eq_false_iff] at h
  obtain ⟨⟨⟨⟨⟨⟨hgie, hsaved⟩, hovie⟩, hclk⟩, htxd⟩, huart⟩, htxn⟩ := h
  exact ⟨doLine_inIsr l s, doLine_gie hgie s, doLine_csSaved hsaved s, doLine_ovie hovie s, doLine_clksrc hclk s,
    doLine_txdSrc htxd s, doLine_uartState huart s, doLine_i2cTxn htxn s⟩

/-- The one line that stores keeps the canonical form. -/
theorem doLine_memory_wf (l : Line) {s : State} (h : Memory.wf s.mem = true) :
    Memory.wf ((doLine l s).state s).mem = true := by
  cases hw : writes_mem l with
  | false => rw [doLine_mem hw]; exact h
  | true => cases l <;> first | exact Memory.wf_write _ _ _ h | cases hw

/-! ### How a line ends -/

/-- The lines at which `FG` comes back to lines, and those lines: it changes nothing there. -/
theorem doLine_again {l : Line} {s t : State} {ks : List Line} (h : doLine l s = .again ks t) :
    t = s ∧ ((l = .waitScl ∧ ks = [.waitScl]) ∨ (l = .riseSample ∧ ks = [.riseSample]) ∨
      (l = .strobeBack ∧ ks = bitClockLines ++ [.untilOvf, .strobeBack]) ∨ (l = .spinBack ∧ ks = failedCheckLines) ∨
      ∃ src, l = .uartNext src ∧ ks = [.uartInvoke src]) := by
  cases l <;> simp only [doLine] at h <;> (try split at h) <;> cases h <;> simp

/-- The lines that leave a region, and the region. -/
theorem doLine_leave {l : Line} {s t : State} {m : Scope} (h : doLine l s = .leave m t) :
    regionOf l = some m ∨ (l = .notRaised ∧ m = .raised) ∨ (l = .uartTest ∧ m = .busy) := by
  cases l <;> simp only [doLine] at h <;> (try split at h) <;> cases h <;> simp [regionOf]

/-- Leaving a region passes over lines among which its end is not. -/
theorem run_skip_over {m : Scope} {xs : List Line} (h : Line.scopeEnd m ∉ xs) (ls : List Line) (s : State) :
    run (some m) (xs ++ ls) s = run (some m) ls s := by
  induction xs with
  | nil => rfl
  | cons x xs ih =>
    simp only [List.mem_cons, not_or] at h
    rw [List.cons_append, run_skip (Ne.symm h.1), ih h.2]

/-- A line that goes on, and the instant after it. -/
theorem run_go_with {P : State → Prop} (alone : ∀ s t, LeftAlone s t → P s → P t) {l : Line} {s t : State}
    (hf : fgHeld s = false) (hl : doLine l s = .go t) (ht : P t) :
    ∃ u, (∀ ls, run none (l :: ls) s = run none ls u) ∧ P u :=
  ⟨_, fun _ => run_go hf hl, alone _ _ (leftAlone_after s t) ht⟩

/-- Lines that all go on, while a property holds under which `FG` is not held, are performed to their end. -/
theorem run_straight {P : State → Prop} (free : ∀ s, P s → fgHeld s = false)
    (alone : ∀ s t, LeftAlone s t → P s → P t) (ls : List Line)
    (go : ∀ l ∈ ls, ∀ s, P s → ∃ t, doLine l s = .go t ∧ P t) {s : State} (h : P s) :
    ∃ t, (∀ ks, run none (ls ++ ks) s = run none ks t) ∧ P t := by
  induction ls generalizing s with
  | nil => exact ⟨s, fun _ => rfl, h⟩
  | cons l ls ih =>
    obtain ⟨u, hu, pu⟩ := go l List.mem_cons_self s h
    obtain ⟨v, hv, pv⟩ := run_go_with alone (free s h) hu pu
    obtain ⟨t, ht, pt⟩ := ih (fun k hk => go k (List.mem_cons_of_mem _ hk)) pv
    exact ⟨t, fun ks => by rw [List.cons_append, hv, ht], pt⟩

/-- The body of a transaction, from its address phase to its stop condition (R144, R145). -/
def transactionBodyLines (rw : Bool) (n : Nat) (turn : List Line) : List Line :=
  addressLines rw ++ [.raiseIfNack, .loopStart] ++ dataLines turn n ++ [.okReturn, .scopeEnd .txn] ++ stopLines

/-- A transaction takes the resource, makes the start condition, performs its body and ends. -/
theorem transactionLines_eq (rw : Bool) (a : Byte) (n : Nat) (turn : List Line) :
    transactionLines rw a n turn = .csEnter :: .invoke rw a n :: .usiMask :: .usiStrobe :: .sclRelease ::
      (startLines.tail ++ .txnOpen :: transactionBodyLines rw n turn ++ endLines) := by
  simp [transactionLines, openLines, startLines, transactionBodyLines, leaveLines, closeLines, endLines]

/-! ### The boot lines (R222) -/

/-- While `FG` boots no handler runs, the overflow interrupt is off, nothing transmits. -/
def Booting (s : State) : Prop := s.inIsr = false ∧ s.ovie = false ∧ s.clksrc ≠ .timer ∧ s.uartState = .idle

/-- The boot lines are performed to their end, whatever the other agents do. -/
theorem run_bootLines {s : State} (h : Booting s) : ∃ t, run none bootLines s = ⟨none, t, []⟩ ∧ Booting t := by
  obtain ⟨t, ht, pt⟩ := run_straight (P := Booting)
    (fun _ ⟨hi, ho, _⟩ => fgHeld_eq_false.mpr ⟨hi, by simp [ho]⟩)
    (fun s t c hs => by unfold Booting; rw [c.inIsr, c.ovie, c.clksrc, c.uartState]; exact hs) bootLines
    (fun l hl s ⟨hi, ho, hc, hu⟩ => by
      simp only [bootLines, List.mem_cons, List.not_mem_nil, or_false] at hl
      rcases hl with rfl | rfl | rfl | rfl | rfl | rfl | rfl | rfl | rfl | rfl | rfl <;>
        exact ⟨_, rfl, by simp [Booting, hi, ho, hc, hu]⟩) h
  exact ⟨t, by simpa using ht [], pt⟩

/-! ### A transmission's start and the handler -/

/-- A transmission starts, whatever the other agents do, and leaves the sections, the transaction and the memory. -/
theorem send_starts {s : State} (h : fgHeld s = false) (hu : s.uartState = .idle) :
    ∃ t, (∀ ls, run none (sendLines ++ ls) s = run none ls t) ∧
      SameControl { s with
        uartState := .pendingByte (frame2 s.uartByte), ovie := true, txdSrc := .fromSr, clksrc := .timer } t ∧
      t.mem = s.mem := by
  obtain ⟨t, rt, hgie, hsaved, huart, hovie, htxd, hclk⟩ := send_any h hu
  have r : run none sendLines s = ⟨none, t, []⟩ := by simpa using rt []
  have hst : (run none sendLines s).st = t := by rw [r]
  refine ⟨t, rt, ⟨?_, hgie, hsaved, hovie, hclk, htxd, huart, ?_⟩, ?_⟩
  · rw [← hst, run_inIsr]
  · rw [← hst, run_i2cTxn (by decide)]
  · rw [← hst, run_mem (by decide)]

theorem handlerPending_control (f : Byte) (s : State) :
    SameControl { s with uartState := .awaitingStop, inIsr := false, gie := true } (handlerPending f s) := by
  constructor <;> simp [handlerPending]

theorem handlerAwaiting_control (s : State) :
    SameControl { s with
      uartState := .idle, inIsr := false, gie := true, clksrc := .off, ovie := false, txdSrc := .idleHigh }
      (handlerAwaiting s) := by
  constructor <;> simp [handlerAwaiting]

theorem handlerPending_mem_fg (f : Byte) (s : State) :
    (handlerPending f s).mem = s.mem ∧ (handlerPending f s).fg = s.fg := by simp [handlerPending]

theorem handlerAwaiting_mem_fg (s : State) :
    (handlerAwaiting s).mem = s.mem ∧ (handlerAwaiting s).fg = s.fg := by simp [handlerAwaiting]

end Sys2Proof.Machine

/-! The model's own invariant over every step: the registers under each line, `FG`'s position under each run. -/

namespace Sys2Proof.Machine

/-! ### The registers of the invariant -/

/-- The model's invariant but for where `FG` stands. -/
structure RegistersOk (s : State) : Prop where
  memory : Memory.wf s.mem = true
  noHalfHandler : s.inIsr = false
  sections : SectionsNest s
  enabledOnlyBusy : s.ovie = true → s.uartState ≠ .idle
  clockedOnlyBusy : s.clksrc = .timer → s.ovie = true ∧ s.txdSrc = .fromSr
  pendingIsSecondFrame : ∀ f, s.uartState = .pendingByte f → ∃ b, f = frame2 b

theorem Inv.registers {s : State} (h : Inv s) : RegistersOk s :=
  ⟨h.memory, h.noHalfHandler, h.sections, h.enabledOnlyBusy, h.clockedOnlyBusy, h.pendingIsSecondFrame⟩

theorem RegistersOk.inv {s : State} (h : RegistersOk s) (p : BeforeBoot s ∨ Position s.fg) : Inv s :=
  ⟨h.memory, h.noHalfHandler, h.sections, h.enabledOnlyBusy, h.clockedOnlyBusy, h.pendingIsSecondFrame, p⟩

theorem RegistersOk.congr {s t : State} (h : RegistersOk s) (c : SameControl s t) (hm : Memory.wf t.mem = true) :
    RegistersOk t where
  memory := hm
  noHalfHandler := c.inIsr.trans h.noHalfHandler
  sections := by unfold SectionsNest; rw [c.csSaved, c.gie]; exact h.sections
  enabledOnlyBusy := by rw [c.ovie, c.uartState]; exact h.enabledOnlyBusy
  clockedOnlyBusy := by rw [c.clksrc, c.ovie, c.txdSrc]; exact h.clockedOnlyBusy
  pendingIsSecondFrame := by rw [c.uartState]; exact h.pendingIsSecondFrame

theorem RegistersOk.leftAlone {s t : State} (h : RegistersOk s) (c : LeftAlone s t) : RegistersOk t :=
  h.congr c.sameControl (by rw [c.mem]; exact h.memory)

theorem RegistersOk.after {t : State} (h : RegistersOk t) (s : State) : RegistersOk (slot (observe s t)) :=
  h.leftAlone (leftAlone_after s t)

/-- With interrupts on no section is open. -/
theorem RegistersOk.csSaved_of_gie {s : State} (h : RegistersOk s) (hg : s.gie = true) : s.csSaved = [] :=
  Classical.byContradiction fun hs => absurd (h.sections hs).1 (by simp [hg])

/-- `CS_ENTER` pushes `GIE`, which is 0 if a section is open already (R112). -/
theorem RegistersOk.enterSection {s : State} (h : RegistersOk s) : RegistersOk (enterSection s) :=
  { h with
    sections := fun _ => ⟨rfl, fun g hg => by
      cases hs : s.csSaved with
      | nil => simp [hs] at hg
      | cons g' rest =>
        obtain ⟨hgie, hrest⟩ := h.sections (by simp [hs])
        simp only [enterSection_csSaved, hs, List.dropLast_cons_cons, List.mem_cons] at hg
        rcases hg with rfl | hg
        · exact hgie
        · exact hrest g (by rw [hs]; exact hg)⟩ }

/-- `CS_EXIT` pops into `GIE` a 0 unless the section was the outermost (R113). -/
theorem RegistersOk.exitSection {s : State} (h : RegistersOk s) : RegistersOk (exitSection s) := by
  unfold Machine.exitSection
  split
  · exact h
  · next g rest hs =>
    refine { h with sections := fun hr => ?_ }
    obtain ⟨g', rest', rfl⟩ := List.exists_cons_of_ne_nil hr
    have hnest : ∀ x ∈ s.csSaved.dropLast, x = false := (h.sections (by simp [hs])).2
    rw [hs, List.dropLast_cons_cons] at hnest
    exact ⟨hnest g List.mem_cons_self, fun x hx => hnest x (List.mem_cons_of_mem _ hx)⟩

theorem RegistersOk.clock {s : State} (h : RegistersOk s) {c : ClkSrc} (hc : c ≠ .timer) :
    RegistersOk { s with clksrc := c } :=
  { h with clockedOnlyBusy := fun e => absurd e hc }

/-- A harmless line writes no control register, or opens or closes a section or the transaction, or takes the clock off
the timer. -/
theorem harmless_cases {l : Line} (h : harmless l = true) :
    writesControl l = false ∨ l = .csEnter ∨ l = .csExit ∨ l = .usiStrobe ∨ l = .giveUsi ∨ l = .txnOpen ∨
      l = .txnClose := by
  cases l <;> simp_all [harmless, writesControl, writes_gie, writes_csSaved, writes_ovie, writes_clksrc, writes_txdSrc,
    writes_uartState, writes_i2cTxn]

theorem RegistersOk.harmlessLine {s : State} (h : RegistersOk s) {l : Line} (hl : harmless l = true) :
    RegistersOk ((doLine l s).state s) := by
  rcases harmless_cases hl with hw | rfl | rfl | rfl | rfl | rfl | rfl
  · exact h.congr (doLine_sameControl hw s) (doLine_memory_wf l h.memory)
  · exact h.enterSection
  · exact h.exitSection
  · exact h.clock (c := .strobe) (by decide)
  · exact h.clock (c := .off) (by decide)
  · exact { h with }
  · exact { h with }

/-- The I2C engine has masked the overflow interrupt and taken the clock (R140). -/
theorem RegistersOk.taken {s : State} (h : RegistersOk s) : RegistersOk { s with ovie := false, clksrc := .strobe } :=
  { h with enabledOnlyBusy := nofun, clockedOnlyBusy := nofun }

/-- A transmission under way: the second frame is pending, the interrupt enabled, the pin connected (R166). -/
theorem RegistersOk.sending {s : State} (h : RegistersOk s) (b : Byte) :
    RegistersOk { s with uartState := .pendingByte (frame2 b), ovie := true, txdSrc := .fromSr, clksrc := .timer } :=
  { h with
    enabledOnlyBusy := fun _ => by simp
    clockedOnlyBusy := fun _ => ⟨rfl, rfl⟩
    pendingIsSecondFrame := fun f hf => ⟨b, by cases hf; rfl⟩ }

/-- The handler run in `PendingByte` (R168). -/
theorem RegistersOk.handlerPending {s : State} (h : RegistersOk s) (hp : irqPending s = true) (f : Byte) :
    RegistersOk (handlerPending f s) := by
  obtain ⟨_, hg, _, _⟩ := irq_facts hp
  refine RegistersOk.congr ?_ (handlerPending_control f s) (by rw [(handlerPending_mem_fg f s).1]; exact h.memory)
  exact { h with
    noHalfHandler := rfl
    sections := fun hs => absurd (h.csSaved_of_gie hg) hs
    enabledOnlyBusy := fun _ => by simp
    pendingIsSecondFrame := nofun }

/-- The handler run in `AwaitingStop` (R169). -/
theorem RegistersOk.handlerAwaiting {s : State} (h : RegistersOk s) (hp : irqPending s = true) :
    RegistersOk (handlerAwaiting s) := by
  obtain ⟨_, hg, _, _⟩ := irq_facts hp
  refine RegistersOk.congr ?_ (handlerAwaiting_control s) (by rw [(handlerAwaiting_mem_fg s).1]; exact h.memory)
  exact { h with
    noHalfHandler := rfl
    sections := fun hs => absurd (h.csSaved_of_gie hg) hs
    enabledOnlyBusy := nofun
    clockedOnlyBusy := nofun
    pendingIsSecondFrame := nofun }

/-! ### Positions -/

/-- Harmless lines in front of a position make a position. -/
theorem Position.prepend {xs ls : List Line} (h : xs.all harmless = true) (rest : Position ls) :
    Position (xs ++ ls) := by
  induction xs with
  | nil => exact rest
  | cons x xs ih =>
    simp only [List.all_cons, Bool.and_eq_true] at h
    exact .line x _ h.1 (ih h.2)

theorem position_of_harmless {xs : List Line} (h : xs.all harmless = true) : Position xs := by
  simpa using Position.prepend h .done

theorem harmless_dataLines {turn : List Line} (h : turn.all harmless = true) (n : Nat) :
    (dataLines turn n).all harmless = true := by
  simp only [dataLines, List.all_flatten, List.all_replicate, h]
  split <;> rfl

theorem position_transactionLines (rw : Bool) (a : Byte) (n : Nat) {turn : List Line} (h : turn.all harmless = true) :
    Position (transactionLines rw a n turn) := by
  have hd := harmless_dataLines h n
  rw [transactionLines_eq]
  refine .line _ _ rfl (.line _ _ rfl (.take _ (position_of_harmless ?_)))
  simp only [transactionBodyLines, List.all_cons, List.all_append, hd]
  rfl

theorem position_sendLines : Position sendLines := by simpa using Position.send [] .done

theorem position_drainLines : Position drainLines := .drain [.csExit] (position_of_harmless rfl)

theorem position_nextBytes (srcs : List ByteSource) : Position (nextBytes srcs) := by
  induction srcs with
  | nil => exact position_drainLines
  | cons src rest ih => exact .line _ _ rfl (.send _ ih)

theorem position_sendStrLines (srcs : List ByteSource) : Position (sendStrLines srcs) := by
  cases srcs with
  | nil => exact position_drainLines
  | cons src rest => exact .line _ _ rfl (.send _ (position_nextBytes rest))

/-- Every operation's lines are a position. -/
theorem position_opLines (place : Nat) (i : Instr) : Position (opLines place i) := by
  cases i with
  | i2cWrite a d => exact position_transactionLines false a d.length rfl
  | i2cRead a n => exact position_transactionLines true a n rfl
  | uartSend b => exact position_sendLines
  | uartSendStr d => exact position_sendStrLines _
  | uartSendLine d => exact position_sendStrLines _
  | uartWaitIdle => exact position_drainLines
  | i2cXfer n =>
    refine position_of_harmless ?_
    simp only [opLines, xferLines, List.all_append, List.all_cons, List.all_flatten, List.all_replicate]
    split <;> rfl
  | i2cOpen => exact .take _ (position_of_harmless rfl)
  | _ => exact position_of_harmless rfl

/-! ### Runs -/

/-- The lines that `FG` comes back to at a harmless line are harmless. -/
theorem harmless_again {l : Line} {s t : State} {ks : List Line} (hl : harmless l = true)
    (h : doLine l s = .again ks t) : ks.all harmless = true := by
  obtain ⟨-, ⟨-, rfl⟩ | ⟨-, rfl⟩ | ⟨-, rfl⟩ | ⟨rfl, -⟩ | ⟨src, -, rfl⟩⟩ := doLine_again h
  case inr.inr.inr.inl => cases hl
  all_goals rfl

/-- A harmless line leaves no check of `Idle`. -/
theorem harmless_leave {l : Line} {s t : State} {m : Scope} (hl : harmless l = true) (h : doLine l s = .leave m t) :
    m ≠ .busy := by
  rcases doLine_leave h with h | ⟨-, rfl⟩ | ⟨rfl, -⟩
  · rintro rfl; cases l <;> cases h
  · decide
  · cases hl

/-- A run has come to registers and a position that the invariant admits. -/
def RunOut.Sound (r : RunOut) : Prop := RegistersOk r.st ∧ Position r.rest

/-- Every run through the lines comes to registers and a position that the invariant admits, whether it performs them or
passes over those of a region that is no check of `Idle`. -/
def RunsSound (ls : List Line) : Prop := ∀ m, m ≠ some .busy → ∀ s, RegistersOk s → (run m ls s).Sound

theorem runsSound_line {l : Line} {ls : List Line} (hl : harmless l = true) (rest : Position ls)
    (ih : RunsSound ls) : RunsSound (l :: ls) := by
  intro m hm s hs
  cases m with
  | some m => rw [run]; exact ih _ (by split <;> simp_all) s hs
  | none =>
    cases hf : fgHeld s with
    | true => rw [run_held hf]; exact ⟨hs, .line l ls hl rest⟩
    | false =>
      have hd := hs.harmlessLine hl
      cases ho : doLine l s with
      | go t => rw [ho] at hd; rw [run_go hf ho]; exact ih none (by simp) _ (RegistersOk.after hd s)
      | leave k t =>
        rw [ho] at hd
        rw [run_leave hf ho]
        exact ih (some k) (by simpa using harmless_leave hl ho) _ (RegistersOk.after hd s)
      | pass => rw [run_pass hf ho]; exact ih none (by simp) s hs
      | again ks t =>
        obtain ⟨rfl, -⟩ := doLine_again ho
        rw [run_again hf ho, observe_self]
        exact ⟨hs, rest.prepend (harmless_again hl ho)⟩

/-- Lines that `FG` is held at the head of, or performs, or passes over as a whole. -/
theorem runsSound_block {l : Line} {xs ls : List Line} (place : Position (l :: xs ++ ls))
    (skip : ∀ k, k ≠ .busy → Line.scopeEnd k ∉ l :: xs) (ih : RunsSound ls)
    (perform : ∀ s, fgHeld s = false → RegistersOk s → (run none (l :: xs ++ ls) s).Sound) :
    RunsSound (l :: xs ++ ls) := by
  intro m hm s hs
  cases m with
  | some k => rw [run_skip_over (skip k (by simpa using hm))]; exact ih _ hm s hs
  | none =>
    cases hf : fgHeld s with
    | true => rw [List.cons_append, run_held hf]; exact ⟨hs, place⟩
    | false => exact perform s hf hs

/-- The two writes that take the resource: no handler run comes between them. -/
theorem run_take_sound {ls : List Line} (ih : RunsSound ls) {s : State} (hf : fgHeld s = false) (hs : RegistersOk s) :
    (run none (.usiMask :: .usiStrobe :: ls) s).Sound := by
  have a := leftAlone_after s { s with ovie := false, overlap := s.overlap || s.uartState != .idle }
  rw [run_go hf rfl]
  generalize slot (observe s _) = u at a ⊢
  have hu : fgHeld u = false := fgHeld_eq_false.mpr ⟨a.inIsr.trans hs.noHalfHandler, by simp [a.ovie]⟩
  rw [run_go hu rfl]
  refine ih none (by simp) _ (RegistersOk.after (hs.taken.congr ?_ (by rw [a.mem]; exact hs.memory)) u)
  exact ⟨a.inIsr, a.gie, a.csSaved, a.ovie, rfl, a.txdSrc, a.uartState, a.i2cTxn⟩

theorem run_drain_sound {ls : List Line} (rest : Position ls) (ih : RunsSound ls) {s : State} (hf : fgHeld s = false)
    (hs : RegistersOk s) : (run none (pollLines ++ ls) s).Sound := by
  by_cases hu : s.uartState = .idle
  · obtain ⟨t, rt, ct⟩ := poll_idle_any hf hu
    rw [rt]
    exact ih none (by simp) t (hs.enterSection.leftAlone ct)
  · obtain ⟨t, ct, rt | rt⟩ := poll_busy_any hf hu
    · rw [rt]; exact ⟨hs.leftAlone ct, .drain ls rest⟩
    · rw [rt]; exact ⟨hs.leftAlone ct, .drainBack ls rest⟩

/-- `uart_send` is its check of `Idle`, the writes that start the transmission, and the section's end. -/
theorem sendLines_append (ls : List Line) : sendLines ++ ls = pollLines ++ (startWrites ++ .csExit :: ls) := by
  simp [sendLines]

theorem run_send_sound {ls : List Line} (rest : Position ls) (ih : RunsSound ls) {s : State} (hf : fgHeld s = false)
    (hs : RegistersOk s) : (run none (sendLines ++ ls) s).Sound := by
  by_cases hu : s.uartState = .idle
  · obtain ⟨t, rt, ct, hmem⟩ := send_starts hf hu
    rw [rt]
    exact ih none (by simp) t ((hs.sending _).congr ct (by rw [hmem]; exact hs.memory))
  · rw [sendLines_append]
    obtain ⟨t, ct, rt | rt⟩ := poll_busy_any hf hu
    · rw [rt, ← sendLines_append]; exact ⟨hs.leftAlone ct, .send ls rest⟩
    · rw [rt]; exact ⟨hs.leftAlone ct, .sendBack ls rest⟩

/-- From a position on every run comes to registers and a position that the invariant admits. -/
theorem Position.runsSound {ls : List Line} (h : Position ls) : RunsSound ls := by
  induction h with
  | done => intro m _ s hs; rw [run_nil]; exact ⟨hs, .done⟩
  | line l ls hl rest ih => exact runsSound_line hl rest ih
  | take ls rest ih =>
    exact runsSound_block (xs := [.usiStrobe]) (.take ls rest) (by simp) ih fun s hf hs => run_take_sound ih hf hs
  | drain ls rest ih =>
    exact runsSound_block (.drain ls rest) (by simp) ih fun s hf hs => run_drain_sound rest ih hf hs
  | drainBack ls rest ih =>
    refine runsSound_block (xs := [.scopeEnd .busy]) (.drainBack ls rest) (by simp) ih fun s hf hs => ?_
    exact (run_backEdge hf ls).symm ▸ ⟨hs, .drain ls rest⟩
  | send ls rest ih =>
    exact runsSound_block (.send ls rest) (by simp [startWrites]) ih fun s hf hs => run_send_sound rest ih hf hs
  | sendBack ls rest ih =>
    have place := Position.sendBack ls rest
    rw [show Line.spinBack :: .scopeEnd .busy :: startWrites ++ .csExit :: ls =
      .spinBack :: (.scopeEnd .busy :: startWrites ++ [.csExit]) ++ ls by simp] at place ⊢
    refine runsSound_block place (by simp [startWrites]) ih fun s hf hs => ?_
    have r := run_backEdge hf (startWrites ++ .csExit :: ls)
    rw [← sendLines_append] at r
    simp only [List.cons_append, List.append_assoc, List.nil_append] 
    rw [r]; exact ⟨hs, .send ls rest⟩

/-! ### Steps -/

theorem Inv.congr {s t : State} (h : Inv s) (c : SameControl s t) (hf : t.fg = s.fg) (hm : Memory.wf t.mem = true) :
    Inv t := by
  refine (h.registers.congr c hm).inv ?_
  unfold BeforeBoot
  rw [hf, c.gie, c.csSaved, c.ovie, c.clksrc, c.uartState]
  exact h.position

/-- What follows a step keeps the invariant: the caller's turn stores, the instant after it writes nothing of it. -/
theorem Inv.settled {s : State} (h : Inv s) : Inv (slot (callerTurn s)) :=
  h.congr (sameControl_settled s) (by simp) (by simpa using wf_callerTurn h.memory)

/-- `FG` performs a position's lines from outside every operation. -/
theorem performLines_inv {ls : List Line} (h : Position ls) {s : State} (hs : RegistersOk s) (hf : s.fg = []) :
    Inv (performLines ls s) := by
  obtain ⟨hr, hp⟩ := h.runsSound none (by simp) s hs
  exact RegistersOk.inv { hr with } (.inr (by simpa [performLines, hf] using hp))

/-- The boot lines, performed before anything else. -/
theorem resume_inv_of_beforeBoot {s : State} (h : Inv s) (hb : BeforeBoot s) : Inv (resume s) := by
  obtain ⟨hfg, -, hsaved, hovie, hclk, huart⟩ := hb
  obtain ⟨t, rt, hi, ho, hc, hu⟩ := run_bootLines (s := { s with fg := [] }) ⟨h.noHalfHandler, hovie, hclk, huart⟩
  have hst : (run none bootLines { s with fg := [] }).st = t := by rw [rt]
  have hmem : t.mem = s.mem := by rw [← hst, run_mem (by decide)]
  have hcs : t.csSaved = [] := by rw [← hst, run_csSaved (by decide)]; exact hsaved
  have htfg : t.fg = [] := fg_of_run rt
  rw [resume_eq, hfg, performLines_done rt]
  exact
    { memory := by rw [hmem]; exact h.memory
      noHalfHandler := hi
      sections := fun hs => absurd hcs hs
      enabledOnlyBusy := by simp [ho]
      clockedOnlyBusy := fun e => absurd e hc
      pendingIsSecondFrame := by simp [hu]
      position := .inr (by rw [htfg]; exact .done) }

theorem Inv.resume {s : State} (h : Inv s) : Inv (resume s) := by
  rcases h.position with hb | hp
  · exact resume_inv_of_beforeBoot h hb
  · exact performLines_inv hp { h.registers with } rfl

/-- Before boot interrupts are off, so that no handler run is due. -/
theorem Inv.position_of_pending {s : State} (h : Inv s) (hp : irqPending s = true) : Position s.fg := by
  obtain ⟨_, hg, _, _⟩ := irq_facts hp
  exact h.position.resolve_left fun ⟨_, hoff, _⟩ => by simp [hoff] at hg

theorem takeInterrupt_inv {s t : State} (h : Inv s) (ht : takeInterrupt s = .next t) : Inv t := by
  rcases takeInterrupt_next ht with ⟨-, rfl⟩ | ⟨hp, f, -, rfl⟩ | ⟨hp, -, rfl⟩
  · exact h
  · exact (h.registers.handlerPending hp f).inv
      (.inr (by rw [(handlerPending_mem_fg f s).2]; exact h.position_of_pending hp))
  · exact (h.registers.handlerAwaiting hp).inv
      (.inr (by rw [(handlerAwaiting_mem_fg s).2]; exact h.position_of_pending hp))

theorem invoked_fg (i : Instr) (s : State) : (invoked i s).fg = s.fg := by cases i <;> rfl

theorem invoked_memory_wf (i : Instr) {s : State} (h : Memory.wf s.mem = true) :
    Memory.wf (invoked i s).mem = true := by
  cases i <;> first | exact Memory.wf_store _ _ h | exact h

/-- An operation keeps the invariant: an event at any time, another from outside every operation. -/
theorem exec_inv {i : Instr} {s t : State} (h : Inv s) (hf : i.format = .evt ∨ s.fg = []) (ht : exec i s = .next t) :
    Inv t := by
  have outside : i.format ≠ .evt → s.fg = [] := hf.resolve_left
  rcases exec_next ht with ⟨hi, rfl⟩ | ⟨rfl, rfl⟩ | ⟨rfl, rfl⟩ | ⟨b, rfl, rfl⟩ | ⟨rfl, rfl⟩ | ⟨rfl, ht⟩
  · exact performLines_inv (position_opLines _ i)
      (h.registers.congr (sameControl_invoked i s) (invoked_memory_wf i h.memory))
      (by rw [invoked_fg]; exact outside hi)
  · exact h.registers.enterSection.inv (.inr (by simpa [outside nofun] using Position.done))
  · exact h.registers.exitSection.inv (.inr (by simpa [outside nofun] using Position.done))
  · exact { h with }
  · exact h.congr (sameControl_compareEvent s) (by simp) (by simpa using h.memory)
  · exact takeInterrupt_inv h ht

/-- Settles O55: each kind of move keeps the invariant, and so does what follows it. -/
theorem stepKeepsInvariant : Obligations.StepKeepsInvariant := by
  intro s t h hs
  obtain ⟨u, rfl, ⟨r, rest, i, -, -, -, hform, ho, hx⟩ | ⟨-, hx⟩ | ⟨-, -, rfl⟩ | rfl⟩ := step_next hs
  · refine (exec_inv (s := take r rest s) { h with } ?_ hx).settled
    rcases ho with ho | ⟨-, hfg⟩
    · exact .inl (by rw [hform, ho]; rfl)
    · exact .inr hfg
  · exact (takeInterrupt_inv h hx).settled
  · exact h.resume.settled
  · exact h.settled

end Sys2Proof.Machine

/-! The two engines exclude one another (R45, R226): where `FG` stands while the UART or nobody has the Shared Hardware
Resource, while the I2C engine has it, and how a run goes from one to the other. -/

namespace Sys2Proof.Machine

/-! ### Who has the resource -/

/-- No transaction exists, and the UART has the resource exactly while it is busy. -/
structure OutsideTransaction (s : State) : Prop where
  noHalfHandler : s.inIsr = false
  closed : s.i2cTxn = .none
  uart : UartOwnsWhileBusy s

/-- The I2C engine has the resource, with a transaction or not yet. -/
structure InEngine (txn : I2cTxn) (s : State) : Prop where
  noHalfHandler : s.inIsr = false
  holds : EngineHolds s
  pin : s.txdSrc = .idleHigh
  txn_eq : s.i2cTxn = txn

/-- A section is open in `Idle`, before a transaction takes the resource (R140). -/
structure InSection (s : State) : Prop where
  noHalfHandler : s.inIsr = false
  off : s.gie = false
  idle : s.uartState = .idle
  pin : s.txdSrc = .idleHigh
  closed : s.i2cTxn = .none

/-- A transaction has given the resource up (R141): the clock and the overflow interrupt are off. -/
structure GivenUp (s : State) : Prop where
  noHalfHandler : s.inIsr = false
  masked : s.ovie = false
  clock : s.clksrc = .off
  idle : s.uartState = .idle
  pin : s.txdSrc = .idleHigh
  closed : s.i2cTxn = .none

section
variable {txn : I2cTxn} {s : State} (h : InEngine txn s)
include h

theorem InEngine.off : s.gie = false := h.holds.1

theorem InEngine.masked : s.ovie = false := h.holds.2.1

theorem InEngine.clock : s.clksrc = .strobe := h.holds.2.2.1

theorem InEngine.idle : s.uartState = .idle := h.holds.2.2.2

end

/-- A state in which the engines are apart and the I2C engine has the resource. -/
theorem Exclusive.inEngine {s : State} (h : Exclusive s) (hh : EngineHolds s) {txn : I2cTxn} (ht : s.i2cTxn = txn) :
    InEngine txn s := by
  have ⟨_, _, _, huart⟩ := hh
  exact ⟨h.noHalfHandler, hh, (h.uart.2 huart).1, ht⟩

theorem uartOwnsWhileBusy_idle {s : State} (hu : s.uartState = .idle) (ht : s.txdSrc = .idleHigh)
    (hc : s.clksrc ≠ .timer) : UartOwnsWhileBusy s := ⟨fun h => absurd hu h, fun _ => ⟨ht, hc⟩⟩

theorem UartOwnsWhileBusy.congr {s t : State} (h : UartOwnsWhileBusy s) (c : SameControl s t) :
    UartOwnsWhileBusy t := by
  unfold UartOwnsWhileBusy; rw [c.uartState, c.ovie, c.clksrc, c.txdSrc, c.i2cTxn]; exact h

theorem OutsideTransaction.congr {s t : State} (h : OutsideTransaction s) (c : SameControl s t) :
    OutsideTransaction t :=
  ⟨c.inIsr.trans h.noHalfHandler, c.i2cTxn.trans h.closed, h.uart.congr c⟩

theorem InEngine.congr {txn : I2cTxn} {s t : State} (h : InEngine txn s) (c : SameControl s t) : InEngine txn t where
  noHalfHandler := c.inIsr.trans h.noHalfHandler
  holds := by unfold EngineHolds; rw [c.gie, c.ovie, c.clksrc, c.uartState]; exact h.holds
  pin := c.txdSrc.trans h.pin
  txn_eq := c.i2cTxn.trans h.txn_eq

theorem InSection.congr {s t : State} (h : InSection s) (c : SameControl s t) : InSection t :=
  ⟨c.inIsr.trans h.noHalfHandler, c.gie.trans h.off, c.uartState.trans h.idle, c.txdSrc.trans h.pin,
    c.i2cTxn.trans h.closed⟩

theorem GivenUp.congr {s t : State} (h : GivenUp s) (c : SameControl s t) : GivenUp t :=
  ⟨c.inIsr.trans h.noHalfHandler, c.ovie.trans h.masked, c.clksrc.trans h.clock, c.uartState.trans h.idle,
    c.txdSrc.trans h.pin, c.i2cTxn.trans h.closed⟩

theorem InSection.alone (s t : State) (c : LeftAlone s t) (h : InSection s) : InSection t := h.congr c.sameControl

theorem GivenUp.alone (s t : State) (c : LeftAlone s t) (h : GivenUp s) : GivenUp t := h.congr c.sameControl

theorem InEngine.free {txn : I2cTxn} {s : State} (h : InEngine txn s) : fgHeld s = false :=
  fgHeld_eq_false.mpr ⟨h.noHalfHandler, by simp [h.off]⟩

theorem InSection.free {s : State} (h : InSection s) : fgHeld s = false :=
  fgHeld_eq_false.mpr ⟨h.noHalfHandler, by simp [h.off]⟩

theorem GivenUp.free {s : State} (h : GivenUp s) : fgHeld s = false :=
  fgHeld_eq_false.mpr ⟨h.noHalfHandler, by simp [h.masked]⟩

theorem GivenUp.outside {s : State} (h : GivenUp s) : OutsideTransaction s :=
  ⟨h.noHalfHandler, h.closed, uartOwnsWhileBusy_idle h.idle h.pin (by simp [h.clock])⟩

/-! ### Where `FG` can stand -/

/-- A run has come to a state and a position in which the engines are apart. -/
def RunOut.Apart (r : RunOut) : Prop := Exclusive { r.st with fg := r.rest }

theorem OutsideTransaction.apart {s : State} {ls : List Line} (h : OutsideTransaction s) (p : UartPlace ls)
    (m : Option Scope) : RunOut.Apart ⟨m, s, ls⟩ where
  noHalfHandler := h.noHalfHandler
  transaction := fun ho => by simp [h.closed] at ho
  uart := h.uart
  place := .inl ⟨p, h.closed⟩

theorem InEngine.uart {txn : I2cTxn} {s : State} (h : InEngine txn s) : UartOwnsWhileBusy s :=
  uartOwnsWhileBusy_idle h.idle h.pin (by simp [h.clock])

theorem InEngine.apart_start {s : State} {body : List Line} (h : InEngine .none s) (hb : transactionBody body = true)
    (m : Option Scope) : RunOut.Apart ⟨m, s, startLines.tail ++ .txnOpen :: body ++ endLines⟩ where
  noHalfHandler := h.noHalfHandler
  transaction := fun ho => by simp [h.txn_eq] at ho
  uart := h.uart
  place := .inr (.inl ⟨h.holds, h.txn_eq, body, hb, rfl⟩)

theorem InEngine.apart_inside {s : State} {body : List Line} (h : InEngine .opened s)
    (hb : transactionBody body = true) (m : Option Scope) : RunOut.Apart ⟨m, s, body ++ endLines⟩ where
  noHalfHandler := h.noHalfHandler
  transaction := fun _ => ⟨h.off, h.noHalfHandler, h.idle, h.clock⟩
  uart := h.uart
  place := .inr (.inr (.inl ⟨h.holds, h.txn_eq, body, hb, rfl⟩))

theorem Exclusive.congr {s t : State} (h : Exclusive s) (c : SameControl s t) (hf : t.fg = s.fg) : Exclusive t where
  noHalfHandler := c.inIsr.trans h.noHalfHandler
  transaction := by
    unfold OpenTransactionExcludesUart
    rw [c.i2cTxn, c.gie, c.inIsr, c.uartState, c.clksrc]
    exact h.transaction
  uart := h.uart.congr c
  place := by
    unfold PlaceOk EngineHolds BeforeBoot
    rw [hf, c.i2cTxn, c.gie, c.ovie, c.clksrc, c.uartState, c.csSaved]
    exact h.place

/-- Outside every operation no transaction exists. -/
theorem Exclusive.outside {s : State} (h : Exclusive s) (hf : s.fg = []) : OutsideTransaction s := by
  refine ⟨h.noHalfHandler, ?_, h.uart⟩
  rcases h.place with ⟨-, ht⟩ | ⟨-, ht, -⟩ | ⟨-, -, body, -, hb⟩ | ⟨-, ht⟩
  · exact ht
  · exact ht
  · simp [hf, endLines] at hb
  · exact ht

/-- With interrupts on `FG` is outside every operation or in a UART command. -/
theorem Exclusive.uartPlace {s : State} (h : Exclusive s) (hg : s.gie = true) : UartPlace s.fg ∧ s.i2cTxn = .none := by
  rcases h.place with hp | ⟨hh, -⟩ | ⟨hh, -⟩ | ⟨⟨-, hh, -⟩, -⟩
  · exact hp
  · simp [hh.1] at hg
  · simp [hh.1] at hg
  · simp [hh] at hg

/-! ### Inside a transaction -/

theorem neutral_writes {l : Line} (h : neutral l = true) : writesControl l = false := by
  cases l <;> first | rfl | cases h

theorem InEngine.neutralLine {txn : I2cTxn} {s : State} (h : InEngine txn s) {l : Line} (hl : neutral l = true) :
    InEngine txn ((doLine l s).state s) := h.congr (doLine_sameControl (neutral_writes hl) s)

theorem InEngine.alone (txn : I2cTxn) (s t : State) (c : LeftAlone s t) (h : InEngine txn s) : InEngine txn t :=
  h.congr c.sameControl

theorem InEngine.after {txn : I2cTxn} {t : State} (h : InEngine txn t) (s : State) :
    InEngine txn (slot (observe s t)) := h.alone _ _ _ (leftAlone_after s t)

theorem transactionBody_cons {l : Line} {ls : List Line} : transactionBody (l :: ls) = true ↔
    neutral l = true ∧ (∀ m, regionOf l = some m → Line.scopeEnd m ∈ ls) ∧ transactionBody ls = true := by
  simp only [transactionBody, Bool.and_eq_true, and_assoc]
  cases regionOf l <;> simp

/-- Where `FG` comes back to lines inside a transaction, they are inside it again. -/
theorem transactionBody_again {l : Line} {ls ks : List Line} {s t : State} (hb : transactionBody (l :: ls) = true)
    (h : doLine l s = .again ks t) : transactionBody (ks ++ ls) = true := by
  obtain ⟨hl, hend, hls⟩ := transactionBody_cons.mp hb
  obtain ⟨-, ⟨rfl, rfl⟩ | ⟨rfl, rfl⟩ | ⟨rfl, rfl⟩ | ⟨rfl, rfl⟩ | ⟨src, rfl, rfl⟩⟩ := doLine_again h
  · exact hb
  · exact hb
  · have hmem := hend .xfer rfl
    simp [bitClockLines, transactionBody, neutral, regionOf, hmem, hls]
  · cases hl
  · cases hl

/-- A line of a transaction that leaves a region leaves one that ends inside the transaction. -/
theorem transactionBody_leave {l : Line} {ls : List Line} {s t : State} {m : Scope}
    (hb : transactionBody (l :: ls) = true) (h : doLine l s = .leave m t) : Line.scopeEnd m ∈ ls := by
  obtain ⟨hl, hend, -⟩ := transactionBody_cons.mp hb
  rcases doLine_leave h with h | ⟨rfl, -⟩ | ⟨rfl, -⟩
  · exact hend m h
  · cases hl
  · cases hl

/-- The end of a transaction: it closes, gives the resource up, leaves its section and returns (R141). -/
theorem run_endLines_apart {s : State} (h : InEngine .opened s) : (run none endLines s).Apart := by
  obtain ⟨a, ra, ha⟩ := run_go_with (InEngine.alone .none) (l := .txnClose) h.free rfl
    ⟨h.noHalfHandler, h.holds, h.pin, rfl⟩
  obtain ⟨b, rb, hb⟩ := run_go_with GivenUp.alone (l := .giveUsi) ha.free rfl
    ⟨ha.noHalfHandler, ha.masked, rfl, ha.idle, ha.pin, ha.txn_eq⟩
  obtain ⟨t, rt, ht⟩ := run_straight (fun _ h => h.free) GivenUp.alone
    [.csExit, .returnResult] (fun l hl s h => by
      simp only [List.mem_cons, List.not_mem_nil, or_false] at hl
      rcases hl with rfl | rfl
      · exact ⟨_, rfl, by constructor <;> simp [h.noHalfHandler, h.masked, h.clock, h.idle, h.pin, h.closed]⟩
      · exact ⟨_, rfl, { h with }⟩) hb
  rw [endLines, ra, rb, show run none [.csExit, .returnResult] _ = _ from rt [], run_nil]
  exact ht.outside.apart .done none

/-- From inside a transaction a run comes to a place inside it or to its end, whether it performs lines or passes over
those of a region that ends inside it. -/
theorem run_body_apart {body : List Line} (hb : transactionBody body = true) (m : Option Scope)
    (hm : ∀ k, m = some k → Line.scopeEnd k ∈ body) {s : State} (h : InEngine .opened s) :
    (run m (body ++ endLines) s).Apart := by
  induction body generalizing m s with
  | nil =>
    cases m with
    | some k => simpa using hm k rfl
    | none => exact run_endLines_apart h
  | cons l ls ih =>
    obtain ⟨hl, -, hls⟩ := transactionBody_cons.mp hb
    cases m with
    | some k =>
      rw [List.cons_append, run]
      refine ih hls _ (fun j hj => ?_) h
      split at hj
      · cases hj
      · next hne => cases hj; simpa [Ne.symm hne] using hm k rfl
    | none =>
      have hd := h.neutralLine hl
      rw [List.cons_append]
      cases ho : doLine l s with
      | go t => rw [ho] at hd; rw [run_go h.free ho]; exact ih hls none nofun (InEngine.after hd s)
      | leave k t =>
        rw [ho] at hd
        rw [run_leave h.free ho]
        exact ih hls (some k) (fun j hj => by cases hj; exact transactionBody_leave hb ho) (InEngine.after hd s)
      | pass => rw [run_pass h.free ho]; exact ih hls none nofun h
      | again ks t =>
        obtain ⟨rfl, -⟩ := doLine_again ho
        rw [run_again h.free ho, observe_self, ← List.append_assoc]
        exact h.apart_inside (transactionBody_again hb ho) none

/-- From the wait of the start condition on (R125, R140). -/
theorem run_start_apart {body : List Line} (hb : transactionBody body = true) {s : State} (h : InEngine .none s) :
    (run none (startLines.tail ++ .txnOpen :: body ++ endLines) s).Apart := by
  rw [show startLines.tail = .waitScl :: [.delayLow, .sdaLow, .delayHigh, .sclLow] from rfl]
  simp only [List.cons_append, List.nil_append]
  cases hl : sclLine s with
  | false =>
    rw [run_again (t := s) (ks := [.waitScl]) h.free (by simp [doLine, hl]), observe_self]
    exact h.apart_start hb none
  | true =>
    rw [run_go (t := s) h.free (by simp [doLine, hl])]
    obtain ⟨t, rt, ht⟩ := run_straight (fun _ h => h.free) (InEngine.alone .none)
      [.delayLow, .sdaLow, .delayHigh, .sclLow] (fun l hl s h => by
        simp only [List.mem_cons, List.not_mem_nil, or_false] at hl
        rcases hl with rfl | rfl | rfl | rfl <;> exact ⟨_, rfl, { h with }⟩) (InEngine.after h s)
    obtain ⟨u, ru, hu⟩ := run_go_with (InEngine.alone .opened) (l := .txnOpen) ht.free rfl
      ⟨ht.noHalfHandler, ht.holds, ht.pin, rfl⟩
    rw [show run none (.delayLow :: .sdaLow :: .delayHigh :: .sclLow :: .txnOpen :: (body ++ endLines)) _ = _ from
      rt (.txnOpen :: (body ++ endLines)), ru]
    exact run_body_apart hb none nofun hu

/-- A transaction is invoked in `Idle`: it opens its section, masks the interrupt, takes the clock (R140, R144, R145). -/
theorem run_transactionLines_apart {rw : Bool} {a : Byte} {n : Nat} {turn : List Line}
    (hb : transactionBody (transactionBodyLines rw n turn) = true) {s : State} (h : OutsideTransaction s)
    (hf : fgHeld s = false) (hu : s.uartState = .idle) : (run none (transactionLines rw a n turn) s).Apart := by
  obtain ⟨b, rb, hb1⟩ := run_go_with InSection.alone (l := .csEnter) hf rfl
    ⟨h.noHalfHandler, rfl, hu, (h.uart.2 hu).1, h.closed⟩
  obtain ⟨c, rc, hc⟩ := run_go_with InSection.alone (l := .invoke rw a n) hb1.free rfl { hb1 with }
  obtain ⟨d, rd, hd, hmasked⟩ := run_go_with (P := fun s => InSection s ∧ s.ovie = false)
    (fun s t k hs => ⟨hs.1.alone s t k, k.ovie.trans hs.2⟩) (l := .usiMask) hc.free rfl ⟨{ hc with }, rfl⟩
  obtain ⟨e, re, he⟩ := run_go_with (InEngine.alone .none) (l := .usiStrobe) hd.free rfl
    ⟨hd.noHalfHandler, ⟨hd.off, hmasked, rfl, hd.idle⟩, hd.pin, hd.closed⟩
  obtain ⟨f, rf, hf⟩ := run_go_with (InEngine.alone .none) (l := .sclRelease) he.free rfl { he with }
  rw [transactionLines_eq, rb, rc, rd, re, rf]
  exact run_start_apart hb hf

/-! ### The bodies of the two commands -/

/-- A part of a transaction whose refusals raise `NoAck` goes before lines among which the transaction's region ends. -/
theorem transactionBody_append {xs ys : List Line} (hx : transactionBody (xs ++ [.scopeEnd .txn]) = true)
    (hy : transactionBody ys = true) (he : Line.scopeEnd .txn ∈ ys) : transactionBody (xs ++ ys) = true := by
  induction xs with
  | nil => exact hy
  | cons x xs ih =>
    rw [List.cons_append, transactionBody_cons] at hx ⊢
    obtain ⟨hl, hend, hxs⟩ := hx
    refine ⟨hl, fun m hm => ?_, ih hxs⟩
    rcases List.mem_append.mp (hend m hm) with h | h
    · exact List.mem_append_left _ h
    · obtain rfl : m = .txn := by simpa using h
      exact List.mem_append_right _ he

theorem transactionBody_dataLines {turn ys : List Line} (ht : transactionBody (turn ++ [.scopeEnd .txn]) = true)
    (n : Nat) (hy : transactionBody ys = true) (he : Line.scopeEnd .txn ∈ ys) :
    transactionBody (dataLines turn n ++ ys) = true := by
  induction n with
  | zero => exact hy
  | succ n ih =>
    rw [dataLines, List.replicate_succ, List.flatten_cons, List.append_assoc]
    exact transactionBody_append ht ih (List.mem_append_right _ he)

theorem transactionBody_lines (rw : Bool) (n : Nat) {turn : List Line}
    (ht : transactionBody (turn ++ [.scopeEnd .txn]) = true) :
    transactionBody (transactionBodyLines rw n turn) = true := by
  have hend : transactionBody ([.okReturn, .scopeEnd .txn] ++ stopLines) = true := rfl
  have hdata := transactionBody_dataLines ht n hend (by simp)
  simp only [transactionBodyLines, List.append_assoc] at hdata ⊢
  rw [← List.append_assoc (addressLines rw)]
  exact transactionBody_append (by cases rw <;> rfl) hdata (by simp)

/-! ### The UART's commands -/

theorem uartPlace_drainLines : UartPlace drainLines := by simpa using UartPlace.drain [] .done

theorem uartPlace_nextBytes (srcs : List ByteSource) : UartPlace (nextBytes srcs) := by
  induction srcs with
  | nil => exact uartPlace_drainLines
  | cons src rest ih => exact .next src _ (.send _ ih)

theorem uartPlace_sendStrLines (srcs : List ByteSource) : UartPlace (sendStrLines srcs) := by
  cases srcs with
  | nil => exact uartPlace_drainLines
  | cons src rest => exact .invoke src _ (.send _ (uartPlace_nextBytes rest))

/-- A transmission under way owns the overflow interrupt, the clock and the pin (R166). -/
theorem OutsideTransaction.sending {s : State} (h : OutsideTransaction s) (f : Byte) : OutsideTransaction
    { s with uartState := .pendingByte f, ovie := true, txdSrc := .fromSr, clksrc := .timer } :=
  { h with uart := ⟨fun _ => ⟨rfl, rfl, rfl, h.closed⟩, nofun⟩ }

/-- `UART_WAIT_IDLE` is its check of `Idle` and the section's end. -/
theorem drainLines_append (ls : List Line) : drainLines ++ ls = pollLines ++ .csExit :: ls := by simp [drainLines]

theorem run_drain_apart {ls : List Line} (rest : UartPlace ls)
    (ih : ∀ s, OutsideTransaction s → (run none ls s).Apart) {s : State} (h : OutsideTransaction s)
    (hf : fgHeld s = false) : (run none (drainLines ++ ls) s).Apart := by
  by_cases hu : s.uartState = .idle
  · obtain ⟨t, rt, ct⟩ := drain_idle_any hf hu
    rw [rt]
    exact ih t (h.congr ct.sameControl)
  · rw [drainLines_append]
    obtain ⟨t, ct, rt | rt⟩ := poll_busy_any hf hu
    · rw [rt, ← drainLines_append]; exact (h.congr ct.sameControl).apart (.drain ls rest) none
    · rw [rt]; exact (h.congr ct.sameControl).apart (.drainBack ls rest) none

theorem run_send_apart {ls : List Line} (rest : UartPlace ls)
    (ih : ∀ s, OutsideTransaction s → (run none ls s).Apart) {s : State} (h : OutsideTransaction s)
    (hf : fgHeld s = false) : (run none (sendLines ++ ls) s).Apart := by
  by_cases hu : s.uartState = .idle
  · obtain ⟨t, rt, ct, -⟩ := send_starts hf hu
    rw [rt]
    exact ih t ((h.sending _).congr ct)
  · rw [sendLines_append]
    obtain ⟨t, ct, rt | rt⟩ := poll_busy_any hf hu
    · rw [rt, ← sendLines_append]; exact (h.congr ct.sameControl).apart (.send ls rest) none
    · rw [rt]; exact (h.congr ct.sameControl).apart (.sendBack ls rest) none

/-- A run of UART commands comes to a place in them. -/
theorem UartPlace.run_apart {ls : List Line} (p : UartPlace ls) :
    ∀ s, OutsideTransaction s → (run none ls s).Apart := by
  induction p with
  | done => exact fun s h => h.apart .done none
  | invoke src ls rest ih =>
    intro s h
    cases hf : fgHeld s with
    | true => rw [run_held hf]; exact h.apart (.invoke src ls rest) none
    | false =>
      obtain ⟨t, rt, ht⟩ := run_go_with (P := OutsideTransaction) (fun _ _ c h => h.congr c.sameControl)
        (l := .uartInvoke src) hf rfl { h with }
      rw [rt]
      exact ih t ht
  | next src ls rest ih =>
    intro s h
    cases hf : fgHeld s with
    | true => rw [run_held hf]; exact h.apart (.next src ls rest) none
    | false => rw [run_again hf rfl, observe_self]; exact h.apart (.invoke src ls rest) none
  | drain ls rest ih =>
    intro s h
    cases hf : fgHeld s with
    | true => exact (run_held (l := .csEnter) hf).symm ▸ h.apart (.drain ls rest) none
    | false => exact run_drain_apart rest ih h hf
  | drainBack ls rest ih =>
    intro s h
    cases hf : fgHeld s with
    | true => rw [run_held hf]; exact h.apart (.drainBack ls rest) none
    | false => rw [run_backEdge hf, ← drainLines_append]; exact h.apart (.drain ls rest) none
  | send ls rest ih =>
    intro s h
    cases hf : fgHeld s with
    | true => exact (run_held (l := .csEnter) hf).symm ▸ h.apart (.send ls rest) none
    | false => exact run_send_apart rest ih h hf
  | sendBack ls rest ih =>
    intro s h
    cases hf : fgHeld s with
    | true => exact (run_held (l := .spinBack) hf).symm ▸ h.apart (.sendBack ls rest) none
    | false =>
      have r := run_backEdge hf (startWrites ++ .csExit :: ls)
      rw [← sendLines_append] at r
      exact r.symm ▸ h.apart (.send ls rest) none

/-! ### Steps -/

/-- `FG` performs lines from outside every operation. -/
theorem performLines_exclusive {ls : List Line} {s : State} (h : (run none ls s).Apart) (hf : s.fg = []) :
    Exclusive (performLines ls s) := by
  simpa [performLines, hf, RunOut.Apart] using h

/-- A command that keeps D-MUTEX (R226), from outside every operation. -/
theorem run_command_apart {i : Instr} (hi : i.format = .cmd) (place : Nat) {s : State} (h : OutsideTransaction s)
    (hf : fgHeld s = false) (hm : KeepsMutex i s) : (run none (opLines place i) s).Apart := by
  cases i with
  | i2cWrite a d => exact run_transactionLines_apart (transactionBody_lines false _ rfl) h hf hm
  | i2cRead a n => exact run_transactionLines_apart (transactionBody_lines true _ rfl) h hf hm
  | uartSend b => simpa [opLines] using (UartPlace.send [] .done).run_apart s h
  | uartSendStr d => exact (uartPlace_sendStrLines _).run_apart s h
  | uartSendLine d => exact (uartPlace_sendStrLines _).run_apart s h
  | csEnter => exact UartPlace.done.run_apart s h
  | csExit => exact UartPlace.done.run_apart s h
  | _ => cases hi

theorem fgHeld_invoked (i : Instr) (s : State) : fgHeld (invoked i s) = fgHeld s := by cases i <;> rfl

theorem keepsMutex_invoked (i : Instr) (s : State) : KeepsMutex i (invoked i s) ↔ KeepsMutex i s := by
  cases i <;> exact Iff.rfl

/-- The boot lines leave the UART idle with neither clock nor pin. -/
theorem resume_exclusive_of_beforeBoot {s : State} (h : Exclusive s) (hb : BeforeBoot s) (hn : s.i2cTxn = .none) :
    Exclusive (resume s) := by
  obtain ⟨hfg, -, -, hovie, hclk, huart⟩ := hb
  obtain ⟨t, rt, hi, -, hc, hu⟩ := run_bootLines (s := { s with fg := [] }) ⟨h.noHalfHandler, hovie, hclk, huart⟩
  have hst : (run none bootLines { s with fg := [] }).st = t := by rw [rt]
  have htxn : t.i2cTxn = .none := by rw [← hst, run_i2cTxn (by decide)]; exact hn
  have only : ∀ l ∈ bootLines, writes_txdSrc l = true → l = .bootTxd := by decide
  have hpin : t.txdSrc = .idleHigh := by
    rw [← hst]
    refine run_preserves (fun s => s.txdSrc = .idleHigh) (by simp) (by simp) bootLines (fun l hl s hs => ?_) none
      (h.uart.2 huart).1
    by_cases hw : writes_txdSrc l = true
    · obtain rfl : l = .bootTxd := only l hl hw
      rfl
    · rw [doLine_txdSrc (by simpa using hw)]; exact hs
  have out : OutsideTransaction t := ⟨hi, htxn, uartOwnsWhileBusy_idle hu hpin hc⟩
  have htfg : t.fg = [] := fg_of_run rt
  rw [resume_eq, hfg, performLines_done rt]
  exact Exclusive.congr (out.apart .done none) ⟨rfl, rfl, rfl, rfl, rfl, rfl, rfl, rfl⟩ htfg

theorem Exclusive.resume {s : State} (h : Exclusive s) : Exclusive (resume s) := by
  rcases h.place with ⟨hp, hn⟩ | ⟨hh, hn, body, hb, hfg⟩ | ⟨hh, ho, body, hb, hfg⟩ | ⟨hb, hn⟩
  · exact performLines_exclusive (hp.run_apart _ ⟨h.noHalfHandler, hn, h.uart⟩) rfl
  · rw [resume_eq, hfg]
    exact performLines_exclusive (run_start_apart hb { h.inEngine hh hn with }) rfl
  · rw [resume_eq, hfg]
    exact performLines_exclusive (run_body_apart hb none nofun { h.inEngine hh ho with }) rfl
  · exact resume_exclusive_of_beforeBoot h hb hn

theorem takeInterrupt_exclusive {s t : State} (h : Exclusive s) (ht : takeInterrupt s = .next t) : Exclusive t := by
  rcases takeInterrupt_next ht with ⟨-, rfl⟩ | ⟨hp, f, hu, rfl⟩ | ⟨hp, -, rfl⟩
  · exact h
  · obtain ⟨hplace, hn⟩ := h.uartPlace (irq_facts hp).2.1
    have busy := h.uart.1 (by simp [hu])
    have out : OutsideTransaction { s with uartState := .awaitingStop, inIsr := false, gie := true } :=
      ⟨rfl, hn, fun _ => busy, nofun⟩
    exact Exclusive.congr (out.apart hplace none) (handlerPending_control f s) (handlerPending_mem_fg f s).2
  · obtain ⟨hplace, hn⟩ := h.uartPlace (irq_facts hp).2.1
    have out : OutsideTransaction { s with
        uartState := .idle, inIsr := false, gie := true, clksrc := .off, ovie := false, txdSrc := .idleHigh } :=
      ⟨rfl, hn, uartOwnsWhileBusy_idle rfl rfl nofun⟩
    exact Exclusive.congr (out.apart hplace none) (handlerAwaiting_control s) (handlerAwaiting_mem_fg s).2

/-- A hardware event keeps the engines apart at any time. -/
theorem exec_event_exclusive {i : Instr} {s t : State} (h : Exclusive s) (hi : i.format = .evt)
    (ht : exec i s = .next t) : Exclusive t := by
  rcases exec_next ht with ⟨hne, -⟩ | ⟨rfl, -⟩ | ⟨rfl, -⟩ | ⟨b, rfl, -⟩ | ⟨-, rfl⟩ | ⟨-, ht⟩
  · exact absurd hi hne
  · cases hi
  · cases hi
  · cases hi
  · exact h.congr (sameControl_compareEvent s) (by simp)
  · exact takeInterrupt_exclusive h ht

/-- Outside every operation sections come and go without touching the engines. -/
theorem OutsideTransaction.exclusive {s : State} (h : OutsideTransaction s) (hf : s.fg = []) : Exclusive s :=
  (h.apart .done none).congr ⟨rfl, rfl, rfl, rfl, rfl, rfl, rfl, rfl⟩ hf

/-- A command that keeps D-MUTEX keeps the engines apart. -/
theorem exec_command_exclusive {i : Instr} {s t : State} (h : Exclusive s) (hi : i.format = .cmd)
    (hm : KeepsMutex i s) (hf : fgHeld s = false) (hfg : s.fg = []) (ht : exec i s = .next t) : Exclusive t := by
  have out := h.outside hfg
  rcases exec_next ht with ⟨-, rfl⟩ | ⟨rfl, rfl⟩ | ⟨rfl, rfl⟩ | ⟨b, rfl, -⟩ | ⟨rfl, -⟩ | ⟨rfl, -⟩
  · exact performLines_exclusive
      (run_command_apart hi _ (out.congr (sameControl_invoked i s)) ((fgHeld_invoked i s).trans hf)
        ((keepsMutex_invoked i s).mpr hm)) ((invoked_fg i s).trans hfg)
  · exact OutsideTransaction.exclusive { out with } hfg
  · refine OutsideTransaction.exclusive ⟨?_, ?_, ?_⟩ (by simpa using hfg)
    · simpa using out.noHalfHandler
    · simpa using out.closed
    · simpa [UartOwnsWhileBusy] using out.uart
  · cases hi
  · cases hi
  · cases hi

/-- Settles O58: each kind of move of a caller that keeps its duties keeps the engines apart, and so does what follows
it. -/
theorem commandsKeepEngineExclusion : Obligations.CommandsKeepEngineExclusion := by
  intro s t h hk hs
  have settled : ∀ {u}, Exclusive u → Exclusive (slot (callerTurn u)) :=
    fun hu => hu.congr (sameControl_settled _) (by simp)
  obtain ⟨u, rfl, ⟨r, rest, i, -, hmove, hfetch, hform, ho, hx⟩ | ⟨-, hx⟩ | ⟨-, -, rfl⟩ | rfl⟩ := step_next hs
  · obtain ⟨hne, hmutex⟩ := hk r rest i hmove hfetch
    have htake : Exclusive (take r rest s) := h.congr ⟨rfl, rfl, rfl, rfl, rfl, rfl, rfl, rfl⟩ rfl
    refine settled ?_
    cases hor : r.origin with
    | engine => exact absurd hor hne
    | hardware => exact exec_event_exclusive htake (by rw [hform, hor]; rfl) hx
    | caller =>
      obtain ⟨hf, hfg⟩ := ho.resolve_left (by simp [hor])
      exact exec_command_exclusive htake (by rw [hform, hor]; rfl) (by cases i <;> exact hmutex) hf hfg hx
  · exact settled (takeInterrupt_exclusive h hx)
  · exact settled h.resume
  · exact settled h

end Sys2Proof.Machine

/-! The clock and the peripheral's handle over every step: what no operation writes but the boot lines, and what only
compare events and instants move. -/

namespace Sys2Proof.Machine

/-! ### What only boot, compare events and instants write -/

/-- The fields that no operation writes but the boot lines and the timer are the same in both states. -/
structure SameClock (s t : State) : Prop where
  periphInit : t.periphInit = s.periphInit
  tmode : t.tmode = s.tmode
  tcmp : t.tcmp = s.tcmp
  tcnt : t.tcnt = s.tcnt
  env : t.env = s.env
  wireTrace : t.wireTrace = s.wireTrace
  slotOpen : t.slotOpen = s.slotOpen

/-- A property of those fields that the boot lines, compare events and instants keep. -/
structure KeptByClock (P : State → Prop) : Prop where
  congr : ∀ {s t}, SameClock s t → P s → P t
  handle : ∀ {s}, P s → P (bootTakeHandle s)
  threshold : ∀ {s}, P s → P (bootSetThreshold s)
  timer : ∀ {s}, P s → P (bootStartTimer s)
  event : ∀ {s}, P s → P (compareEvent s)
  instant : ∀ {s}, P s → P (slot s)

theorem sameClock_observe (s t : State) : SameClock t (observe s t) := by constructor <;> simp

theorem sameClock_callerTurn (s : State) : SameClock s (callerTurn s) := by constructor <;> simp

theorem sameClock_invoked (i : Instr) (s : State) : SameClock s (invoked i s) := by
  cases i <;> exact ⟨rfl, rfl, rfl, rfl, rfl, rfl, rfl⟩

theorem sameClock_exitSection (s : State) : SameClock s (exitSection s) := by constructor <;> simp

/-- The boot lines that take the handle, set the threshold and start the timer are the only ones that write the clock. -/
theorem doLine_sameClock (l : Line) (s : State) :
    SameClock s ((doLine l s).state s) ∨ l = .bootHandle ∨ l = .bootThreshold ∨ l = .bootTimer := by
  by_cases hl : l = .bootHandle ∨ l = .bootThreshold ∨ l = .bootTimer
  · exact .inr hl
  · have ⟨hp, hm, hc⟩ : writes_periphInit l = false ∧ writes_tmode l = false ∧ writes_tcmp l = false := by
      cases l <;> first | exact ⟨rfl, rfl, rfl⟩ | simp at hl
    exact .inl ⟨doLine_periphInit hp s, doLine_tmode hm s, doLine_tcmp hc s, doLine_tcnt l s,
      doLine_env l s, doLine_wireTrace l s, doLine_slotOpen l s⟩

namespace KeptByClock

variable {P : State → Prop} {s t : State}

theorem line (k : KeptByClock P) (l : Line) (h : P s) : P ((doLine l s).state s) := by
  rcases doLine_sameClock l s with c | rfl | rfl | rfl
  · exact k.congr c h
  · exact k.handle h
  · exact k.threshold h
  · exact k.timer h

theorem performLines (k : KeptByClock P) (ls : List Line) (h : P s) : P (performLines ls s) :=
  k.congr (s := (run none ls s).st) ⟨rfl, rfl, rfl, rfl, rfl, rfl, rfl⟩
    (run_preserves P (fun s t => k.congr (sameClock_observe s t)) (fun _ => k.instant) ls
      (fun l _ _ => k.line l) none h)

theorem isrStep (k : KeptByClock P) {f : State → State} (c : ∀ s, SameClock s (f s)) (h : P s) :
    P (isrStep f s) :=
  k.instant (k.congr (sameClock_observe s (f s)) (k.congr (c s) h))

theorem takeInterrupt (k : KeptByClock P) (h : P s) (ht : takeInterrupt s = .next t) : P t := by
  rcases takeInterrupt_next ht with ⟨-, rfl⟩ | ⟨-, f, -, rfl⟩ | ⟨-, -, rfl⟩
  · exact h
  · unfold handlerPending
    repeat' refine k.isrStep (fun _ => ⟨rfl, rfl, rfl, rfl, rfl, rfl, rfl⟩) ?_
    exact h
  · unfold handlerAwaiting
    repeat' refine k.isrStep (fun _ => ⟨rfl, rfl, rfl, rfl, rfl, rfl, rfl⟩) ?_
    exact h

theorem exec (k : KeptByClock P) {i : Instr} (h : P s) (ht : exec i s = .next t) : P t := by
  rcases exec_next ht with ⟨-, rfl⟩ | ⟨-, rfl⟩ | ⟨-, rfl⟩ | ⟨b, -, rfl⟩ | ⟨-, rfl⟩ | ⟨-, ht⟩
  · exact k.performLines _ (k.congr (sameClock_invoked i s) h)
  · exact k.congr (s := s) ⟨rfl, rfl, rfl, rfl, rfl, rfl, rfl⟩ h
  · exact k.congr (sameClock_exitSection s) h
  · exact k.congr (s := s) ⟨rfl, rfl, rfl, rfl, rfl, rfl, rfl⟩ h
  · exact k.congr (sameClock_observe s _) (k.event h)
  · exact k.takeInterrupt h ht

/-- Every step ends with an instant, before which the property holds. -/
theorem step (k : KeptByClock P) (h : P s) (hs : step s = .next t) : ∃ u, P u ∧ t = slot u := by
  obtain ⟨u, rfl, hu⟩ := step_next hs
  refine ⟨_, k.congr (sameClock_callerTurn u) ?_, rfl⟩
  rcases hu with ⟨r, rest, i, -, -, -, -, -, hx⟩ | ⟨-, hx⟩ | ⟨-, -, rfl⟩ | rfl
  · exact k.exec (s := take r rest s) (k.congr (s := s) ⟨rfl, rfl, rfl, rfl, rfl, rfl, rfl⟩ h) hx
  · exact k.takeInterrupt h hx
  · exact k.performLines _ (k.congr (s := s) ⟨rfl, rfl, rfl, rfl, rfl, rfl, rfl⟩ h)
  · exact h

end KeptByClock

theorem keptByClock_periphInit : KeptByClock (fun s => s.periphInit = true) where
  congr := fun c h => c.periphInit.trans h
  handle := fun _ => rfl
  threshold := fun h => h
  timer := fun h => h
  event := fun h => by simpa [compareEvent] using h
  instant := fun h => by simpa using h

/-- Settles O17: the one line that writes `PERIPH_INIT` sets it. -/
theorem peripheralHandleIsNeverDestroyed : Obligations.PeripheralHandleIsNeverDestroyed := by
  intro s t hs h
  obtain ⟨u, hu, rfl⟩ := keptByClock_periphInit.step h hs
  exact keptByClock_periphInit.instant hu

/-- Settles O11: each line reads 0 where some agent pulls it low; the output pin has one driver. -/
theorem linesAreWiredAnd : Obligations.LinesAreWiredAnd := by
  intro s
  refine ⟨?_, ?_, ?_⟩
  · unfold sclLine
    cases s.sclOut <;> simp
  · unfold sdaLine
    cases s.sdaOut <;> cases s.sr.getLsbD 7 <;> simp
  · unfold txdLine
    cases s.txdSrc <;> simp

/-- Settles O16: each of the five commands tests `PERIPH_INIT`, which laying its operand leaves as it was. -/
theorem commandsRefusedBeforeBoot : Obligations.CommandsRefusedBeforeBoot := by
  intro s h
  have refused : ∀ (ls : List Line) (t : State), t.periphInit = s.periphInit → command ls t = .refused .notInitialised :=
    fun ls t ht => by simp [command, ht, h]
  exact ⟨fun _ _ => refused _ _ rfl, fun _ _ => refused _ _ rfl, fun _ => refused _ _ rfl, fun _ => refused _ _ rfl,
    fun _ => refused _ _ rfl⟩

end Sys2Proof.Machine

/-! The timer (R30, R160): its ticks between compare events, and compare events for ever under weak fairness. -/

namespace Sys2Proof.Machine

/-! ### From one compare event to the next -/

/-- From a count of 0 the ticks before the threshold only count. -/
theorem timerTick_iterate {s : State} (hm : s.tmode = .freeRunCompare) (h0 : s.tcnt = 0) :
    ∀ k < s.tcmp.toNat, timerTick^[k] s = { s with tcnt := BitVec.ofNat 8 k } := by
  intro k hk
  induction k with
  | zero => cases s; cases h0; rfl
  | succ k ih =>
    rw [Function.iterate_succ_apply', ih (by omega)]
    have next : BitVec.ofNat 8 k + 1 = BitVec.ofNat 8 (k + 1) := by simp [BitVec.ofNat_add]
    have below : BitVec.ofNat 8 k + 1 ≠ s.tcmp := by
      rw [next]
      rintro he
      rw [← he, BitVec.toNat_ofNat] at hk
      exact absurd (Nat.mod_le (k + 1) (2 ^ 8)) (by omega)
    rcases timerTick_cases (s := { s with tcnt := BitVec.ofNat 8 k }) hm with ⟨he, -⟩ | ⟨-, ht⟩
    · exact absurd he below
    · rw [ht, ← next]

/-- The tick that reaches the threshold is a compare event, and the count is 0 again. -/
theorem timerTick_threshold {s : State} (hm : s.tmode = .freeRunCompare) (h0 : s.tcnt = 0) (hc : s.tcmp ≠ 0) :
    timerTick^[s.tcmp.toNat] s = compareEvent s := by
  obtain ⟨n, hn⟩ : ∃ n, s.tcmp.toNat = n + 1 :=
    Nat.exists_eq_succ_of_ne_zero fun h => hc (BitVec.eq_of_toNat_eq h)
  have reached : BitVec.ofNat 8 n + 1 = s.tcmp := by
    have width : BitVec.ofNat 8 s.tcmp.toNat = s.tcmp := by simp
    rw [← width, hn]
    simp [BitVec.ofNat_add]
  rw [hn, Function.iterate_succ_apply', timerTick_iterate hm h0 n (by omega)]
  rcases timerTick_cases (s := { s with tcnt := BitVec.ofNat 8 n }) hm with ⟨-, ht⟩ | ⟨hne, -⟩
  · rw [ht]; cases s; cases h0; rfl
  · exact absurd reached hne

theorem timerTick_stopped {s : State} (h : s.tmode = .stopped) : timerTick s = s := by simp [timerTick, h]

/-! ### How far the timer has come -/

/-- How far the timer has come: the compare events so far, weighed so that each outweighs the ticks between two, and
the ticks since the last, counted by those still missing to the threshold. -/
def timerProgress (s : State) : Nat := 256 * compareCount s + (255 - (s.tcmp - 1 - s.tcnt).toNat)

theorem timerProgress_lt_of_event {s t : State} (h : compareCount s < compareCount t) :
    timerProgress s < timerProgress t := by unfold timerProgress; omega

/-- Progress by `256 * n` takes `n` compare events. -/
theorem compareCount_of_progress {s t : State} {n : Nat} (h : timerProgress s + 256 * n ≤ timerProgress t) :
    compareCount s + n ≤ compareCount t := by unfold timerProgress at h; omega

theorem timerProgress_congr {s t : State} (c : SameClock s t) : timerProgress t = timerProgress s := by
  simp only [timerProgress, compareCount, c.tcmp, c.tcnt, c.wireTrace, c.slotOpen]

/-- Every tick of the running timer is progress. -/
theorem timerProgress_tickSeen {s : State} (h : s.tmode = .freeRunCompare) :
    timerProgress s < timerProgress (tickSeen s) := by
  rw [tickSeen, timerProgress_congr (sameClock_observe s _)]
  rcases timerTick_cases h with ⟨-, ht⟩ | ⟨hne, ht⟩
  · rw [ht]
    refine timerProgress_lt_of_event ?_
    rw [compareCount_compareEvent]
    exact Nat.lt_succ_self _
  · rw [ht]
    have closer : (s.tcmp - 1 - (s.tcnt + 1)).toNat < (s.tcmp - 1 - s.tcnt).toNat := by bv_omega
    have bound := (s.tcmp - 1 - s.tcnt).isLt
    simp only [timerProgress, compareCount]
    omega

theorem timerProgress_tickRun (n : Nat) {s : State} (h : s.tmode = .freeRunCompare) :
    timerProgress s ≤ timerProgress (tickRun n s) := by
  induction n generalizing s with
  | zero => exact Nat.le_refl _
  | succ n ih => exact (timerProgress_tickSeen h).le.trans (ih (by simpa using h))

/-- No move of another agent takes progress back, and that of the timer that runs on is progress. -/
theorem timerProgress_envMove {s : State} (h : s.tmode = .freeRunCompare) (m : EnvMove) :
    timerProgress s ≤ timerProgress (envMove s m) ∧ (m = .freeRun → timerProgress s < timerProgress (envMove s m)) := by
  cases m with
  | peerSda low => exact ⟨(timerProgress_congr (sameClock_observe s { s with peerSdaLow := low })).ge, nofun⟩
  | peerScl low => exact ⟨(timerProgress_congr (sameClock_observe s { s with peerSclLow := low })).ge, nofun⟩
  | tick => exact ⟨(timerProgress_tickSeen h).le, nofun⟩
  | freeRun =>
    have first := timerProgress_tickSeen (s := listAgain s) h
    have more := timerProgress_tickRun (Config.tickBurst s.draws) (s := tickSeen (listAgain s)) (by simpa using h)
    have ticked : timerProgress s < timerProgress (envMove s .freeRun) := first.trans_le more
    exact ⟨ticked.le, fun _ => ticked⟩

theorem timerProgress_moves {s : State} (h : s.tmode = .freeRunCompare) (ms : List EnvMove) :
    timerProgress s ≤ timerProgress (ms.foldl envMove s) ∧
      (.freeRun ∈ ms → timerProgress s < timerProgress (ms.foldl envMove s)) := by
  induction ms generalizing s with
  | nil => exact ⟨Nat.le_refl _, nofun⟩
  | cons m ms ih =>
    obtain ⟨le, lt⟩ := timerProgress_envMove h m
    obtain ⟨le', lt'⟩ := ih (s := envMove s m) (by simpa using h)
    refine ⟨le.trans le', fun hm => ?_⟩
    rcases List.mem_cons.mp hm with rfl | hm
    · exact (lt rfl).trans_le le'
    · exact le.trans_lt (lt' hm)

/-- An instant takes no progress back, and is progress where the timer that runs on ticks in it. -/
theorem timerProgress_slot {s : State} (h : s.tmode = .freeRunCompare) :
    timerProgress s ≤ timerProgress (slot s) ∧
      (.freeRun ∈ s.env.headD [] → timerProgress s < timerProgress (slot s)) := by
  unfold slot
  split
  · next he => exact ⟨Nat.le_refl _, by simp [he]⟩
  · next ms rest he =>
    rw [he]
    exact timerProgress_moves (s := { s with env := rest }) h ms

/-! ### Weak fairness -/

/-- The timer that runs on is listed for one of the next `k` instants. -/
def TimerListed (k : Nat) (s : State) : Prop := ∃ ms ∈ s.env.take k, EnvMove.freeRun ∈ ms

/-- An instant in which the timer that runs on does not tick brings its own nearer. -/
theorem timerListed_slot {k : Nat} {s : State} (h : TimerListed (k + 1) s) (hn : .freeRun ∉ s.env.headD []) :
    TimerListed k (slot s) := by
  obtain ⟨ms, hms, hf⟩ := h
  obtain ⟨e, he, -, -⟩ := slot_env s
  cases hs : s.env with
  | nil => simp [hs] at hms
  | cons head tail =>
    simp only [hs, List.take_succ_cons, List.mem_cons] at hms
    rcases hms with rfl | hms
    · exact absurd hf (by simpa [hs] using hn)
    · exact ⟨ms, by rw [he, hs, List.tail_cons, List.take_append]; exact List.mem_append_left _ hms, hf⟩

theorem timerRunsOn_slot {s : State} (h : TimerRunsOn s) : TimerRunsOn (slot s) := by
  obtain ⟨ms, hms, hf⟩ := h
  obtain ⟨e, he, -, again⟩ := slot_env s
  by_cases hn : .freeRun ∈ s.env.headD []
  · exact ⟨[.freeRun], by rw [he]; exact List.mem_append_right _ (again hn), by simp⟩
  · obtain ⟨ms', hms', hf'⟩ := timerListed_slot (k := s.env.length)
      ⟨ms, by rwa [List.take_of_length_le (Nat.le_succ _)], hf⟩ hn
    exact ⟨ms', List.mem_of_mem_take hms', hf'⟩

/-- Setting the threshold again changes nothing. -/
theorem sameClock_threshold {s : State} (h : TimerFair s) : SameClock s (bootSetThreshold s) :=
  ⟨rfl, rfl, h.2.1.symm, rfl, rfl, rfl, rfl⟩

theorem keptByClock_timerFair : KeptByClock TimerFair where
  congr := fun c h => by unfold TimerFair TimerRunsOn; rw [c.tmode, c.tcmp, c.env]; exact h
  handle := fun h => h
  threshold := fun h => ⟨h.1, rfl, h.2.2⟩
  timer := fun h => ⟨rfl, h.2⟩
  event := fun h => by simpa [TimerFair, TimerRunsOn, compareEvent] using h
  instant := fun ⟨hm, hc, hr⟩ => ⟨by simpa using hm, by simpa using hc, timerRunsOn_slot hr⟩

theorem step_timerFair {s t : State} (h : TimerFair s) (hs : step s = .next t) : TimerFair t := by
  obtain ⟨u, hu, rfl⟩ := keptByClock_timerFair.step h hs
  exact keptByClock_timerFair.instant hu

/-- The timer, fair, has come further than `p`, or will within the next `k` instants. -/
def Advances (p k : Nat) (s : State) : Prop :=
  TimerFair s ∧ (p < timerProgress s ∨ (p ≤ timerProgress s ∧ TimerListed k s))

theorem advances_zero {p : Nat} {s : State} (h : Advances p 0 s) : p < timerProgress s := by
  simpa [Advances, TimerListed] using h.2

theorem Advances.mono {p k : Nat} {s : State} (h : Advances p k s) : Advances p (k + 1) s := by
  refine ⟨h.1, h.2.imp id fun ⟨le, ms, hms, hf⟩ => ⟨le, ms, ?_, hf⟩⟩
  exact List.mem_of_mem_take (by rwa [List.take_take, Nat.min_eq_left (Nat.le_succ k)])

theorem Advances.slot {p k : Nat} {s : State} (h : Advances p (k + 1) s) : Advances p k (slot s) := by
  obtain ⟨hfair, h⟩ := h
  obtain ⟨le, lt⟩ := timerProgress_slot hfair.1
  refine ⟨keptByClock_timerFair.instant hfair, ?_⟩
  rcases h with h | ⟨h, hl⟩
  · exact .inl (h.trans_le le)
  · by_cases hn : .freeRun ∈ s.env.headD []
    · exact .inl (h.trans_lt (lt hn))
    · exact .inr ⟨h.trans le, timerListed_slot hl hn⟩

theorem Advances.congr {p k : Nat} {s t : State} (c : SameClock s t) (h : Advances p k s) : Advances p k t := by
  refine ⟨keptByClock_timerFair.congr c h.1, ?_⟩
  unfold TimerListed
  rw [timerProgress_congr c, c.env]
  exact h.2

theorem keptByClock_advances (p k : Nat) : KeptByClock (Advances p k) where
  congr := Advances.congr
  handle := fun h => ⟨h.1, h.2⟩
  threshold := fun h => h.congr (sameClock_threshold h.1)
  timer := fun {s} h => Advances.congr (s := s) (t := bootStartTimer s) ⟨rfl, h.1.1.symm, rfl, rfl, rfl, rfl, rfl⟩ h
  event := fun {s} h => by
    have more : timerProgress s < timerProgress (compareEvent s) :=
      timerProgress_lt_of_event (by rw [compareCount_compareEvent]; exact Nat.lt_succ_self _)
    have le : p ≤ timerProgress s := h.2.elim le_of_lt And.left
    exact ⟨keptByClock_timerFair.event h.1, .inl (le.trans_lt more)⟩
  instant := fun {s} h => h.mono.slot

/-! ### Runs of steps -/

theorem steps_add {a b : Nat} {s u : State} (h : Steps (a + b) s u) : ∃ t, Steps a s t ∧ Steps b t u := by
  induction a generalizing s with
  | zero => exact ⟨s, rfl, by simpa using h⟩
  | succ a ih =>
    rw [Nat.succ_add] at h
    obtain ⟨v, hv, h⟩ := h
    obtain ⟨t, ha, hb⟩ := ih h
    exact ⟨t, ⟨v, hv, ha⟩, hb⟩

theorem steps_unique {k : Nat} {s t u : State} (ht : Steps k s t) (hu : Steps k s u) : t = u := by
  induction k generalizing s with
  | zero => exact ht.trans hu.symm
  | succ k ih =>
    obtain ⟨v, hv, ht⟩ := ht
    obtain ⟨w, hw, hu⟩ := hu
    obtain rfl : v = w := Host.Outcome.next.inj (hv.symm.trans hw)
    exact ih ht hu

theorem steps_timerFair {k : Nat} {s t : State} (h : TimerFair s) (hs : Steps k s t) : TimerFair t := by
  induction k generalizing s with
  | zero => exact hs ▸ h
  | succ k ih =>
    obtain ⟨u, hu, hs⟩ := hs
    exact ih (step_timerFair h hu) hs

/-- Each step ends with an instant, so that after `k` steps the timer has come further. -/
theorem steps_advance {p k : Nat} {s t : State} (h : Advances p k s) (hs : Steps k s t) : p < timerProgress t := by
  induction k generalizing s with
  | zero => exact hs ▸ advances_zero h
  | succ k ih =>
    obtain ⟨u, hu, hs⟩ := hs
    obtain ⟨v, hv, rfl⟩ := (keptByClock_advances p (k + 1)).step h hu
    exact ih hv.slot hs

/-- Some number of steps brings any progress that is asked for. -/
theorem exists_steps_progress (n : Nat) {s : State} (h : TimerFair s) :
    ∃ k, ∀ t, Steps k s t → timerProgress s + n ≤ timerProgress t := by
  induction n generalizing s with
  | zero => exact ⟨0, fun t ht => by rw [show t = s from ht]; exact Nat.le_refl _⟩
  | succ n ih =>
    obtain ⟨ms, hms, hf⟩ := h.2.2
    have first : ∀ t, Steps s.env.length s t → timerProgress s < timerProgress t :=
      fun t => steps_advance ⟨h, .inr ⟨Nat.le_refl _, ms, by simpa using hms, hf⟩⟩
    by_cases hex : ∃ t, Steps s.env.length s t
    · obtain ⟨t, ht⟩ := hex
      obtain ⟨k, hk⟩ := ih (steps_timerFair h ht)
      refine ⟨s.env.length + k, fun u hu => ?_⟩
      obtain ⟨t', ht', hu⟩ := steps_add hu
      obtain rfl := steps_unique ht ht'
      have := first t ht
      have := hk u hu
      omega
    · exact ⟨s.env.length, fun t ht => absurd ⟨t, ht⟩ hex⟩

/-! ### Steps exist -/

/-- From the invariant, with no request waiting, nothing stops the block: the handler is never due in `Idle`. -/
theorem exists_step {s : State} (h : Inv s) (hr : s.requests = []) : ∃ t, step s = .next t := by
  have hmove : nextMove s = fgMove s .idle := by simp [nextMove, hr]
  unfold fgMove at hmove
  unfold step
  split at hmove
  · rw [hmove]; exact ⟨_, rfl⟩
  · split at hmove
    · next hp =>
      obtain ⟨-, -, hovie, -⟩ := irq_facts hp
      rw [hmove]
      simp only [exec, execUsiOvfIrq, takeInterrupt, hp, if_true]
      cases hu : s.uartState with
      | idle => exact absurd hu (h.enabledOnlyBusy hovie)
      | pendingByte f => exact ⟨_, rfl⟩
      | awaitingStop => exact ⟨_, rfl⟩
    · split at hmove <;> (rw [hmove]; exact ⟨_, rfl⟩)

/-- No step makes a request. -/
theorem step_requests_nil {s t : State} (hr : s.requests = []) (hs : step s = .next t) : t.requests = [] := by
  obtain ⟨u, rfl, ⟨r, rest, i, hreq, -⟩ | ⟨-, hx⟩ | ⟨-, -, rfl⟩ | rfl⟩ := step_next hs
  · simp [hr] at hreq
  · rcases takeInterrupt_next hx with ⟨-, rfl⟩ | ⟨-, f, -, rfl⟩ | ⟨-, -, rfl⟩
    · simpa using hr
    · simpa [handlerPending] using hr
    · simpa [handlerAwaiting] using hr
  · simpa [resume, performLines] using hr
  · simpa using hr

theorem exists_steps (k : Nat) {s : State} (h : Inv s) (hr : s.requests = []) : ∃ t, Steps k s t := by
  induction k generalizing s with
  | zero => exact ⟨s, rfl⟩
  | succ k ih =>
    obtain ⟨u, hu⟩ := exists_step h hr
    obtain ⟨t, ht⟩ := ih (stepKeepsInvariant s u h hu) (step_requests_nil hr hu)
    exact ⟨t, u, hu, ht⟩

/-- Settles O47: the ticks between two compare events are counted, and the timer's progress under weak fairness has no
bound. -/
theorem compareEventsAreTcmpTicksApart : Obligations.CompareEventsAreTcmpTicksApart := by
  intro s
  refine ⟨fun hm h0 hc => ⟨timerTick_iterate hm h0, timerTick_threshold hm h0 hc⟩, timerTick_stopped, fun h => ?_⟩
  refine ⟨fun t => step_timerFair h, fun n => ?_⟩
  obtain ⟨k, hk⟩ := exists_steps_progress (256 * n) h
  exact ⟨k, fun t ht => compareCount_of_progress (hk t ht), fun hi hr => exists_steps k hi hr⟩

end Sys2Proof.Machine

/-! The canonical form of a memory: its cells are determined by what it reads as (R71). -/

namespace Sys2Proof.Machine

theorem Memory.wfFrom_cons {lo k : Nat} {b : Byte} {m : List Host.Cell} :
    Memory.wfFrom lo ((k, b) :: m) = true ↔ lo ≤ k ∧ b ≠ Memory.blank ∧ Memory.wfFrom (k + 1) m = true := by
  simp [Memory.wfFrom, and_assoc]

@[simp] theorem Memory.read_head (k : Nat) (b : Byte) (m : List Host.Cell) : Memory.read ((k, b) :: m) k = b :=
  if_pos rfl

/-- A canonical memory that reads blank everywhere lists no cell. -/
theorem Memory.eq_nil_of_read_blank {lo : Nat} {m : List Host.Cell} (hm : Memory.wfFrom lo m = true)
    (h : ∀ i, Memory.read m i = Memory.blank) : m = [] := by
  cases m with
  | nil => rfl
  | cons c m =>
    obtain ⟨k, b⟩ := c
    obtain ⟨-, hb, -⟩ := Memory.wfFrom_cons.1 hm
    exact absurd (by simpa using h k) hb

/-- The first cell of a canonical memory lies no higher than that of a memory that reads alike: below its own first
cell the other one reads blank. -/
theorem Memory.first_le_of_read_eq {lo lo' k k' : Nat} {b b' : Byte} {m m' : List Host.Cell}
    (hm : Memory.wfFrom lo ((k, b) :: m) = true) (hm' : Memory.wfFrom lo' ((k', b') :: m') = true)
    (h : ∀ i, Memory.read ((k, b) :: m) i = Memory.read ((k', b') :: m') i) : k ≤ k' := by
  obtain ⟨-, hb, htail⟩ := Memory.wfFrom_cons.1 hm
  obtain ⟨-, hb', -⟩ := Memory.wfFrom_cons.1 hm'
  by_contra hlt
  have fromFirst : Memory.wfFrom k ((k, b) :: m) = true := Memory.wfFrom_cons.2 ⟨le_rfl, hb, htail⟩
  have blank : Memory.read ((k, b) :: m) k' = Memory.blank := Memory.read_below (Nat.lt_of_not_le hlt) _ fromFirst
  exact hb' (by rw [← blank, h k', Memory.read_head])

/-- Two canonical memories with the same first address that read alike have tails that read alike. -/
theorem Memory.read_tail_eq {k : Nat} {b b' : Byte} {m m' : List Host.Cell} (hm : Memory.wfFrom (k + 1) m = true)
    (hm' : Memory.wfFrom (k + 1) m' = true)
    (h : ∀ i, Memory.read ((k, b) :: m) i = Memory.read ((k, b') :: m') i) (i : Nat) :
    Memory.read m i = Memory.read m' i := by
  by_cases hi : i = k
  · rw [Memory.read_below (by omega) m hm, Memory.read_below (by omega) m' hm']
  · simpa [Memory.read_cons, hi] using h i

/-- Canonical memories that read alike are equal, whatever lower bounds their cells meet. -/
theorem Memory.eq_of_read_eq {lo lo' : Nat} {m m' : List Host.Cell} (hm : Memory.wfFrom lo m = true)
    (hm' : Memory.wfFrom lo' m' = true) (h : ∀ i, Memory.read m i = Memory.read m' i) : m = m' := by
  induction m generalizing m' lo lo' with
  | nil => exact (Memory.eq_nil_of_read_blank hm' fun i => (h i).symm).symm
  | cons c m ih =>
    cases m' with
    | nil => exact Memory.eq_nil_of_read_blank hm h
    | cons c' m' =>
      obtain ⟨k, b⟩ := c
      obtain ⟨k', b'⟩ := c'
      obtain rfl : k = k' :=
        le_antisymm (Memory.first_le_of_read_eq hm hm' h) (Memory.first_le_of_read_eq hm' hm fun i => (h i).symm)
      obtain rfl : b = b' := by simpa using h k
      obtain ⟨-, -, htail⟩ := Memory.wfFrom_cons.1 hm
      obtain ⟨-, -, htail'⟩ := Memory.wfFrom_cons.1 hm'
      rw [ih htail htail' (Memory.read_tail_eq htail htail' h)]

/-- Settles O12: a read at the stored place, and one elsewhere. -/
theorem storedByteReadsBack : Obligations.StoredByteReadsBack := by
  intro m i j v hm
  split_ifs with hj
  · rw [hj]; exact Memory.read_write_same m i v (lo := 0) hm
  · exact Memory.read_write_other m v hj

/-- Settles O13, by induction on both lists of cells: their first cells agree, and so do their tails. -/
theorem canonicalMemoriesAreExtensional : Obligations.CanonicalMemoriesAreExtensional :=
  fun _ _ hm hm' h => Memory.eq_of_read_eq (lo := 0) (lo' := 0) hm hm' h

end Sys2Proof.Machine

/-! The decoder on the encoder's bytes (R93, R94), each kind of operand once. -/

namespace Sys2Proof

theorem toNat_ofNat_byte {n : Nat} (h : n ≤ 255) : (BitVec.ofNat 8 n).toNat = n := by
  simp only [BitVec.toNat_ofNat]; omega

@[simp] theorem takeBit_bitByte (mk : Bool → Instr) (b : Bool) (rest : List Byte) :
    takeBit mk (bitByte b :: rest) = .ok (mk b, rest) := by
  cases b <;> rfl

theorem takeBuffer_bufferBytes (mk : List Byte → Instr) {d : List Byte} (h : d.length ≤ 255) (rest : List Byte) :
    takeBuffer mk (bufferBytes d ++ rest) = .ok (mk d, rest) := by
  simp only [bufferBytes, List.cons_append, takeBuffer, toNat_ofNat_byte h]
  simp

/-- One operand byte that stands for a number. -/
theorem takeByte_number (mk : Nat → Instr) {n : Nat} (h : n ≤ 255) (rest : List Byte) :
    takeByte (fun b => mk b.toNat) (BitVec.ofNat 8 n :: rest) = .ok (mk n, rest) := by
  rw [takeByte, toNat_ofNat_byte h]

/-- The operand bytes of a well-formed operation are read back under its opcode, by the kind of its operands. -/
theorem decodeOperands_operandBytes {i : Instr} (h : i.wellFormed = true) (rest : List Byte) :
    decodeOperands (opcode i).toNat (operandBytes i ++ rest) = .ok (i, rest) := by
  cases i with
  | i2cWrite a d => exact takeBuffer_bufferBytes (.i2cWrite a) (of_decide_eq_true h) rest
  | uartSendStr d => exact takeBuffer_bufferBytes .uartSendStr (of_decide_eq_true h) rest
  | uartSendLine d => exact takeBuffer_bufferBytes .uartSendLine (of_decide_eq_true h) rest
  | i2cRead a n => exact takeByte_number (.i2cRead a) (of_decide_eq_true h) rest
  | i2cXfer n =>
    have hn : n = 1 ∨ n = 8 := by simpa [Instr.wellFormed] using h
    exact takeByte_number .i2cXfer (by omega) rest
  | i2cMasterAck k => exact takeBit_bitByte .i2cMasterAck k rest
  | i2cAddress r => exact takeBit_bitByte .i2cAddress r rest
  | _ => rfl

/-- The descriptor of a well-formed operation is read back as that operation, and the bytes after it are left. -/
theorem decode_encode_append {i : Instr} (h : i.wellFormed = true) (rest : List Byte) :
    decode (encode i ++ rest) = .ok (i, rest) :=
  decodeOperands_operandBytes h rest

end Sys2Proof

/-! The step that performs a request (R66, R94): when its turn comes, and what is fetched. -/

namespace Sys2Proof.Machine

/-- A hardware event that heads the waiting requests is next, and so is any request while `FG` is free. -/
theorem nextMove_request {s : State} {r : Request} {rest : List Request} (hr : s.requests = r :: rest)
    (ho : r.origin = .hardware ∨ (fgHeld s = false ∧ s.fg = [])) : nextMove s = .request r rest := by
  by_cases hw : r.origin = .hardware
  · simp [nextMove, hr, hw]
  · obtain ⟨hheld, hfg⟩ := ho.resolve_left hw
    obtain ⟨hisr, hirq⟩ : s.inIsr = false ∧ irqPending s = false := by simpa [fgHeld] using hheld
    simp [nextMove, fgMove, hr, hw, hfg, hisr, hirq]

/-- What its invocation stands for is fetched where the origin may invoke it. -/
theorem fetch_of_operation {r : Request} {i : Instr} (ho : operation r.invocation = .ok i)
    (hf : i.format = r.origin.presents) : fetch r = .ok i := by
  simp [fetch, ho, hf]

theorem step_request {s : State} {r : Request} {rest : List Request} {i : Instr} (hm : nextMove s = .request r rest)
    (hf : fetch r = .ok i) : step s = settle (exec i (take r rest s)) := by
  simp [step, hm, hf]

/-- Both ways of invoking an operation stand for it: a call, and bytes that begin with its descriptor. -/
theorem operation_invoked {inv : Invocation} {i : Instr}
    (h : inv = .call i ∨ (i.wellFormed = true ∧ ∃ rest, inv = .descriptor (encode i ++ rest))) :
    operation inv = .ok i := by
  obtain rfl | ⟨hwf, rest, rfl⟩ := h
  · exact operation_call i
  · exact operation_descriptor (decode_encode_append hwf rest)

/-- Settles O5: the request is next, and what is fetched is the operation called or the one its descriptor encodes. -/
theorem stepPerformsTheDecodedOperation : Obligations.StepPerformsTheDecodedOperation := by
  intro s o inv i buf waiting hr hinv hformat hturn
  have hfetch : fetch ⟨o, inv, buf⟩ = .ok i := fetch_of_operation (operation_invoked hinv) hformat
  have hstep : step s = settle (exec i (take ⟨o, inv, buf⟩ waiting s)) :=
    step_request (nextMove_request hr hturn) hfetch
  exact ⟨hstep, fun _ => rfl, fun _ => callerTurn_quiet⟩

end Sys2Proof.Machine

/-! What the decoder reads (R93, R94): each kind of operand read backwards, then the opcode. -/

namespace Sys2Proof

/-- Settles O1: the opcode selects the operand's reader, which reads back the encoder's bytes. -/
theorem decodeReadsBackEncode : Obligations.DecodeReadsBackEncode :=
  fun _ rest hwf => decode_encode_append hwf rest

theorem takeByte_eq_ok {mk : Byte → Instr} {bs rest : List Byte} {i : Instr} (h : takeByte mk bs = .ok (i, rest)) :
    ∃ b, i = mk b ∧ bs = b :: rest := by
  cases bs with
  | nil => cases h
  | cons b bs => cases h; exact ⟨b, rfl, rfl⟩

/-- Without the refusal of `notes/assumptions/12.md` the byte read would not be the bit's own. -/
theorem takeBit_eq_ok {mk : Bool → Instr} {bs rest : List Byte} {i : Instr} (h : takeBit mk bs = .ok (i, rest)) :
    ∃ b, i = mk b ∧ bs = bitByte b :: rest := by
  cases bs with
  | nil => cases h
  | cons b bs =>
    simp only [takeBit] at h
    split_ifs at h with h0 h1
    · cases h; exact ⟨false, rfl, by rw [h0]; rfl⟩
    · cases h; exact ⟨true, rfl, by rw [h1]; rfl⟩

/-- The length byte is that of the bytes taken, since there were as many. -/
theorem takeBuffer_eq_ok {mk : List Byte → Instr} {bs rest : List Byte} {i : Instr}
    (h : takeBuffer mk bs = .ok (i, rest)) : ∃ d, i = mk d ∧ bs = bufferBytes d ++ rest := by
  cases bs with
  | nil => cases h
  | cons n bs =>
    simp only [takeBuffer] at h
    split_ifs at h with hn
    cases h
    refine ⟨_, rfl, ?_⟩
    rw [bufferBytes, List.length_take_of_le hn, BitVec.ofNat_toNat, BitVec.setWidth_eq, List.cons_append,
      List.take_append_drop]

/-- The operands are read under the operation's own opcode, and are its operand bytes. -/
theorem eq_operandBytes_of_decodeOperands {op : Nat} {bs rest : List Byte} {i : Instr}
    (h : decodeOperands op bs = .ok (i, rest)) : op = (opcode i).toNat ∧ bs = operandBytes i ++ rest := by
  unfold decodeOperands at h
  split at h
  -- The arms by their operands: an address and a buffer (0x10), an address and a length (0x11), a number (0x42),
  case h_1 =>
    cases bs with
    | nil => cases h
    | cons a bs => obtain ⟨d, rfl, rfl⟩ := takeBuffer_eq_ok h; exact ⟨rfl, rfl⟩
  case h_2 =>
    cases bs with
    | nil => cases h
    | cons a bs => obtain ⟨n, rfl, rfl⟩ := takeByte_eq_ok h; exact ⟨rfl, by simp [operandBytes]⟩
  case h_10 => obtain ⟨n, rfl, rfl⟩ := takeByte_eq_ok h; exact ⟨rfl, by simp [operandBytes]⟩
  -- a buffer (0x21, 0x22), a bit (0x48, 0x4B), a byte (0x20, 0x45, 0x50),
  case h_4 | h_5 => obtain ⟨d, rfl, rfl⟩ := takeBuffer_eq_ok h; exact ⟨rfl, rfl⟩
  case h_16 | h_19 => obtain ⟨b, rfl, rfl⟩ := takeBit_eq_ok h; exact ⟨rfl, rfl⟩
  case h_3 | h_13 | h_20 => obtain ⟨b, rfl, rfl⟩ := takeByte_eq_ok h; exact ⟨rfl, rfl⟩
  -- none, or no opcode.
  all_goals cases h <;> exact ⟨rfl, rfl⟩

/-- Settles O2: byte 0 is the operation's opcode, and the bytes read after it are its operand bytes. -/
theorem decodeReadsOnlyDescriptors : Obligations.DecodeReadsOnlyDescriptors := by
  intro bs rest i h
  cases bs with
  | nil => cases h
  | cons op bs =>
    obtain ⟨hop, rfl⟩ := eq_operandBytes_of_decodeOperands (op := op.toNat) h
    rw [encode, List.cons_append, BitVec.eq_of_toNat_eq hop]

/-- Settles O3: each descriptor is that of its operation, with nothing after it. -/
theorem sampleDescriptorsDecode : Obligations.SampleDescriptorsDecode :=
  ⟨decode_encode_append (i := .i2cWrite 0x77 [0xF2, 0x01]) rfl [], decode_encode_append (i := .i2cRead 0x77 6) rfl [],
    decode_encode_append (i := .uartSend 0x41) rfl [], decode_encode_append (i := .uartSendStr [0x41, 0x42]) rfl [],
    decode_encode_append (i := .i2cAddress true) rfl [], decode_encode_append (i := .usiOvfIrq) rfl []⟩

end Sys2Proof

/-! A request that cannot be fetched is refused (R96 (a)). -/

namespace Sys2Proof.Machine

theorem step_refused {s : State} {r : Request} {rest : List Request} {e : Refusal}
    (hm : nextMove s = .request r rest) (hf : fetch r = .error e) : step s = .refused e := by
  simp [step, hm, hf]

theorem fetch_bad {r : Request} {e : Refusal} (ho : operation r.invocation = .error e) : fetch r = .error e := by
  simp [fetch, ho]

theorem fetch_wrongOrigin {r : Request} {i : Instr} (ho : operation r.invocation = .ok i)
    (hf : i.format ≠ r.origin.presents) : fetch r = .error (.wrongOrigin r.origin i.format) := by
  simp [fetch, ho, hf]

/-- Settles O4: with `FG` free the request is next, and its fetch fails: bytes that are no descriptor, or a format that
the caller does not present. -/
theorem callerPresentsCommandsOnly : Obligations.CallerPresentsCommandsOnly := by
  intro s inv buf waiting hr hheld hfg
  have hnext := nextMove_request hr (.inr ⟨hheld, hfg⟩)
  refine ⟨?_, ?_, ?_⟩
  · rintro bs e rfl hd
    exact step_refused hnext (fetch_bad (operation_bad hd))
  · rintro bs i rest rfl hd hf
    exact step_refused hnext (fetch_wrongOrigin (operation_descriptor hd) hf)
  · rintro i rfl hf
    exact step_refused hnext (fetch_wrongOrigin (operation_call i) hf)

end Sys2Proof.Machine

/-! Transactions on the wire (R85, R86, R142): the data phases turn by turn, at the instants in which `PEER` answers or
presents its bytes. -/

namespace Sys2Proof.Machine

/-! ### Inside a transaction, at chosen instants -/

/-- Inside a transaction whose section found `GIE = g`, with the bus to itself. -/
structure OnWire (g : Bool) (saved : List Bool) (s : State) : Prop where
  clocking : Clocking s
  masked : s.ovie = false
  saved : s.csSaved = g :: saved

/-- The buffer and the place in it are the same in both states. -/
structure SameBuffer (s t : State) : Prop where
  mem : t.mem = s.mem
  i2cBuf : t.i2cBuf = s.i2cBuf
  i2cLen : t.i2cLen = s.i2cLen
  i2cIdx : t.i2cIdx = s.i2cIdx

section
variable {g : Bool} {saved : List Bool} {s t : State} {E : List (List EnvMove)}

/-- What `OnWire` speaks of is the same in both states; of a record update each field is by `rfl`. -/
theorem OnWire.congr (h : OnWire g saved s) (hi : t.inIsr = s.inIsr := by rfl) (hg : t.gie = s.gie := by rfl)
    (hm : t.ovie = s.ovie := by rfl) (hc : t.clksrc = s.clksrc := by rfl) (hs : t.sclOut = s.sclOut := by rfl)
    (hp : t.peerSclLow = s.peerSclLow := by rfl) (hv : t.overlap = s.overlap := by rfl)
    (hcs : t.csSaved = s.csSaved := by rfl) : OnWire g saved t :=
  ⟨h.clocking.congr hi hg hm hc hs hp hv, hm.trans h.masked, hcs.trans h.saved⟩

theorem OnWire.low (h : OnWire g saved s) : sclLine s = false := scl_low h.clocking.scl

theorem OnWire.free (h : OnWire g saved s) : fgHeld s = false := h.clocking.free.notHeld

/-- A line that does not drive `SCL`, performed at an instant in which nobody moves: with `SCL` low nothing is
observed. -/
theorem OnWire.line (h : OnWire g saved s) {l : Line} (hl : doLine l s = .go t) (hs : t.sclOut = s.sclOut)
    (ht : t.env = s.env) (he : s.env = [] :: E) (ls : List Line) :
    run none (l :: ls) s = run none ls { t with env := E } := by
  rw [run_go h.free hl, observe_low h.low (scl_low (hs.trans h.clocking.scl)), slot_silent (by simp [ht, he])]
  simp [ht, he]

/-- `raise NoAck` leaves the transaction, past every line up to its end (R141). -/
theorem OnWire.raise (h : OnWire g saved s) (hk : s.i2cAckbit = true) (he : s.env = [] :: E) {xs : List Line}
    (hx : Line.scopeEnd .txn ∉ xs) (ls : List Line) :
    run none (.raiseIfNack :: (xs ++ .scopeEnd .txn :: ls)) s =
      run none ls { s with i2cResult := .errNoAck, env := E } := by
  have hline : doLine .raiseIfNack s = .leave .txn { s with i2cResult := .errNoAck } := by simp [doLine, hk]
  rw [run_leave h.free hline, observe_low h.low (by exact h.low), slot_silent (by simp [he]), run_skip_to_end hx]
  simp [he]

/-- An acknowledged byte raises nothing. -/
theorem OnWire.notRaised (h : OnWire g saved s) (hk : s.i2cAckbit = false) (he : s.env = [] :: E) (ls : List Line) :
    run none (.raiseIfNack :: ls) s = run none ls { s with env := E } :=
  h.line (by simp [doLine, hk]) rfl rfl he ls

/-- The loop goes on to the next byte. -/
theorem OnWire.idxNext (h : OnWire g saved s) (he : s.env = [] :: E) (ls : List Line) :
    run none (.idxNext :: ls) s = run none ls { s with i2cIdx := s.i2cIdx + 1, env := E } :=
  h.line (t := { s with i2cIdx := s.i2cIdx + 1 }) rfl rfl rfl he ls

/-- Past the data phase the result is `Ok` (R144, R145). -/
theorem OnWire.okReturn (h : OnWire g saved s) (he : s.env = [] :: E) (ls : List Line) :
    run none (.okReturn :: .scopeEnd .txn :: ls) s = run none ls { s with i2cResult := .ok, env := E } := by
  rw [h.line (t := { s with i2cResult := .ok }) rfl rfl rfl he]
  exact run_pass (by exact h.free) rfl

/-- Every exit path ends with the stop condition and the return of the result (R141). -/
theorem OnWire.leave (h : OnWire g saved s) (he : s.env = leaveSlots) :
    ∃ t, run none (closeLines ++ [.csExit, .returnResult]) s = ⟨none, t, []⟩ ∧
      t.busTrace = s.busTrace ++ [.stop] ∧ t.ret = .result s.i2cResult ∧ t.mem = s.mem :=
  ⟨_, leave_seg h.clocking h.masked h.saved (E := []) (by simpa using he), rfl, rfl, rfl⟩

/-- One byte of a write and its answer (R144). -/
theorem OnWire.sendByte (h : OnWire g saved s) {b : Byte} (hb : Memory.read s.mem (s.i2cBuf + s.i2cIdx) = b)
    {ack : Bool} (he : s.env = byteOutSlots ++ (ackSlots ack ++ E)) :
    ∃ t, (∀ ls, run none (.loadBuf :: (shiftOutLines ++ (ackCheckLines ++ ls))) s = run none ls t) ∧
      OnWire g saved t ∧ t.env = E ∧ t.i2cAckbit = !ack ∧
      t.busTrace = s.busTrace ++ byteEvents b ++ [.bit (!ack)] ∧ SameBuffer s t := by
  have hc := h.clocking
  refine ⟨_, fun ls => (byteOut_seg hc (by rw [doLine, hb]) he _).trans
      (ack_seg (by exact hc.congr rfl rfl rfl rfl rfl rfl rfl) (by rfl) ls),
    h.congr, rfl, rfl, rfl, rfl, rfl, rfl, rfl⟩

end

/-! ### The address phase -/

section
variable {s : State} {E : List (List EnvMove)} (hfree : fgHeld s = false) (hbus : IdleBus s)
  (hidle : s.uartState = .idle)
include hfree hbus hidle

/-- Every transaction up to the answer to its address byte (R143). -/
theorem transaction_addressed {ack : Bool} (he : s.env = headSlots ++ (byteOutSlots ++ (ackSlots ack ++ E)))
    (rw_ : Bool) (a : Byte) (n : Nat) :
    ∃ t, (∀ ls, run none ((.csEnter :: .invoke rw_ a n :: (openLines ++ addressLines rw_)) ++ ls) s = run none ls t) ∧
      OnWire s.gie s.csSaved t ∧ t.env = E ∧ t.i2cAckbit = !ack ∧
      t.busTrace = s.busTrace ++ .start :: byteEvents (addressByte a rw_) ++ [.bit (!ack)] ∧
      t.mem = s.mem ∧ t.i2cBuf = s.operandAt ∧ t.i2cLen = n := by
  have hisr := (fgHeld_eq_false.mp hfree).1
  have run_head := transaction_head hfree hbus hidle ack he rw_ a n
  obtain ⟨-, -, hpeer, -, hapart⟩ := hbus
  exact ⟨_, fun ls => .trans (by simp) (run_head ls), ⟨⟨⟨hisr, .inl rfl⟩, rfl, rfl, hpeer, hapart⟩, rfl, rfl⟩, rfl, rfl,
    by simp, rfl, rfl, rfl⟩

/-- Acknowledged, the transaction goes on at the head of its data phase. -/
theorem transaction_entered (he : s.env = headSlots ++ (byteOutSlots ++ (ackSlots true ++ ([] :: [] :: E))))
    (rw_ : Bool) (a : Byte) (n : Nat) (turn : List Line) :
    ∃ t, run none (transactionLines rw_ a n turn) s =
        run none (dataLines turn n ++ (.okReturn :: .scopeEnd .txn :: (closeLines ++ [.csExit, .returnResult]))) t ∧
      OnWire s.gie s.csSaved t ∧ t.env = E ∧
      t.busTrace = s.busTrace ++ .start :: byteEvents (addressByte a rw_) ++ [.bit false] ∧
      t.mem = s.mem ∧ t.i2cBuf = s.operandAt ∧ t.i2cLen = n ∧ t.i2cIdx = 0 := by
  obtain ⟨u, ru, hu, eu, ku, bu, mu, pu, lu⟩ := transaction_addressed hfree hbus hidle he rw_ a n
  have hu' : OnWire s.gie s.csSaved { u with env := [] :: E } := hu.congr
  refine ⟨{ u with i2cIdx := 0, env := E }, ?_, hu.congr, rfl, bu, mu, pu, lu, rfl⟩
  rw [trans_lines, ru, hu.notRaised ku eu, hu'.line (l := .loopStart) rfl rfl rfl rfl]

/-- Refused, it ends with nothing stored (R142). -/
theorem transaction_refused (he : s.env = refusedSlots) (rw_ : Bool) (a : Byte) (n : Nat) {turn : List Line}
    (hturn : Line.scopeEnd .txn ∉ turn) :
    ∃ t, run none (transactionLines rw_ a n turn) s = ⟨none, t, []⟩ ∧
      t.busTrace = s.busTrace ++ .start :: byteEvents (addressByte a rw_) ++ [.bit true, .stop] ∧
      t.ret = .result .errNoAck ∧ t.mem = s.mem := by
  obtain ⟨u, ru, hu, eu, ku, bu, mu, -, -⟩ := transaction_addressed hfree hbus hidle (ack := false)
    (E := [] :: leaveSlots) (by simpa [refusedSlots] using he) rw_ a n
  have hx : Line.scopeEnd .txn ∉ .loopStart :: (dataLines turn n ++ [.okReturn]) := by
    simp [not_mem_dataLines hturn]
  obtain ⟨t, rt, bt, vt, mt⟩ := OnWire.leave (s := { u with i2cResult := .errNoAck, env := leaveSlots })
    (hu.congr) rfl
  refine ⟨t, ?_, by simp [bt, bu], vt, mt.trans mu⟩
  rw [trans_lines, ru, ← rt, ← hu.raise ku eu hx]
  simp

end

theorem dataLines_succ (turn : List Line) (n : Nat) : dataLines turn (n + 1) = turn ++ dataLines turn n := by
  simp [dataLines, List.replicate_succ]

/-! ### The data phase of a write -/

/-- The bytes from the current place of the buffer on are `d`. -/
def BufferHolds (d : List Byte) (s : State) : Prop :=
  ∀ i (h : i < d.length), Memory.read s.mem (s.i2cBuf + s.i2cIdx + i) = d[i]

theorem BufferHolds.head {b : Byte} {d : List Byte} {s : State} (h : BufferHolds (b :: d) s) :
    Memory.read s.mem (s.i2cBuf + s.i2cIdx) = b := h 0 (by simp)

theorem BufferHolds.next {b : Byte} {d : List Byte} {s t : State} (h : BufferHolds (b :: d) s) (c : SameBuffer s t) :
    BufferHolds d { t with i2cIdx := t.i2cIdx + 1 } := by
  intro i hi
  show Memory.read t.mem (t.i2cBuf + (t.i2cIdx + 1) + i) = d[i]
  rw [c.mem, c.i2cBuf, c.i2cIdx, ← Nat.add_assoc, Nat.add_assoc _ 1, Nat.add_comm 1]
  exact h (i + 1) (by simpa using hi)

theorem writeByteLines_append (ls : List Line) : writeByteLines ++ ls =
    .loadBuf :: (shiftOutLines ++ (ackCheckLines ++ (.raiseIfNack :: .idxNext :: ls))) := by
  simp [writeByteLines]

/-- The data phase of a write, by induction on the bytes: up to the first refusal each byte and its answer are on the
bus, and the result says whether there was a refusal (R85, R144). -/
theorem OnWire.writeData {g : Bool} {saved : List Bool} (data : List (Byte × Bool)) {s : State}
    (h : OnWire g saved s) (hd : BufferHolds (data.map (·.1)) s) {E : List (List EnvMove)}
    (he : s.env = writeDataSlots (data.map (·.2)) ++ E) (ls : List Line) :
    ∃ t, run none (dataLines writeByteLines data.length ++ (.okReturn :: .scopeEnd .txn :: ls)) s = run none ls t ∧
      OnWire g saved t ∧ t.env = E ∧ t.busTrace = s.busTrace ++ writeDataEvents data ∧
      t.i2cResult = if data.all (·.2) then .ok else .errNoAck := by
  induction data generalizing s with
  | nil =>
    exact ⟨_, h.okReturn he ls, h.congr, rfl, by simp [writeDataEvents], rfl⟩
  | cons c data ih =>
    obtain ⟨b, ack⟩ := c
    rw [List.length_cons, dataLines_succ, List.append_assoc, writeByteLines_append]
    cases ack with
    | true =>
      obtain ⟨u, ru, hu, eu, ku, bu, cu⟩ := h.sendByte hd.head (ack := true)
        (E := [] :: [] :: (writeDataSlots (data.map (·.2)) ++ E)) (by simpa [writeDataSlots] using he)
      obtain ⟨t, rt, ht, et, bt, kt⟩ := ih (s := { u with
          i2cIdx := u.i2cIdx + 1, env := writeDataSlots (data.map (·.2)) ++ E })
        (hu.congr) (hd.next cu) rfl
      refine ⟨t, ?_, ht, et, by simp [bt, bu, writeDataEvents], by simp [kt]⟩
      rw [ru, hu.notRaised ku eu]
      exact (OnWire.idxNext (by exact hu.congr) (by rfl) _).trans rt
    | false =>
      obtain ⟨u, ru, hu, eu, ku, bu, cu⟩ := h.sendByte hd.head (ack := false) (E := [] :: E)
        (by simpa [writeDataSlots] using he)
      have hx : Line.scopeEnd .txn ∉ .idxNext :: (dataLines writeByteLines data.length ++ [.okReturn]) := by
        simp [not_mem_dataLines (turn := writeByteLines) (by decide)]
      refine ⟨{ u with i2cResult := .errNoAck, env := E }, ?_, hu.congr, rfl,
        by simp [bu, writeDataEvents], by simp⟩
      rw [ru]
      simpa using hu.raise ku eu hx ls

/-! ### The data phase of a read -/

section
variable {g : Bool} {saved : List Bool} {s : State} {E : List (List EnvMove)}

/-- A byte received at the instants in which `PEER` presents it (R128). -/
theorem OnWire.receiveByte (h : OnWire g saved s) {v : Byte} (he : s.env = byteInSlots v ++ E) :
    ∃ t, (∀ ls, run none (byteInLines ++ ls) s = run none ls t) ∧ OnWire g saved t ∧ t.env = E ∧ t.sr = v ∧
      t.busTrace = s.busTrace ++ byteEvents v ∧ SameBuffer s t := by
  have hslots : s.env = [] :: [] :: (((bitsMsbFirst v).map (!·)).flatMap bitSlots ++ E) := by rw [he]; rfl
  have hdrop : s.env.drop 58 = E := by
    rw [hslots]
    exact List.drop_left' (by rw [flatMap_slots_length]; rfl)
  have hs : Scripted ((bitsMsbFirst v).map (!·)) s.peerSdaLow (s.env.drop 2) := by
    rw [hslots]; exact scripted_slots _ _ _
  have run_byte := byteIn_run h.clocking v (by simp [hslots]) (by simp [hslots]) hs
  exact ⟨_, run_byte, h.congr, hdrop, rfl, rfl, rfl, rfl, rfl, rfl⟩

/-- The master's bit, from a loaded frame, while `PEER` leaves `SDA` released (R130). -/
theorem OnWire.masterAck (h : OnWire g saved s) (he : s.env = [] :: (xferSlots [false] ++ E)) :
    ∃ t, (∀ ls, run none (masterAckTail ++ ls) s = run none ls t) ∧ OnWire g saved t ∧ t.env = E ∧
      t.busTrace = s.busTrace ++ [.bit (s.sr.getLsbD 7)] ∧ SameBuffer s t := by
  have hslots : s.env = [] :: [] :: ([false].flatMap bitSlots ++ E) := he
  have hs : Scripted [false] s.peerSdaLow (s.env.drop 2) := by rw [hslots]; exact scripted_slots _ _ _
  have run_ack := masterAck_run h.clocking false (by simp [hslots]) (by simp [hslots]) hs
  exact ⟨_, run_ack, h.congr, by simp [hslots, bitSlots], by simp, rfl, rfl, rfl, rfl⟩

theorem masterAckFrame_bit (nack : Bool) : (masterAckFrame nack).getLsbD 7 = nack := by cases nack <;> rfl

/-- One turn of a read: the byte is stored at its place, and the master refuses exactly the last one (R145). -/
theorem OnWire.readTurn (h : OnWire g saved s) {v : Byte} (he : s.env = readTurnSlots v ++ E) :
    ∃ t, (∀ ls, run none (readByteLines ++ ls) s = run none ls t) ∧ OnWire g saved t ∧ t.env = E ∧
      t.busTrace = s.busTrace ++ byteEvents v ++ [.bit (!decide (s.i2cIdx + 1 < s.i2cLen))] ∧
      t.mem = Memory.write s.mem (s.i2cBuf + s.i2cIdx) v ∧ t.i2cBuf = s.i2cBuf ∧ t.i2cLen = s.i2cLen ∧
      t.i2cIdx = s.i2cIdx + 1 := by
  obtain ⟨u, ru, hu, eu, vu, bu, cu⟩ := h.receiveByte (E := [] :: [] :: [] :: (xferSlots [false] ++ ([] :: E)))
    (by simpa [readTurnSlots] using he)
  have hstored : OnWire g saved { u with
      mem := Memory.write u.mem (u.i2cBuf + u.i2cIdx) u.sr, env := [] :: [] :: (xferSlots [false] ++ ([] :: E)) } :=
    hu.congr
  have hloaded : OnWire g saved { u with
      mem := Memory.write u.mem (u.i2cBuf + u.i2cIdx) u.sr,
      sr := masterAckFrame (!decide (u.i2cIdx + 1 < u.i2cLen)), env := [] :: (xferSlots [false] ++ ([] :: E)) } :=
    hu.congr
  obtain ⟨w, rack, hw, ew, bw, cw⟩ := hloaded.masterAck rfl
  refine ⟨{ w with i2cIdx := w.i2cIdx + 1, env := E }, fun ls => ?_, hw.congr, rfl, ?_,
    ?_, cw.i2cBuf.trans cu.i2cBuf, cw.i2cLen.trans cu.i2cLen, congrArg (· + 1) (cw.i2cIdx.trans cu.i2cIdx)⟩
  · simp only [readByteLines, List.append_assoc, List.cons_append, List.nil_append]
    rw [ru, hu.line (l := .storeBuf) rfl rfl rfl eu, hstored.line (l := .loadMasterAck) rfl rfl rfl rfl, rack,
      hw.idxNext ew]
  · simp only [bw, masterAckFrame_bit, bu, cu.i2cIdx, cu.i2cLen]
  · rw [cw.mem, cu.mem, cu.i2cBuf, cu.i2cIdx, vu]

theorem readDataEvents_cons (v : Byte) (vs : List Byte) :
    readDataEvents (v :: vs) = byteEvents v ++ .bit vs.isEmpty :: readDataEvents vs := by
  cases vs <;> simp [readDataEvents]

/-- The data phase of a read, by induction on the bytes: each is on the bus with the master's bit after it, and the
buffer holds them all (R86, R145). -/
theorem OnWire.readData (vs : List Byte) (h : OnWire g saved s) (hn : s.i2cLen = s.i2cIdx + vs.length)
    (he : s.env = vs.flatMap readTurnSlots ++ ([] :: E)) (ls : List Line) :
    ∃ t, run none (dataLines readByteLines vs.length ++ (.okReturn :: .scopeEnd .txn :: ls)) s = run none ls t ∧
      OnWire g saved t ∧ t.env = E ∧ t.busTrace = s.busTrace ++ readDataEvents vs ∧ t.i2cResult = .ok ∧
      t.mem = Memory.store s.mem (bufferCells (s.i2cBuf + s.i2cIdx) vs) := by
  induction vs generalizing s with
  | nil =>
    exact ⟨_, h.okReturn he ls, h.congr, rfl, by simp [readDataEvents], rfl, rfl⟩
  | cons v vs ih =>
    obtain ⟨u, ru, hu, eu, bu, mu, pu, lu, iu⟩ := h.readTurn (v := v) (E := vs.flatMap readTurnSlots ++ ([] :: E))
      (by simpa using he)
    obtain ⟨t, rt, ht, et, bt, kt, mt⟩ := ih hu (by rw [lu, iu, hn, List.length_cons]; omega) eu
    have hlast : (!decide (s.i2cIdx + 1 < s.i2cLen)) = vs.isEmpty := by
      rw [hn]; cases vs <;> simp
    refine ⟨t, ?_, ht, et, by rw [bt, bu, hlast, readDataEvents_cons]; simp, kt, ?_⟩
    · rw [List.length_cons, dataLines_succ, List.append_assoc, ru, rt]
    · rw [mt, mu, pu, iu]; rfl

end

/-! ### The wire format -/

section
variable {s : State} (hfree : fgHeld s = false) (hbus : IdleBus s) (hidle : s.uartState = .idle)
include hfree hbus hidle

/-- A write whose bytes lie in its buffer: the address phase, and where it is acknowledged the data phase up to the
first refusal. -/
theorem run_writeLines (a : Byte) {ack : Bool} {data : List (Byte × Bool)}
    (hd : ∀ i (h : i < (data.map (·.1)).length), Memory.read s.mem (s.operandAt + i) = (data.map (·.1))[i])
    (henv : s.env = writeSlots ack (data.map (·.2))) :
    ∃ t, run none (writeLines a data.length) s = ⟨none, t, []⟩ ∧ t.busTrace = s.busTrace ++ writeEvents a ack data ∧
      t.ret = .result (if allAcked ack data then .ok else .errNoAck) := by
  cases ack with
  | false =>
    obtain ⟨t, rt, bt, vt, -⟩ :=
      transaction_refused hfree hbus hidle henv false a data.length (turn := writeByteLines) (by decide)
    exact ⟨t, rt, by simp [bt, writeEvents], by simp [vt, allAcked]⟩
  | true =>
    obtain ⟨u, ru, hu, eu, bu, mu, pu, -, iu⟩ := transaction_entered hfree hbus hidle
      (E := writeDataSlots (data.map (·.2)) ++ leaveSlots) (by simpa [writeSlots] using henv) false a data.length
      writeByteLines
    have hd' : BufferHolds (data.map (·.1)) u := by
      intro i hi
      rw [mu, pu, iu]
      exact hd i hi
    obtain ⟨w, rdata, hw, ew, bw, kw⟩ := hu.writeData data hd' eu (closeLines ++ [.csExit, .returnResult])
    obtain ⟨t, rt, bt, vt, -⟩ := hw.leave ew
    exact ⟨t, by rw [writeLines, ru, rdata, rt], by simp [bt, bw, bu, writeEvents], by simp [vt, kw, allAcked]⟩

/-- An acknowledged read: the bytes that `PEER` presents are laid in the buffer. -/
theorem run_readLines (a : Byte) {vs : List Byte} (henv : s.env = readSlots vs) :
    ∃ t, run none (readLines a vs.length) s = ⟨none, t, []⟩ ∧ t.busTrace = s.busTrace ++ readEvents a vs ∧
      t.ret = .result .ok ∧ t.mem = Memory.store s.mem (bufferCells s.operandAt vs) := by
  obtain ⟨u, ru, hu, eu, bu, mu, pu, lu, iu⟩ := transaction_entered hfree hbus hidle
    (E := vs.flatMap readTurnSlots ++ ([] :: leaveSlots)) (by simpa [readSlots] using henv) true a vs.length
    readByteLines
  obtain ⟨w, rdata, hw, ew, bw, kw, mw⟩ :=
    hu.readData vs (by simp [lu, iu]) eu (closeLines ++ [.csExit, .returnResult])
  obtain ⟨t, rt, bt, vt, mt⟩ := hw.leave ew
  refine ⟨t, by rw [readLines, ru, rdata, rt], by simp [bt, bw, bu, readEvents], by rw [vt, kw], ?_⟩
  rw [mt, mw, mu, pu, iu, Nat.add_zero]

end

/-- Settles O38: the bytes that the invocation lists lie in the buffer when the lines begin. -/
theorem writeOnTheWire : Obligations.WriteOnTheWire := by
  intro s a ack data hinit hfree hbus hidle hwf henv
  obtain ⟨t, rt, ht⟩ := run_writeLines (s := layOperand (data.map (·.1)) s) hfree hbus hidle a
    (Memory.read_store_inside (data.map (·.1)) s.mem s.operandAt hwf) henv
  rw [← List.length_map (·.1)] at rt
  exact ⟨t, (command_booted (s := layOperand _ s) hinit _).trans (perform_done rt), (fg_of_run rt :), ht⟩

/-- Settles O39: acknowledged, the buffer reads as the bytes laid in it; refused, nothing is stored. -/
theorem readOnTheWire : Obligations.ReadOnTheWire := by
  intro s a hinit hfree hbus hidle
  have returned : ∀ {n : Nat} {t : State}, run none (readLines a n) s = ⟨none, t, []⟩ →
      exec (.i2cRead a n) s = .next t ∧ t.fg = s.fg :=
    fun r => ⟨(command_booted hinit _).trans (perform_done r), fg_of_run r⟩
  refine ⟨fun vs hwf henv => ?_, fun n henv => ?_⟩
  · obtain ⟨t, rt, bt, vt, mt⟩ := run_readLines hfree hbus hidle a henv
    obtain ⟨hexec, hfg⟩ := returned rt
    refine ⟨t, hexec, hfg, bt, vt, fun i hi => ?_, fun x hx => ?_⟩
    · rw [mt]; exact Memory.read_store_inside vs s.mem s.operandAt hwf i hi
    · rw [mt]; exact Memory.read_store_outside vs s.mem s.operandAt hx
  · obtain ⟨t, rt, bt, vt, mt⟩ :=
      transaction_refused hfree hbus hidle henv true a n (turn := readByteLines) (by decide)
    obtain ⟨hexec, hfg⟩ := returned rt
    exact ⟨t, hexec, hfg, by simp [bt, refusedEvents], vt, mt⟩

end Sys2Proof.Machine

/-! The values of the operands, bit by bit (R81, R88 to R91). -/

namespace Sys2Proof.Machine

/-! ### The address byte -/

/-- The read/write bit is shifted in below the address. -/
theorem addressByte_getLsbD (a : Byte) (rw : Bool) (i : Nat) :
    (addressByte a rw).getLsbD i = if i = 0 then rw else decide (i < 8) && a.getLsbD (i - 1) :=
  shiftIn_getLsbD a rw i

/-- Settles O7: bit 7 of the address is shifted out. -/
theorem addressByteLayout : Obligations.AddressByteLayout := by
  intro a rw
  refine ⟨addressByte_getLsbD a rw 0, fun k => ?_, ?_⟩
  · rw [addressByte_getLsbD, if_neg (Nat.succ_ne_zero _), Nat.add_sub_cancel,
      decide_eq_true (by omega : (k : Nat) + 1 < 8), Bool.true_and]
  · have shifted_out : (a ||| 0x80) <<< 1 = a <<< 1 := by
      rw [BitVec.shiftLeft_or_distrib]
      exact BitVec.or_zero
    rw [addressByte, shifted_out, addressByte]

/-! ### The logical frames -/

theorem logicalFrame9_getLsbD (b : Byte) (i : Nat) :
    (logicalFrame9 b).getLsbD i = (decide (i ≠ 0) && b.getLsbD (i - 1)) := by
  rw [logicalFrame9, BitVec.getLsbD_shiftLeft, BitVec.getLsbD_setWidth]
  by_cases hi : i < 9
  · cases i with
    | zero => rfl
    | succ i => simp [hi]; omega
  · simp [hi, BitVec.getLsbD_of_ge b (i - 1) (by omega)]

theorem logicalFrame9_data (b : Byte) : (logicalFrame9 b).extractLsb 8 1 = b := by
  apply BitVec.eq_of_getLsbD_eq
  intro i hi
  rw [BitVec.getLsbD_extractLsb, logicalFrame9_getLsbD, Nat.add_sub_cancel_left, decide_eq_true (by omega),
    decide_eq_true (by omega), Bool.true_and, Bool.true_and]

/-- Settles O8: bit 0 is the start bit, bit `i + 1` the byte's bit `i`. -/
theorem nineBitLogicalFrame : Obligations.NineBitLogicalFrame := by
  intro b
  refine ⟨?_, logicalFrame9_getLsbD b 0, logicalFrame9_data b, ?_⟩
  · have := b.isLt
    simp only [logicalFrame9, BitVec.toNat_shiftLeft, BitVec.toNat_setWidth, Nat.shiftLeft_eq]
    omega
  · have bits : (List.range 9).map (logicalFrame9 b).getLsbD =
        (List.range 9).map (fun i => decide (i ≠ 0) && b.getLsbD (i - 1)) :=
      List.map_congr_left fun i _ => logicalFrame9_getLsbD b i
    rw [bits]
    rfl

/-- The first logical frame is the byte with the start bit and the idle bit shifted in below it. -/
theorem logicalFrame1_eq_shiftIn (b : Byte) : logicalFrame1 b = shiftIn (shiftIn b false) true := by
  simp [logicalFrame1, shiftIn, bitValue, ← BitVec.shiftLeft_add]

theorem logicalFrame1_getLsbD (b : Byte) (i : Nat) : (logicalFrame1 b).getLsbD i =
    if i = 0 then true else decide (i < 8) && if i = 1 then false else b.getLsbD (i - 2) := by
  rw [logicalFrame1_eq_shiftIn, shiftIn_getLsbD, shiftIn_getLsbD]
  by_cases h0 : i = 0
  · simp [h0]
  · by_cases h1 : i = 1
    · simp [h1]
    · rw [if_neg h0, if_neg h0, if_neg (by omega), if_neg h1, Nat.sub_sub]
      by_cases h8 : i < 8
      · rw [decide_eq_true (by omega : i - 1 < 8), Bool.true_and]
      · simp [h8]

/-- Its bits come from the 9-bit frame, of which the last data bits do not fit (R89). -/
theorem logicalFrame1_eq_setWidth (b : Byte) : logicalFrame1 b = ((logicalFrame9 b <<< 1) ||| 1).setWidth 8 := by
  rw [logicalFrame9, ← BitVec.shiftLeft_add, BitVec.setWidth_or, BitVec.setWidth_shiftLeft_of_le (by omega),
    BitVec.setWidth_setWidth_of_le b (by omega), BitVec.setWidth_eq]
  rfl

theorem logicalFrame2_getLsbD (b : Byte) (i : Nat) (hi : i < 8) :
    (logicalFrame2 b).getLsbD i = if i < 2 then b.getLsbD (6 + i) else true := by
  have stop : (0xFC : Byte).getLsbD i = decide (2 ≤ i) := by interval_cases i <;> rfl
  rw [logicalFrame2, BitVec.getLsbD_or, BitVec.getLsbD_ushiftRight, stop]
  by_cases h2 : i < 2
  · simp [h2]
  · simp [h2, Nat.le_of_not_lt h2]

/-- The second logical frame begins where the first ended (R90). -/
theorem logicalFrame2_eq_setWidth (b : Byte) : logicalFrame2 b = ((logicalFrame9 b >>> 7) ||| 0xFC).setWidth 8 := by
  have high : (logicalFrame9 b >>> 7).setWidth 8 = b >>> 6 := by
    apply BitVec.eq_of_getLsbD_eq
    intro i hi
    rw [BitVec.getLsbD_setWidth, BitVec.getLsbD_ushiftRight, BitVec.getLsbD_ushiftRight, logicalFrame9_getLsbD,
      decide_eq_true hi, decide_eq_true (by omega), Bool.true_and, Bool.true_and]
    congr 1; omega
  rw [BitVec.setWidth_or, high]
  rfl

/-! ### The hardware frames -/

theorem rev8_getLsbD (v : Byte) (k : Fin 8) : (rev8 v).getLsbD k = v.getLsbD (7 - k) := by
  rw [rev8, BitVec.getLsbD_ofBoolListLE]
  fin_cases k <;> rfl

/-- What is reversed is shifted out from bit 0 on. -/
theorem bitsMsbFirst_rev8 (v : Byte) : bitsMsbFirst (rev8 v) = (List.range 8).map v.getLsbD := by
  simp only [bitsMsbFirst, rev8, BitVec.getLsbD_ofBoolListLE]
  rfl

theorem bitsMsbFirst_frame1 (b : Byte) : bitsMsbFirst (frame1 b) =
    [true, false, b.getLsbD 0, b.getLsbD 1, b.getLsbD 2, b.getLsbD 3, b.getLsbD 4, b.getLsbD 5] := by
  rw [frame1, bitsMsbFirst_rev8, List.map_congr_left fun i _ => logicalFrame1_getLsbD b i]
  rfl

theorem bitsMsbFirst_frame2 (b : Byte) : bitsMsbFirst (frame2 b) =
    [b.getLsbD 6, b.getLsbD 7, true, true, true, true, true, true] := by
  rw [frame2, bitsMsbFirst_rev8,
    List.map_congr_left fun i hi => logicalFrame2_getLsbD b i (List.mem_range.mp hi)]
  rfl

theorem logicalFrame1_data (b : Byte) : (logicalFrame1 b).extractLsb 7 2 = b.extractLsb 5 0 := by
  apply BitVec.eq_of_getLsbD_eq
  intro i hi
  rw [BitVec.getLsbD_extractLsb, BitVec.getLsbD_extractLsb, logicalFrame1_getLsbD, if_neg (by omega), if_neg (by omega),
    decide_eq_true (by omega : 2 + i < 8), Bool.true_and, Nat.add_sub_cancel_left, Nat.zero_add]

theorem logicalFrame2_data (b : Byte) : (logicalFrame2 b).extractLsb 1 0 = b.extractLsb 7 6 := by
  apply BitVec.eq_of_getLsbD_eq
  intro i hi
  rw [BitVec.getLsbD_extractLsb, BitVec.getLsbD_extractLsb, logicalFrame2_getLsbD b _ (by omega), if_pos (by omega),
    Nat.zero_add]

theorem logicalFrame2_stop (b : Byte) : (logicalFrame2 b).extractLsb 7 2 = 0b111111 := by
  apply BitVec.eq_of_getLsbD_eq
  intro i hi
  rw [BitVec.getLsbD_extractLsb, logicalFrame2_getLsbD b _ (by omega), if_neg (by omega)]
  interval_cases i <;> rfl

/-- Settles O9, from the bits of the logical frames and their reversal. -/
theorem hardwareFrameBits : Obligations.HardwareFrameBits := by
  refine ⟨fun b => ?_, by decide, by decide, by decide, by decide⟩
  exact ⟨⟨logicalFrame9_getLsbD b 0, logicalFrame9_data b⟩,
    ⟨logicalFrame1_eq_setWidth b, rfl, logicalFrame1_getLsbD b 0, logicalFrame1_getLsbD b 1, logicalFrame1_data b⟩,
    ⟨logicalFrame2_eq_setWidth b, rfl, logicalFrame2_data b, logicalFrame2_stop b⟩,
    rev8_getLsbD _, rev8_getLsbD _, bitsMsbFirst_frame1 b, bitsMsbFirst_frame2 b,
    by rw [bitsMsbFirst_frame1, bitsMsbFirst_frame2]; rfl⟩

end Sys2Proof.Machine

/-! The preload of a transfer (R83, R123, R124): the advances up to the overflow, and which lengths are used. -/

namespace Sys2Proof.Machine

/-- Below the overflow the advances count and set no flag (R22, R23). -/
theorem advance_iterate_below {s : State} (ho : s.ovf = false) {k : Nat} (hk : s.cnt.toNat + k < 16) :
    (advance^[k] s).cnt.toNat = s.cnt.toNat + k ∧ (advance^[k] s).ovf = false := by
  induction k with
  | zero => exact ⟨rfl, ho⟩
  | succ k ih =>
    obtain ⟨hcnt, hovf⟩ := ih (by omega)
    have hnext : ((advance^[k] s).cnt + 1).toNat = s.cnt.toNat + (k + 1) := by
      rw [BitVec.toNat_add, hcnt]
      exact Nat.mod_eq_of_lt hk
    rw [Function.iterate_succ_apply', advance_cnt, advance_ovf, hnext, hovf]
    refine ⟨rfl, ?_⟩
    have hne : (advance^[k] s).cnt + 1 ≠ 0 := fun h => by rw [h] at hnext; exact absurd hnext (by simp)
    simpa using hne

/-- The advance from 15 is the overflow. -/
theorem advance_overflow {s : State} (h : s.cnt = 15) : (advance s).cnt = 0 ∧ (advance s).ovf = true := by
  simp [h]

/-- After the preload of an `n`-bit transfer the `2n`-th advance overflows, and none before it. -/
theorem preload_overflows (s : State) {n : Nat} (hn : n = 1 ∨ n = 8) :
    (advance^[2 * n - 1] (preloadCounter (i2cPreload n) s)).cnt = 15 ∧
    (advance^[2 * n] (preloadCounter (i2cPreload n) s)).cnt = 0 ∧
    (advance^[2 * n] (preloadCounter (i2cPreload n) s)).ovf = true ∧
    ∀ k < 2 * n, (advance^[k] (preloadCounter (i2cPreload n) s)).ovf = false := by
  have hsum : (i2cPreload n).toNat + 2 * n = 16 := by obtain rfl | rfl := hn <;> rfl
  have below : ∀ k < 2 * n, _ := fun k hk =>
    advance_iterate_below (s := preloadCounter (i2cPreload n) s) rfl (k := k) (by simp; omega)
  have last : (advance^[2 * n - 1] (preloadCounter (i2cPreload n) s)).cnt = 15 :=
    BitVec.eq_of_toNat_eq ((below (2 * n - 1) (by omega)).1.trans (by simp; omega))
  have overflow := advance_overflow last
  rw [← Function.iterate_succ_apply' advance, Nat.succ_eq_add_one, Nat.sub_add_cancel (by omega)] at overflow
  exact ⟨last, overflow.1, overflow.2, fun k hk => (below k hk).2⟩

/-- Two advances a bit-clock, whatever the other agents do short of stretching the clock (R123). -/
theorem bitClock_advances_twice {s : State} (hu : Uninterrupted s) (hn : NoStretch s) (hc : s.clksrc = .strobe) :
    ∃ t, exec .i2cBitClock s = .next t ∧ t.cnt = (advance^[2] s).cnt ∧ t.ovf = (advance^[2] s).ovf := by
  obtain ⟨t, rt, -, -, -, -, -, ht⟩ := bitClock_any hu hn
  obtain ⟨hcnt, hovf, -⟩ := ht hc
  refine ⟨t, perform_done (done_of_forall rt), ?_, ?_⟩
  · simp [hcnt, BitVec.add_assoc]
  · simp [hovf, BitVec.add_assoc]

/-! ### The lengths in use -/

theorem preload_mem_xferLines {n m : Nat} (h : Line.preload m ∈ xferLines n) : m = n := by
  simpa [xferLines, strobeLines, bitClockLines, List.mem_replicate] using h

/-- An acknowledge is a transfer of one bit (R129, R130). -/
theorem preload_mem_acknowledge {m : Nat} (h : Line.preload m ∈ ackCheckLines ++ masterAckTail) : m = 1 := by
  have : Line.preload m ∈ xferLines 1 := by simpa [ackCheckLines, masterAckTail] using h
  exact preload_mem_xferLines this

/-- A data byte is one of eight (R127, R128). -/
theorem preload_mem_byte {m : Nat} (h : Line.preload m ∈ shiftOutLines ++ byteInLines) : m = 8 := by
  have : Line.preload m ∈ xferLines 8 := by simpa [shiftOutLines, byteInLines] using h
  exact preload_mem_xferLines this

/-- A preload for a length other than those of an acknowledge and a data byte. -/
def preloadsOtherLength : Line → Bool
  | .preload m => m ≠ 1 && m ≠ 8
  | _ => false

theorem preload_mem_transaction {a : Byte} {n m : Nat} (h : Line.preload m ∈ writeLines a n ++ readLines a n) :
    m = 1 ∨ m = 8 := by
  have other : preloadsOtherLength (.preload m) = false := by
    obtain h | h := List.mem_append.mp h
    · exact mem_trans (by decide) (by decide) rfl (by decide) _ h
    · exact mem_trans (by decide) (by decide) rfl (by decide) _ h
  simpa [preloadsOtherLength, imp_iff_not_or] using other

/-- Settles O10: the count from the preload to the overflow, the bit-clock's two advances, and the lengths in use. -/
theorem preloadOverflowsAfterTwoEdgesPerBit : Obligations.PreloadOverflowsAfterTwoEdgesPerBit := by
  refine ⟨?_, rfl, rfl, fun s n => preload_overflows s, fun _ => rfl, fun _ _ => rfl,
    fun s => bitClock_advances_twice, by decide, fun _ => preload_mem_acknowledge, fun _ => preload_mem_byte,
    fun _ _ _ => preload_mem_transaction, fun s n h1 h8 => ?_⟩
  · rintro n (rfl | rfl) <;> rfl
  · simp [exec, execI2cXfer, h1, h8]

end Sys2Proof.Machine

/-! Critical sections (R112 to R114): entry and exit, the handler that is due after an exit, and the compare event
inside a section. -/

namespace Sys2Proof.Machine

/-! ### Entry and exit -/

theorem exec_csEnter (s : State) : exec .csEnter s = .next (enterSection s) := rfl

theorem exec_csExit_empty {s : State} (h : s.csSaved = []) : exec .csExit s = .refused .noOpenSection := by
  simp [exec, execCsExit, h]

theorem exec_csExit_cons {s : State} {g : Bool} {saved : List Bool} (h : s.csSaved = g :: saved) :
    exec .csExit s = .next { s with gie := g, csSaved := saved } := by
  simp [exec, execCsExit, exitSection, h]

/-- Settles O18: the descriptor is the opcode alone, and the operation is the entry of a section. -/
theorem csEnterSavesAndDisables : Obligations.CsEnterSavesAndDisables := ⟨rfl, exec_csEnter⟩

/-! ### The handler that is due -/

/-- The interrupt condition goes before everything but a hardware event that heads the waiting requests (R194). -/
theorem nextMove_interrupt {s : State} (hirq : irqPending s = true)
    (hr : ∀ r ∈ s.requests.head?, r.origin ≠ .hardware) : nextMove s = .interrupt := by
  have hfg : ∀ m, fgMove s m = .interrupt := fun m => by simp [fgMove, hirq, (irq_facts hirq).1]
  unfold nextMove
  split
  · exact hfg _
  · next r rest hs => rw [if_neg (hr r (by simp [hs])), hfg]

theorem step_interrupt {s : State} (h : nextMove s = .interrupt) : step s = settle (exec .usiOvfIrq s) := by
  simp [step, h]

/-- Settles O19: an exit that sets `GIE` can make the interrupt condition hold, and the handler is then next. -/
theorem csExitRestoresOrIsRefused : Obligations.CsExitRestoresOrIsRefused := by
  refine ⟨rfl, fun s => ⟨exec_csExit_empty, fun g saved hs => ⟨exec_csExit_cons hs, ?_⟩⟩⟩
  intro hg hovf hovie hisr hr
  have hirq : irqPending { s with gie := g, csSaved := saved } = true := by simp [irqPending, hg, hovf, hovie, hisr]
  exact step_interrupt (nextMove_interrupt hirq hr)

/-! ### The compare event inside a section -/

/-- `s` with other values of `GIE` and `CS_SAVED`, the two registers that a section writes (R31, R34). -/
def withSection (g : Bool) (saved : List Bool) (s : State) : State := { s with gie := g, csSaved := saved }

section
variable (g : Bool) (saved : List Bool) (s t : State)

theorem drawSeen_withSection : drawSeen (withSection g saved s) = withSection g saved (drawSeen s) := by
  unfold drawSeen
  rw [apply_ite (withSection g saved)]
  rfl

theorem closeSlot_withSection : closeSlot (withSection g saved s) = withSection g saved (closeSlot s) := by
  unfold closeSlot
  rw [apply_ite (withSection g saved), ← drawSeen_withSection]
  rfl

theorem timerShift_withSection : timerShift (withSection g saved s) = withSection g saved (timerShift s) := by
  unfold timerShift
  rw [apply_ite (withSection g saved)]
  rfl

theorem compareEvent_withSection : compareEvent (withSection g saved s) = withSection g saved (compareEvent s) := by
  rw [compareEvent, closeSlot_withSection, timerShift_withSection, compareEvent]

/-- No line depends on the section, and what is observed of the lines goes into neither register. -/
theorem observe_withSection :
    observe (withSection g saved s) (withSection g saved t) = withSection g saved (observe s t) := by
  have scl : ∀ u, sclLine (withSection g saved u) = sclLine u := fun _ => rfl
  have sda : ∀ u, sdaLine (withSection g saved u) = sdaLine u := fun _ => rfl
  have rise : (withSection g saved t).busRise = t.busRise := rfl
  unfold observe
  rw [scl, scl, sda, sda, rise]
  split
  · rw [← drawSeen_withSection]; rfl
  · split <;> rfl
  · split <;> rfl
  · rfl

theorem exec_timerCompare : exec .timerCompare s = .next (observe s (compareEvent s)) := rfl

theorem exec_timerCompare_withSection :
    exec .timerCompare (withSection g saved s) = .next (withSection g saved (observe s (compareEvent s))) := by
  rw [exec_timerCompare, compareEvent_withSection, observe_withSection]

end

/-- Settles O20: the compare event commutes with a change of the two registers. -/
theorem sectionDoesNotStopTheTimer : Obligations.SectionDoesNotStopTheTimer := by
  intro s t g saved h
  obtain rfl : observe s (compareEvent s) = t := Host.Outcome.next.inj h
  exact exec_timerCompare_withSection g saved s

end Sys2Proof.Machine

/-! The I2C micro-operations with no other agent moving, or `PEER` at chosen instants (R125 to R130): each is its lines,
whose run Laws/I2c.lean states, seen from an empty schedule. -/

namespace Sys2Proof.Machine

/-- An operation returns in the state from which the run goes on past its lines. -/
theorem perform_eq_next {ls : List Line} {s t : State} (r : ∀ ks, run none (ls ++ ks) s = run none ks t) :
    perform ls s = .next t := perform_done (done_of_forall r)

/-! ### The framing conditions, with `SDA` held low by `PEER` -/

section
variable {s : State}

/-- A start condition while `PEER` holds `SDA` low: `SDA` has no edge, so `SCL` falls with nothing observed (U5). -/
theorem start_run_held (hf : fgHeld s = false) (he : s.env = []) (hs : s.sclOut = .released)
    (hp : s.peerSclLow = false) (hd : s.peerSdaLow = true) (hr : s.busRise = none) (ls : List Line) :
    run none (startLines ++ ls) s = run none ls { s with sclOut := .low, sdaOut := .low } := by
  have high : sclLine s = true := by simp [sclLine, hs, hp]
  let u : State := { s with sdaOut := .low }
  simp only [startLines, List.cons_append, List.nil_append]
  rw [quiet_step (t := s) hf (by simp [doLine, ← hs]) he rfl rfl,
    quiet_step (t := s) hf (by simp [doLine, high]) he rfl rfl,
    quiet_step (t := s) hf rfl he rfl rfl,
    quiet_step (t := u) hf rfl he rfl (by simp [sdaLine, u, hd]),
    quiet_step (s := u) (t := u) hf rfl he rfl rfl]
  exact run_step (s := u) hf rfl (observe_fall_none (s := u) high (scl_low rfl) hr)
    (slot_quiet (s := { u with sclOut := .low }) he)

/-- A stop condition while `PEER` holds `SDA` low: the rise of `SCL` is remembered, and `SDA` does not follow its
release (U5). -/
theorem stop_run_held (hf : fgHeld s = false) (he : s.env = []) (hs : s.sclOut = .low) (hp : s.peerSclLow = false)
    (ho : s.overlap = false) (hd : s.peerSdaLow = true) (ls : List Line) :
    run none (stopLines ++ ls) s =
      run none ls { s with sclOut := .released, sdaOut := .released, busRise := some false } := by
  let u : State := { s with sdaOut := .low }
  let v : State := { u with sclOut := .released, busRise := some false }
  have high : sclLine v = true := by simp [sclLine, u, v, hp]
  have rise : observe u { u with sclOut := .released } = v :=
    (observe_rise (s := u) (t := { u with sclOut := .released }) (scl_low hs) high ho).trans (by simp [sdaLine, u, v])
  simp only [stopLines, List.cons_append, List.nil_append]
  rw [quiet_step (t := u) hf rfl he rfl (by simp [sdaLine, u, hd]),
    quiet_step (s := u) (t := u) hf rfl he rfl rfl,
    run_step (s := u) (u := v) hf rfl rise (slot_quiet (s := v) he),
    quiet_step (s := v) (t := v) hf (by simp [doLine, high]) he rfl rfl,
    quiet_step (s := v) (t := v) hf rfl he rfl rfl,
    quiet_step (s := v) (t := { v with sdaOut := .released }) hf rfl he rfl (by simp [sdaLine, u, v, hd])]
  exact quiet_step (s := { v with sdaOut := .released }) hf rfl he rfl rfl

end

/-- Settles O22: with `SDA` free the run of the start condition on the idle bus, with `SDA` held the silent one. -/
theorem startConditionFromIdleBus : Obligations.StartConditionFromIdleBus := by
  intro s hf he hs hd hp
  refine ⟨fun hl => perform_eq_next fun ks => ?_, fun hl hr => perform_eq_next (start_run_held hf he hs hp hl hr)⟩
  rw [start_run hf hs hd hp hl (by rw [he]; exact quiet_nil 6) ks]
  simp [he]

/-- Settles O23: with `SDA` free the run of the stop condition, with `SDA` held the silent one. -/
theorem stopConditionReleasesTheBus : Obligations.StopConditionReleasesTheBus := by
  intro s hf he hs hp ho
  refine ⟨fun hl => perform_eq_next fun ks => ?_, fun hl => perform_eq_next (stop_run_held hf he hs hp ho hl)⟩
  rw [stop_run hf hs hp (.inr ⟨by simp [he], hl⟩) ho (by rw [he]; exact quiet_nil 6) ks]
  simp [he, hl]

/-! ### Bit-clocks and transfers -/

/-- A bit-clock at which nobody moves samples the line as it stands. -/
theorem turned_quiet {s : State} (he : s.env = []) : turned s.peerSdaLow s =
    { s with
      din := sdaLine s, cnt := s.cnt + 2, ovf := s.ovf || s.cnt + 1 == 0 || s.cnt + 2 == 0,
      sr := shiftIn s.sr (sdaLine s), busTrace := s.busTrace ++ [.bit (sdaLine s)], busRise := none } := by
  have he' : s.env.drop 6 = s.env := by simp [he]
  rw [turned, he']

/-- Settles O24: the run of one counted bit-clock with nobody moving. -/
theorem bitClockSamplesAndShifts : Obligations.BitClockSamplesAndShifts := by
  intro s hu he hc hs hp ho
  rw [← turned_quiet he]
  exact perform_eq_next (bitClock_run ⟨hu, hc, hs, hp, ho⟩ (.inr ⟨by simp [he], rfl⟩) (by rw [he]; exact quiet_nil 5))

/-- With no moves listed `PEER` presents its present level at every bit-clock. -/
theorem scripted_nil (n : Nat) (cur : Bool) : Scripted (List.replicate n cur) cur [] :=
  scripted_quiet n cur [] (quiet_nil _)

/-- Settles O26: the byte is loaded with nothing observed, then shifted out. -/
theorem byteOutCrossesTheBus : Obligations.ByteOutCrossesTheBus := by
  intro s b hu he hc hs hp hl ho
  have clocking : Clocking { s with sr := b } := ⟨hu, hc, hs, hp, ho⟩
  refine perform_eq_next fun ks => ?_
  have load : run none (byteOutLines b ++ ks) s = run none (shiftOutLines ++ ks) { s with sr := b } :=
    run_step hu.notHeld rfl (observe_low (scl_low hs) (scl_low hs)) (slot_quiet he)
  rw [load, shiftOut_run clocking (by simp [he]) (by simp [he]) (by simpa [he, hl] using scripted_nil 8 false) ks]
  simp [he, hl]

/-- `return SR` at an instant in which nobody moves. -/
theorem returnSr_run {s : State} (hf : fgHeld s = false) (he : s.env = []) (ls : List Line) :
    run none (.returnSr :: ls) s = run none ls { s with ret := .byte s.sr } := quiet_step hf rfl he rfl rfl

/-- Settles O27: `PEER`'s eight bits come in at the listed instants, then `SR` is returned. -/
theorem byteInReceivesWhatPeerPresents : Obligations.ByteInReceivesWhatPeerPresents := by
  intro s v hu he hc hs hp ho
  have script : Scripted ((bitsMsbFirst v).map (!·)) s.peerSdaLow (s.env.drop 2) := by
    simpa [he, byteInSlots, xferSlots] using scripted_slots ((bitsMsbFirst v).map (!·)) s.peerSdaLow []
  have gone : s.env.drop 58 = [] := by simp [he, byteInSlots, xferSlots, bitsMsbFirst, bitSlots]
  refine perform_eq_next fun ks => ?_
  rw [List.append_assoc, byteIn_run ⟨hu, hc, hs, hp, ho⟩ v (by simp [he, byteInSlots])
    (by simp [he, byteInSlots, xferSlots]) script, gone, List.singleton_append]
  exact returnSr_run (by exact hu.notHeldAt rfl rfl rfl) (by rfl) ks

/-- Settles O28: the run of the acknowledge slot at `PEER`'s present level. -/
theorem ackCheckReadsTheAnswer : Obligations.AckCheckReadsTheAnswer := by
  intro s hu he hc hs hp ho
  refine perform_eq_next fun ks => ?_
  rw [ackCheck_run ⟨hu, hc, hs, hp, ho⟩ s.peerSdaLow (by simp [he]) (by simp [he])
    (by simpa [he] using scripted_nil 1 s.peerSdaLow) (by simp [he]) ks]
  simp [he]

/-- Settles O29: the acknowledge frame is loaded with nothing observed, then its bit 7 is sent. -/
theorem masterAckDrivesItsBit : Obligations.MasterAckDrivesItsBit := by
  intro s nack hu he hc hs hp ho
  have clocking : Clocking { s with sr := masterAckFrame nack } := ⟨hu, hc, hs, hp, ho⟩
  refine perform_eq_next fun ks => ?_
  have load : run none (masterAckLines nack ++ ks) s =
      run none (masterAckTail ++ ks) { s with sr := masterAckFrame nack } :=
    run_step hu.notHeld rfl (observe_low (scl_low hs) (scl_low hs)) (slot_quiet he)
  rw [load, masterAck_run clocking s.peerSdaLow (by simp [he]) (by simp [he])
    (by simpa [he] using scripted_nil 1 s.peerSdaLow) ks]
  simp only [masterAckFrame_bit, he, List.drop_nil]
  rfl

end Sys2Proof.Machine

/-! What the I2C micro-operations leave unchanged, in every state and wherever their runs stop (R122 to R130). -/

namespace Sys2Proof.Machine

/-! ### The lines of the micro-operations -/

/-- The lines of which the micro-operations are made. -/
def primitiveLine : Line → Bool
  | .delayLow | .delayHigh | .sclLow | .sclRelease | .sdaLow | .sdaRelease | .sdaFromSr | .waitScl | .riseSample
  | .fallShift | .preload _ | .untilOvf | .strobeBack | .loadSr _ | .ackLatch | .scopeEnd .xfer | .returnSr => true
  | _ => false

/-- A transfer's lines are its preload, bit-clocks, loop tests, the back edge and the loop's end. -/
theorem forall_mem_xferLines {p : Line → Prop} (n : Nat) (hp : p (.preload n)) (ht : ∀ l ∈ strobeLines, p l)
    (hb : p .strobeBack) (he : p (.scopeEnd .xfer)) : ∀ l ∈ xferLines n, p l := by
  have turns : ∀ l ∈ (List.replicate n strobeLines).flatten, p l := by
    intro l hl
    obtain ⟨ls, hls, hl⟩ := List.mem_flatten.mp hl
    exact ht l (List.eq_of_mem_replicate hls ▸ hl)
  simp only [xferLines, List.cons_append, List.forall_mem_cons, List.forall_mem_append]
  exact ⟨hp, turns, hb, he, nofun⟩

/-! ### The frame -/

section
variable {s t : State}

theorem KeptByPrimitives.observe (k : KeptByPrimitives s t) (u : State) : KeptByPrimitives s (observe u t) := by
  simpa [KeptByPrimitives] using k

theorem KeptByPrimitives.slot (k : KeptByPrimitives s t) : KeptByPrimitives s (slot t) := by
  simpa [KeptByPrimitives] using k

/-- A line of a micro-operation writes at most the lines' drives, the shift register, its counter and its sample, the
latched answer and the returned value. -/
theorem KeptByPrimitives.line (k : KeptByPrimitives s t) {l : Line} (h : primitiveLine l = true) :
    KeptByPrimitives s ((doLine l t).state t) := by
  cases l with
  | waitScl | untilOvf => simp only [doLine]; split <;> exact k
  | riseSample =>
    simp only [doLine]
    split
    · simpa [KeptByPrimitives, LineOut.state] using k
    · exact k
  | fallShift =>
    simp only [doLine]
    split <;> exact k
  | _ => first | exact k | cases h

/-- An operation made of such lines keeps the frame, whether it returns or waits. -/
theorem performLines_keptByPrimitives {ls : List Line} (h : ∀ l ∈ ls, primitiveLine l = true) (s : State) :
    KeptByPrimitives s (performLines ls s) :=
  run_preserves (KeptByPrimitives s) (fun u _ k => k.observe u) (fun _ k => k.slot) ls
    (fun l hl _ k => k.line (h l hl)) none (by simp [KeptByPrimitives])

/-- The lines that latch no answer leave `I2C_ACKBIT`. -/
theorem performLines_i2cAckbit {ls : List Line} (h : ∀ l ∈ ls, writes_i2cAckbit l = false) (s : State) :
    (performLines ls s).i2cAckbit = s.i2cAckbit := run_i2cAckbit h none s

/-- Lines that write neither the shift register nor its counter, under another shift clock than the timer, leave both
(R125, R126). -/
theorem performLines_shift {ls : List Line}
    (h : ∀ l ∈ ls, (writes_clksrc l || writes_sr l || writes_cnt l || writes_ovf l || writes_din l) = false)
    (hc : s.clksrc ≠ .timer) :
    (performLines ls s).sr = s.sr ∧ (performLines ls s).cnt = s.cnt ∧ (performLines ls s).ovf = s.ovf ∧
      (performLines ls s).din = s.din := by
  simp only [Bool.or_eq_false_iff] at h
  have kept := run_preserves (fun t => t.clksrc ≠ .timer ∧ t.sr = s.sr ∧ t.cnt = s.cnt ∧ t.ovf = s.ovf)
    (fun u t k => by simpa using k)
    (fun t ⟨kc, ks, kn, ko⟩ => by
      obtain ⟨hs, hn, ho⟩ := slot_off kc
      exact ⟨by simpa using kc, hs.trans ks, hn.trans kn, ho.trans ko⟩)
    ls
    (fun l hl t ⟨kc, ks, kn, ko⟩ => by
      obtain ⟨⟨⟨⟨wc, ws⟩, wn⟩, wo⟩, -⟩ := h l hl
      exact ⟨by rwa [doLine_clksrc wc], (doLine_sr ws t).trans ks, (doLine_cnt wn t).trans kn,
        (doLine_ovf wo t).trans ko⟩)
    none ⟨hc, rfl, rfl, rfl⟩
  exact ⟨kept.2.1, kept.2.2.1, kept.2.2.2, run_din (fun l hl => (h l hl).2) none s⟩

end

/-- The micro-operations of spec/41_i2c_primitives.md. -/
def IsPrimitive (i : Instr) : Prop :=
  i = .i2cStart ∨ i = .i2cStop ∨ i = .i2cBitClock ∨ i = .i2cWaitSclHigh ∨ (∃ n, i = .i2cXfer n) ∨
    (∃ b, i = .i2cByteOut b) ∨ i = .i2cByteIn ∨ i = .i2cAckCheck ∨ ∃ k, i = .i2cMasterAck k

/-- A micro-operation is not one of the five operations without lines, and is performed on the state it finds. -/
theorem exec_primitive {i : Instr} {s t : State} (hi : IsPrimitive i) (h : exec i s = .next t) :
    t = performLines (opLines s.operandAt i) s := by
  have found : invoked i s = s := by
    obtain rfl | rfl | rfl | rfl | ⟨n, rfl⟩ | ⟨b, rfl⟩ | rfl | rfl | ⟨k, rfl⟩ := hi <;> rfl
  obtain ⟨-, rfl⟩ | ⟨rfl, -⟩ | ⟨rfl, -⟩ | ⟨b, rfl, -⟩ | ⟨rfl, -⟩ | ⟨rfl, -⟩ := exec_next h
  · rw [found]
  all_goals simp [IsPrimitive] at hi

/-- A line that the micro-operation `i` can have: only the acknowledge slot latches an answer. -/
def PrimitiveOf (i : Instr) (l : Line) : Prop :=
  primitiveLine l = true ∧ (i ≠ .i2cAckCheck → writes_i2cAckbit l = false)

theorem PrimitiveOf.line (i : Instr) {l : Line} (h : primitiveLine l = true) (k : writes_i2cAckbit l = false) :
    PrimitiveOf i l := ⟨h, fun _ => k⟩

theorem primitiveOf_xferLines (i : Instr) (n : Nat) : ∀ l ∈ xferLines n, PrimitiveOf i l := by
  have turn : ∀ l ∈ strobeLines, primitiveLine l = true ∧ writes_i2cAckbit l = false := by decide
  exact forall_mem_xferLines n (.line i rfl rfl) (fun l hl => .line i (turn l hl).1 (turn l hl).2) (.line i rfl rfl)
    (.line i rfl rfl)

/-- Each micro-operation has such lines only. -/
theorem primitiveOf_opLines {i : Instr} (hi : IsPrimitive i) (place : Nat) :
    ∀ l ∈ opLines place i, PrimitiveOf i l := by
  have xfer := primitiveOf_xferLines i
  have one := fun {l} => PrimitiveOf.line i (l := l)
  have load : ∀ n, ∀ b, ∀ l ∈ .loadSr b :: .sdaFromSr :: xferLines n, PrimitiveOf i l := fun n b =>
    List.forall_mem_cons.mpr ⟨one rfl rfl, List.forall_mem_cons.mpr ⟨one rfl rfl, xfer n⟩⟩
  have back : ∀ n, ∀ l ∈ xferLines n ++ [.returnSr], PrimitiveOf i l := fun n =>
    List.forall_mem_append.mpr ⟨xfer n, List.forall_mem_singleton.mpr (one rfl rfl)⟩
  obtain rfl | rfl | rfl | rfl | ⟨n, rfl⟩ | ⟨b, rfl⟩ | rfl | rfl | ⟨k, rfl⟩ := hi
  · simp only [opLines, PrimitiveOf]; decide
  · simp only [opLines, PrimitiveOf]; decide
  · simp only [opLines, PrimitiveOf]; decide
  · simp only [opLines, PrimitiveOf]; decide
  · exact back n
  · exact load 8 b
  · exact List.forall_mem_cons.mpr ⟨one rfl rfl, back 8⟩
  · simp only [opLines, PrimitiveOf]; decide
  · exact load 1 (masterAckFrame k)

/-- Settles O31: each micro-operation's lines keep the frame, and those of the framing conditions the shift register and
its counter. -/
theorem primitivesFrame : Obligations.PrimitivesFrame := by
  intro s t i hi h
  obtain rfl := exec_primitive hi h
  have lines := primitiveOf_opLines hi s.operandAt
  refine ⟨performLines_keptByPrimitives (fun l hl => (lines l hl).1) s,
    fun hne => performLines_i2cAckbit (fun l hl => (lines l hl).2 hne) s, ?_⟩
  rintro (rfl | rfl) hc
  · exact performLines_shift (ls := startLines) (by decide) hc
  · exact performLines_shift (ls := stopLines) (by decide) hc

end Sys2Proof.Machine

/-! The waits for `SCL` (R122, R123): a fresh one, one under way, and the one inside a bit-clock. -/

namespace Sys2Proof.Machine

section
variable {s : State} (hf : fgHeld s = false)
include hf

/-- `SCL` is high: the wait is over and has written nothing. -/
theorem run_waitScl_high (h : sclLine s = true) (ls : List Line) :
    run none (.waitScl :: ls) s = run none ls (slot s) := by
  rw [run_go hf (by rw [doLine, if_pos h]), observe_self]

/-- `SCL` is low: `FG` stays at the wait. -/
theorem run_waitScl_low (h : sclLine s = false) (ls : List Line) :
    run none (.waitScl :: ls) s = ⟨none, s, .waitScl :: ls⟩ := by
  rw [run_again hf (by rw [doLine, h]; rfl), observe_self]; rfl

/-- `SCL` is low: `FG` stays at the wait of a bit-clock. -/
theorem run_riseSample_low (h : sclLine s = false) (ls : List Line) :
    run none (.riseSample :: ls) s = ⟨none, s, .riseSample :: ls⟩ := by
  rw [run_again hf (by rw [doLine, h]; rfl), observe_self]; rfl

/-- `SCL` is high: the wait of a bit-clock is over, `SDA` is sampled and the edge counted (R123 line 4). -/
theorem run_riseSample_high (h : sclLine s = true) (hc : s.clksrc = .strobe) (ho : s.overlap = false) (ls : List Line) :
    run none (.riseSample :: ls) s = run none ls (slot (advance { s with din := sdaLine s })) := by
  have line : doLine .riseSample s = .go (advance { s with din := sdaLine s }) := by
    simp [doLine, h, countEdge, drawSeen, seenBit, ho, hc]
  rw [run_go hf line, observe_same_lines (by rfl) (by exact fun _ => rfl)]

end

/-- The counter comes to 0 from 15 (R22). -/
theorem count_overflow (c : Count) : (c + 1 == 0) = (c == 15) := by revert c; decide

/-- A wait that has not ended leaves `FG` where it stood. -/
theorem resume_of_stays {s : State} (h : run none s.fg { s with fg := [] } = ⟨none, { s with fg := [] }, s.fg⟩) :
    resume s = s := by
  rw [resume_eq, performLines_yield h]
  simp

/-- Settles O21: each wait with `SCL` high and with `SCL` low. -/
theorem waitSclHighSpins : Obligations.WaitSclHighSpins := by
  intro s hf
  refine ⟨fun h => perform_done (run_waitScl_high hf h []), fun h => ?_, fun ls hls => ⟨fun h => ?_, fun h => ?_⟩,
    fun ls hls => ⟨fun h hc ho => ?_, fun h => ?_⟩⟩
  · exact congrArg _ (performLines_yield (run_waitScl_low hf h []))
  · rw [resume_eq, hls]
    exact performLines_congr (run_waitScl_high (s := { s with fg := [] }) hf h ls)
  · exact resume_of_stays (hls ▸ run_waitScl_low (s := { s with fg := [] }) hf h ls)
  · rw [resume_eq, hls, ← count_overflow]
    exact performLines_congr (run_riseSample_high (s := { s with fg := [] }) hf h hc ho ls)
  · exact resume_of_stays (hls ▸ run_riseSample_low (s := { s with fg := [] }) hf h ls)

end Sys2Proof.Machine

/-! The micro-operations whatever the other agents do, short of stretching the clock: each returns (R123, R125 to
R130). -/

namespace Sys2Proof.Machine

/-- Such a run leaves `FG`'s outer position as it was. -/
theorem fg_of_run_append {ls : List Line} {s t : State} (r : ∀ ks, run none (ls ++ ks) s = run none ks t) :
    t.fg = s.fg := fg_of_run (done_of_forall r)

/-- A line that keeps the clock, in a master that can clock bits. -/
theorem Able.line {s t : State} {l : Line} (h : Able s) (hl : doLine l s = .go t)
    (hp : t.peerSclLow = s.peerSclLow := by rfl) (he : t.env = s.env := by rfl) (hi : t.inIsr = s.inIsr := by rfl)
    (hg : t.gie = s.gie := by rfl) (ho : t.ovie = s.ovie := by rfl) (hc : t.clksrc = s.clksrc := by rfl) :
    ∃ u, (∀ ls, run none (l :: ls) s = run none ls u) ∧ Able u ∧ LeftAlone t u ∧ t.clksrc ≠ .timer := by
  obtain ⟨u, ru, uu, nu, cu⟩ := any_step h.free h.unstretched hl hp he hi hg ho
  exact ⟨u, ru, ⟨uu, nu, cu.clksrc.trans (hc.trans h.strobe)⟩, cu, by rw [hc, h.strobe]; decide⟩

/-- A byte or an acknowledge: `SDA` is set, then `n` bits are transferred. -/
theorem drive_xfer_any {s : State} {l : Line} {d : SdaDrive} (h : Able s) (hl : doLine l s = .go { s with sdaOut := d })
    {n : Nat} (hn : n = 1 ∨ n = 8) :
    ∃ t, (∀ ls, run none (l :: (xferLines n ++ ls)) s = run none ls t) ∧ Able t ∧ t.sclOut = .low ∧ t.sdaOut = d := by
  obtain ⟨u, ru, au, cu, -⟩ := h.line hl
  obtain ⟨t, rt, at', scl, sda, -⟩ := xfer_any n au hn
  exact ⟨t, fun ls => by rw [ru, rt], at', scl, sda.trans cu.sdaOut⟩

/-- A frame loaded into `SR` and sent (R127, R130). -/
theorem load_xfer_any {s : State} (h : Able s) (b : Byte) {n : Nat} (hn : n = 1 ∨ n = 8) :
    ∃ t, perform (.loadSr b :: .sdaFromSr :: xferLines n) s = .next t ∧ t.fg = s.fg ∧ t.sclOut = .low ∧
      t.sdaOut = .fromSr := by
  obtain ⟨u, ru, au, -⟩ := h.line (l := .loadSr b) (t := { s with sr := b }) rfl
  obtain ⟨t, rt, -, scl, sda⟩ := drive_xfer_any au (l := .sdaFromSr) rfl hn
  have r : ∀ ks, run none ((.loadSr b :: .sdaFromSr :: xferLines n) ++ ks) s = run none ks t := fun ks =>
    (ru _).trans (rt ks)
  exact ⟨t, perform_eq_next r, fg_of_run_append r, scl, sda⟩

/-- A byte received and returned (R128). -/
theorem byteIn_any {s : State} (h : Able s) :
    ∃ t, exec .i2cByteIn s = .next t ∧ t.fg = s.fg ∧ t.sclOut = .low ∧ t.sdaOut = .released ∧ t.ret = .byte t.sr := by
  obtain ⟨u, ru, au, scl, sda⟩ := drive_xfer_any h (l := .sdaRelease) rfl (.inr rfl)
  obtain ⟨t, rt, -, ct, nt⟩ := au.line (l := .returnSr) (t := { u with ret := .byte u.sr }) rfl
  have r : ∀ ks, run none ((byteInLines ++ [.returnSr]) ++ ks) s = run none ks t := fun ks => by
    rw [byteInLines, List.append_assoc, List.cons_append, ru, List.singleton_append, rt]
  exact ⟨t, perform_eq_next r, fg_of_run_append r, ct.sclOut.trans scl, ct.sdaOut.trans sda, by rw [ct.ret, ct.sr nt]⟩

/-- The acknowledge slot latches the last sample (R129). -/
theorem ackCheck_any {s : State} (h : Able s) :
    ∃ t, exec .i2cAckCheck s = .next t ∧ t.fg = s.fg ∧ t.sclOut = .low ∧ t.sdaOut = .released ∧
      t.i2cAckbit = t.sr.getLsbD 0 := by
  obtain ⟨u, ru, au, scl, sda⟩ := drive_xfer_any h (l := .sdaRelease) rfl (.inl rfl)
  obtain ⟨t, rt, -, ct, nt⟩ := au.line (l := .ackLatch) (t := { u with i2cAckbit := u.sr.getLsbD 0 }) rfl
  have r : ∀ ks, run none (ackCheckLines ++ ks) s = run none ks t := fun ks => by
    rw [ackCheckLines, List.append_assoc, List.cons_append, ru, List.singleton_append, rt]
  exact ⟨t, perform_eq_next r, fg_of_run_append r, ct.sclOut.trans scl, ct.sdaOut.trans sda,
    by rw [ct.i2cAckbit, ct.sr nt]⟩

/-- Settles O30: every line of the micro-operations goes on, and the last drive of each bus line stays. -/
theorem primitivesReturnWithoutStretching : Obligations.PrimitivesReturnWithoutStretching := by
  intro s hu hn
  refine ⟨?_, ?_, ?_, fun hc => ?_⟩
  · obtain ⟨t, r, -, -, -, scl, sda, -⟩ := start_any hu hn
    exact ⟨t, perform_eq_next r, fg_of_run_append r, scl, sda⟩
  · obtain ⟨t, r, -, -, -, scl, sda, -⟩ := stop_any hu hn
    exact ⟨t, perform_eq_next r, fg_of_run_append r, scl, sda⟩
  · obtain ⟨t, r, -, -, -, scl, sda, -⟩ := bitClock_any hu hn
    exact ⟨t, perform_eq_next r, fg_of_run_append r, scl, sda⟩
  · have able : Able s := ⟨hu, hn, hc⟩
    exact ⟨fun b => load_xfer_any able b (.inr rfl), byteIn_any able, ackCheck_any able,
      fun k => load_xfer_any able (masterAckFrame k) (.inl rfl)⟩

end Sys2Proof.Machine

/-! A transfer in which `PEER` moves `SDA` only while `SCL` is low, whatever else it and the timer do: the bits that
cross the bus are the samples (R121, R124). -/

namespace Sys2Proof.Machine

/-! ### Instants -/

/-- `PEER` lets `SDA` be at the instant `i` from now. -/
def LeavesSda (i : Nat) (s : State) : Prop := ∀ low, EnvMove.peerSda low ∉ s.env.getD i []

theorem LeavesSda.congr {i : Nat} {s t : State} (h : LeavesSda i s) (he : t.env = s.env) : LeavesSda i t := by
  unfold LeavesSda; rw [he]; exact h

/-- An instant gone by brings the later ones nearer, and what it lists for later is no move of `PEER`. -/
theorem LeavesSda.slot {i : Nat} {s : State} (h : LeavesSda (i + 1) s) : LeavesSda i (slot s) := by
  intro low
  obtain ⟨e, he, listed, -⟩ := slot_env s
  rw [he]
  by_cases hi : i < s.env.tail.length
  · have next : s.env.tail.getD i [] = s.env.getD (i + 1) [] := by cases s.env <;> rfl
    rw [List.getD_append _ _ _ _ hi, next]
    exact h low
  · rw [List.getD_append_right _ _ _ _ (not_lt.mp hi), List.getD_eq_getElem?_getD]
    cases hk : e[i - s.env.tail.length]? with
    | none => simp
    | some ms => obtain rfl | rfl := listed ms (List.mem_of_getElem? hk) <;> simp

/-- A property that the moves listed for an instant keep is kept by the instant. -/
theorem slot_preserves_listed (P : State → Prop) {s : State} (he : ∀ t e, P t → P { t with env := e })
    (hm : ∀ m ∈ s.env.headD [], ∀ t, P t → P (envMove t m)) (h : P s) : P (slot s) := by
  unfold Machine.slot
  split
  · exact h
  · next ms rest heq =>
    rw [heq, List.headD_cons] at hm
    exact List.foldlRecOn ms envMove (he s rest h) fun t ht m hmem => hm m hmem t ht

theorem tickRun_preserves (P : State → Prop) (hp : ∀ s, P s → P (tickSeen s)) (n : Nat) {s : State} (h : P s) :
    P (tickRun n s) := by
  induction n generalizing s with
  | zero => exact h
  | succ n ih => exact ih (hp s h)

/-! ### `SCL` is low -/

/-- `SCL` is driven low and the bus trace is `tr`. -/
def LowBus (tr : List BusEvent) (s : State) : Prop := s.sclOut = .low ∧ s.busTrace = tr

/-- While `SCL` is driven low nobody's move is a bus event. -/
theorem LowBus.observe {tr : List BusEvent} {s t : State} (hs : s.sclOut = .low) (h : LowBus tr t) :
    LowBus tr (observe s t) := by
  rw [observe_low (scl_low hs) (scl_low h.1)]; exact h

theorem LowBus.tick {tr : List BusEvent} {s : State} (h : LowBus tr s) : LowBus tr (tickSeen s) :=
  LowBus.observe h.1 ⟨by simpa using h.1, by simpa using h.2⟩

theorem LowBus.move {tr : List BusEvent} {s : State} (h : LowBus tr s) (m : EnvMove) : LowBus tr (envMove s m) := by
  cases m with
  | peerSda low => exact LowBus.observe h.1 h
  | peerScl low => exact LowBus.observe h.1 h
  | tick => exact h.tick
  | freeRun => exact tickRun_preserves (LowBus tr) (fun _ => LowBus.tick) _ (s := listAgain s) h

theorem LowBus.slot {tr : List BusEvent} {s : State} (h : LowBus tr s) : LowBus tr (slot s) :=
  slot_preserves (LowBus tr) (fun _ _ h => h) (fun _ m h => h.move m) h

/-! ### `SCL` is high -/

/-- `SCL` is high since a rise at which `SDA` had the value `v`, as it has now; the bus trace is `tr`, and the timer is
not the shift clock. -/
structure HighBus (tr : List BusEvent) (v : Bool) (s : State) : Prop where
  scl : sclLine s = true
  sda : sdaLine s = v
  trace : s.busTrace = tr
  rise : s.busRise = some v
  clock : s.clksrc ≠ .timer

section
variable {tr : List BusEvent} {v : Bool} {s t : State}

/-- A change of neither line is no bus event. -/
theorem HighBus.observe (h : HighBus tr v s) (hscl : sclLine t = true) (hsda : sdaLine t = v)
    (htr : t.busTrace = s.busTrace) (hr : t.busRise = s.busRise) (hc : t.clksrc = s.clksrc) :
    HighBus tr v (observe s t) := by
  rw [observe_same_lines (hscl.trans h.scl.symm) fun _ => hsda.trans h.sda.symm]
  exact ⟨hscl, hsda, htr.trans h.trace, hr.trans h.rise, hc ▸ h.clock⟩

/-- A compare event shifts nothing, so `SDA` stands even where it follows the shift register. -/
theorem HighBus.tick (h : HighBus tr v s) : HighBus tr v (tickSeen s) := by
  obtain ⟨hsr, -, -⟩ := timerTick_off h.clock
  exact h.observe (by simpa [sclLine] using h.scl) (by simpa [sdaLine, hsr] using h.sda) (by simp) (by simp) (by simp)

theorem HighBus.move (h : HighBus tr v s) {m : EnvMove} (hd : ∀ low, m ≠ .peerSda low) (hc : m ≠ .peerScl true) :
    HighBus tr v (envMove s m) := by
  cases m with
  | peerSda low => exact absurd rfl (hd low)
  | peerScl low =>
    obtain rfl : low = false := by cases low <;> simp_all
    have hscl := h.scl
    exact h.observe (by simp_all [sclLine]) h.sda rfl rfl rfl
  | tick => exact h.tick
  | freeRun =>
    exact tickRun_preserves (HighBus tr v) (fun _ => HighBus.tick) _ (s := listAgain s)
      ⟨h.scl, h.sda, h.trace, h.rise, h.clock⟩

/-- An instant at which `PEER` neither moves `SDA` nor pulls `SCL` low. -/
theorem HighBus.slot (h : HighBus tr v s) (hn : NoStretch s) (hd : LeavesSda 0 s) : HighBus tr v (slot s) := by
  have listed : ∀ m ∈ s.env.headD [], (∀ low, m ≠ .peerSda low) ∧ m ≠ .peerScl true := by
    intro m hm
    cases he : s.env with
    | nil => simp [he] at hm
    | cons ms rest =>
      have quiet : ∀ low, EnvMove.peerSda low ∉ ms := by simpa [LeavesSda, he] using hd
      have free : EnvMove.peerScl true ∉ ms := hn.2 ms (by simp [he])
      rw [he, List.headD_cons] at hm
      exact ⟨fun low e => quiet low (e ▸ hm), fun e => free (e ▸ hm)⟩
  exact slot_preserves_listed (HighBus tr v) (fun _ _ k => ⟨k.scl, k.sda, k.trace, k.rise, k.clock⟩)
    (fun m hm _ k => k.move (listed m hm).1 (listed m hm).2) h

end

/-! ### A bit-clock -/

section
variable {tr : List BusEvent} {v : Bool} {s t : State}

/-- A master that can clock bits still can after a line that writes nothing of it, and the instant after it. -/
theorem Able.after (h : Able s) (hp : t.peerSclLow = s.peerSclLow := by rfl) (he : t.env = s.env := by rfl)
    (hi : t.inIsr = s.inIsr := by rfl) (hg : t.gie = s.gie := by rfl) (ho : t.ovie = s.ovie := by rfl)
    (hc : t.clksrc = s.clksrc := by rfl) : Able (slot (observe s t)) :=
  ⟨h.free.congr (by simp [hi]) (by simp [hg]) (by simp [ho]), noStretch_after hp he h.unstretched,
    by simp [hc, h.strobe]⟩

/-- A master that can clock bits, alone with its engine, in the low phase of the clock. -/
structure LowPhase (tr : List BusEvent) (s : State) : Prop where
  able : Able s
  apart : s.overlap = false
  bus : LowBus tr s

/-- The same in the high phase. -/
structure HighPhase (tr : List BusEvent) (v : Bool) (s : State) : Prop where
  able : Able s
  apart : s.overlap = false
  bus : HighBus tr v s

theorem LowPhase.line (h : LowPhase tr s) {l : Line} (hl : doLine l s = .go t) (hb : LowBus tr t)
    (hp : t.peerSclLow = s.peerSclLow := by rfl) (he : t.env = s.env := by rfl)
    (hi : t.inIsr = s.inIsr := by rfl) (hg : t.gie = s.gie := by rfl) (ho : t.ovie = s.ovie := by rfl)
    (hc : t.clksrc = s.clksrc := by rfl) (hv : t.overlap = s.overlap := by rfl) :
    ∃ u, (∀ ls, run none (l :: ls) s = run none ls u) ∧ LowPhase tr u ∧ LeftAlone t u ∧
      ∀ i, LeavesSda (i + 1) s → LeavesSda i u :=
  ⟨_, fun _ => run_go h.able.free.notHeld hl,
    ⟨h.able.after hp he hi hg ho hc, by simp [hv, h.apart], (LowBus.observe h.bus.1 hb).slot⟩, leftAlone_after s t,
    fun _ k => (k.congr (by simp [he])).slot⟩

theorem HighPhase.line (h : HighPhase tr v s) {l : Line} (hl : doLine l s = .go t) (hd : LeavesSda 0 s)
    (hscl : sclLine t = sclLine s := by rfl) (hsda : sdaLine t = sdaLine s := by rfl)
    (htr : t.busTrace = s.busTrace := by rfl) (hr : t.busRise = s.busRise := by rfl)
    (hp : t.peerSclLow = s.peerSclLow := by rfl) (he : t.env = s.env := by rfl)
    (hi : t.inIsr = s.inIsr := by rfl) (hg : t.gie = s.gie := by rfl) (ho : t.ovie = s.ovie := by rfl)
    (hc : t.clksrc = s.clksrc := by rfl) (hv : t.overlap = s.overlap := by rfl) :
    ∃ u, (∀ ls, run none (l :: ls) s = run none ls u) ∧ HighPhase tr v u ∧ LeftAlone t u ∧
      ∀ i, LeavesSda (i + 1) s → LeavesSda i u := by
  have bus := h.bus.observe (hscl.trans h.bus.scl) (hsda.trans h.bus.sda) htr hr hc
  exact ⟨_, fun _ => run_go h.able.free.notHeld hl,
    ⟨h.able.after hp he hi hg ho hc, by simp [hv, h.apart],
      bus.slot (noStretch_congr (by simp [hp]) (by simp [he]) h.able.unstretched) (hd.congr (by simp [he]))⟩,
    leftAlone_after s t, fun _ k => (k.congr (by simp [he])).slot⟩

/-- `SCL` rises and `SDA`'s value is remembered (R123 line 2). -/
theorem LowPhase.rise (h : LowPhase tr s) (hd : LeavesSda 0 s) :
    ∃ v u, (∀ ls, run none (.sclRelease :: ls) s = run none ls u) ∧ HighPhase tr v u ∧
      ∀ i, LeavesSda (i + 1) s → LeavesSda i u := by
  have high : sclLine { s with sclOut := .released } = true :=
    noStretch_scl (s := { s with sclOut := .released }) h.able.unstretched rfl
  have seen := observe_rise (t := { s with sclOut := .released }) (scl_low h.bus.1) high h.apart
  have strobe : s.clksrc ≠ .timer := by rw [h.able.strobe]; decide
  refine ⟨sdaLine { s with sclOut := .released }, _, fun _ => run_go h.able.free.notHeld rfl,
    ⟨h.able.after, by simp [h.apart], ?_⟩, fun _ k => (k.congr (by simp)).slot⟩
  rw [seen]
  exact HighBus.slot ⟨high, rfl, h.bus.2, rfl, strobe⟩ h.able.unstretched hd

/-- `SCL` falls and the remembered value has crossed the bus (R123 line 6). -/
theorem HighPhase.fall (h : HighPhase tr v s) :
    ∃ u, (∀ ls, run none (.sclLow :: ls) s = run none ls u) ∧ LowPhase (tr ++ [.bit v]) u ∧
      LeftAlone { s with sclOut := .low } u ∧ ∀ i, LeavesSda (i + 1) s → LeavesSda i u := by
  have seen := observe_fall_bit (t := { s with sclOut := .low }) h.bus.scl (scl_low rfl) h.bus.rise
  refine ⟨_, fun _ => run_go h.able.free.notHeld rfl, ⟨h.able.after, by simp [h.apart], ?_⟩, leftAlone_after s _,
    fun _ k => (k.congr (by simp)).slot⟩
  rw [seen]
  exact LowBus.slot ⟨rfl, by rw [← h.bus.trace]⟩

/-- One bit-clock: the sample crosses the bus (R123). -/
theorem LowPhase.bitClock (h : LowPhase tr s) (h1 : LeavesSda 1 s) (h2 : LeavesSda 2 s) (h3 : LeavesSda 3 s) :
    ∃ t, (∀ ls, run none (bitClockLines ++ ls) s = run none ls t) ∧ LowPhase (tr ++ [.bit t.din]) t ∧
      ∀ i, LeavesSda (i + 6) s → LeavesSda i t := by
  obtain ⟨a, ra, ha, -, sa⟩ := h.line (l := .delayLow) rfl h.bus
  obtain ⟨v, b, rb, hb, sb⟩ := ha.rise (sa 0 h1)
  have sample : doLine .riseSample b = .go (advance { b with din := v }) := by
    simp [doLine, hb.bus.scl, hb.bus.sda, countEdge, drawSeen, seenBit, hb.apart, hb.able.strobe]
  obtain ⟨c, rc, hc, cc, sc⟩ := hb.line sample (sb 0 (sa 1 h2))
  obtain ⟨d, rd, hd, cd, sd⟩ := hc.line (l := .delayHigh) rfl (sc 0 (sb 1 (sa 2 h3)))
  obtain ⟨e, re, he, ce, se⟩ := hd.fall
  have shift : doLine .fallShift e = .go (advance { e with sr := shiftIn e.sr e.din }) := by
    simp [doLine, he.able.strobe]
  obtain ⟨f, rf, hf, cf, sf⟩ := he.line shift he.bus
  have din : f.din = v := calc
    f.din = e.din := cf.din
    _ = d.din := ce.din
    _ = c.din := cd.din
    _ = v := cc.din
  refine ⟨f, fun ls => ?_, din ▸ hf, fun i k => sf i (se _ (sd _ (sc _ (sb _ (sa _ k)))))⟩
  simp only [bitClockLines, List.cons_append, List.nil_append]
  rw [ra, rb, rc, rd, re, rf]

end

/-! ### The transfer -/

/-- A run that goes on past its lines does so from one state. -/
theorem run_append_unique {ls : List Line} {s t u : State} (ht : ∀ ks, run none (ls ++ ks) s = run none ks t)
    (hu : ∀ ks, run none (ls ++ ks) s = run none ks u) : t = u := by
  simpa using (ht []).symm.trans (hu [])

/-- `PEER` lets `SDA` be while `SCL` is high in the next `n` turns of a transfer's loop. -/
def SteadyTurns (n : Nat) (s : State) : Prop := ∀ j < n, ∀ k, 1 ≤ k → k ≤ 3 → LeavesSda (7 * j + k) s

/-- One turn of the loop, with `n` more to come: the loop is left at the last (R124). -/
theorem LowPhase.turn {tr : List BusEvent} {s : State} {n : Nat} (h : LowPhase tr s) (hst : SteadyTurns (n + 1) s)
    (hn : n ≤ 7) (hc : s.cnt = i2cPreload (n + 1)) (ho : s.ovf = false) :
    ∃ u, run none strobeLines s = ⟨if n = 0 then some .xfer else none, u, []⟩ ∧ LowPhase (tr ++ [.bit u.din]) u ∧
      SteadyTurns n u ∧ u.sr = shiftIn s.sr u.din ∧ u.cnt = i2cPreload n ∧ u.ovf = decide (n = 0) := by
  obtain ⟨t, rt, ht, st⟩ := h.bitClock (hst 0 (by omega) 1 (by omega) (by omega))
    (hst 0 (by omega) 2 (by omega) (by omega)) (hst 0 (by omega) 3 (by omega) (by omega))
  obtain ⟨t', rt', -, -, -, -, -, shifted⟩ := bitClock_any h.able.free h.able.unstretched
  obtain rfl := run_append_unique rt rt'
  obtain ⟨cnt, ovf, sr⟩ := shifted h.able.strobe
  have left : t.cnt = i2cPreload n ∧ t.ovf = decide (n = 0) := by
    rw [cnt, ovf, hc, ho]; clear * - hn; interval_cases n <;> decide
  have strobe : t.clksrc ≠ .timer := by rw [ht.able.strobe]; decide
  have alone := leftAlone_after t t
  refine ⟨slot (observe t t), ?_, ⟨ht.able.after, by simp [ht.apart], ?_⟩, fun j hj k h1 h3 => ?_, ?_, ?_, ?_⟩
  · rw [strobeLines, rt]
    by_cases hz : n = 0
    · rw [run_leave (t := t) (m := .xfer) ht.able.free.notHeld (by simp [doLine, left.2, hz]), if_pos hz, run_nil]
    · rw [run_go (t := t) ht.able.free.notHeld (by simp [doLine, left.2, hz]), if_neg hz, run_nil]
  · rw [alone.din, observe_self]; exact ht.bus.slot
  · have := hst (j + 1) (by omega) k h1 h3
    exact ((st (7 * j + k + 1) (by rwa [show 7 * j + k + 1 + 6 = 7 * (j + 1) + k by omega])).congr (by simp)).slot
  · rw [alone.sr strobe, alone.din, sr]
  · rw [alone.cnt strobe, left.1]
  · rw [alone.ovf strobe, left.2]

/-- The turns of the loop: the bits that cross the bus are those shifted in. -/
theorem LowPhase.turns (n : Nat) {tr : List BusEvent} {s : State} (h : LowPhase tr s) (hst : SteadyTurns (n + 1) s)
    (hn : n ≤ 7) (hc : s.cnt = i2cPreload (n + 1)) (ho : s.ovf = false) :
    ∃ (u : State) (bs : List Bool),
      run none (List.replicate (n + 1) strobeLines).flatten s = ⟨some .xfer, u, []⟩ ∧ bs.length = n + 1 ∧
        LowPhase (tr ++ bs.map .bit) u ∧ u.sr = bs.foldl shiftIn s.sr := by
  induction n generalizing tr s with
  | zero =>
    obtain ⟨u, ru, hu, -, sr, -⟩ := h.turn hst hn hc ho
    exact ⟨u, [u.din], by simpa using ru, rfl, hu, sr⟩
  | succ n ih =>
    obtain ⟨t, rt, ht, st, sr, cnt, ovf⟩ := h.turn hst hn hc ho
    obtain ⟨u, bs, ru, len, hu, sru⟩ := ih ht st (by omega) cnt (by simpa using ovf)
    refine ⟨u, t.din :: bs, ?_, by simp [len], by simpa using hu, by rw [sru, sr]; rfl⟩
    rw [List.replicate_succ, List.flatten_cons, run_append_done (by simpa using rt), ru]

/-- A transfer goes on past its lines when its loop is left. -/
theorem run_xferLines {n : Nat} {s u t : State} (ru : ∀ ls, run none (.preload n :: ls) s = run none ls u)
    (rt : run none (List.replicate n strobeLines).flatten u = ⟨some .xfer, t, []⟩) (ls : List Line) :
    run none (xferLines n ++ ls) s = run none ls t := by
  rw [xferLines, List.cons_append, List.cons_append, ru, List.append_assoc, run_append, rt]
  simp only [if_true, List.cons_append, List.nil_append]
  rw [run_skip (by simp), run_skip_end]

/-- A whole transfer, with the return of `SR`. -/
theorem LowPhase.xfer {tr : List BusEvent} {s : State} {n : Nat} (h : LowPhase tr s) (hn : n = 1 ∨ n = 8)
    (hst : SdaSteadyWhileHigh n s) :
    ∃ (t : State) (bs : List Bool),
      (∀ ls, run none ((xferLines n ++ [.returnSr]) ++ ls) s = run none ls t) ∧ bs.length = n ∧
        t.busTrace = tr ++ bs.map .bit ∧ t.sr = bs.foldl shiftIn s.sr := by
  obtain ⟨u, ru, hu, cu, su⟩ := h.line (l := .preload n) (t := preloadCounter (i2cPreload n) s) rfl h.bus
  have steady : SteadyTurns n u := fun j hj k h1 h3 => su _ fun low =>
    hst (7 * j + k + 1) low (by omega) (by omega)
  have strobe : s.clksrc ≠ .timer := by rw [h.able.strobe]; decide
  obtain ⟨m, rfl⟩ : ∃ m, n = m + 1 := ⟨n - 1, by omega⟩
  obtain ⟨t, bs, rt, len, ht, sr⟩ := hu.turns m steady (by omega) (cu.cnt strobe) (cu.ovf strobe)
  obtain ⟨w, rw_, hw, cw, -⟩ := ht.line (l := .returnSr) (t := { t with ret := .byte t.sr }) rfl ht.bus
  refine ⟨w, bs, fun ls => ?_, len, hw.bus.2, ?_⟩
  · rw [List.append_assoc, run_xferLines ru rt, List.singleton_append, rw_]
  · rw [cw.sr (by simp [ht.able.strobe]), sr, cu.sr strobe]; rfl

/-- Shifting bits in leaves them in the register, the last in bit 0. -/
theorem foldl_shiftIn_getLsbD (bs : List Bool) (r : Byte) {i : Nat} (hi : i < bs.length) (h8 : i < 8) :
    bs[bs.length - 1 - i]? = some ((bs.foldl shiftIn r).getLsbD i) := by
  induction bs using List.reverseRecOn generalizing i with
  | nil => simp at hi
  | append_singleton bs b ih =>
    rw [List.foldl_append, List.foldl_cons, List.foldl_nil, shiftIn_getLsbD]
    cases i with
    | zero => simp
    | succ i =>
      simp only [List.length_append, List.length_singleton] at hi ⊢
      rw [if_neg (by omega), decide_eq_true h8, Bool.true_and, Nat.add_sub_cancel, ← ih (by omega) (by omega),
        List.getElem?_append_left (by omega)]
      congr 1; omega

/-- A transfer returns with the counter overflown and the register shifted (R124), whatever the others do. -/
theorem xferReturn_any {s : State} (h : Able s) {n : Nat} (hn : n = 1 ∨ n = 8) :
    ∃ t, (∀ ls, run none ((xferLines n ++ [.returnSr]) ++ ls) s = run none ls t) ∧ t.cnt = 0 ∧ t.ovf = true ∧
      t.sclOut = .low ∧ t.sdaOut = s.sdaOut ∧ t.ret = .byte t.sr ∧ t.sr.getLsbD 0 = t.din ∧
      ∀ k, n ≤ k → k < 8 → t.sr.getLsbD k = s.sr.getLsbD (k - n) := by
  obtain ⟨u, ru, au, scl, sda, cnt, ovf, last, old⟩ := xfer_any n h hn
  obtain ⟨t, rt, -, ct, nt⟩ := au.line (l := .returnSr) (t := { u with ret := .byte u.sr }) rfl
  have sr : t.sr = u.sr := ct.sr nt
  refine ⟨t, fun ls => by rw [List.append_assoc, ru, List.singleton_append, rt], (ct.cnt nt).trans cnt,
    (ct.ovf nt).trans ovf, ct.sclOut.trans scl, ct.sdaOut.trans sda, by rw [ct.ret, sr], ?_, fun k h1 h2 => ?_⟩
  · rw [sr, ct.din]; exact last
  · rw [sr]; exact old k h1 h2

/-- Settles O25: the transfer under any schedule, and its bits where `SDA` is steady while `SCL` is high. -/
theorem transferRunsUntilOverflow : Obligations.TransferRunsUntilOverflow := by
  intro s n hn hu hs hc
  have able : Able s := ⟨hu, hs, hc⟩
  obtain ⟨t, rt, cnt, ovf, scl, sda, ret, last, old⟩ := xferReturn_any able hn
  have returns : exec (.i2cXfer n) s = .next t := by
    rw [show exec (.i2cXfer n) s = execI2cXfer n s from rfl, execI2cXfer, if_pos hn, perform_eq_next rt]
  refine ⟨t, returns, fg_of_run_append rt, cnt, ovf, scl, sda, ret, last, old, fun hlow ho hsteady => ?_⟩
  obtain ⟨t', bs, rt', rfl, trace, sr⟩ := LowPhase.xfer ⟨able, ho, hlow, rfl⟩ hn hsteady
  obtain rfl := run_append_unique rt rt'
  refine ⟨bs, rfl, trace, fun k hk => ?_⟩
  rw [sr, ← foldl_shiftIn_getLsbD bs s.sr (by omega) (by omega)]
  congr 1; omega

end Sys2Proof.Machine

/-! Opening, closing and the address phase on their own (R140, R141, R143). -/

namespace Sys2Proof.Machine

/-! ### The frame of opening and closing -/

/-- The lines of which `I2C_OPEN` and `I2C_CLOSE` are made. -/
def scopeLine : Line → Bool
  | .usiMask | .usiStrobe | .giveUsi | .txnOpen | .txnClose | .delayLow | .delayHigh | .sclLow | .sclRelease | .sdaLow
  | .sdaRelease | .waitScl => true
  | _ => false

section
variable {s t : State}

/-- Such a line writes at most the drives of the bus, the two controls of the resource and `I2C_TXN`. -/
theorem KeptByScope.line (k : KeptByScope s t) {l : Line} (h : scopeLine l = true) :
    KeptByScope s ((doLine l t).state t) := by
  cases l with
  | waitScl => simp only [doLine]; split <;> exact k
  | _ => first | exact k | cases h

/-- A run that has ended keeps the frame. -/
theorem keptByScope_of_run {ls : List Line} (h : ∀ l ∈ ls, scopeLine l = true)
    (r : ∀ ks, run none (ls ++ ks) s = run none ks t) : KeptByScope s t := by
  have kept := run_preserves (KeptByScope s) (fun _ _ k => by simpa [KeptByScope] using k)
    (fun _ k => by simpa [KeptByScope] using k) ls (fun l hl _ k => k.line (h l hl)) none (s := s)
    (by simp [KeptByScope])
  rwa [done_of_forall r] at kept

end

/-- Settles O32: the lines of opening are performed to their end, and write nothing else. -/
theorem openTakesTheSharedResource : Obligations.OpenTakesTheSharedResource := by
  intro s hf hn
  obtain ⟨t, r, able, masked, scl, sda, txn, overlap, shift⟩ := open_any hf hn
  exact ⟨t, perform_eq_next r, keptByScope_of_run (by decide) r, masked, able.strobe, txn, scl, sda, overlap, shift⟩

/-- Settles O33: the lines of closing are performed to their end, and write nothing else. -/
theorem closeGivesTheResourceBack : Obligations.CloseGivesTheResourceBack := by
  intro s hu hn hc
  obtain ⟨t, r, -, -, clock, scl, sda, txn, sr, cnt, ovf⟩ := close_any hu hn hc
  have done := done_of_forall r
  have ovie : t.ovie = s.ovie := by simpa [done] using run_ovie (ls := closeLines) (by decide) none s
  have overlap : t.overlap = s.overlap := by simpa [done] using run_overlap (ls := closeLines) (by decide) none s
  exact ⟨t, perform_eq_next r, keptByScope_of_run (by decide) r, clock, txn, scl, sda, ovie, overlap, sr, cnt, ovf⟩

/-! ### The address phase -/

/-- The state after an address byte whose answer was `nack`, the instants all gone by. -/
def addressed (rw nack : Bool) (s : State) : State :=
  { s with
    sr := shiftIn (addressByte s.i2cAddr rw) nack, sdaOut := .released, cnt := 0, ovf := true, din := nack,
    peerSdaLow := !nack, i2cAckbit := nack,
    busTrace := s.busTrace ++ byteEvents (addressByte s.i2cAddr rw) ++ [.bit nack], busRise := none, env := [] }

section
variable {s : State} (h : Clocking s)
include h

/-- The address byte and the answer of a `PEER` that acknowledges it. -/
theorem address_acknowledged (he : s.env = byteOutSlots ++ ackSlots true) (rw : Bool) (ls : List Line) :
    run none (addressLines rw ++ ls) s = run none ls (addressed rw false s) := by
  rw [addressLines, List.append_assoc, List.cons_append,
    byteOut_seg (b := addressByte s.i2cAddr rw) (E := ackSlots true) h rfl he]
  exact ack_seg (ack := true) (E := []) (by exact h.congr rfl rfl rfl rfl rfl rfl rfl) (List.append_nil _).symm ls

/-- The address byte on a bus on which nobody answers. -/
theorem address_unanswered (he : s.env = []) (hd : s.peerSdaLow = false) (rw : Bool) (ls : List Line) :
    run none (addressLines rw ++ ls) s = run none ls (addressed rw true s) := by
  have loaded : Clocking { s with sr := addressByte s.i2cAddr rw } := h.congr rfl rfl rfl rfl rfl rfl rfl
  rw [addressLines, List.append_assoc, List.cons_append,
    run_step (t := { s with sr := addressByte s.i2cAddr rw }) h.free.notHeld rfl
      (observe_low (scl_low h.scl) (scl_low h.scl)) (slot_quiet he),
    shiftOut_run loaded (by simp [he]) (by simp [he]) (by simpa [he, hd] using scripted_nil 8 false)]
  refine (ackCheck_run (by exact h.congr rfl rfl rfl rfl rfl rfl rfl) false (by simp [he]) (by simp [he])
    (by simpa [he] using scripted_nil 1 false) (by simp [he]) ls).trans ?_
  simp [addressed, he]

end

section
variable {s : State} (hi : s.inIsr = false) (ho : s.ovie = false) (he : s.env = [])
include hi ho he

/-- Past an acknowledged address byte the operation returns: the error path is passed over (R143). -/
theorem addressAlone_goesOn (hk : s.i2cAckbit = false) :
    run none (.raiseIfNack :: .notRaised :: (leaveLines ++ [.scopeEnd .raised])) s = ⟨none, s, []⟩ := by
  have free : fgHeld s = false := Uninterrupted.notHeld ⟨hi, .inr ho⟩
  rw [quiet_step (t := s) free (by simp [doLine, hk]) he rfl rfl, run_leave (t := s) (m := .raised) free rfl,
    observe_self, slot_quiet he, run_skip_to_end (by decide), run_nil]

/-- Past a refused one `raise NoAck` closes the transaction, leaves the critical section and returns (R141, R143). -/
theorem addressAlone_raises (h : Clocking s) (hk : s.i2cAckbit = true) (hd : s.peerSdaLow = false) {g : Bool}
    {saved : List Bool} (hs : s.csSaved = g :: saved) :
    run none (.raiseIfNack :: .notRaised :: (leaveLines ++ [.scopeEnd .raised])) s = ⟨none, { s with
      i2cResult := .errNoAck, sclOut := .released, sdaOut := .released, i2cTxn := .none, clksrc := .off, gie := g,
      csSaved := saved, ret := .result .errNoAck, busTrace := s.busTrace ++ [.stop], busRise := none }, []⟩ := by
  have raise : doLine .raiseIfNack s = .leave .txn { s with i2cResult := .errNoAck } := by simp [doLine, hk]
  have left := leave_run (s := { s with i2cResult := .errNoAck }) (h.congr rfl rfl rfl rfl rfl rfl rfl) ho hs
    (.inr ⟨by simp [he], hd⟩) (by simpa [he] using quiet_nil 10)
  rw [run_leave h.free.notHeld raise, observe_low (scl_low h.scl) (by exact scl_low h.scl),
    slot_quiet (s := { s with i2cResult := .errNoAck }) he, leaveLines]
  simp only [List.cons_append]
  rw [run_skip (by decide), run_skip_end, run_append_done left]
  refine (run_pass (by exact Uninterrupted.notHeld ⟨hi, .inr ho⟩) rfl).trans ?_
  simp [he, hd]

end

/-- Settles O34: the address byte and its answer, then the operation goes on or raises. -/
theorem addressPhaseAcknowledgedOrAborts : Obligations.AddressPhaseAcknowledgedOrAborts := by
  intro s rw hi ho hc hs hp hd hv
  have clocking : Clocking s := ⟨⟨hi, .inr ho⟩, hc, hs, hp, hv⟩
  have lines : addressAloneLines rw =
      addressLines rw ++ (.raiseIfNack :: .notRaised :: (leaveLines ++ [.scopeEnd .raised])) := by
    simp [addressAloneLines]
  have hexec : ∀ {t}, run none (addressAloneLines rw) s = ⟨none, t, []⟩ → exec (.i2cAddress rw) s = .next t :=
    perform_done
  refine ⟨fun he => ?_, fun he g saved hcs => ?_⟩
  · refine ⟨addressed rw false s, hexec ?_, rfl, rfl, rfl, hc, rfl, rfl, rfl, rfl, rfl, rfl, rfl, rfl⟩
    rw [lines, address_acknowledged clocking he]
    exact addressAlone_goesOn hi ho rfl rfl
  · have run_all := (address_unanswered clocking he hd rw _).trans
      (addressAlone_raises (s := addressed rw true s) hi ho rfl (clocking.congr rfl rfl rfl rfl rfl rfl rfl) rfl rfl
        hcs)
    rw [← lines] at run_all
    exact ⟨_, hexec run_all, rfl, rfl, rfl, rfl, rfl, rfl, rfl, rfl, rfl, rfl, rfl, rfl, rfl, by simp [addressed]⟩

end Sys2Proof.Machine

/-! The two commands whatever the other agents do, short of stretching the clock: each returns (R144, R145, R147). -/

namespace Sys2Proof.Machine

/-! ### What a transaction leaves -/

/-- The lines that write a register that no transaction writes. -/
def writesOutside (l : Line) : Bool :=
  writes_txdSrc l || writes_tcmp l || writes_tmode l || writes_periphInit l || writes_uartState l || writes_uartByte l

/-- The lines that write what an invocation sets. -/
def writesInvocation (l : Line) : Bool := writes_i2cRw l || writes_i2cAddr l || writes_i2cBuf l || writes_i2cLen l

/-- A run that has ended and has closed its sections keeps the frame of the transactions. -/
theorem keptByTransactions_of_run {ls : List Line} {s t : State} (h : ∀ l ∈ ls, writesOutside l = false)
    (r : run none ls s = ⟨none, t, []⟩) (hg : t.gie = s.gie) (hc : t.csSaved = s.csSaved) : KeptByTransactions s t := by
  simp only [writesOutside, Bool.or_eq_false_iff, imp_and, forall_and] at h
  obtain ⟨⟨⟨⟨⟨txdSrc, tcmp⟩, tmode⟩, periphInit⟩, uartState⟩, uartByte⟩ := h
  have hst : t = (run none ls s).st := by rw [r]
  refine ⟨?_, ?_, ?_, hg, ?_, hc, ?_, ?_, ?_, ?_, ?_, ?_, fg_of_run r⟩ <;> rw [hst]
  · exact run_txdSrc txdSrc none s
  · exact run_tcmp tcmp none s
  · exact run_tmode tmode none s
  · exact run_periphInit periphInit none s
  · exact run_uartState uartState none s
  · exact run_inIsr ls none s
  · exact run_uartByte uartByte none s
  · exact run_operandAt ls none s
  · exact run_callerStores ls none s
  · exact run_requests ls none s

/-- How the bytes of a transaction have been answered: the result is `Ok` past all `n`, and `Err(NoAck)` after a
refusal. -/
def Answered (n : Nat) (s : State) : Prop :=
  (s.i2cResult = .ok ∧ s.i2cAckbit = false ∧ s.i2cIdx = n) ∨ (s.i2cResult = .errNoAck ∧ s.i2cAckbit = true)

theorem Answered.result_iff {n : Nat} {s : State} (h : Answered n s) :
    (s.i2cResult = .ok ↔ s.i2cAckbit = false) ∧ (s.i2cResult = .ok → s.i2cIdx = n) := by
  obtain ⟨res, ack, idx⟩ | ⟨res, ack⟩ := h <;> simp [*]

/-- What a transaction of `n` bytes has left when it has returned: the bus released, the resource given back, the
registers of the invocation, the result of the answers returned. -/
structure Returned (rw : Bool) (a : Byte) (n : Nat) (s t : State) : Prop where
  kept : KeptByTransactions s t
  i2cTxn : t.i2cTxn = .none
  clksrc : t.clksrc = .off
  ovie : t.ovie = false
  cnt : t.cnt = 0
  ovf : t.ovf = true
  sclOut : t.sclOut = .released
  sdaOut : t.sdaOut = .released
  i2cRw : t.i2cRw = rw
  i2cAddr : t.i2cAddr = a
  i2cBuf : t.i2cBuf = s.operandAt
  i2cLen : t.i2cLen = n
  ret : t.ret = .result t.i2cResult
  answered : Answered n t

/-- The end of every transaction, from the stop condition on (R141). -/
abbrev exitLines : List Line := closeLines ++ [.csExit, .returnResult]

/-- A transaction whose head has run to `u` and whose body to `w` returns with the answers of `w`. -/
theorem transaction_returns {rw : Bool} {a : Byte} {n : Nat} {turn : List Line} {s u w : State}
    (hturn : ∀ l ∈ turn, (writesOutside l || writesInvocation l) = false)
    (head : run none (.csEnter :: .invoke rw a n :: (openLines ++ addressLines rw)) s = ⟨none, u, []⟩)
    (hrw : u.i2cRw = rw) (ha : u.i2cAddr = a) (hb : u.i2cBuf = s.operandAt) (hl : u.i2cLen = n)
    (body : run none (bodyLines turn n) u = run none exitLines w) (between : Between s.gie s.csSaved w)
    (answered : Answered n w) :
    ∃ t, run none (transactionLines rw a n turn) s = ⟨none, t, []⟩ ∧ Returned rw a n s t ∧
      t.i2cResult = w.i2cResult ∧ t.mem = w.mem := by
  simp only [writesInvocation, Bool.or_eq_false_iff, imp_and, forall_and] at hturn
  obtain ⟨outside, ⟨⟨i2cRw, i2cAddr⟩, i2cBuf⟩, i2cLen⟩ := hturn
  obtain ⟨t, exit, gie, saved, txn, clk, ovie, cnt, ovf, scl, sda, ret⟩ := leave_any between
  have whole : run none (transactionLines rw a n turn) s = ⟨none, t, []⟩ := by
    rw [trans_lines, run_append_done head]; exact body.trans exit
  have ofExit : t = (run none exitLines w).st := by rw [exit]
  have ofBody : t = (run none (bodyLines turn n) u).st := by rw [body, exit]
  have result : t.i2cResult = w.i2cResult := by rw [ofExit]; exact run_i2cResult (by decide) none w
  have outside := mem_trans (rw_ := rw) (a := a) (n := n) outside (by decide) rfl (by cases rw <;> decide)
  have ack : t.i2cAckbit = w.i2cAckbit := by rw [ofExit]; exact run_i2cAckbit (by decide) none w
  have idx : t.i2cIdx = w.i2cIdx := by rw [ofExit]; exact run_i2cIdx (by decide) none w
  have mem : t.mem = w.mem := by rw [ofExit]; exact run_mem (by decide) none w
  have kept := keptByTransactions_of_run outside whole gie saved
  refine ⟨t, whole, ⟨kept, txn, clk, ovie, cnt, ovf, scl, sda, ?_, ?_, ?_, ?_, by rw [ret, result],
    by unfold Answered; rwa [result, ack, idx]⟩, result, mem⟩
  · rw [ofBody, run_i2cRw (mem_body i2cRw (by decide) n), hrw]
  · rw [ofBody, run_i2cAddr (mem_body i2cAddr (by decide) n), ha]
  · rw [ofBody, run_i2cBuf (mem_body i2cBuf (by decide) n), hb]
  · rw [ofBody, run_i2cLen (mem_body i2cLen (by decide) n), hl]

/-! ### The bodies -/

/-- Nothing outside the `n` bytes at `b` reads otherwise than before. -/
def StoredIn (b n : Nat) (s t : State) : Prop :=
  ∀ x, x < b ∨ b + n ≤ x → Memory.read t.mem x = Memory.read s.mem x

section
variable {g : Bool} {v : List Bool} {s : State} (h : Between g v s)
include h

/-- An acknowledged address byte leads to the head of the data phase. -/
theorem Between.entered (hk : s.i2cAckbit = false) :
    ∃ t, (∀ ls, run none (.raiseIfNack :: .loopStart :: ls) s = run none ls t) ∧ Between g v t ∧ t.i2cAckbit = false ∧
      t.i2cIdx = 0 ∧ t.i2cBuf = s.i2cBuf ∧ t.mem = s.mem := by
  obtain ⟨u, ru, bu, cu⟩ := h.step (l := .raiseIfNack) (t := s) (by simp [doLine, hk]) rfl rfl rfl rfl rfl rfl
    rfl rfl rfl
  obtain ⟨t, rt, bt, ct⟩ := bu.step (l := .loopStart) (t := { u with i2cIdx := 0 }) rfl rfl rfl rfl rfl rfl rfl
    rfl rfl rfl
  exact ⟨t, fun ls => by rw [ru, rt], bt, ct.i2cAckbit.trans (cu.i2cAckbit.trans hk), ct.i2cIdx,
    ct.i2cBuf.trans cu.i2cBuf, ct.mem.trans cu.mem⟩

/-- The body of a write, up to its end or its first refusal (R144). -/
theorem Between.writeBody (n : Nat) :
    ∃ t, run none (bodyLines writeByteLines n) s = run none exitLines t ∧ Between g v t ∧ Answered n t := by
  cases hk : s.i2cAckbit with
  | true =>
    obtain ⟨t, rt, bt, res, ack, -⟩ := refused_any h hk writeByteLines n (by decide) exitLines
    exact ⟨t, rt, bt, .inr ⟨res, ack⟩⟩
  | false =>
    obtain ⟨u, ru, bu, ku, iu, -⟩ := h.entered hk
    obtain ⟨t, rt, bt, answers⟩ := writeData_any n g v u exitLines bu ku
    rw [iu, Nat.zero_add] at answers
    exact ⟨t, (ru _).trans rt, bt, answers⟩

/-- The body of a read: only the address byte can be refused, and then nothing is stored (R145, R146). -/
theorem Between.readBody (n : Nat) :
    ∃ t, run none (bodyLines readByteLines n) s = run none exitLines t ∧ Between g v t ∧ Answered n t ∧
      (t.i2cResult = .errNoAck → t.mem = s.mem) ∧ StoredIn s.i2cBuf n s t := by
  cases hk : s.i2cAckbit with
  | true =>
    obtain ⟨t, rt, bt, res, ack, mem⟩ := refused_any h hk readByteLines n (by decide) exitLines
    exact ⟨t, rt, bt, .inr ⟨res, ack⟩, fun _ => mem, fun x _ => by rw [mem]⟩
  | false =>
    obtain ⟨u, ru, bu, ku, iu, pu, mu⟩ := h.entered hk
    obtain ⟨t, rt, bt, res, ack, idx, stored⟩ := readData_any n g v u exitLines bu ku
    rw [iu, Nat.zero_add] at idx
    rw [iu, pu, mu, Nat.add_zero] at stored
    exact ⟨t, (ru _).trans rt, bt, .inl ⟨res, ack, idx⟩, by simp [res], stored⟩

end

/-! ### The commands -/

/-- Settles O35: the head, the body and the end of the write's lines, on the state in which its buffer has been laid. -/
theorem writeReturns : Obligations.WriteReturns := by
  intro s a d hinit hf hn
  obtain ⟨u, head, between, hrw, ha, hb, hl⟩ := head_any (s := layOperand d s) hf hn false a d.length
  obtain ⟨w, body, between, answered⟩ := between.writeBody d.length
  obtain ⟨t, r, ret, -, -⟩ := transaction_returns (by decide) head hrw ha hb hl body between answered
  have mem : t.mem = (layOperand d s).mem := by
    have := run_mem (mem_trans (p := writes_mem) (rw_ := false) (a := a) (n := d.length) (turn := writeByteLines)
      (by decide) (by decide) rfl (by decide)) none (layOperand d s)
    rwa [r] at this
  obtain ⟨ok_iff, ok_idx⟩ := ret.answered.result_iff
  have hexec : exec (.i2cWrite a d) s = .next t :=
    (command_booted (s := layOperand d s) hinit _).trans (perform_done r)
  exact ⟨t, t.i2cResult, hexec, ret.kept, mem, ret.i2cTxn, ret.clksrc, ret.ovie, ret.cnt, ret.ovf, ret.sclOut,
    ret.sdaOut, ret.i2cRw, ret.i2cAddr, ret.i2cBuf, ret.i2cLen, rfl, ret.ret, ok_iff, ok_idx⟩

/-- Settles O36: the head, the body and the end of the read's lines; the head stores nothing. -/
theorem readReturns : Obligations.ReadReturns := by
  intro s a n hinit hf hn
  obtain ⟨u, head, between, hrw, ha, hb, hl⟩ := head_any hf hn true a n
  obtain ⟨w, body, between, answered, refused, stored⟩ := between.readBody n
  obtain ⟨t, r, ret, res, mem⟩ := transaction_returns (by decide) head hrw ha hb hl body between answered
  have before : u.mem = s.mem := by
    have headLines : ∀ l ∈ Line.csEnter :: .invoke true a n :: (openLines ++ addressLines true), writes_mem l = false :=
      List.forall_mem_cons.mpr ⟨rfl, List.forall_mem_cons.mpr ⟨rfl, by decide⟩⟩
    have := run_mem headLines none s
    rwa [head] at this
  obtain ⟨ok_iff, ok_idx⟩ := ret.answered.result_iff
  rw [← res, ← mem, before] at refused
  unfold StoredIn at stored
  rw [hb, ← mem, before] at stored
  have hexec : exec (.i2cRead a n) s = .next t := (command_booted hinit _).trans (perform_done r)
  exact ⟨t, t.i2cResult, hexec, ret.kept, ret.i2cTxn, ret.clksrc, ret.ovie, ret.cnt, ret.ovf, ret.sclOut, ret.sdaOut,
    ret.i2cRw, ret.i2cAddr, ret.i2cBuf, ret.i2cLen, rfl, ret.ret, ok_iff, ok_idx, refused, stored⟩

end Sys2Proof.Machine

/-! Where a transaction stores, in every state and wherever its run stops (R60, R69, R71, R146). -/

namespace Sys2Proof.Machine

/-! ### Runs that can stop anywhere -/

/-- The run through two lists in a row stops in the first or goes on into the second. -/
theorem run_append_st (m : Option Scope) (xs ys : List Line) (s : State) :
    (run m (xs ++ ys) s).st = (run m xs s).st ∨
      (run m (xs ++ ys) s).st = (run (run m xs s).mode ys (run m xs s).st).st := by
  rw [run_append]
  split <;> simp

/-- What holds where `FG` is held, and after what comes past a line, holds wherever a run from that line stops. -/
theorem run_go_or_held {Q : State → Prop} {l : Line} {ls : List Line} {s t : State} (hl : doLine l s = .go t)
    (here : Q s) (next : ∀ u, LeftAlone t u → Q (run none ls u).st) : Q (run none (l :: ls) s).st := by
  cases hf : fgHeld s with
  | true => rw [run_held hf]; exact here
  | false => rw [run_go hf hl]; exact next _ (leftAlone_after s t)

/-- Every region that a line can leave ends among the lines after it. -/
def regionsEnd : List Line → Bool
  | [] => true
  | l :: ls =>
    l != .notRaised && l != .uartTest && (regionOf l).all (fun m => ls.contains (.scopeEnd m)) && regionsEnd ls

theorem regionsEnd_leave {l : Line} {ls : List Line} {s t : State} {m : Scope} (h : regionsEnd (l :: ls) = true)
    (hl : doLine l s = .leave m t) : Line.scopeEnd m ∈ ls := by
  simp only [regionsEnd, Bool.and_eq_true, bne_iff_ne] at h
  obtain ⟨⟨⟨raised, test⟩, ends⟩, -⟩ := h
  rcases doLine_leave hl with hr | ⟨rfl, -⟩ | ⟨rfl, -⟩
  · simpa [hr] using ends
  · exact absurd rfl raised
  · exact absurd rfl test

/-- A run through such lines is inside no region that it has left, wherever it stops. -/
theorem run_mode_none {ls : List Line} (h : regionsEnd ls = true) (m : Option Scope)
    (hm : ∀ k, m = some k → Line.scopeEnd k ∈ ls) (s : State) : (run m ls s).mode = none := by
  induction ls generalizing m s with
  | nil =>
    cases m with
    | none => rfl
    | some k => simpa using hm k rfl
  | cons l ls ih =>
    have ih := ih (by simp only [regionsEnd, Bool.and_eq_true] at h; exact h.2)
    cases m with
    | some k =>
      rw [run]
      refine ih _ (fun j hj => ?_) s
      split at hj
      · cases hj
      · next hne => cases hj; simpa [Ne.symm hne] using hm k rfl
    | none =>
      cases hf : fgHeld s with
      | true => rw [run_held hf]
      | false =>
        cases hl : doLine l s with
        | go t => rw [run_go hf hl]; exact ih none nofun _
        | leave k t =>
          rw [run_leave hf hl]
          exact ih (some k) (fun j hj => by cases hj; exact regionsEnd_leave h hl) _
        | pass => rw [run_pass hf hl]; exact ih none nofun _
        | again ks t => rw [run_again hf hl]

/-- A property of the lines still to perform and the state, kept by every line performed and every line passed over,
holds wherever a run stops. -/
theorem run_along {P : List Line → State → Prop} (alone : ∀ ls s t, LeftAlone s t → P ls s → P ls t)
    (skip : ∀ l ls s, P (l :: ls) s → P ls s) (line : ∀ l ls s, P (l :: ls) s → P ls ((doLine l s).state s))
    (m : Option Scope) {ls : List Line} {s : State} (h : P ls s) : ∃ ks, P ks (run m ls s).st := by
  induction ls generalizing m s with
  | nil => exact ⟨[], by rwa [run_nil]⟩
  | cons l ls ih =>
    cases m with
    | some k => rw [run]; exact ih _ (skip l ls s h)
    | none =>
      have hd := line l ls s h
      cases hf : fgHeld s with
      | true => rw [run_held hf]; exact ⟨_, h⟩
      | false =>
        cases hl : doLine l s with
        | go t => rw [hl] at hd; rw [run_go hf hl]; exact ih none (alone _ _ _ (leftAlone_after s t) hd)
        | leave k t => rw [hl] at hd; rw [run_leave hf hl]; exact ih _ (alone _ _ _ (leftAlone_after s t) hd)
        | pass => rw [run_pass hf hl]; exact ih none (skip l ls s h)
        | again ks t =>
          obtain ⟨rfl, -⟩ := doLine_again hl
          rw [run_again hf hl, observe_self]
          exact ⟨_, h⟩

/-! ### The data phase of a read -/

/-- Every store is followed by a step to the next place of the buffer. -/
def storesPaired : List Line → Bool
  | [] => true
  | l :: ls => (l != .storeBuf || ls.contains .idxNext) && storesPaired ls

theorem storesPaired_append {xs ys : List Line} (hx : storesPaired xs = true) (hy : storesPaired ys = true) :
    storesPaired (xs ++ ys) = true := by
  induction xs with
  | nil => exact hy
  | cons x xs ih =>
    simp only [storesPaired, List.cons_append, Bool.and_eq_true, Bool.or_eq_true, bne_iff_ne, List.contains_eq_mem,
      decide_eq_true_eq] at hx ⊢
    exact ⟨hx.1.imp_right (List.mem_append_left _), ih hx.2⟩

/-- The data phase steps once a byte, and after each store. -/
theorem readData_places (n : Nat) {ls : List Line} (hp : storesPaired ls = true) (hc : ls.count .idxNext = 0) :
    storesPaired (dataLines readByteLines n ++ ls) = true ∧ (dataLines readByteLines n ++ ls).count .idxNext = n := by
  induction n with
  | zero => exact ⟨hp, hc⟩
  | succ n ih =>
    have turn : readByteLines.count .idxNext = 1 := by decide
    rw [dataLines_succ, List.append_assoc, List.count_append, turn, ih.2]
    exact ⟨storesPaired_append (by decide) ih.1, by omega⟩

/-- Inside a read into the `n` bytes at `b`: there is room for every step that the lines still to perform can make, and
nothing has been stored but in these bytes. -/
structure Reading (b n : Nat) (origin : State) (ls : List Line) (s : State) : Prop where
  operandAt : s.operandAt = b
  i2cBuf : s.i2cBuf = b
  room : s.i2cIdx + ls.count .idxNext ≤ n
  paired : storesPaired ls = true
  stored : StoredIn b n origin s

section
variable {b n : Nat} {origin s : State} {l : Line} {ls : List Line}

theorem Reading.leftAlone {t : State} (k : Reading b n origin ls s) (c : LeftAlone s t) : Reading b n origin ls t where
  operandAt := c.operandAt.trans k.operandAt
  i2cBuf := c.i2cBuf.trans k.i2cBuf
  room := by rw [c.i2cIdx]; exact k.room
  paired := k.paired
  stored := by unfold StoredIn; rw [c.mem]; exact k.stored

theorem Reading.skip (k : Reading b n origin (l :: ls) s) : Reading b n origin ls s where
  operandAt := k.operandAt
  i2cBuf := k.i2cBuf
  room := by have := k.room; rw [List.count_cons] at this; omega
  paired := by have := k.paired; simp only [storesPaired, Bool.and_eq_true] at this; exact this.2
  stored := k.stored

/-- A store lies before a step for which there is room, so inside the buffer. -/
theorem Reading.store (k : Reading b n origin (.storeBuf :: ls) s) :
    Reading b n origin ls { s with mem := Memory.write s.mem (s.i2cBuf + s.i2cIdx) s.sr } where
  operandAt := k.operandAt
  i2cBuf := k.i2cBuf
  room := k.skip.room
  paired := k.skip.paired
  stored x hx := by
    have step : 0 < ls.count .idxNext := by
      have := k.paired
      simp only [storesPaired, Bool.and_eq_true] at this
      exact List.count_pos_iff.mpr (by simpa using this.1)
    have room := k.skip.room
    have place := k.i2cBuf
    exact (Memory.read_write_other _ _ (by omega)).trans (k.stored x hx)

/-- Every line keeps to the buffer. -/
theorem Reading.line (k : Reading b n origin (l :: ls) s) : Reading b n origin ls ((doLine l s).state s) := by
  have hskip := k.skip
  by_cases hm : writes_mem l = true
  · obtain rfl : l = .storeBuf := by cases l <;> first | rfl | cases hm
    exact k.store
  have mem := doLine_mem (by simpa using hm) s
  have i2cBuf : ((doLine l s).state s).i2cBuf = b := by
    by_cases hb : writes_i2cBuf l = true
    · cases l <;> first | exact k.operandAt | cases hb
    · rw [doLine_i2cBuf (by simpa using hb)]; exact k.i2cBuf
  have room : ((doLine l s).state s).i2cIdx + ls.count .idxNext ≤ n := by
    have := hskip.room
    by_cases hi : writes_i2cIdx l = true
    · cases l with
      | loopStart => simp only [doLine, LineOut.state]; omega
      | idxNext =>
        have := k.room
        rw [List.count_cons_self] at this
        simp only [doLine, LineOut.state]
        omega
      | _ => cases hi
    · rwa [doLine_i2cIdx (by simpa using hi)]
  exact ⟨(doLine_operandAt l s).trans k.operandAt, i2cBuf, room, hskip.paired,
    by unfold StoredIn; rw [mem]; exact k.stored⟩

end

/-! ### A read from its invocation on -/

theorem storedIn_of_mem {b n : Nat} {s t : State} (h : t.mem = s.mem) : StoredIn b n s t := fun x _ => by rw [h]

/-- The body of a read stores nothing after a refused address byte, and otherwise only in the buffer. -/
theorem readBody_storedIn {b n : Nat} {s u : State} (hm : u.mem = s.mem) (ho : u.operandAt = b) (hb : u.i2cBuf = b) :
    StoredIn b n s (run none (bodyLines readByteLines n) u).st := by
  have here : StoredIn b n s u := storedIn_of_mem hm
  have past : Line.scopeEnd .txn ∉ Line.loopStart :: (dataLines readByteLines n ++ [.okReturn]) := by
    simp [not_mem_dataLines (turn := readByteLines) (by decide)]
  have lines : bodyLines readByteLines n =
      .raiseIfNack :: ((.loopStart :: (dataLines readByteLines n ++ [.okReturn])) ++ .scopeEnd .txn :: exitLines) := by
    simp [bodyLines]
  cases hk : u.i2cAckbit with
  | true =>
    cases hf : fgHeld u with
    | true => rw [bodyLines, run_held hf]; exact here
    | false =>
      have raise : doLine .raiseIfNack u = .leave .txn { u with i2cResult := .errNoAck } := by simp [doLine, hk]
      have alone := leftAlone_after u { u with i2cResult := .errNoAck }
      rw [lines, run_leave hf raise, run_skip_to_end past]
      exact storedIn_of_mem ((run_mem (by decide) none _).trans (alone.mem.trans hm))
  | false =>
    refine run_go_or_held (t := u) (by simp [doLine, hk]) here fun v cv => ?_
    have hmv : v.mem = s.mem := cv.mem.trans hm
    refine run_go_or_held rfl (storedIn_of_mem hmv) fun w cw => ?_
    obtain ⟨paired, count⟩ := readData_places n (ls := .okReturn :: .scopeEnd .txn :: exitLines) (by decide) (by decide)
    have reading : Reading b n s (dataLines readByteLines n ++ (.okReturn :: .scopeEnd .txn :: exitLines)) w :=
      ⟨cw.operandAt.trans (cv.operandAt.trans ho), cw.i2cBuf.trans (cv.i2cBuf.trans hb),
        by rw [count, cw.i2cIdx]; exact (Nat.zero_add n).le, paired, storedIn_of_mem (cw.mem.trans hmv)⟩
    obtain ⟨_, stopped⟩ := run_along (fun _ _ _ c k => k.leftAlone c) (fun _ _ _ k => k.skip) (fun _ _ _ k => k.line)
      none reading
    exact stopped.stored

/-- A read stores only in its buffer, wherever its run stops. -/
theorem readLines_storedIn (a : Byte) (n : Nat) (s : State) :
    StoredIn s.operandAt n s (run none (readLines a n) s).st := by
  have lines : readLines a n =
      .csEnter :: .invoke true a n :: ((openLines ++ addressLines true) ++ bodyLines readByteLines n) :=
    trans_lines true a n readByteLines
  rw [lines]
  refine run_go_or_held rfl (storedIn_of_mem rfl) fun u cu => run_go_or_held rfl (storedIn_of_mem cu.mem) fun v cv => ?_
  have hmv : v.mem = s.mem := cv.mem.trans cu.mem
  have hov : v.operandAt = s.operandAt := cv.operandAt.trans cu.operandAt
  have hbv : v.i2cBuf = s.operandAt := cv.i2cBuf.trans cu.operandAt
  have mem := run_mem (ls := openLines ++ addressLines true) (by decide) none v
  have buf := run_i2cBuf (ls := openLines ++ addressLines true) (by decide) none v
  rcases run_append_st none (openLines ++ addressLines true) (bodyLines readByteLines n) v with h | h
  · rw [StoredIn, h]
    exact storedIn_of_mem (mem.trans hmv)
  · rw [run_mode_none (ls := openLines ++ addressLines true) (by decide) none nofun] at h
    rw [StoredIn, h]
    exact readBody_storedIn (mem.trans hmv) ((run_operandAt _ none v).trans hov) (buf.trans hbv)

/-- A command that answers a next state has performed its lines. -/
theorem exec_command_next {i : Instr} {s t : State} (hi : i.format = .cmd) (hc : i ≠ .csEnter ∧ i ≠ .csExit)
    (h : exec i s = .next t) : t = performLines (opLines s.operandAt i) (invoked i s) := by
  obtain ⟨-, rfl⟩ | ⟨rfl, -⟩ | ⟨rfl, -⟩ | ⟨b, rfl, -⟩ | ⟨rfl, -⟩ | ⟨rfl, -⟩ := exec_next h
  · rfl
  · exact absurd rfl hc.1
  · exact absurd rfl hc.2
  all_goals cases hi

/-- Settles O37: a write's lines store nothing, so its memory is the one in which its buffer has been laid; a read's
lines store in its buffer only; and inside an open section the caller's turn is empty. -/
theorem transactionsStoreOnlyInTheBuffer : Obligations.TransactionsStoreOnlyInTheBuffer := by
  refine ⟨fun s t a d h => ?_, fun s t a n h => ?_, fun s hfg hcs => ?_⟩
  · have mem : t.mem = Memory.store s.mem (bufferCells s.operandAt d) := by
      rw [exec_command_next (i := .i2cWrite a d) rfl ⟨nofun, nofun⟩ h]
      exact run_mem (mem_trans (p := writes_mem) (rw_ := false) (a := a) (n := d.length) (turn := writeByteLines)
        (by decide) (by decide) rfl (by decide)) none (layOperand d s)
    rw [mem]
    exact ⟨fun hwf => Memory.read_store_inside d s.mem s.operandAt hwf,
      fun x => Memory.read_store_outside d s.mem s.operandAt⟩
  · rw [exec_command_next (i := .i2cRead a n) rfl ⟨nofun, nofun⟩ h]
    exact readLines_storedIn a n s
  · rw [settle, callerTurn_held hfg hcs]

end Sys2Proof.Machine

/-! How many bits a transaction puts on the bus, and how long its delays last (R144, R145, R233). -/

namespace Sys2Proof.Machine

/-! ### The lines -/

section
variable {f : List Line → Nat} (empty : f [] = 0) (add : ∀ xs ys, f (xs ++ ys) = f xs + f ys)
include empty add

/-- What is counted line by line is counted once a turn. -/
theorem count_dataLines (turn : List Line) (n : Nat) : f (dataLines turn n) = n * f turn := by
  induction n with
  | zero => simpa [dataLines] using empty
  | succ n ih => rw [dataLines_succ, add, ih, Nat.succ_mul, Nat.add_comm]

/-- A transaction is its head up to the data phase, one turn a byte, and its end. -/
theorem count_transactionLines (rw : Bool) (a : Byte) (n : Nat) (turn : List Line) :
    f (transactionLines rw a n turn) =
      f (.csEnter :: .invoke rw a n :: openLines ++ addressLines rw ++ [.raiseIfNack, .loopStart]) + n * f turn +
        f (.okReturn :: leaveLines) := by
  rw [← count_dataLines empty add, ← add, ← add]
  simp [transactionLines]

end

/-- A transaction whose turns have nine bit-clocks each has nine more for its address byte. -/
theorem bitClocks_transactionLines (rw : Bool) (a : Byte) (n : Nat) {turn : List Line} (h : bitClocks turn = 9) :
    bitClocks (transactionLines rw a n turn) = 9 * (n + 1) := by
  have head :
      bitClocks (.csEnter :: .invoke rw a n :: openLines ++ addressLines rw ++ [.raiseIfNack, .loopStart]) = 9 := by
    cases rw <;> rfl
  have exit : bitClocks (.okReturn :: leaveLines) = 0 := rfl
  rw [count_transactionLines (f := bitClocks) rfl (fun _ _ => List.countP_append), head, exit, h]
  omega

@[simp] theorem duration_nil : duration [] = 0 := rfl

@[simp] theorem duration_cons (l : Line) (ls : List Line) : duration (l :: ls) = lineDuration l + duration ls := rfl

@[simp] theorem duration_append (xs ys : List Line) : duration (xs ++ ys) = duration xs + duration ys := by
  simp [duration]

/-- The delays of a transfer are those of its bit-clocks. -/
theorem duration_xferLines (n : Nat) : duration (xferLines n) = n * bitClockDuration := by
  have turn : duration strobeLines = bitClockDuration := by
    simp [strobeLines, bitClockLines, lineDuration, bitClockDuration]
  have parts : xferLines n = [.preload n] ++ dataLines strobeLines n ++ [.strobeBack, .scopeEnd .xfer] := rfl
  rw [parts, duration_append, duration_append, count_dataLines duration_nil duration_append, turn]
  simp [lineDuration]

/-- A transaction whose turns last nine bit-clocks each lasts nine more for its address byte, and the delays of the
start and of the stop (R233). -/
theorem duration_transactionLines (rw : Bool) (a : Byte) (n : Nat) {turn : List Line}
    (h : duration turn = 9 * bitClockDuration) : duration (transactionLines rw a n turn) = i2cDuration n := by
  have head : duration (.csEnter :: .invoke rw a n :: openLines ++ addressLines rw ++ [.raiseIfNack, .loopStart]) =
      (Config.pTLow + Config.pTHigh) + 9 * bitClockDuration := by
    simp only [openLines, startLines, addressLines, shiftOutLines, ackCheckLines, duration_append, duration_cons,
      duration_xferLines, lineDuration, duration_nil]
    omega
  have exit : duration (.okReturn :: leaveLines) = 2 * Config.pTLow + Config.pTHigh := by
    simp only [leaveLines, closeLines, stopLines, duration_append, duration_cons, lineDuration, duration_nil]
    omega
  rw [count_transactionLines duration_nil duration_append, head, exit, h, i2cDuration]
  ring

theorem duration_writeByteLines : duration writeByteLines = 9 * bitClockDuration := by
  simp only [writeByteLines, shiftOutLines, ackCheckLines, duration_append, duration_cons, duration_xferLines,
    lineDuration, duration_nil]
  omega

theorem duration_readByteLines : duration readByteLines = 9 * bitClockDuration := by
  simp only [readByteLines, byteInLines, masterAckTail, duration_append, duration_cons, duration_xferLines,
    lineDuration, duration_nil]
  omega

/-! ### The bus -/

@[simp] theorem busBits_append (xs ys : List BusEvent) : busBits (xs ++ ys) = busBits xs + busBits ys :=
  List.countP_append

@[simp] theorem busBits_start (tr : List BusEvent) : busBits (.start :: tr) = busBits tr := rfl

@[simp] theorem busBits_stop (tr : List BusEvent) : busBits (.stop :: tr) = busBits tr := rfl

@[simp] theorem busBits_bit (v : Bool) (tr : List BusEvent) : busBits (.bit v :: tr) = busBits tr + 1 :=
  List.countP_cons_of_pos rfl

@[simp] theorem busBits_nil : busBits [] = 0 := rfl

@[simp] theorem busBits_byteEvents (v : Byte) : busBits (byteEvents v) = 8 := rfl

/-- On the bus the address byte and its answer count as the bytes of the data phase do. -/
theorem busBits_writeEvents (a : Byte) (ack : Bool) (data : List (Byte × Bool)) :
    busBits (writeEvents a ack data) = busBits (writeDataEvents ((addressByte a false, ack) :: data)) := by
  cases ack <;> simp [writeEvents, writeDataEvents]

/-- Every byte acknowledged: nine bits each. -/
theorem busBits_writeDataEvents {data : List (Byte × Bool)} (h : data.all (·.2) = true) :
    busBits (writeDataEvents data) = 9 * data.length := by
  induction data with
  | nil => rfl
  | cons c data ih =>
    obtain ⟨b, ack⟩ := c
    obtain ⟨rfl, h⟩ : ack = true ∧ data.all (·.2) = true := by simpa using h
    simp only [writeDataEvents, busBits_append, busBits_byteEvents, busBits_bit, ih h, List.length_cons]
    omega

/-- The first refusal in slot `k`: nine bits for each byte up to that one. -/
theorem busBits_writeDataEvents_refused {data : List (Byte × Bool)} {k : Nat}
    (hk : (data.map (·.2))[k]? = some false) (before : ∀ j < k, (data.map (·.2))[j]? = some true) :
    busBits (writeDataEvents data) = 9 * (k + 1) := by
  induction data generalizing k with
  | nil => simp at hk
  | cons c data ih =>
    obtain ⟨b, ack⟩ := c
    cases k with
    | zero =>
      obtain rfl : ack = false := by simpa using hk
      simp [writeDataEvents]
    | succ k =>
      obtain rfl : ack = true := by simpa using before 0 (by omega)
      have rest := ih (k := k) (by simpa using hk) (fun j hj => by simpa using before (j + 1) (by omega))
      simp only [writeDataEvents, busBits_append, busBits_byteEvents, busBits_bit, rest]
      omega

/-- Each byte of a read and the master's bit after it. -/
theorem busBits_readDataEvents (vs : List Byte) : busBits (readDataEvents vs) = 9 * vs.length := by
  induction vs with
  | nil => rfl
  | cons v vs ih =>
    simp only [readDataEvents_cons, busBits_append, busBits_byteEvents, busBits_bit, ih, List.length_cons]
    omega

/-- Settles O40: the lines counted part by part, and the events that O38 and O39 put on the bus. -/
theorem transactionBitClocksAndDuration : Obligations.TransactionBitClocksAndDuration := by
  refine ⟨fun a n =>
    ⟨bitClocks_transactionLines false a n rfl, duration_transactionLines false a n duration_writeByteLines,
      bitClocks_transactionLines true a n rfl, duration_transactionLines true a n duration_readByteLines⟩,
    fun s a hinit hfree hbus hidle hwf => ?_⟩
  obtain ⟨acknowledged, refused⟩ := readOnTheWire s a hinit hfree hbus hidle
  refine ⟨fun ack data he => ?_, fun vs he => ?_, fun n he => ?_⟩
  · obtain ⟨t, hexec, -, trace, -⟩ := writeOnTheWire s a ack data hinit hfree hbus hidle hwf he
    have bits : busBits t.busTrace =
        busBits s.busTrace + busBits (writeDataEvents ((addressByte a false, ack) :: data)) := by
      rw [trace, busBits_append, busBits_writeEvents]
    refine ⟨t, hexec, fun h => ?_, fun k hk before => ?_⟩
    · rw [bits, busBits_writeDataEvents (by simpa [allAcked] using h), List.length_cons]
    · rw [bits, busBits_writeDataEvents_refused hk before]
  · obtain ⟨t, hexec, -, trace, -⟩ := acknowledged vs hwf he
    refine ⟨t, hexec, ?_⟩
    simp only [trace, readEvents, busBits_append, busBits_start, busBits_bit, busBits_stop, busBits_nil,
      busBits_byteEvents, List.cons_append, List.append_assoc, busBits_readDataEvents]
    omega
  · obtain ⟨t, hexec, -, trace, -⟩ := refused n he
    exact ⟨t, hexec, by simp [trace, refusedEvents]⟩

end Sys2Proof.Machine

/-! The transitions of `UART_STATE` in one step (R163, R164, R174), and that no step from the invariant faults (R170,
R197). -/

namespace Sys2Proof.Machine

/-! ### `FG`'s lines -/

/-- `FG`'s lines leave `UART_STATE` as it was, or start a transmission in `Idle`. -/
def StartsOnly (s t : State) : Prop :=
  t.uartState = s.uartState ∨ (s.uartState = .idle ∧ ∃ b, t.uartState = .pendingByte (frame2 b))

theorem StartsOnly.of_eq {s t : State} (h : t.uartState = s.uartState) : StartsOnly s t := .inl h

/-- A transmission that has started does not start again. -/
theorem StartsOnly.trans {s t u : State} (h : StartsOnly s t) (k : StartsOnly t u) : StartsOnly s u := by
  obtain k | ⟨ht, b, hb⟩ := k
  · unfold StartsOnly; rwa [k]
  · obtain h | ⟨-, c, hc⟩ := h
    · exact .inr ⟨h ▸ ht, b, hb⟩
    · simp [hc] at ht

/-- Every run through the lines at most starts a transmission, whether it performs them or passes over those of a region
that is no check of `Idle`. -/
def RunsStartOnly (ls : List Line) : Prop := ∀ m, m ≠ some .busy → ∀ s, StartsOnly s (run m ls s).st

/-- Only the test of `Idle` leaves its check. -/
theorem uartTest_of_leave_busy {l : Line} {s t : State} (h : doLine l s = .leave .busy t) : l = .uartTest := by
  obtain h | ⟨-, h⟩ | ⟨h, -⟩ := doLine_leave h
  · cases l <;> cases h
  · cases h
  · exact h

/-- A line that neither writes `UART_STATE` nor tests it. -/
theorem runsStartOnly_line {l : Line} {ls : List Line} (hw : writes_uartState l = false) (ht : l ≠ .uartTest)
    (ih : RunsStartOnly ls) : RunsStartOnly (l :: ls) := by
  intro m hm s
  cases m with
  | some k => rw [run]; exact ih _ (by split <;> simp_all) s
  | none =>
    cases hf : fgHeld s with
    | true => rw [run_held hf]; exact .of_eq rfl
    | false =>
      have hd := doLine_uartState hw s
      cases ho : doLine l s with
      | go t =>
        rw [ho] at hd
        rw [run_go hf ho]
        exact .trans (.of_eq (by simpa [LineOut.state] using hd)) (ih none nofun _)
      | leave k t =>
        rw [ho] at hd
        rw [run_leave hf ho]
        refine .trans (.of_eq (by simpa [LineOut.state] using hd)) (ih (some k) (fun hk => ?_) _)
        cases hk
        exact ht (uartTest_of_leave_busy ho)
      | pass => rw [run_pass hf ho]; exact ih none nofun s
      | again ks t =>
        obtain ⟨rfl, -⟩ := doLine_again ho
        rw [run_again hf ho, observe_self]
        exact .of_eq rfl

/-- Lines that `FG` is held at the head of, or performs, or passes over as a whole. -/
theorem runsStartOnly_block {xs ls : List Line} (hne : xs ≠ []) (skip : ∀ k, k ≠ .busy → Line.scopeEnd k ∉ xs)
    (ih : RunsStartOnly ls) (perform : ∀ s, fgHeld s = false → StartsOnly s (run none (xs ++ ls) s).st) :
    RunsStartOnly (xs ++ ls) := by
  intro m hm s
  cases m with
  | some k => rw [run_skip_over (skip k (by simpa using hm))]; exact ih _ hm s
  | none =>
    cases hf : fgHeld s with
    | true =>
      obtain ⟨l, ys, rfl⟩ := List.exists_cons_of_ne_nil hne
      rw [List.cons_append, run_held hf]
      exact .of_eq rfl
    | false => exact perform s hf

/-- A check of `Idle` writes nothing of `UART_STATE`. -/
theorem run_poll_startsOnly {ls : List Line} (ih : RunsStartOnly ls) {s : State} (hf : fgHeld s = false) :
    StartsOnly s (run none (pollLines ++ ls) s).st := by
  by_cases hu : s.uartState = .idle
  · obtain ⟨t, rt, ct⟩ := poll_idle_any hf hu
    rw [rt]
    exact .trans (.of_eq ct.uartState) (ih none nofun t)
  · obtain ⟨t, ct, rt | rt⟩ := poll_busy_any hf hu <;> rw [rt] <;> exact .of_eq ct.uartState

/-- `uart_send` starts a transmission in `Idle`, and in every other state its check fails. -/
theorem run_send_startsOnly {ls : List Line} (ih : RunsStartOnly ls) {s : State} (hf : fgHeld s = false) :
    StartsOnly s (run none (sendLines ++ ls) s).st := by
  by_cases hu : s.uartState = .idle
  · obtain ⟨t, rt, ct, -⟩ := send_starts hf hu
    rw [rt]
    exact .trans (.inr ⟨hu, _, ct.uartState⟩) (ih none nofun t)
  · rw [sendLines_append]
    obtain ⟨t, ct, rt | rt⟩ := poll_busy_any hf hu <;> rw [rt] <;> exact .of_eq ct.uartState

theorem harmless_uartState {l : Line} (h : harmless l = true) : writes_uartState l = false := by
  cases l <;> first | rfl | cases h

/-- From a position on every run at most starts a transmission. -/
theorem Position.runsStartOnly {ls : List Line} (h : Position ls) : RunsStartOnly ls := by
  induction h with
  | done => intro m _ s; rw [run_nil]; exact .of_eq rfl
  | line l ls hl rest ih =>
    exact runsStartOnly_line (harmless_uartState hl) (by rintro rfl; cases hl) ih
  | take ls rest ih => exact runsStartOnly_line rfl nofun (runsStartOnly_line rfl nofun ih)
  | drain ls rest ih =>
    exact runsStartOnly_block (xs := pollLines) nofun (by simp [pollLines, failedCheckLines]) ih
      fun s hf => run_poll_startsOnly ih hf
  | drainBack ls rest ih =>
    refine runsStartOnly_block (xs := [.spinBack, .scopeEnd .busy]) nofun (by simp) ih fun s hf => ?_
    exact (run_backEdge hf ls).symm ▸ .of_eq rfl
  | send ls rest ih =>
    exact runsStartOnly_block (xs := sendLines) nofun (by simp [sendLines, pollLines, failedCheckLines, startWrites]) ih
      fun s hf => run_send_startsOnly ih hf
  | sendBack ls rest ih =>
    have block := runsStartOnly_block (xs := .spinBack :: .scopeEnd .busy :: startWrites ++ [.csExit]) nofun
      (by simp [startWrites]) ih fun s hf => by
        simpa using (run_backEdge hf (startWrites ++ .csExit :: ls)).symm ▸ StartsOnly.of_eq rfl
    simpa using block

theorem performLines_startsOnly {ls : List Line} (h : Position ls) (s : State) : StartsOnly s (performLines ls s) :=
  h.runsStartOnly none nofun s

/-- The boot lines leave `UART_STATE` at `Idle`. -/
theorem resume_startsOnly {s : State} (h : Inv s) : StartsOnly s (resume s) := by
  rw [resume_eq]
  obtain ⟨hfg, -, -, hovie, hclk, huart⟩ | hp := h.position
  · obtain ⟨t, rt, -, -, -, hu⟩ := run_bootLines (s := { s with fg := [] }) ⟨h.noHalfHandler, hovie, hclk, huart⟩
    rw [hfg, performLines_done rt]
    exact .of_eq (hu.trans huart.symm)
  · exact performLines_startsOnly hp { s with fg := [] }

/-! ### Steps -/

/-- The transitions of `UART_STATE` (R163, R164, R174). -/
def UartTransition (s t : State) : Prop :=
  t.uartState = s.uartState ∨
  (s.uartState = .idle ∧ ∃ b, t.uartState = .pendingByte (frame2 b)) ∨
  (irqPending s = true ∧ (∃ f, s.uartState = .pendingByte f) ∧ t.uartState = .awaitingStop) ∨
  (irqPending s = true ∧ s.uartState = .awaitingStop ∧ t.uartState = .idle)

theorem StartsOnly.transition {s t : State} (h : StartsOnly s t) : UartTransition s t := h.imp_right .inl

/-- The interrupt advances `UART_STATE` one place where it is taken (R168, R169). -/
theorem takeInterrupt_transition {s t : State} (h : takeInterrupt s = .next t) : UartTransition s t := by
  obtain ⟨-, rfl⟩ | ⟨hp, f, hu, ht⟩ | ⟨hp, hu, ht⟩ := takeInterrupt_next h
  · exact .inl rfl
  · exact .inr (.inr (.inl ⟨hp, ⟨f, hu⟩, ht ▸ (handlerPending_control f s).uartState⟩))
  · exact .inr (.inr (.inr ⟨hp, hu, ht ▸ (handlerAwaiting_control s).uartState⟩))

/-- Every operation but the interrupt at most starts a transmission. -/
theorem exec_transition {i : Instr} {s t : State} (h : exec i s = .next t) : UartTransition s t := by
  obtain ⟨-, rfl⟩ | ⟨rfl, rfl⟩ | ⟨rfl, rfl⟩ | ⟨b, rfl, rfl⟩ | ⟨rfl, rfl⟩ | ⟨rfl, h⟩ := exec_next h
  · exact (StartsOnly.trans (.of_eq (sameControl_invoked i s).uartState)
      (performLines_startsOnly (position_opLines _ i) _)).transition
  · exact .inl rfl
  · exact .inl (by simp)
  · exact .inl rfl
  · exact .inl (by simp)
  · exact takeInterrupt_transition h

/-- Settles O57: each kind of move makes one of the transitions, and what follows it none. -/
theorem uartStateTransitions : Obligations.UartStateTransitions := by
  intro s t h hs
  obtain ⟨u, rfl, hmove⟩ := step_next hs
  have moved : UartTransition s u := by
    obtain ⟨r, rest, i, -, -, -, -, -, hx⟩ | ⟨-, hx⟩ | ⟨-, -, rfl⟩ | rfl := hmove
    · exact exec_transition (s := take r rest s) hx
    · exact takeInterrupt_transition hx
    · exact (resume_startsOnly h).transition
    · exact .inl rfl
  rwa [UartTransition, ← (sameControl_settled u).uartState] at moved

/-! ### Faults -/

/-- The one fault is the interrupt taken in `Idle` (R170). -/
theorem takeInterrupt_fault {s : State} {f : Fault} (h : takeInterrupt s = .fault f) :
    s.ovie = true ∧ s.uartState = .idle := by
  unfold takeInterrupt at h
  split at h
  · next hp =>
    refine ⟨(irq_facts hp).2.2.1, ?_⟩
    cases hu : s.uartState with
    | idle => rfl
    | pendingByte g => rw [hu] at h; cases h
    | awaitingStop => rw [hu] at h; cases h
  · cases h

theorem command_ne_fault (ls : List Line) (s : State) (f : Fault) : command ls s ≠ .fault f := by
  unfold command
  split <;> exact nofun

/-- No other operation faults. -/
theorem exec_fault {i : Instr} {s : State} {f : Fault} (h : exec i s = .fault f) : takeInterrupt s = .fault f := by
  cases i with
  | usiOvfIrq => exact h
  | i2cWrite | i2cRead | uartSend | uartSendStr | uartSendLine => exact absurd h (command_ne_fault _ _ f)
  | csExit => simp only [exec, execCsExit] at h; split at h <;> cases h
  | i2cXfer n => simp only [exec, execI2cXfer] at h; split at h <;> cases h
  | _ => cases h

theorem settle_fault {o : Host.Outcome State Fault Refusal} {f : Fault} (h : settle o = .fault f) : o = .fault f := by
  cases o with
  | next u => cases h
  | fault g => exact h
  | refused r => cases h

/-- A step that faults has taken the interrupt, as its own move or as a waiting request. -/
theorem step_fault {s : State} {f : Fault} (h : step s = .fault f) :
    takeInterrupt s = .fault f ∨ ∃ r rest, takeInterrupt (take r rest s) = .fault f := by
  unfold step at h
  split at h
  · next r rest hm =>
    split at h
    · exact .inr ⟨r, rest, exec_fault (settle_fault h)⟩
    · cases h
  · exact .inl (settle_fault h)
  · cases h
  · cases h

/-- Settles O56: the overflow interrupt is enabled only while `UART_STATE` is not `Idle`. -/
theorem invariantExcludesFaults : Obligations.InvariantExcludesFaults := by
  intro s f h hs
  have due : s.ovie = true ∧ s.uartState = .idle := by
    obtain ht | ⟨r, rest, ht⟩ := step_fault hs
    · exact takeInterrupt_fault ht
    · exact takeInterrupt_fault (s := take r rest s) ht
  exact h.enabledOnlyBusy due.1 due.2

end Sys2Proof.Machine

/-! The UART's foreground operations (R166, R167, R172, R173): the check of `Idle`, `uart_send`, the drain wait, strings,
with nobody else moving and with anybody moving. -/

namespace Sys2Proof.Machine

/-! ### Operations and the lines that `FG` stands at -/

section
variable {xs ls rest : List Line} {s t : State} {m : Option Scope}

/-- `FG` goes on to where the run of its position yields. -/
theorem resume_yield (hfg : s.fg = xs) (h : run none xs { s with fg := [] } = ⟨m, t, rest⟩) :
    resume s = { t with fg := rest ++ t.fg } := by rw [resume_eq, hfg, performLines_yield h]

/-- `FG` performs the first lines of its position to their end and goes on with the others. -/
theorem resume_through (hfg : s.fg = xs ++ ls) (r : ∀ ks, run none (xs ++ ks) { s with fg := [] } = run none ks t) :
    resume s = performLines ls t := by rw [resume_eq, hfg, performLines_congr (r ls)]

@[simp] theorem performLines_nil (s : State) : performLines [] s = s := rfl

/-- An operation waits where its run yields. -/
theorem perform_yield (h : run none xs s = ⟨m, t, rest⟩) : perform xs s = .next { t with fg := rest ++ t.fg } :=
  congrArg _ (performLines_yield h)

end

/-! ### The check of `Idle` -/

/-- What the other agents leave alone is as a check of `Idle` leaves it. -/
theorem LeftAlone.checkedFrom {s t : State} (h : LeftAlone s t) : CheckedFrom s t :=
  ⟨⟨h.din, h.sclOut, h.sdaOut, h.tcmp, h.tmode, h.gie, h.periphInit, h.csSaved, h.i2cTxn, h.i2cRw, h.i2cAddr, h.i2cBuf,
    h.i2cLen, h.i2cIdx, h.i2cAckbit, h.i2cResult, h.inIsr, h.mem, h.operandAt, h.callerStores, h.ret, h.requests,
    h.overlap⟩, h.uartState, h.uartByte, h.ovie, h.txdSrc, h.clksrc⟩

section
variable {s : State} (hf : fgHeld s = false) (ls : List Line)
include hf

/-- An operation that begins with a check, invoked in another state than `Idle`, waits at the check's head. -/
theorem perform_poll_busy (he : s.env = []) (hu : s.uartState ≠ .idle) :
    perform (pollLines ++ ls) s = .next { s with fg := (pollLines ++ ls) ++ s.fg } :=
  perform_yield (poll_busy hf he hu ls)

/-- A check under way fails: nothing changes. -/
theorem resume_poll_busy (he : s.env = []) (hu : s.uartState ≠ .idle) (hfg : s.fg = pollLines ++ ls) :
    resume s = s :=
  resume_of_stays (hfg ▸ poll_busy (s := { s with fg := [] }) hf he hu ls)

/-- From the back edge `FG` comes to the check's head. -/
theorem resume_backEdge (hfg : s.fg = .spinBack :: .scopeEnd .busy :: ls) :
    resume s = { s with fg := pollLines ++ ls } := by
  rw [resume_yield hfg (run_backEdge (s := { s with fg := [] }) hf ls), List.append_nil]

/-- Whatever the other agents do, an operation that begins with a check waits at its head or at its back edge. -/
theorem perform_poll_busy_any (hu : s.uartState ≠ .idle) : ∃ t, perform (pollLines ++ ls) s = .next t ∧
    CheckedFrom s t ∧ (t.fg = (pollLines ++ ls) ++ s.fg ∨ t.fg = .spinBack :: .scopeEnd .busy :: ls ++ s.fg) := by
  obtain ⟨t, ct, rt | rt⟩ := poll_busy_any hf hu
  · exact ⟨_, perform_yield (rt ls), ct.checkedFrom, .inl (by rw [ct.fg])⟩
  · exact ⟨_, perform_yield (rt ls), ct.checkedFrom, .inr (by rw [ct.fg])⟩

/-- Whatever the other agents do, a check under way that fails leaves `FG` at its head or at its back edge. -/
theorem resume_poll_busy_any (hu : s.uartState ≠ .idle) (hfg : s.fg = pollLines ++ ls) : CheckedFrom s (resume s) ∧
    ((resume s).fg = s.fg ∨ (resume s).fg = .spinBack :: .scopeEnd .busy :: ls) := by
  obtain ⟨t, ct, rt | rt⟩ := poll_busy_any (s := { s with fg := [] }) hf hu
  · rw [resume_yield hfg (rt ls)]
    exact ⟨ct.checkedFrom, .inl (by rw [ct.fg, List.append_nil, hfg])⟩
  · rw [resume_yield hfg (rt ls)]
    exact ⟨ct.checkedFrom, .inr (by rw [ct.fg, List.append_nil])⟩

end

/-! ### `uart_send` (R166) -/

theorem exec_uartSend {s : State} (h : s.periphInit = true) (b : Byte) :
    exec (.uartSend b) s = perform sendLines (sampleByte (.value b) s) :=
  command_booted (s := sampleByte (.value b) s) h sendLines

/-- Settles O42: the run of its lines in `Idle`, its operand sampled. -/
theorem uartSendStartsFromIdle : Obligations.UartSendStartsFromIdle := by
  intro s b hp hf he hu hs
  rw [exec_uartSend hp]
  exact perform_eq_next (send_idle (s := sampleByte (.value b) s) hf he hu hs)

/-- The lines of `uart_send` keep its frame, but for the section in which they stand. -/
theorem KeptByUart.sendLine {s t : State} (k : KeptByUart s { t with gie := s.gie, csSaved := s.csSaved }) {l : Line}
    (h : l ∈ sendLines) :
    KeptByUart s { (doLine l t).state t with gie := s.gie, csSaved := s.csSaved } := by
  cases l with
  | csEnter | csExit => simpa [doLine, LineOut.state, KeptByUart] using k
  | uartTest => simp only [doLine]; split <;> exact k
  | spinBack | scopeEnd | uartLoad | uartArm | uartPend | uartEnable | uartPin | uartClock => exact k
  | _ => simp [sendLines, pollLines, failedCheckLines, startWrites] at h

/-- A transmission starts whatever the other agents do, and nothing else is written. -/
theorem send_idle_any {s : State} (hf : fgHeld s = false) (hu : s.uartState = .idle) :
    ∃ t, (∀ ls, run none (sendLines ++ ls) s = run none ls t) ∧ t.fg = s.fg ∧ KeptByUart s t ∧
      t.uartState = .pendingByte (frame2 s.uartByte) ∧ t.uartByte = s.uartByte ∧ t.ovie = true ∧
      t.txdSrc = .fromSr ∧ t.clksrc = .timer := by
  obtain ⟨t, rt, gie, saved, state, ovie, txd, clk⟩ := send_any hf hu
  have done := done_of_forall rt
  have kept := run_preserves (fun t => KeptByUart s { t with gie := s.gie, csSaved := s.csSaved })
    (fun _ _ k => by simpa [KeptByUart] using k) (fun _ k => by simpa [KeptByUart] using k) sendLines
    (fun l hl _ k => KeptByUart.sendLine k hl) none (s := s) (by simp [KeptByUart])
  have byte := run_uartByte (ls := sendLines) (by decide) none s
  rw [done] at kept byte
  rw [← gie, ← saved] at kept
  exact ⟨t, rt, fg_of_run done, kept, state, byte, ovie, txd, clk⟩

/-- Settles O43: the same run, whatever the other agents do. -/
theorem uartSendStartsWhateverOthersDo : Obligations.UartSendStartsWhateverOthersDo := by
  intro s b hp hf hu
  rw [exec_uartSend hp]
  obtain ⟨t, rt, started⟩ := send_idle_any (s := sampleByte (.value b) s) hf hu
  exact ⟨t, perform_eq_next rt, started⟩

/-- Settles O44: the check that fails and the one that finds `Idle`, fresh and under way. -/
theorem uartSendWaitsWhileBusy : Obligations.UartSendWaitsWhileBusy := by
  intro s hf
  refine ⟨fun he hu => ⟨fun b hp => ?_, fun ls hfg => ?_⟩, fun ls hfg => ?_, fun he hu hs => ?_,
    fun hu => ⟨fun b hp => ?_, fun ls hfg => ?_⟩, fun hu ls hfg => ?_⟩
  · rw [exec_uartSend hp]
    exact perform_poll_busy (s := sampleByte (.value b) s) hf _ he hu
  · exact resume_poll_busy hf _ he hu (hfg.trans (sendLines_append ls))
  · rw [sendLines_append]
    exact resume_backEdge hf _ hfg
  · have found : ∀ ls, s.fg = sendLines ++ ls → resume s = performLines ls { started s.uartByte s with fg := [] } :=
      fun ls hfg => resume_through hfg (send_idle (s := { s with fg := [] }) hf he hu hs)
    exact ⟨fun hfg => found [] (by simpa using hfg), found⟩
  · rw [exec_uartSend hp]
    exact perform_poll_busy_any (s := sampleByte (.value b) s) hf _ hu
  · exact resume_poll_busy_any hf _ hu (hfg.trans (sendLines_append ls))
  · obtain ⟨t, rt, started⟩ := send_idle_any (s := { s with fg := [] }) hf hu
    exact ⟨t, resume_through hfg rt, started⟩

/-! ### The drain wait (R167) -/

/-- Settles O45: the check that fails and the one that finds `Idle`, fresh and under way. -/
theorem drainWaitReturnsInIdleOnly : Obligations.DrainWaitReturnsInIdleOnly := by
  intro s hf
  refine ⟨fun he => ⟨fun hu => ?_, fun hu => ⟨perform_poll_busy hf _ he hu, fun ls hfg => ?_⟩⟩, fun ls hfg => ?_,
    fun hu => ⟨?_, fun ls hfg => ?_⟩, fun hu => ⟨perform_poll_busy_any hf _ hu, fun ls hfg => ?_⟩⟩
  · have found : ∀ ls, s.fg = drainLines ++ ls → resume s = performLines ls { s with fg := [] } :=
      fun ls hfg => resume_through hfg (drain_idle (s := { s with fg := [] }) hf he hu)
    exact ⟨perform_eq_next (drain_idle hf he hu), fun hfg => found [] (by simpa using hfg), found⟩
  · exact resume_poll_busy hf _ he hu (hfg.trans (drainLines_append ls))
  · rw [drainLines_append]
    exact resume_backEdge hf _ hfg
  · obtain ⟨t, rt, ct⟩ := drain_idle_any hf hu
    exact ⟨t, perform_eq_next rt, ct.checkedFrom, ct.fg⟩
  · obtain ⟨t, rt, ct⟩ := drain_idle_any (s := { s with fg := [] }) hf hu
    exact ⟨t, resume_through hfg rt, ct.checkedFrom, ct.fg⟩
  · exact resume_poll_busy_any hf _ hu (hfg.trans (drainLines_append ls))

/-! ### Strings (R172, R173) -/

/-- The bytes of a buffer are its first and those after it. -/
theorem bufferBytes_succ (a n : Nat) : bufferBytes a (n + 1) = .buffer a :: bufferBytes (a + 1) n := by
  simp [bufferBytes, List.range_succ_eq_map, Nat.add_assoc, Nat.add_comm 1]

/-- The first byte of a buffer that has been laid in a canonical memory. -/
theorem sourceByte_layOperand {s : State} (hm : Memory.wf s.mem = true) (b : Byte) (bs : List Byte) :
    sourceByte (layOperand (b :: bs) s) (.buffer s.operandAt) = b :=
  Memory.read_store_inside (b :: bs) s.mem s.operandAt hm 0 (Nat.succ_pos _)

theorem lineTerminator_cons {b : Byte} {bs : List Byte} (h : Config.pLineTerminator = b :: bs) :
    lineTerminator = .value b :: bs.map .value := by rw [lineTerminator, h, List.map_cons]

section
variable {s : State} (h : s.periphInit = true)
include h

theorem exec_uartSendStr_nil : exec (.uartSendStr []) s = perform drainLines s := command_booted h _

theorem exec_uartSendStr_cons (b : Byte) (bs : List Byte) : exec (.uartSendStr (b :: bs)) s =
    perform (sendStrLines (.buffer s.operandAt :: bufferBytes (s.operandAt + 1) bs.length))
      (layOperand (b :: bs) s) := by
  rw [← bufferBytes_succ]
  exact command_booted (s := layOperand (b :: bs) s) h _

theorem exec_uartSendLine_nil : exec (.uartSendLine []) s = perform (sendStrLines lineTerminator) s :=
  command_booted h _

theorem exec_uartSendLine_cons (b : Byte) (bs : List Byte) : exec (.uartSendLine (b :: bs)) s =
    perform (sendStrLines (.buffer s.operandAt :: (bufferBytes (s.operandAt + 1) bs.length ++ lineTerminator)))
      (layOperand (b :: bs) s) := by
  rw [← List.cons_append, ← bufferBytes_succ]
  exact command_booted (s := layOperand (b :: bs) s) h _

theorem exec_uartSendLine_nil_nil (ht : Config.pLineTerminator = []) :
    exec (.uartSendLine []) s = perform drainLines s := by
  rw [exec_uartSendLine_nil h, lineTerminator, ht]
  rfl

end

section
variable {s : State} (hf : fgHeld s = false) (he : s.env = [])
include hf he

/-- A `uart_send` of a string in `Idle` starts its byte, and `FG` waits to send the rest. -/
theorem run_sendThenRest_idle (hu : s.uartState = .idle) (hs : s.sdaOut ≠ .fromSr) (rest : List ByteSource) :
    run none (sendLines ++ nextBytes rest) s = ⟨none, started s.uartByte s, sendStrLines rest⟩ := by
  rw [send_idle hf he hu hs]
  simpa using nextBytes_waits (started_free s.uartByte hf) he (by simp [started]) rest []

/-- A string in `Idle` starts its first byte, and `FG` waits to send the rest. -/
theorem run_sendStrLines_idle (hu : s.uartState = .idle) (hs : s.sdaOut ≠ .fromSr) (src : ByteSource)
    (rest : List ByteSource) :
    run none (sendStrLines (src :: rest)) s = ⟨none, started (sourceByte s src) s, sendStrLines rest⟩ := by
  rw [sendStrLines, List.cons_append, quiet_step (t := sampleByte src s) hf rfl he rfl rfl]
  exact run_sendThenRest_idle (s := sampleByte src s) hf he hu hs rest

/-- A string in another state samples its first byte, and `FG` waits at the check. -/
theorem run_sendStrLines_busy (hu : s.uartState ≠ .idle) (src : ByteSource) (rest : List ByteSource) :
    run none (sendStrLines (src :: rest)) s = ⟨none, sampleByte src s, sendLines ++ nextBytes rest⟩ := by
  rw [sendStrLines, List.cons_append, quiet_step (t := sampleByte src s) hf rfl he rfl rfl, sendLines_append]
  exact poll_busy (s := sampleByte src s) hf he hu _

end

/-- No line of a string but the turn of a byte samples one. -/
theorem writes_uartByte_nextBytes (rest : List ByteSource) : ∀ l ∈ nextBytes rest, writes_uartByte l = false := by
  have send : ∀ l ∈ sendLines, writes_uartByte l = false := by decide
  induction rest with
  | nil => decide
  | cons src rest ih => exact List.forall_mem_cons.mpr ⟨rfl, List.forall_mem_append.mpr ⟨send, ih⟩⟩

/-- Whatever the other agents do, the byte at its turn is sampled, and no later line of the string samples another. -/
theorem run_sendStrLines_uartByte {s : State} (hf : fgHeld s = false) (src : ByteSource) (rest : List ByteSource) :
    (run none (sendStrLines (src :: rest)) s).st.uartByte = sourceByte s src := by
  have later : ∀ l ∈ sendLines ++ nextBytes rest, writes_uartByte l = false :=
    List.forall_mem_append.mpr ⟨by decide, writes_uartByte_nextBytes rest⟩
  rw [sendStrLines, List.cons_append, run_go hf rfl, run_uartByte later]
  simp

section
variable {s : State} (hf : fgHeld s = false) (he : s.env = []) (b : Byte) (bs : List Byte) (rest : List ByteSource)
include hf he

/-- A buffer's string invoked in `Idle`: its first byte is started. -/
theorem perform_laid_idle (hm : Memory.wf s.mem = true) (hu : s.uartState = .idle) (hs : s.sdaOut ≠ .fromSr) :
    perform (sendStrLines (.buffer s.operandAt :: rest)) (layOperand (b :: bs) s) =
      .next { started b (layOperand (b :: bs) s) with fg := sendStrLines rest ++ s.fg } := by
  have r := run_sendStrLines_idle (s := layOperand (b :: bs) s) hf he hu hs (.buffer s.operandAt) rest
  rw [sourceByte_layOperand hm] at r
  exact perform_yield r

/-- A buffer's string invoked in another state: its first byte is sampled. -/
theorem perform_laid_busy (hm : Memory.wf s.mem = true) (hu : s.uartState ≠ .idle) :
    perform (sendStrLines (.buffer s.operandAt :: rest)) (layOperand (b :: bs) s) =
      .next { layOperand (b :: bs) s with uartByte := b, fg := sendLines ++ nextBytes rest ++ s.fg } := by
  have r := run_sendStrLines_busy (s := layOperand (b :: bs) s) hf he hu (.buffer s.operandAt) rest
  rw [sampleByte, sourceByte_layOperand hm] at r
  exact perform_yield r

end

/-- Settles O46: the runs of a string's lines, invoked or under way, in `Idle` and in every other state. -/
theorem stringSendsItsFirstByteThenTheRest : Obligations.StringSendsItsFirstByteThenTheRest := by
  intro s hf
  refine ⟨fun he hu hs => ⟨fun hp hm => ⟨?_, fun b bs => ?_, fun b bs => ?_, fun ht => ?_, fun b bs ht => ?_⟩,
      fun src rest hfg => ?_, fun rest hfg => ?_⟩,
    fun he hu => ⟨fun hp hm => ⟨?_, fun b bs => ?_, fun b bs => ?_, fun ht => ?_, fun b bs ht => ?_⟩,
      fun src rest hfg => ?_⟩,
    fun src rest hfg => ?_, fun src rest hfg => ?_, fun a => rfl⟩
  · rw [exec_uartSendStr_nil hp]
    exact perform_eq_next (drain_idle hf he hu)
  · rw [exec_uartSendStr_cons hp]
    exact perform_laid_idle hf he b bs _ hm hu hs
  · rw [exec_uartSendLine_cons hp]
    exact perform_laid_idle hf he b bs _ hm hu hs
  · rw [exec_uartSendLine_nil_nil hp ht]
    exact perform_eq_next (drain_idle hf he hu)
  · rw [exec_uartSendLine_nil hp, lineTerminator_cons ht]
    exact perform_yield (run_sendStrLines_idle hf he hu hs (.value b) _)
  · rw [resume_yield hfg (run_sendStrLines_idle (s := { s with fg := [] }) hf he hu hs src rest)]
    simp [started, sourceByte]
  · rw [resume_yield hfg (run_sendThenRest_idle (s := { s with fg := [] }) hf he hu hs rest)]
    simp [started]
  · rw [exec_uartSendStr_nil hp]
    exact perform_poll_busy hf _ he hu
  · rw [exec_uartSendStr_cons hp]
    exact perform_laid_busy hf he b bs _ hm hu
  · rw [exec_uartSendLine_cons hp]
    exact perform_laid_busy hf he b bs _ hm hu
  · rw [exec_uartSendLine_nil_nil hp ht]
    exact perform_poll_busy hf _ he hu
  · rw [exec_uartSendLine_nil hp, lineTerminator_cons ht]
    exact perform_yield (run_sendStrLines_busy hf he hu (.value b) _)
  · rw [resume_yield hfg (run_sendStrLines_busy (s := { s with fg := [] }) hf he hu src rest)]
    simp [sampleByte, sourceByte]
  · rw [resume_yield hfg (run_again (s := { s with fg := [] }) hf rfl), observe_self]
    simp [sendStrLines]
  · rw [resume_eq, hfg]
    exact run_sendStrLines_uartByte (s := { s with fg := [] }) hf src rest

end Sys2Proof.Machine

/-! The UART's frames (R165), the compare event (R161), the handler with nobody else moving (R168 to R170), and one
character on the wire (R171). -/

namespace Sys2Proof.Machine

/-! ### Frames -/

/-- Frame 1 begins with the idle bit and the start bit. -/
theorem frame1_high (b : Byte) : (frame1 b).extractLsb 7 6 = 0b10 := by
  apply BitVec.eq_of_getLsbD_eq
  intro i hi
  have bit := rev8_getLsbD (logicalFrame1 b) ⟨6 + i, by omega⟩
  rw [BitVec.getLsbD_extractLsb, frame1, bit, logicalFrame1_getLsbD]
  interval_cases i <;> rfl

/-- Frame 2 ends with the stop bit and five idle bits. -/
theorem frame2_low (b : Byte) : (frame2 b).extractLsb 5 0 = 0b111111 := by
  apply BitVec.eq_of_getLsbD_eq
  intro i hi
  have bit := rev8_getLsbD (logicalFrame2 b) ⟨0 + i, by omega⟩
  rw [BitVec.getLsbD_extractLsb, frame2, bit, logicalFrame2_getLsbD b _ (by omega), if_neg (by simp only; omega)]
  interval_cases i <;> rfl

/-- Settles O41: the fixed bits of every byte's frames, and the bytes at the corners. -/
theorem uartFramesAreComputed : Obligations.UartFramesAreComputed :=
  ⟨fun _ => rfl, fun _ _ => rfl, fun b => ⟨frame1_high b, frame2_low b⟩, by decide, by decide, by decide⟩

/-! ### The compare event -/

/-- Under the timer clock a compare event shifts a fill bit in and counts. -/
theorem compareEvent_timer {s : State} (h : s.clksrc = .timer) :
    (∃ fill, (compareEvent s).sr = shiftIn s.sr fill) ∧ (compareEvent s).cnt = s.cnt + 1 ∧
      (compareEvent s).ovf = (s.ovf || s.cnt == 15) := by
  have clock : (closeSlot s).clksrc = .timer := by simpa using h
  rw [compareEvent, timerShift, if_pos clock, ← count_overflow]
  exact ⟨⟨Config.uartFill (closeSlot s).draws, by simp⟩, by simp, by simp⟩

/-- Settles O48: what a compare event does under each clock, and what it leaves. -/
theorem compareEventShiftsUnderTimerClock : Obligations.CompareEventShiftsUnderTimerClock := by
  intro s
  refine ⟨_, exec_timerCompare s, fun h => ?_, fun h => ?_, ?_⟩
  · simpa using compareEvent_timer h
  · simpa using compareEvent_off h
  · simp [KeptByHandler]

/-! ### The handler -/

/-- A step of the handler after others, with nobody else moving. -/
theorem isrStep_after {f : State → State} {s t : State} (h : s = t) (he : (f t).env = [])
    (hc : sclLine (f t) = sclLine t) (hd : sdaLine (f t) = sdaLine t) : isrStep f s = f t := by
  rw [h, isrStep_quiet he hc fun _ => hd]

section
variable {s : State} (he : s.env = [])
include he

/-- The handler run in `PendingByte` with nobody else moving. -/
theorem handlerPending_quiet (hs : s.sdaOut ≠ .fromSr) (f2 : Byte) : handlerPending f2 s =
    { s with sr := f2, cnt := 8, ovf := false, uartState := .awaitingStop, inIsr := false, gie := true } := by
  have entered := isrStep_after (s := s) (f := interruptEntry) rfl he rfl rfl
  have loaded := isrStep_after (f := isrLoad f2) entered he rfl (by simp [sdaLine, beq_eq_false_iff_ne.mpr hs])
  have armed := isrStep_after (f := preloadCounter Config.pUartPreload) loaded he rfl rfl
  have awaits := isrStep_after (f := isrAwait) armed he rfl rfl
  have returned := isrStep_after (f := interruptReturn) awaits he rfl rfl
  rw [handlerPending, returned]
  rfl

/-- The handler run in `AwaitingStop` with nobody else moving. -/
theorem handlerAwaiting_quiet : handlerAwaiting s =
    { s with
      clksrc := .off, ovie := false, txdSrc := .idleHigh, ovf := false, uartState := .idle, inIsr := false,
      gie := true } := by
  have entered := isrStep_after (s := s) (f := interruptEntry) rfl he rfl rfl
  have stopped := isrStep_after (f := isrStopClock) entered he rfl rfl
  have masked := isrStep_after (f := isrMask) stopped he rfl rfl
  have released := isrStep_after (f := isrIdleTxd) masked he rfl rfl
  have cleared := isrStep_after (f := isrClearFlag) released he rfl rfl
  have idle := isrStep_after (f := isrIdle) cleared he rfl rfl
  have returned := isrStep_after (f := interruptReturn) idle he rfl rfl
  rw [handlerAwaiting, returned]
  simp only [interruptEntry, isrStopClock, isrMask, isrIdleTxd, isrClearFlag, isrIdle, interruptReturn]

end

section
variable {s : State} (h : irqPending s = true)
include h

theorem exec_usiOvfIrq_pending {f2 : Byte} (hu : s.uartState = .pendingByte f2) :
    exec .usiOvfIrq s = .next (handlerPending f2 s) := by
  simp [exec, execUsiOvfIrq, takeInterrupt, h, hu]

theorem exec_usiOvfIrq_awaiting (hu : s.uartState = .awaitingStop) :
    exec .usiOvfIrq s = .next (handlerAwaiting s) := by
  simp [exec, execUsiOvfIrq, takeInterrupt, h, hu]

theorem exec_usiOvfIrq_idle (hu : s.uartState = .idle) : exec .usiOvfIrq s = .fault .handlerInIdle := by
  simp [exec, execUsiOvfIrq, takeInterrupt, h, hu]

end

theorem exec_usiOvfIrq_undue {s : State} (h : irqPending s = false) : exec .usiOvfIrq s = .next s := by
  simp [exec, execUsiOvfIrq, takeInterrupt, h]

theorem irqPending_iff (s : State) :
    irqPending s = true ↔ s.ovf = true ∧ s.ovie = true ∧ s.gie = true ∧ s.inIsr = false := by
  simp [irqPending, and_assoc]

/-- Settles O49: the handler run leaves `IN_ISR` and `GIE` as the interrupt found them. -/
theorem handlerLoadsSecondFrame : Obligations.HandlerLoadsSecondFrame := by
  intro s f2 h hu he hs
  obtain ⟨hi, hg, -⟩ := irq_facts h
  refine ⟨_, exec_usiOvfIrq_pending h hu, ?_, fun ht => ?_⟩
  · simp [handlerPending_quiet he hs, hi, hg]
  · simp [handlerPending_quiet he hs, txdLine, ht]

/-- Settles O50: the handler run leaves `IN_ISR` and `GIE` as the interrupt found them. -/
theorem handlerEndsTheCharacter : Obligations.HandlerEndsTheCharacter := by
  intro s h hu he
  obtain ⟨hi, hg, -⟩ := irq_facts h
  refine ⟨_, exec_usiOvfIrq_awaiting h hu, ?_, ?_⟩
  · simp [handlerAwaiting_quiet he, hi, hg]
  · simp [handlerAwaiting_quiet he, txdLine]

/-- Settles O51: the two outcomes in which no handler runs. -/
theorem interruptInIdleFaultsAndUndueChangesNothing : Obligations.InterruptInIdleFaultsAndUndueChangesNothing := by
  intro s
  refine ⟨exec_usiOvfIrq_idle, fun h => exec_usiOvfIrq_undue ?_⟩
  rwa [← irqPending_iff, Bool.not_eq_true] at h

/-! ### One character -/

/-- While the counter has not come to its overflow no handler run is awaited (R175). -/
theorem latencyOk_compareEvents {k : Nat} {s : State} (hi : s.inIsr = false) (hc : s.clksrc = .timer)
    (ho : s.ovf = false) (hk : s.cnt.toNat + k < 16) : LatencyOk (compareEvents k s) := by
  induction k generalizing s with
  | zero => exact ⟨hi, fun _ => ho⟩
  | succ k ih =>
    obtain ⟨-, cnt, ovf⟩ := compareEvent_timer hc
    have below : s.cnt ≠ 15 := fun h => by simp [h] at hk; omega
    refine ih (by simpa using hi) (by simpa using hc) ?_ ?_
    · rw [observe_ovf, ovf, ho, beq_eq_false_iff_ne.mpr below]; rfl
    · rw [observe_cnt, cnt]; bv_omega

/-- The two frames of a byte, bit 7 first, are the idle filler, the framed character and five stop-level slots (R171). -/
theorem bitsMsbFirst_frames (b : Byte) : bitsMsbFirst (frame1 b) ++ bitsMsbFirst (frame2 b) =
    true :: framedCharacter b ++ List.replicate 5 true := by
  rw [bitsMsbFirst_frame1, bitsMsbFirst_frame2]
  rfl

/-- A transmission clocked by the timer, its register just loaded, with nobody else moving. -/
structure Transmitting (s : State) : Prop where
  clock : s.clksrc = .timer
  armed : s.cnt = 8
  flag : s.ovf = false
  pin : s.txdSrc = .fromSr
  enabled : s.ovie = true
  on : s.gie = true
  noHandler : s.inIsr = false
  slot : s.slotOpen = true
  apart : s.overlap = false
  quiet : s.env = []
  sda : s.sdaOut ≠ .fromSr

theorem Transmitting.latencyOk {s : State} (h : Transmitting s) : ∀ k < 8, LatencyOk (compareEvents k s) :=
  fun k hk => latencyOk_compareEvents h.noHandler h.clock h.flag (by rw [h.armed]; simp; omega)

/-- Eight compare events send the register, and the handler is due; with the counter armed again the next frame can
follow. -/
theorem Transmitting.frame {s : State} (h : Transmitting s) : ∃ t, compareEvents 8 s = t ∧ irqPending t = true ∧
    t.wireTrace = s.wireTrace ++ bitsMsbFirst s.sr ∧ t.uartState = s.uartState ∧ t.env = [] ∧ t.sdaOut ≠ .fromSr ∧
    Transmitting { t with cnt := 8, ovf := false } := by
  obtain ⟨wire, ovf, clk, slot, txd, apart, gie, ovie, isr, state, env, sda⟩ :=
    cmp_8 h.clock h.slot h.pin h.apart h.armed
  generalize compareEvents 8 s = t at *
  have ovie : t.ovie = true := ovie.trans h.enabled
  have gie : t.gie = true := gie.trans h.on
  have isr : t.inIsr = false := isr.trans h.noHandler
  have env : t.env = [] := env.trans h.quiet
  have sda : t.sdaOut ≠ .fromSr := by rw [sda]; exact h.sda
  exact ⟨t, rfl, (irqPending_iff t).mpr ⟨ovf, ovie, gie, isr⟩, wire, state, env, sda,
    ⟨clk, rfl, rfl, txd, ovie, gie, isr, slot, apart, env, sda⟩⟩

/-- Settles O53: `uart_send`, eight compare events, frame 2's load, eight more, the character's end. -/
theorem characterOnTheWire : Obligations.CharacterOnTheWire := by
  intro s b hp hf he hu hs ho hg hslot
  have first : Transmitting (started b s) :=
    ⟨rfl, rfl, rfl, rfl, rfl, hg, (fgHeld_eq_false.mp hf).1, hslot, ho, he, hs⟩
  obtain ⟨w, hw, due1, wire1, state1, env1, sda1, next1⟩ := first.frame
  obtain ⟨u, load, hload, -⟩ := handlerLoadsSecondFrame w (frame2 b) due1 state1 env1 sda1
  have second : Transmitting u := by rw [hload]; exact { next1 with }
  obtain ⟨x, hx, due2, wire2, state2, env2, -, next2⟩ := second.frame
  obtain ⟨v, last, hlast, -⟩ := handlerEndsTheCharacter x due2 (by rw [state2, hload]) env2
  have wire : v.wireTrace = s.wireTrace ++ true :: framedCharacter b ++ List.replicate 5 true :=
    calc v.wireTrace = u.wireTrace ++ bitsMsbFirst u.sr := by rw [hlast, ← wire2]
      _ = s.wireTrace ++ bitsMsbFirst (frame1 b) ++ bitsMsbFirst (frame2 b) := by rw [hload, wire1]; rfl
      _ = s.wireTrace ++ (true :: framedCharacter b ++ List.replicate 5 true) := by
        rw [List.append_assoc, bitsMsbFirst_frames]
      _ = _ := (List.append_assoc ..).symm
  have off : LatencyOk v := by rw [hlast]; exact ⟨next2.noHandler, nofun⟩
  refine ⟨started b s, u, v, uartSendStartsFromIdle s b hp hf he hu hs, first.latencyOk, hw.symm ▸ load, ?_,
    second.latencyOk, hx.symm ▸ last, ?_, ?_, ?_, ?_, off, wire⟩
  · rw [hload]
  all_goals rw [hlast]

end Sys2Proof.Machine


/-! The interrupt between the foreground's steps: a handler run under every schedule of the other agents (R195, R196),
and who moves next where no hardware event waits (R193, R194). -/

namespace Sys2Proof.Machine

/-! ### A handler run whatever the other agents do -/

theorem handlerPending_kept (f2 : Byte) (s : State) : KeptByHandler s (handlerPending f2 s) := by
  simp [KeptByHandler, handlerPending]

theorem handlerAwaiting_kept (s : State) : KeptByHandler s (handlerAwaiting s) := by
  simp [KeptByHandler, handlerAwaiting]

/-- Where the timer is not the shift clock, no compare event in the instant after a handler's step raises the flag. -/
theorem isrStep_ovf_off {f : State → State} {s : State} (h : (f s).clksrc ≠ .timer) :
    (isrStep f s).ovf = (f s).ovf := by
  have clock : (observe s (f s)).clksrc ≠ .timer := by simpa using h
  obtain ⟨-, -, flag⟩ := slot_off clock
  rw [isrStep, flag, observe_ovf]

/-- The handler of R169 stops the clock before it clears the flag, so the flag is still clear when it returns. -/
theorem handlerAwaiting_ovf (s : State) : (handlerAwaiting s).ovf = false := by
  rw [handlerAwaiting, isrStep_ovf_off (by simp), interruptReturn_ovf, isrStep_ovf_off (by simp), isrIdle_ovf,
    isrStep_ovf_off (by simp), isrClearFlag_ovf]

/-- Settles O52: the run that `UART_STATE` selects, and the control registers it leaves. -/
theorem interruptResumesForegroundUnchanged : Obligations.InterruptResumesForegroundUnchanged := by
  intro s h busy
  cases hu : s.uartState with
  | idle => exact absurd hu busy
  | pendingByte f2 =>
    have c := handlerPending_control f2 s
    exact ⟨_, exec_usiOvfIrq_pending h hu, handlerPending_kept f2 s, c.inIsr, c.gie,
      fun _ _ => ⟨c.uartState, c.ovie, c.clksrc, c.txdSrc⟩, nofun⟩
  | awaitingStop =>
    have c := handlerAwaiting_control s
    exact ⟨_, exec_usiOvfIrq_awaiting h hu, handlerAwaiting_kept s, c.inIsr, c.gie, nofun,
      fun _ => ⟨c.uartState, c.ovie, c.clksrc, c.txdSrc, handlerAwaiting_ovf s⟩⟩

/-! ### Whose move is next -/

/-- Inside an operation `FG` goes on where nothing holds it and no hardware event heads the waiting requests; other
requests wait until it has left the operation. -/
theorem nextMove_resume {s : State} (hf : fgHeld s = false) (hfg : s.fg ≠ [])
    (hr : ∀ r ∈ s.requests.head?, r.origin ≠ .hardware) : nextMove s = .resume := by
  obtain ⟨hisr, hirq⟩ : s.inIsr = false ∧ irqPending s = false := by simpa [fgHeld] using hf
  have goesOn : ∀ m, fgMove s m = .resume := fun m => by simp [fgMove, hisr, hirq, hfg]
  unfold nextMove
  split
  · exact goesOn _
  · next r rest hs => rw [if_neg (hr r (by simp [hs])), goesOn]

theorem step_resume {s : State} (h : nextMove s = .resume) : step s = .next (slot (callerTurn (resume s))) := by
  simp [step, h, settle]

/-- `FG` is held where the handler executes (R38), and where the condition of R193 holds but for `IN_ISR`. -/
theorem fgHeld_iff (s : State) :
    fgHeld s = true ↔ s.inIsr = true ∨ (s.ovf = true ∧ s.ovie = true ∧ s.gie = true) := by
  unfold fgHeld irqPending
  cases s.inIsr <;> simp [and_assoc]

/-- Settles O6: the interrupt condition decides between the handler and `FG`, and where it holds the caller, which is
`FG` code, has no turn. -/
theorem handlerRunsBeforeForeground : Obligations.HandlerRunsBeforeForeground := by
  refine ⟨fun s hisr hr => ⟨?due, ?undue⟩, fun s h => ?held⟩
  case due =>
    rintro ⟨hovf, hovie, hgie⟩
    exact step_interrupt (nextMove_interrupt ((irqPending_iff s).mpr ⟨hovf, hovie, hgie, hisr⟩) hr)
  case undue =>
    intro hn hfg
    have free : fgHeld s = false := by rw [← Bool.not_eq_true, fgHeld_iff]; simpa [hisr] using hn
    exact step_resume (nextMove_resume free hfg hr)
  case held =>
    have noTurn : callerTurn s = s := callerTurn_due ((fgHeld_iff s).mpr h)
    exact ⟨noTurn, by rw [settle, noTurn]⟩

end Sys2Proof.Machine

/-! Reset and boot (R221, R222): the reset values, the invariants at reset, and what the boot lines leave whatever the
other agents do meanwhile. -/

namespace Sys2Proof.Machine

/-! ### Reset -/

/-- Settles O14: `SCL` and `SDA` are released, so that `PEER` alone decides what they read. -/
theorem resetIsIdleAndSilent : Obligations.ResetIsIdleAndSilent := by
  intro sda scl
  have released : sclLine { State.reset with peerSdaLow := sda, peerSclLow := scl } = !scl ∧
      sdaLine { State.reset with peerSdaLow := sda, peerSclLow := scl } = !sda := ⟨rfl, rfl⟩
  exact ⟨rfl, rfl, rfl, rfl, rfl, rfl, rfl, rfl, rfl, rfl, rfl, rfl, rfl, rfl, released⟩

theorem reset_beforeBoot : BeforeBoot State.reset := ⟨rfl, rfl, rfl, rfl, nofun, rfl⟩

theorem reset_inv : Inv State.reset where
  memory := reset_memory_wf
  noHalfHandler := rfl
  sections := fun hs => absurd rfl hs
  enabledOnlyBusy := nofun
  clockedOnlyBusy := nofun
  pendingIsSecondFrame := nofun
  position := .inl reset_beforeBoot

theorem reset_exclusive : Exclusive State.reset where
  noHalfHandler := rfl
  transaction := nofun
  uart := uartOwnsWhileBusy_idle rfl rfl nofun
  place := .inr (.inr (.inr ⟨reset_beforeBoot, rfl⟩))

/-- Settles O54: at reset `FG` stands before boot, where both invariants allow it. -/
theorem resetMeetsInvariant : Obligations.ResetMeetsInvariant := ⟨reset_inv, reset_exclusive⟩

/-! ### Boot -/

/-- A boot line writes the same in two states that differ in what the other agents have done. -/
theorem boot_line {l : Line} (hl : l ∈ bootLines) {s t : State} (h : Booting s) (c : LeftAlone s t) :
    ∃ s' t', doLine l s = .go s' ∧ doLine l t = .go t' ∧ Booting s' ∧ LeftAlone s' t' := by
  obtain ⟨hi, ho, hc, hu⟩ := h
  cases l with
  | bootHandle => exact ⟨_, _, rfl, rfl, ⟨hi, ho, hc, hu⟩, { c with periphInit := rfl }⟩
  | bootScl => exact ⟨_, _, rfl, rfl, ⟨hi, ho, hc, hu⟩, { c with sclOut := rfl }⟩
  | bootSda => exact ⟨_, _, rfl, rfl, ⟨hi, ho, hc, hu⟩, { c with sdaOut := rfl }⟩
  | bootTxd => exact ⟨_, _, rfl, rfl, ⟨hi, ho, hc, hu⟩, { c with txdSrc := rfl }⟩
  | bootClock =>
    exact ⟨_, _, rfl, rfl, ⟨hi, ho, nofun, hu⟩,
      { c with clksrc := rfl, sr := fun _ => c.sr hc, cnt := fun _ => c.cnt hc, ovf := fun _ => c.ovf hc }⟩
  | bootMask => exact ⟨_, _, rfl, rfl, ⟨hi, rfl, hc, hu⟩, { c with ovie := rfl }⟩
  | bootFlag => exact ⟨_, _, rfl, rfl, ⟨hi, ho, hc, hu⟩, { c with ovf := fun _ => rfl }⟩
  | bootThreshold => exact ⟨_, _, rfl, rfl, ⟨hi, ho, hc, hu⟩, { c with tcmp := rfl }⟩
  | bootTimer => exact ⟨_, _, rfl, rfl, ⟨hi, ho, hc, hu⟩, { c with tmode := rfl }⟩
  | bootUart => exact ⟨_, _, rfl, rfl, ⟨hi, ho, hc, rfl⟩, { c with uartState := rfl }⟩
  | bootGie => exact ⟨_, _, rfl, rfl, ⟨hi, ho, hc, hu⟩, { c with gie := rfl }⟩
  | _ => simp [bootLines] at hl

/-- The state that lines leave with no instant between them. -/
def writtenBy (ls : List Line) (s : State) : State := ls.foldl (fun s l => (doLine l s).state s) s

theorem writtenBy_bootLines (s : State) : writtenBy bootLines s = booted s := by
  simp only [writtenBy, bootLines, List.foldl_cons, List.foldl_nil, doLine, LineOut.state, bootTakeHandle,
    bootReleaseScl, bootReleaseSda, bootIdleTxd, bootStopClock, bootMaskOverflow, bootClearFlag, bootSetThreshold,
    bootStartTimer, bootIdleUart, bootEnable, booted]

theorem Booting.free {s t : State} (h : Booting s) (c : LeftAlone s t) : fgHeld t = false := by
  obtain ⟨hi, ho, -⟩ := h
  exact fgHeld_eq_false.mpr ⟨c.inIsr.trans hi, by simp [c.ovie.trans ho]⟩

/-- Boot lines are performed to their end, and what lies between them is left alone by the other agents. -/
theorem run_written {ls : List Line} (hls : ∀ l ∈ ls, l ∈ bootLines) {s t : State} (h : Booting s)
    (c : LeftAlone s t) : ∃ u, run none ls t = ⟨none, u, []⟩ ∧ LeftAlone (writtenBy ls s) u := by
  induction ls generalizing s t with
  | nil => exact ⟨t, run_nil none t, c⟩
  | cons l ls ih =>
    obtain ⟨s', t', hs, ht, h', c'⟩ := boot_line (hls l List.mem_cons_self) h c
    obtain ⟨u, hu, cu⟩ := ih (fun k hk => hls k (List.mem_cons_of_mem l hk)) h' (c'.trans (leftAlone_after t t'))
    refine ⟨u, by rw [run_go (h.free c) ht, hu], ?_⟩
    simpa [writtenBy, hs, LineOut.state] using cu

/-- An instant that follows no line. -/
theorem leftAlone_slot (s : State) : LeftAlone s (slot s) := by simpa using leftAlone_after s s

/-- Going on from before boot performs the seven lines, whatever the other agents do meanwhile. -/
theorem resume_boots {s : State} (hfg : s.fg = bootLines) (h : Booting s) :
    LeftAlone (booted { s with fg := [] }) (resume s) := by
  have alone : LeftAlone { s with fg := [] } { s with fg := [] } := by constructor <;> simp
  obtain ⟨t, rt, ct⟩ := run_written (ls := bootLines) (fun _ hl => hl) (s := { s with fg := [] }) h alone
  rw [resume_eq, hfg, performLines_done rt, ← writtenBy_bootLines]
  exact ct

/-- Settles O15: the first step goes on with the boot lines; the caller has listed no store for its turn, and the
instant after it writes none of the registers. -/
theorem bootEstablishesItsSevenLines : Obligations.BootEstablishesItsSevenLines := by
  intro env
  have move : nextMove { State.reset with env := env } = .resume :=
    nextMove_resume rfl (by simp [State.reset, bootLines]) nofun
  have boots : LeftAlone _ (resume { State.reset with env := env }) := resume_boots rfl ⟨rfl, rfl, nofun, rfl⟩
  have noTurn := callerTurn_quiet boots.callerStores
  have c := boots.trans (leftAlone_slot _)
  refine ⟨_, step_resume move, ?_⟩
  rw [noTurn]
  exact ⟨c.periphInit, c.sclOut, c.sdaOut, c.txdSrc, c.clksrc, c.ovie, c.ovf nofun, c.tcmp, c.tmode, c.uartState,
    c.gie, c.fg, c.csSaved, c.inIsr, c.i2cTxn, c.mem⟩

end Sys2Proof.Machine

/-! Hangs (R231, R232): what a step can do while `FG` is inside an operation with interrupts off, and the two waits that
it never leaves. -/

namespace Sys2Proof.Machine

/-! ### A step with interrupts off -/

/-- The control registers, `FG`'s position, `PEER`'s clock level and the schedule are the same in both states. -/
structure Unmoved (s t : State) : Prop where
  control : SameControl s t
  fg : t.fg = s.fg
  peerSclLow : t.peerSclLow = s.peerSclLow
  env : t.env = s.env

theorem Unmoved.refl (s : State) : Unmoved s s := ⟨⟨rfl, rfl, rfl, rfl, rfl, rfl, rfl, rfl⟩, rfl, rfl, rfl⟩

theorem unmoved_compareEvent (s : State) : Unmoved s (observe s (compareEvent s)) :=
  ⟨sameControl_compareEvent s, by simp, by simp, by simp⟩

section
variable {s t : State} (hfg : s.fg ≠ []) (hg : s.gie = false)
include hg

theorem irqPending_off : irqPending s = false := by simp [irqPending, hg]

theorem takeInterrupt_off (ht : takeInterrupt s = .next t) : t = s := by
  rcases takeInterrupt_next ht with ⟨-, rfl⟩ | ⟨hp, -⟩ | ⟨hp, -⟩
  · rfl
  all_goals simp [irqPending_off hg] at hp

/-- An event with interrupts off: a compare event writes none of these registers, and the handler is not due. -/
theorem event_unmoved {i : Instr} (hi : i.format = .evt) (ht : exec i s = .next t) : Unmoved s t := by
  rcases exec_next ht with ⟨hne, -⟩ | ⟨rfl, -⟩ | ⟨rfl, -⟩ | ⟨b, rfl, -⟩ | ⟨-, rfl⟩ | ⟨-, ht⟩
  · exact absurd hi hne
  · cases hi
  · cases hi
  · cases hi
  · exact unmoved_compareEvent s
  · rw [takeInterrupt_off hg ht]; exact .refl s

include hfg

/-- Inside an operation with interrupts off a step is `FG` going on, or moves nothing of `FG`. -/
theorem step_closed (hs : step s = .next t) : ∃ u, t = slot (callerTurn u) ∧ (u = resume s ∨ Unmoved s u) := by
  obtain ⟨u, rfl, ⟨r, rest, i, -, -, -, hform, ho, hx⟩ | ⟨hp, -⟩ | ⟨-, -, rfl⟩ | rfl⟩ := step_next hs
  · have hw : r.origin = .hardware := ho.resolve_right fun ⟨_, hnil⟩ => hfg hnil
    have m : Unmoved (take r rest s) u := event_unmoved hg (by rw [hform, hw]; rfl) hx
    exact ⟨u, rfl, .inr { m with control := { m.control with } }⟩
  · simp [irqPending_off hg] at hp
  · exact ⟨_, rfl, .inl rfl⟩
  · exact ⟨_, rfl, .inr (.refl _)⟩

/-- With no request waiting `FG` goes on. -/
theorem exists_step_closed (hi : s.inIsr = false) (hr : s.requests = []) : ∃ t, step s = .next t :=
  ⟨_, step_resume (nextMove_resume (fgHeld_eq_false.mpr ⟨hi, by simp [hg]⟩) hfg (by simp [hr]))⟩

end

/-! ### A `PEER` that never releases `SCL` (R231) -/

section
variable {s : State} (h : HungOnScl s)
include h

theorem HungOnScl.inside : s.fg ≠ [] := by
  obtain ⟨⟨ls, hls | hls⟩, -⟩ := h <;> simp [hls]

/-- Each of the two waits finds `SCL` low. -/
theorem HungOnScl.waits : resume s = s := by
  obtain ⟨⟨ls, hls⟩, held, hg, hi⟩ := h
  have low : sclLine s = false := sclHeld_scl held
  have free : fgHeld s = false := fgHeld_eq_false.mpr ⟨hi, by simp [hg]⟩
  rcases hls with hls | hls
  · exact resume_of_stays (hls ▸ run_waitScl_low (s := { s with fg := [] }) free low ls)
  · exact resume_of_stays (hls ▸ run_riseSample_low (s := { s with fg := [] }) free low ls)

/-- What leaves `FG`, the control registers and `PEER` as they were leaves the hang, and so does what follows a step. -/
theorem HungOnScl.settled {u : State} (m : Unmoved s u) : HungOnScl (slot (callerTurn u)) := by
  obtain ⟨place, held, hg, hi⟩ := h
  have c := sameControl_settled u
  refine ⟨by simpa [m.fg] using place, sclHeld_slot (sclHeld_congr ?_ ?_ held), c.gie.trans (m.control.gie.trans hg),
    c.inIsr.trans (m.control.inIsr.trans hi)⟩
  · rw [callerTurn_peerSclLow, m.peerSclLow]
  · rw [callerTurn_env, m.env]

end

/-- Settles O59: `FG`'s own step leaves it at the wait, and no other step moves it or lets `SCL` go. -/
theorem sclHeldLowHangsForever : Obligations.SclHeldLowHangsForever := by
  intro s h
  have ⟨_, _, hg, hi⟩ := h
  refine ⟨fun t hs => ?_, exists_step_closed h.inside hg hi⟩
  obtain ⟨u, rfl, hu⟩ := step_closed h.inside hg hs
  have m : Unmoved s u := hu.elim (fun e => by rw [e, h.waits]; exact .refl s) id
  exact ⟨h.settled m, by simp [m.fg], by simp [m.control.csSaved], by simp [m.control.uartState]⟩

/-! ### A check of `Idle` with interrupts off (R232) -/

/-- The check fails with interrupts off: its section's exit leaves them off, so `FG` comes to its head again
whatever the other agents do. -/
theorem run_failedCheck_closed {s : State} (hi : s.inIsr = false) (hg : s.gie = false) (hu : s.uartState ≠ .idle) :
    ∃ t, LeftAlone s t ∧ ∀ ls, run none (failedCheckLines ++ ls) s = ⟨none, t, failedCheckLines ++ ls⟩ := by
  obtain ⟨a, ra, ca⟩ := closed_step (l := .csEnter) (t := enterSection s) hi hg rfl
  have busy : doLine .uartTest a = .go a := by simp [doLine, ca.uartState, hu]
  obtain ⟨b, rb, cb⟩ := closed_step (ca.inIsr.trans hi) ca.gie busy
  have saved : b.csSaved = s.gie :: s.csSaved := cb.csSaved.trans ca.csSaved
  obtain ⟨t, rt, ct⟩ := closed_step (l := .csExit) (t := { b with gie := s.gie, csSaved := s.csSaved })
    (cb.inIsr.trans (ca.inIsr.trans hi)) (cb.gie.trans ca.gie) (by simp [doLine, exitSection, saved])
  have closed : LeftAlone s { b with gie := s.gie, csSaved := s.csSaved } :=
    { ca.trans cb with gie := rfl, csSaved := rfl }
  have k : LeftAlone s t := closed.trans ct
  refine ⟨t, k, fun ls => ?_⟩
  have free : fgHeld t = false := fgHeld_eq_false.mpr ⟨k.inIsr.trans hi, by simp [k.gie, hg]⟩
  show run none (.csEnter :: .uartTest :: .csExit :: .spinBack :: ls) s = _
  rw [ra, rb, rt, run_again free rfl, observe_self]

section
variable {s : State} (h : HungOnIdle s)
include h

theorem HungOnIdle.inside : s.fg ≠ [] := by
  obtain ⟨⟨ls, hls⟩, -⟩ := h
  simp [hls, failedCheckLines]

theorem HungOnIdle.fails : SameControl s (resume s) ∧ (resume s).fg = s.fg := by
  obtain ⟨⟨ls, hls⟩, hu, hg, hi⟩ := h
  obtain ⟨t, k, rt⟩ := run_failedCheck_closed (s := { s with fg := [] }) hi hg hu
  rw [resume_eq, hls, performLines_yield (rt ls), k.fg, List.append_nil]
  exact ⟨{ k.sameControl with }, rfl⟩

theorem HungOnIdle.congr {t : State} (c : SameControl s t) (hfg : t.fg = s.fg) : HungOnIdle t := by
  obtain ⟨place, hu, hg, hi⟩ := h
  exact ⟨hfg ▸ place, c.uartState ▸ hu, c.gie.trans hg, c.inIsr.trans hi⟩

end

/-- Settles O60: `FG`'s own step fails the check again, and no other step moves it or takes the handler that would end
the transmission. -/
theorem idleCheckWithInterruptsOffHangsForever : Obligations.IdleCheckWithInterruptsOffHangsForever := by
  intro s h
  have ⟨_, _, hg, hi⟩ := h
  refine ⟨fun t hs => ?_, exists_step_closed h.inside hg hi⟩
  obtain ⟨u, rfl, hu⟩ := step_closed h.inside hg hs
  obtain ⟨c, hfg⟩ : SameControl s u ∧ u.fg = s.fg := by
    rcases hu with rfl | m
    · exact h.fails
    · exact ⟨m.control, m.fg⟩
  exact ⟨(h.congr c hfg).congr (sameControl_settled u) (by simp), by simp [hfg], by simp [c.uartState]⟩

end Sys2Proof.Machine
